-- ==== Sys2Proof/Word.lean ====
section
/-! DEFINITION. The word types of the Ramolaene architecture (R4): byte, 32-bit register word, 64-bit word and the
32-lane mask of a sheaf. -/

namespace Sys2Proof

/-- One byte of memory (R4). -/
abbrev Byte := BitVec 8
/-- One vector or uniform register (R23, R32). -/
abbrev Word := BitVec 32
/-- An instruction word, an address or a register pair (R4, R254). -/
abbrev DWord := BitVec 64
/-- A set of home lanes, bit l for lane l (R32). -/
abbrev Lanes := BitVec 32

end Sys2Proof
end

