-- ==== Sys2Proof/Syntax.lean ====
section
/-! DEFINITION. The instructions and events of the BX9: one constructor for each row of the operation table. An
instruction constructor carries the common fields of R257 and the fields of its body format (R261), every bit of them,
so that an illegal field value is still an instruction (it raises fault 0x02, R262). An event constructor carries what
chooses the act: which unit, thread group, line or message. -/

namespace Sys2Proof

/-- A 10-bit register field (R10, R259). -/
inductive Reg where
  /-- Vector register, values 0 to 255. -/
  | v (n : Fin 256)
  /-- Uniform register, values 256 to 639. -/
  | s (n : Fin 384)
  /-- Predicate, values 640 to 647. -/
  | p (n : Fin 8)
  /-- Accumulator tile, values 648 to 655: always fault 0x02. -/
  | acc (n : Fin 8)
  /-- Values 656 to 1022: always fault 0x02. -/
  | unassigned (n : Fin 367)
  /-- Value 1023: reads zero, discards writes. -/
  | z
  deriving DecidableEq, Repr

/-- The common fields of an instruction word (R257). -/
structure Common where
  stall : BitVec 4
  sbw : BitVec 3
  gneg : BitVec 1
  gp : BitVec 3
  deriving DecidableEq, Repr

/-- Format A3 (R261). -/
structure A3 where
  d : Reg
  a : Reg
  b : Reg
  mod : BitVec 15
  deriving DecidableEq, Repr

/-- Format A4 (R261). -/
structure A4 where
  d : Reg
  a : Reg
  b : Reg
  c : Reg
  mod : BitVec 5
  deriving DecidableEq, Repr

/-- Format MA (R261). -/
structure MA where
  d : Reg
  addr : Reg
  b : Reg
  off : BitVec 10
  mod : BitVec 5
  deriving DecidableEq, Repr

/-- Format MI (R261). -/
structure MI where
  d : Reg
  mod : BitVec 3
  imm : BitVec 32
  deriving DecidableEq, Repr

/-- Format M (R261). -/
structure MF where
  d : Reg
  addr : Reg
  off : BitVec 16
  mod : BitVec 9
  deriving DecidableEq, Repr

/-- Format B (R261). -/
structure BF where
  off : BitVec 24
  cond : Reg
  mod : BitVec 11
  deriving DecidableEq, Repr

/-- Format S (R261). -/
structure SF where
  d : Reg
  a : Reg
  spec : BitVec 9
  mod : BitVec 16
  deriving DecidableEq, Repr

/-- One constructor for each row of the operation table: instructions first, then the acts of the other agents. -/
inductive Instr where
  /-- Does nothing beyond its stall count; allowed at any position of a clause of any class. (R326) -/
  | nop (c : Common) (f : A3)
  /-- Active lanes whose predicate condition holds move to the target; the other lanes fall through to the next clause header. (R285) -/
  | bra (c : Common) (f : BF)
  /-- All active lanes of the sheaf branch together when the uniform register is nonzero (.nz) or zero (.z). (R285) -/
  | brau (c : Common) (f : BF)
  /-- Each active lane moves to the 64-bit target held in its register pair. (R310) -/
  | jmpi (c : Common) (f : A3)
  /-- Opcode 0x04: writes the link register with the next clause header and jumps to a label. (R288) -/
  | callLabel (c : Common) (f : BF)
  /-- Opcode 0x05: writes the link pair and jumps to each lane's target held in a register pair. (R288) -/
  | callRegister (c : Common) (f : A3)
  /-- Jumps to the target in a register pair, exactly as JMPI does, with a return-prediction hint. (R344) -/
  | ret (c : Common) (f : A3)
  /-- Ends every active lane of the bundle. (R294) -/
  | exit (c : Common) (f : A3)
  /-- Each active lane takes cause 0x60 with %fault set to n and %epc set to the following word. (R229) -/
  | trap (c : Common) (f : MI)
  /-- Ends the bundle and returns its issue slot to the picker at once. (R363) -/
  | yield (c : Common) (f : A3)
  /-- Integer add, 32-bit or 64-bit pair, wrapping or saturating. (R308) -/
  | iadd (c : Common) (f : A3)
  /-- Integer subtract, 32-bit or 64-bit pair, wrapping or saturating. (R308) -/
  | isub (c : Common) (f : A3)
  /-- Low 32 or 64 bits of the integer product. (R308) -/
  | imul (c : Common) (f : A3)
  /-- High 32 bits of the signed 64-bit product. (R308) -/
  | imulhi (c : Common) (f : A3)
  /-- High 32 bits of the unsigned 64-bit product. (R308) -/
  | imulhiU (c : Common) (f : A3)
  /-- Low bits of A·B + C. (R308) -/
  | imad (c : Common) (f : A4)
  /-- Signed minimum. (R308) -/
  | imin (c : Common) (f : A3)
  /-- Unsigned minimum. (R308) -/
  | iminU (c : Common) (f : A3)
  /-- Signed maximum. (R308) -/
  | imax (c : Common) (f : A3)
  /-- Unsigned maximum. (R308) -/
  | imaxU (c : Common) (f : A3)
  /-- Signed magnitude of A, optionally saturated. (R308) -/
  | iabs (c : Common) (f : A3)
  /-- Logical shift left by an unsigned count; the result is 0 when the count is at least the width. (R347) -/
  | shl (c : Common) (f : A3)
  /-- Logical shift right by an unsigned count. (R347) -/
  | shr (c : Common) (f : A3)
  /-- Arithmetic shift right by an unsigned count. (R347) -/
  | sar (c : Common) (f : A3)
  /-- Bitwise AND. (R320) -/
  | lopAnd (c : Common) (f : A3)
  /-- Bitwise OR. (R320) -/
  | lopOr (c : Common) (f : A3)
  /-- Bitwise XOR. (R320) -/
  | lopXor (c : Common) (f : A3)
  /-- Bitwise A AND NOT B. (R320) -/
  | lopAndn (c : Common) (f : A3)
  /-- Extracts a bit field and sign-extends it. (R284) -/
  | bfx (c : Common) (f : A3)
  /-- Extracts a bit field and zero-extends it. (R284) -/
  | bfxU (c : Common) (f : A3)
  /-- Inserts a field into a base value. (R284) -/
  | bfi (c : Common) (f : A4)
  /-- Counts the 1 bits of A. (R320) -/
  | popc (c : Common) (f : A3)
  /-- Counts the leading zero bits of A. (R286) -/
  | clz (c : Common) (f : A3)
  /-- Reverses the 32 bits of A. (R286) -/
  | brev (c : Common) (f : A3)
  /-- Signed compare that writes a predicate in each active lane. (R309) -/
  | icmp (c : Common) (f : A3)
  /-- Unsigned compare that writes a predicate in each active lane. (R309) -/
  | icmpU (c : Common) (f : A3)
  /-- Selects A or B in each lane by a predicate. (R349) -/
  | sel (c : Common) (f : A4)
  /-- Copies a register or pair, broadcasting a uniform source to the lanes. (R321) -/
  | mov (c : Common) (f : A3)
  /-- Writes a 32-bit immediate, or the immediate sign-extended into a pair. (R321) -/
  | movi (c : Common) (f : MI)
  /-- AND of two predicates, each optionally negated. (R328) -/
  | psetAnd (c : Common) (f : A3)
  /-- OR of two predicates, each optionally negated. (R328) -/
  | psetOr (c : Common) (f : A3)
  /-- XOR of two predicates, each optionally negated. (R328) -/
  | psetXor (c : Common) (f : A3)
  /-- FP32 add with sign modifiers and rounding mode. (R295) -/
  | fadd (c : Common) (f : A3)
  /-- FP32 multiply with sign modifiers and rounding mode. (R295) -/
  | fmul (c : Common) (f : A3)
  /-- FP32 fused multiply-add with a single rounding. (R299) -/
  | ffma (c : Common) (f : A4)
  /-- FP32 minimum that returns the operand that is not NaN. (R300) -/
  | fmin (c : Common) (f : A3)
  /-- FP32 minimum that returns the canonical NaN when either operand is NaN. (R300) -/
  | fminNan (c : Common) (f : A3)
  /-- FP32 maximum that returns the operand that is not NaN. (R300) -/
  | fmax (c : Common) (f : A3)
  /-- FP32 maximum that returns the canonical NaN when either operand is NaN. (R300) -/
  | fmaxNan (c : Common) (f : A3)
  /-- Ordered FP32 compare that writes a predicate. (R296) -/
  | fcmp (c : Common) (f : A3)
  /-- Unordered FP32 compare that writes a predicate, true where an operand is NaN. (R296) -/
  | fcmpU (c : Common) (f : A3)
  /-- Packed FP16 add of two halves. (R304) -/
  | hadd2 (c : Common) (f : A3)
  /-- Packed BF16 add of two halves. (R304) -/
  | hadd2Bf (c : Common) (f : A3)
  /-- Packed FP16 multiply of two halves. (R304) -/
  | hmul2 (c : Common) (f : A3)
  /-- Packed BF16 multiply of two halves. (R304) -/
  | hmul2Bf (c : Common) (f : A3)
  /-- Packed FP16 fused multiply-add of two halves. (R304) -/
  | hfma2 (c : Common) (f : A4)
  /-- Packed BF16 fused multiply-add of two halves. (R304) -/
  | hfma2Bf (c : Common) (f : A4)
  /-- Correctly rounded FP32 reciprocal. (R350) -/
  | sfnRcp (c : Common) (f : A3)
  /-- Correctly rounded FP32 reciprocal square root. (R350) -/
  | sfnRsqrt (c : Common) (f : A3)
  /-- Correctly rounded FP32 square root. (R350) -/
  | sfnSqrt (c : Common) (f : A3)
  /-- Correctly rounded FP32 base-2 logarithm. (R350) -/
  | sfnLog2 (c : Common) (f : A3)
  /-- Correctly rounded FP32 power of two. (R350) -/
  | sfnExp2 (c : Common) (f : A3)
  /-- Correctly rounded FP32 sine. (R350) -/
  | sfnSin (c : Common) (f : A3)
  /-- Correctly rounded FP32 cosine. (R350) -/
  | sfnCos (c : Common) (f : A3)
  /-- Opcode 0x4D: converts between two float formats. (R297) -/
  | fcvtFloatFromFloat (c : Common) (f : A3)
  /-- Opcode 0x4E: converts an integer format to a float format. (R297) -/
  | fcvtFloatFromInteger (c : Common) (f : A3)
  /-- Opcode 0x4F: converts a float format to an integer format. (R297) -/
  | fcvtIntegerFromFloat (c : Common) (f : A3)
  /-- Each lane reads the source of the lane at an index within its tile. (R338) -/
  | shflIdx (c : Common) (f : A3)
  /-- Each lane reads the source of the lane l − b within its tile. (R338) -/
  | shflUp (c : Common) (f : A3)
  /-- Each lane reads the source of the lane l + b within its tile. (R338) -/
  | shflDown (c : Common) (f : A3)
  /-- Each lane reads the source of the lane l xor b within its tile. (R338) -/
  | shflXor (c : Common) (f : A3)
  /-- A predicate is true when it holds in every active lane of the tile. (R338) -/
  | voteAll (c : Common) (f : A3)
  /-- A predicate is true when it holds in some active lane of the tile. (R338) -/
  | voteAny (c : Common) (f : A3)
  /-- Gives the mask of active lanes in the tile where the predicate holds. (R338) -/
  | voteBallot (c : Common) (f : A3)
  /-- Wrapping sum over the active lanes of the tile. (R338) -/
  | reduxAdd (c : Common) (f : A3)
  /-- Signed minimum over the active lanes of the tile. (R338) -/
  | reduxMin (c : Common) (f : A3)
  /-- Unsigned minimum over the active lanes of the tile. (R338) -/
  | reduxMinu (c : Common) (f : A3)
  /-- Signed maximum over the active lanes of the tile. (R338) -/
  | reduxMax (c : Common) (f : A3)
  /-- Unsigned maximum over the active lanes of the tile. (R338) -/
  | reduxMaxu (c : Common) (f : A3)
  /-- Delivers the source value of the lowest active lane of each tile. (R338) -/
  | rdfirst (c : Common) (f : A3)
  /-- Sets the sheaf's tile width %part, once per bundle. (R67) -/
  | partn (c : Common) (f : A3)
  /-- Sets the lane's 64-bit bit window and its cursor. (R287) -/
  | bsinit (c : Common) (f : A3)
  /-- Reads n bits at the cursor from the bit window and advances the cursor. (R287) -/
  | bsrd (c : Common) (f : A3)
  /-- Per-lane global load, zero-extended, relaxed or acquire. (R314) -/
  | ld (c : Common) (f : MF)
  /-- Per-lane global load of 8 or 16 bits, sign-extended. (R314) -/
  | ldSx (c : Common) (f : MF)
  /-- First-fault load: only the lowest active lane faults; other faulting lanes clear their predicate. (R317) -/
  | ldff (c : Common) (f : MF)
  /-- One uniform global load for the bundle. (R314) -/
  | ldu (c : Common) (f : MF)
  /-- Uniform global load of 8 or 16 bits, sign-extended. (R314) -/
  | lduSx (c : Common) (f : MF)
  /-- Per-lane scratchpad load from the share of a chosen core. (R314) -/
  | lds (c : Common) (f : MF)
  /-- Per-lane scratchpad load of 8 or 16 bits, sign-extended. (R314) -/
  | ldsSx (c : Common) (f : MF)
  /-- Per-lane global store, relaxed or release. (R355) -/
  | st (c : Common) (f : MF)
  /-- One uniform global store for the bundle. (R355) -/
  | stu (c : Common) (f : MF)
  /-- Per-lane scratchpad store, crib bytes included. (R355) -/
  | sts (c : Common) (f : MF)
  /-- Per-lane read-modify-write on the stook's scratchpad. (R281) -/
  | atoms (c : Common) (f : A3)
  /-- Per-lane atomic wrapping add on an SH range. (R278) -/
  | atomAdd (c : Common) (f : MA)
  /-- Per-lane atomic bitwise AND. (R278) -/
  | atomAnd (c : Common) (f : MA)
  /-- Per-lane atomic bitwise OR. (R278) -/
  | atomOr (c : Common) (f : MA)
  /-- Per-lane atomic bitwise XOR. (R278) -/
  | atomXor (c : Common) (f : MA)
  /-- Per-lane atomic signed minimum. (R278) -/
  | atomMins (c : Common) (f : MA)
  /-- Per-lane atomic unsigned minimum. (R278) -/
  | atomMinu (c : Common) (f : MA)
  /-- Per-lane atomic signed maximum. (R278) -/
  | atomMaxs (c : Common) (f : MA)
  /-- Per-lane atomic unsigned maximum. (R278) -/
  | atomMaxu (c : Common) (f : MA)
  /-- Per-lane atomic exchange; .b64 to the wain aperture makes a copy request. (R278) -/
  | atomXchg (c : Common) (f : MA)
  /-- Starts writing the core's dirty PH lines of the job to the given scope; holds the bundle. (R105) -/
  | publish (c : Common) (f : A3)
  /-- Starts dropping the job's clean PH and RO copies at the given scope; holds the bundle. (R105) -/
  | refresh (c : Common) (f : A3)
  /-- Writes dirty copies of an extent back to home and keeps them. (R106) -/
  | clean (c : Common) (f : MF)
  /-- Drops copies of an extent without writeback. (R106) -/
  | discard (c : Common) (f : MF)
  /-- Starts bringing an extent's lines into their home L3 slices, crediting a crib. (R120) -/
  | tierpf (c : Common) (f : A4)
  /-- Publish, wait for earlier accesses, then refresh for every thread of the bundle. (R137) -/
  | fence (c : Common) (f : A3)
  /-- Reads one described block and delivers its values as FP32 to lanes 0–29. (R157) -/
  | ldblk (c : Common) (f : MF)
  /-- Builds a described block from the FP32 values of the lanes and writes it. (R159) -/
  | stblk (c : Common) (f : MF)
  /-- Looks up the range that contains a VA and writes one item of it. (R89) -/
  | rqry (c : Common) (f : SF)
  /-- Re-quantises a block held in uniform registers to a new scale. (R161) -/
  | reqnt (c : Common) (f : A3)
  /-- Per-lane atomic compare-and-swap. (R278) -/
  | atomCas (c : Common) (f : MA)
  /-- Per-lane atomic FP32 add. (R278) -/
  | atomFadd (c : Common) (f : MA)
  /-- Arrives at a barrier instance and holds the bundle until the instance completes. (R283) -/
  | bar (c : Common) (f : A3)
  /-- Sets a crib's arrival and byte targets and clears its counts. (R110) -/
  | cribset (c : Common) (f : A4)
  /-- Adds arrivals to a crib, as a release at .die. (R110) -/
  | cribarr (c : Common) (f : A3)
  /-- Blocks until a crib's TURN passes a given value. (R110) -/
  | cribwait (c : Common) (f : A3)
  /-- Blocks until a 64-bit counter read at home reaches a target. (R118) -/
  | waitge (c : Common) (f : MF)
  /-- Holds until %dtime reaches a time, then tests a counter. (R119) -/
  | doze (c : Common) (f : A4)
  /-- Holds until a counting wave that started after its issue reports the job quiet. (R217) -/
  | waitquiet (c : Common) (f : A3)
  /-- Arrives at a barrier instance without waiting. (R283) -/
  | barArrive (c : Common) (f : A3)
  /-- Posts a matrix command to the bay's reservation table, or returns 0 when the table is full. (R166) -/
  | mxq (c : Common) (f : A3)
  /-- Posts a drain of a tile to memory, scratchpad or a collective. (R175) -/
  | mxdrain (c : Common) (f : A3)
  /-- Requests n accumulator tiles for the stook, all-or-nothing. (R48) -/
  | acqacc (c : Common) (f : A3)
  /-- Waits for the stook's matrix commands, then returns all its tiles. (R49) -/
  | relacc (c : Common) (f : A3)
  /-- Requests 8n more vector registers per thread for the sheaf. (R47) -/
  | grow (c : Common) (f : A3)
  /-- Returns the sheaf's highest 8n registers to the core. (R47) -/
  | shrink (c : Common) (f : A3)
  /-- Sends bytes as write packets to a memory, scratchpad or multicast destination. (R204) -/
  | put (c : Common) (f : A3)
  /-- Sends read requests for remote bytes to be landed locally. (R204) -/
  | get (c : Common) (f : A3)
  /-- Sends one atomic request to a location named by a destination word. (R333) -/
  | ratom (c : Common) (f : A3)
  /-- Sends an active message that carries a handler index and arguments to a die endpoint. (R204) -/
  | amsg (c : Common) (f : A3)
  /-- Sends a participant's contribution to one chunk of a collective. (R213) -/
  | coll (c : Common) (f : A3)
  /-- Submits a launch record: translates, checks, queues and assigns a launch number or refuses. (R37) -/
  | launch (c : Common) (f : MF)
  /-- Cancels a stook, launch, graph, phase or job of the issuing job. (R50) -/
  | cancel (c : Common) (f : A3)
  /-- Asks the arbor to create child c of a parent node. (R187) -/
  | hypopen (c : Common) (f : A3)
  /-- Sets the thread's %hyp path, orphaning it if the node is refuted. (R186) -/
  | hypset (c : Common) (f : A3)
  /-- Asks the arbor to confirm a node and its ancestors. (R192) -/
  | resolveConfirm (c : Common) (f : A3)
  /-- Asks the arbor to refute a node and its subtree. (R192) -/
  | resolveRefute (c : Common) (f : A3)
  /-- Reads a special register into a register or pair. (R322) -/
  | movs (c : Common) (f : SF)
  /-- Writes %fflags, %epc or %ctl; every other special register faults. (R322) -/
  | movsw (c : Common) (f : SF)
  /-- Clears HACT and RMODE and resumes at %epc as a header or inside a clause. (R229) -/
  | rett (c : Common) (f : A3)
  /-- Ends a thread's or the stook's save: waits for acknowledgements, publishes at .sys, writes the record. (R236) -/
  | saved (c : Common) (f : A3)
  /-- An issue slot chooses a sheaf and forms a bundle at the lead counter, updating ages. (R55) -/
  | bundleStart (core slot tag sheaf : Nat) (merge : Option Nat)
  /-- A variable-latency result lands in its register and its scoreboard slot count drops. (R258) -/
  | resultWriteback (id : Nat)
  /-- A landing packet of a wain copy writes its bytes and credits its crib. (R114) -/
  | wainPacketLand (id k : Nat)
  /-- A copy completes: crib credit, counter increment, follow-on and notify in order. (R115) -/
  | wainCopyComplete (id : Nat)
  /-- The wain posts the follow-on matrix command, waiting for a free table entry. (R168) -/
  | followOnPost (id : Nat)
  /-- Each crib-unit cycle combines the updates to a crib and advances TURN when its targets are met. (R109) -/
  | cribUnitCycle (tag crib : Nat)
  /-- A prefetched line arrives in its home slice and credits its bytes to the crib. (R120) -/
  | tierpfLineArrive (id line : Nat)
  /-- A publish's writebacks are acknowledged and the bundle is released. (R105) -/
  | publishComplete (hold : Nat)
  /-- A refresh has dropped its copies and the bundle is released. (R105) -/
  | refreshComplete (hold : Nat)
  /-- A fence's earlier accesses are acknowledged and its refresh is done; the bundle is released. (R137) -/
  | fenceComplete (hold : Nat)
  /-- Every line of a CLEAN or DISCARD has been handled and its slot clears. (R107) -/
  | cleanDiscardComplete (id : Nat)
  /-- Every participant has arrived or exited, and the threads held at the barrier are released. (R283) -/
  | barInstanceComplete (tag bar : Nat)
  /-- The crib's TURN passes the awaited value and the bundle is released as an acquire. (R110) -/
  | cribwaitRelease (hold : Nat)
  /-- A home read finds the counter at the target, releasing the bundle as an acquire. (R361) -/
  | waitgeRelease (hold : Nat)
  /-- %dtime reaches the DOZE time; the counter is tested, completing or raising 0x20. (R119) -/
  | dozeTimeReached (hold : Nat)
  /-- The core has room and grants a pending GROW in issue order. (R47) -/
  | growGrant (hold : Nat)
  /-- n tiles are free and the request is first in grant order; the tiles are granted zeroed. (R48) -/
  | acqaccGrant (hold : Nat)
  /-- The stook's matrix commands on its tiles have completed, and the tiles are returned. (R49) -/
  | relaccComplete (hold : Nat)
  /-- The context's stores are acknowledged and its PH writes are published at .sys. (R141) -/
  | savedComplete (hold : Nat)
  /-- The ways being converted are empty; they read zero as scratchpad, spw takes its value and the stook is released. (R96) -/
  | spwConversionComplete (core : Nat) (lines : List (Nat × Nat))
  /-- A queue entry frees and a waiting LAUNCH reads the header and is accepted or refused. (R37) -/
  | launchQueueEntryGrant (hold : Nat)
  /-- The launch unit places a ready stook on a bay, clears its resources and refreshes its cores. (R44) -/
  | stookStart (job launch stook die bay tag : Nat)
  /-- A stook's threads have exited and its work has finished; publish, free and increment SCNT. (R43) -/
  | stookComplete (tag : Nat)
  /-- The arbiter chooses an eligible entry and the engine runs up to 16 segments of it. (R170) -/
  | enginePass (die bay : Nat)
  /-- After the accumulation drain the command completes, advancing its counter and crib. (R170) -/
  | matrixCommandComplete (die bay : Nat)
  /-- A reservation-table entry frees for an MXDRAIN that was waiting. (R175) -/
  | mxdrainEntryGrant (hold : Nat)
  /-- All drained rows are visible or accepted; the status word is written and the slot clears. (R175) -/
  | drainComplete (die bay : Nat)
  /-- A load, store, atomic or writeback request executes at its line's home slice. (R123) -/
  | homeAccess (id piece : Nat) (ue : Bool)
  /-- A dirty PH line leaving L1 or L2 by replacement is written back with its byte mask. (R102) -/
  | phReplacementWriteback (l2 : Bool) (unit rng line : Nat)
  /-- In a gleaner slot a memory port copies one line of a sliding share to its new place. (R83) -/
  | slideLine (rng share : Nat)
  /-- In a gleaner slot one line moves with its versions from its old home to its new placement. (R84) -/
  | replaceLine (rng : Nat)
  /-- After the frontier reaches the limit, the new placement is installed and the move is cleared. (R84) -/
  | moveEnd (rng : Nat)
  /-- In a scrubbing slot a port corrects lines and writes the corrected data back. (R251) -/
  | scrubbing (rng line : Nat) (ue : Bool)
  /-- In its retraining slot a channel retrains after an all-bank refresh. (R253) -/
  | hbmRetraining (ch : Nat)
  /-- Telemetry runs in its port and router slots. (R27) -/
  | telemetry
  /-- In arbor merge slots a slice frees refuted versions. (R193) -/
  | arborMergeReclaim (slice : Nat)
  /-- The arbor serves a HYPOPEN in its one order and writes the child path and predicate. (R187) -/
  | hypopenService (arbor : Nat)
  /-- The arbor serves a resolve, updates the tree and sends it to the slices. (R192) -/
  | resolveService (arbor : Nat)
  /-- An L3 slice applies a resolve in service order and acknowledges it. (R192) -/
  | resolveApply (arbor seq slice : Nat)
  /-- Every slice has acknowledged; the status is written, 0x23 is posted and a flatten may start. (R192) -/
  | resolveComplete (arbor seq : Nat)
  /-- In merge slots a slice folds a line's committed versions into base and frees them. (R195) -/
  | flattenFold (arbor rng line : Nat)
  /-- Every slice has finished; the table empties, P is the root, committed %hyp is reset, and held HYPOPENs are served. (R195) -/
  | flattenEnd (arbor : Nat)
  /-- After the free's flatten, the arbor's versions are freed, its number released and held requests answered with 0x22. (R183) -/
  | arborFreeComplete (arbor : Nat)
  /-- A write packet lands at its destination home or scratchpad, credits its crib and is acknowledged. (R199) -/
  | writePacket (msg : Nat)
  /-- A GET read request is checked and served at the target, which injects the responses. (R199) -/
  | readRequest (msg : Nat)
  /-- A read response lands at the local destination and credits its crib. (R199) -/
  | readResponse (msg : Nat)
  /-- An atomic request executes at the target line's home and injects the response. (R333) -/
  | atomicRequest (msg : Nat)
  /-- The atomic response writes the old value to S[d] and clears the slot. (R333) -/
  | atomicResponse (msg : Nat)
  /-- An acknowledgement reaches the issuing interface and is applied to its slot. (R199) -/
  | acknowledgement (msg : Nat)
  /-- An error or unsupported response marks the request's slot failed, or is counted lost. (R207) -/
  | errorResponse (msg : Nat)
  /-- An active message reaches its target die and looks up the handler table. (R206) -/
  | activeMessage (msg : Nat)
  /-- When a bay of the die has room, a one-sheaf handler stook is created with the arguments. (R206) -/
  | handlerStookStart (msg bay tag : Nat)
  /-- A router receives a collective contribution and combines it in the fixed tree. (R211) -/
  | contribution (msg : Nat)
  /-- In a router wave slot one tree level of a counting-wave pass moves the counts. (R215) -/
  | countingWaveSlot (job : Nat)
  /-- The wave verdict reaches the waiting threads; quiet releases WAITQUIET with the lost count. (R217) -/
  | waveVerdict (job : Nat)
  /-- A Dzizin port links up and exchanges accepted feature words with its peer. (R202) -/
  | linkUp (port peerPkg : Nat) (word : DWord)
  /-- A Dzizin port or its peer fails; the router isolates the port and answers its requests with errors. (R208) -/
  | portFailure (port : Nat)
  /-- A switch plane dies; destinations are remapped, losses booked and outstanding requests completed. (R216) -/
  | planeDeath (plane : Nat)
  /-- A host read through a BAR2 window is split into checked line accesses at home. (R88) -/
  | hostWindowRead (fn off len : Nat)
  /-- A host posted write through a BAR2 window is checked and executed at home. (R88) -/
  | hostWindowWrite (fn off : Nat) (bytes : List Byte)
  /-- The driver writes the accepted feature word, kept once per reset. (R2) -/
  | feataccWrite (fn : Nat) (value : DWord)
  /-- A write to HERRCNT clears the host error counter. (R242) -/
  | herrcntWrite (fn : Nat)
  /-- A write to a BAR0 register without behaviour of its own: WINSIZE, MARG, window table, L2MASK, RETRAIN. (R242) -/
  | registerWrite (fn off : Nat) (value : DWord)
  /-- A MOP value that names no command is refused with status 2. (R243) -/
  | mopUnknown (fn : Nat) (op : DWord)
  /-- Command 0x01 makes an empty job in a function and returns its number. (R245) -/
  | createJob (fn : Nat)
  /-- Command 0x02 cancels the job, frees its arbor, deletes its ranges and retires its number. (R245) -/
  | destroyJob (fn : Nat)
  /-- Command 0x03 checks the job block, header and aperture, then starts the root stook. (R245) -/
  | startJob (fn tag bay die : Nat)
  /-- Command 0x10 with MARG6 zero creates a range at the lowest free index, zero-filled. (R73) -/
  | createRange (fn : Nat)
  /-- Command 0x10 with MARG6[63] set changes a named range at one instant. (R77) -/
  | changeRange (fn : Nat)
  /-- Command 0x11 deletes a range of the job. (R73) -/
  | deleteRange (fn : Nat)
  /-- Command 0x12 with MOVE 1 starts sliding shares to the given NBASE values. (R83) -/
  | startSlide (fn : Nat)
  /-- Command 0x12 with MOVE 2 starts a re-place to a new placement. (R84) -/
  | startReplace (fn : Nat)
  /-- Command 0x12 with MOVE 3 starts a rebuild. (R85) -/
  | startRebuild (fn : Nat)
  /-- Command 0x20 loads a wrapped memory key into a key ID. (R243) -/
  | loadKey (fn : Nat)
  /-- Command 0x21 writes back and drops copies under a key and erases it. (R104) -/
  | retireKey (fn : Nat)
  /-- Command 0x30 kind 0 registers the job's template range. (R112) -/
  | registerTemplateRange (fn : Nat)
  /-- Command 0x30 kind 1 registers the job's handler table. (R206) -/
  | registerHandlerTable (fn : Nat)
  /-- Command 0x30 kind 2 registers the job's matrix command range. (R168) -/
  | registerMatrixCommandRange (fn : Nat)
  /-- Command 0x31 operation 0 allots the lowest free arbor to the job. (R183) -/
  | giveArbor (fn : Nat)
  /-- Command 0x31 operation 1 refutes every open node and starts the flatten of the free. (R183) -/
  | freeArbor (fn : Nat)
  /-- Command 0x40 asks for a stook to be parked and saved into a save region. (R234) -/
  | preEmptStook (fn : Nat)
  /-- The pre-emption deadline passes with a thread unparked; the request lapses and threads resume. (R235) -/
  | preemptDeadlineExpiry (tag : Nat)
  /-- All threads parked and the stook's outstanding work drained; thread save routines start. (R236) -/
  | preemptDrainComplete (tag : Nat)
  /-- Command 0x41 places a saved stook, refreshes its cores and runs its restore routine. (R238) -/
  | restoreStook (fn die bay tag : Nat)
  /-- Command 0x42 sets a job's watchdog period. (R240) -/
  | setWatchdogPeriod (fn : Nat)
  /-- Command 0x50 retires a channel and starts rebuilds or re-places of its ranges. (R252) -/
  | retireChannel (fn : Nat)
  /-- A port retires its channel after repeated uncorrectable errors. (R252) -/
  | channelRetireByPort (ch : Nat)
  /-- Command 0x60 writes a signed attestation report. (R249) -/
  | attest (fn : Nat)
  /-- No thread of the job retired an instruction for the watchdog period; the watchdog fires. (R240) -/
  | watchdogExpiry (job : Nat)
  /-- At device reset Gloalvas checks the firmware images and starts those that pass. (R246) -/
  | deviceReset (fwOk arming : Bool)
  /-- A tamper, voltage, clock or rights alarm latches and may erase all keys. (R250) -/
  | alarm (kind : Nat)
  /-- The package draws more than its power cap and the controller lowers core clocks. (R31) -/
  | powerCapExceeded (die num den : Nat)
  /-- The checks that an instruction could not decide at issue are decided: the range walker fills the lookaside after a miss, or the answer comes back from the wain or from a descriptor read. The bundle held at the instruction is then released, or the fault is taken. (R364) -/
  | preciseChecksDecided (core slot : Nat)
  /-- A thread issues a word whose OP is reserved, or belongs to a feature that was not accepted, and takes fault 0x01 with %fault holding the word. (R264) -/
  | reservedOpcode (w : DWord)
  deriving DecidableEq, Repr

end Sys2Proof
end

