-- ==== Sys2Proof/Decode.lean ====
section
/-! DEFINITION. Decoding of instruction words (R254, R257, R261, R263, R264) and, after it, the encoder. Also the
byte-order helpers of the machine (R4). -/

namespace Sys2Proof

/-! ## Bytes and fields -/

/-- The number whose little-endian bytes are given (R4). -/
def leNat : List Byte → Nat
  | [] => 0
  | b :: bs => b.toNat + 256 * leNat bs

/-- The n little-endian bytes of a number (R4). -/
def leBytes : Nat → Nat → List Byte
  | 0, _ => []
  | n + 1, x => BitVec.ofNat 8 x :: leBytes n (x / 256)

/-- Bits [lo + n - 1 : lo] of a word (R4). -/
def bits (w : DWord) (lo n : Nat) : BitVec n := w.extractLsb' lo n

/-- Bits [lo + n - 1 : lo] of a number, as a number. -/
def natBits (x lo n : Nat) : Nat := x / 2 ^ lo % 2 ^ n

/-- The register a 10-bit field names (R10, R259). -/
def Reg.ofBits (x : BitVec 10) : Reg :=
  if h : x.toNat < 256 then .v ⟨x.toNat, h⟩
  else if h : x.toNat < 640 then .s ⟨x.toNat - 256, by omega⟩
  else if h : x.toNat < 648 then .p ⟨x.toNat - 640, by omega⟩
  else if h : x.toNat < 656 then .acc ⟨x.toNat - 648, by omega⟩
  else if h : x.toNat < 1023 then .unassigned ⟨x.toNat - 656, by omega⟩
  else .z

/-- The field value of a register (R10, R259). -/
def Reg.num : Reg → Nat
  | .v n => n.val
  | .s n => 256 + n.val
  | .p n => 640 + n.val
  | .acc n => 648 + n.val
  | .unassigned n => 656 + n.val
  | .z => 1023

/-- The 10-bit field of a register. -/
def Reg.toBits (r : Reg) : BitVec 10 := BitVec.ofNat 10 r.num

/-! ## The decoder -/

/-- The common fields (R257). -/
def common (w : DWord) : Common := ⟨bits w 52 4, bits w 49 3, bits w 48 1, bits w 45 3⟩

/-- The register field whose lowest bit is lo. -/
def regAt (w : DWord) (lo : Nat) : Reg := Reg.ofBits (bits w lo 10)

/-- Body formats of R261. -/
def a3 (w : DWord) : A3 := ⟨regAt w 35, regAt w 25, regAt w 15, bits w 0 15⟩
/-- Format A4 (R261). -/
def a4 (w : DWord) : A4 := ⟨regAt w 35, regAt w 25, regAt w 15, regAt w 5, bits w 0 5⟩
/-- Format MA (R261). -/
def ma (w : DWord) : MA := ⟨regAt w 35, regAt w 25, regAt w 15, bits w 5 10, bits w 0 5⟩
/-- Format MI (R261). -/
def mi (w : DWord) : MI := ⟨regAt w 35, bits w 32 3, bits w 0 32⟩
/-- Format M (R261). -/
def mf (w : DWord) : MF := ⟨regAt w 35, regAt w 25, bits w 9 16, bits w 0 9⟩
/-- Format B (R261). -/
def bf (w : DWord) : BF := ⟨bits w 21 24, regAt w 11, bits w 0 11⟩
/-- Format S (R261). -/
def sf (w : DWord) : SF := ⟨regAt w 35, regAt w 25, bits w 16 9, bits w 0 16⟩

/-- The opcode byte (R257). -/
def opByte (w : DWord) : Nat := (bits w 56 8).toNat

/-- The instruction a word holds: the opcode map of R263, every other value reserved (R264). -/
def decode (w : DWord) : Instr :=
  match opByte w with
  | 0x00 => .nop (common w) (a3 w)
  | 0x01 => .bra (common w) (bf w)
  | 0x02 => .brau (common w) (bf w)
  | 0x03 => .jmpi (common w) (a3 w)
  | 0x04 => .callLabel (common w) (bf w)
  | 0x05 => .callRegister (common w) (a3 w)
  | 0x06 => .ret (common w) (a3 w)
  | 0x07 => .exit (common w) (a3 w)
  | 0x08 => .trap (common w) (mi w)
  | 0x09 => .yield (common w) (a3 w)
  | 0x10 => .iadd (common w) (a3 w)
  | 0x11 => .isub (common w) (a3 w)
  | 0x12 => .imul (common w) (a3 w)
  | 0x13 => .imulhi (common w) (a3 w)
  | 0x14 => .imulhiU (common w) (a3 w)
  | 0x15 => .imad (common w) (a4 w)
  | 0x16 => .imin (common w) (a3 w)
  | 0x17 => .iminU (common w) (a3 w)
  | 0x18 => .imax (common w) (a3 w)
  | 0x19 => .imaxU (common w) (a3 w)
  | 0x1A => .iabs (common w) (a3 w)
  | 0x1B => .shl (common w) (a3 w)
  | 0x1C => .shr (common w) (a3 w)
  | 0x1D => .sar (common w) (a3 w)
  | 0x1E => .lopAnd (common w) (a3 w)
  | 0x1F => .lopOr (common w) (a3 w)
  | 0x20 => .lopXor (common w) (a3 w)
  | 0x21 => .lopAndn (common w) (a3 w)
  | 0x22 => .bfx (common w) (a3 w)
  | 0x23 => .bfxU (common w) (a3 w)
  | 0x24 => .bfi (common w) (a4 w)
  | 0x25 => .popc (common w) (a3 w)
  | 0x26 => .clz (common w) (a3 w)
  | 0x27 => .brev (common w) (a3 w)
  | 0x28 => .icmp (common w) (a3 w)
  | 0x29 => .icmpU (common w) (a3 w)
  | 0x2A => .sel (common w) (a4 w)
  | 0x2B => .mov (common w) (a3 w)
  | 0x2C => .movi (common w) (mi w)
  | 0x2D => .psetAnd (common w) (a3 w)
  | 0x2E => .psetOr (common w) (a3 w)
  | 0x2F => .psetXor (common w) (a3 w)
  | 0x30 => .fadd (common w) (a3 w)
  | 0x31 => .fmul (common w) (a3 w)
  | 0x32 => .ffma (common w) (a4 w)
  | 0x33 => .fmin (common w) (a3 w)
  | 0x34 => .fminNan (common w) (a3 w)
  | 0x35 => .fmax (common w) (a3 w)
  | 0x36 => .fmaxNan (common w) (a3 w)
  | 0x37 => .fcmp (common w) (a3 w)
  | 0x38 => .fcmpU (common w) (a3 w)
  | 0x40 => .hadd2 (common w) (a3 w)
  | 0x41 => .hadd2Bf (common w) (a3 w)
  | 0x42 => .hmul2 (common w) (a3 w)
  | 0x43 => .hmul2Bf (common w) (a3 w)
  | 0x44 => .hfma2 (common w) (a4 w)
  | 0x45 => .hfma2Bf (common w) (a4 w)
  | 0x46 => .sfnRcp (common w) (a3 w)
  | 0x47 => .sfnRsqrt (common w) (a3 w)
  | 0x48 => .sfnSqrt (common w) (a3 w)
  | 0x49 => .sfnLog2 (common w) (a3 w)
  | 0x4A => .sfnExp2 (common w) (a3 w)
  | 0x4B => .sfnSin (common w) (a3 w)
  | 0x4C => .sfnCos (common w) (a3 w)
  | 0x4D => .fcvtFloatFromFloat (common w) (a3 w)
  | 0x4E => .fcvtFloatFromInteger (common w) (a3 w)
  | 0x4F => .fcvtIntegerFromFloat (common w) (a3 w)
  | 0x50 => .shflIdx (common w) (a3 w)
  | 0x51 => .shflUp (common w) (a3 w)
  | 0x52 => .shflDown (common w) (a3 w)
  | 0x53 => .shflXor (common w) (a3 w)
  | 0x54 => .voteAll (common w) (a3 w)
  | 0x55 => .voteAny (common w) (a3 w)
  | 0x56 => .voteBallot (common w) (a3 w)
  | 0x57 => .reduxAdd (common w) (a3 w)
  | 0x58 => .reduxMin (common w) (a3 w)
  | 0x59 => .reduxMinu (common w) (a3 w)
  | 0x5A => .reduxMax (common w) (a3 w)
  | 0x5B => .reduxMaxu (common w) (a3 w)
  | 0x5C => .rdfirst (common w) (a3 w)
  | 0x5D => .partn (common w) (a3 w)
  | 0x5E => .bsinit (common w) (a3 w)
  | 0x5F => .bsrd (common w) (a3 w)
  | 0x60 => .ld (common w) (mf w)
  | 0x61 => .ldSx (common w) (mf w)
  | 0x62 => .ldff (common w) (mf w)
  | 0x63 => .ldu (common w) (mf w)
  | 0x64 => .lduSx (common w) (mf w)
  | 0x65 => .lds (common w) (mf w)
  | 0x66 => .ldsSx (common w) (mf w)
  | 0x67 => .st (common w) (mf w)
  | 0x68 => .stu (common w) (mf w)
  | 0x69 => .sts (common w) (mf w)
  | 0x6A => .atoms (common w) (a3 w)
  | 0x6B => .atomAdd (common w) (ma w)
  | 0x6C => .atomAnd (common w) (ma w)
  | 0x6D => .atomOr (common w) (ma w)
  | 0x6E => .atomXor (common w) (ma w)
  | 0x6F => .atomMins (common w) (ma w)
  | 0x70 => .atomMinu (common w) (ma w)
  | 0x71 => .atomMaxs (common w) (ma w)
  | 0x72 => .atomMaxu (common w) (ma w)
  | 0x73 => .atomXchg (common w) (ma w)
  | 0x74 => .publish (common w) (a3 w)
  | 0x75 => .refresh (common w) (a3 w)
  | 0x76 => .clean (common w) (mf w)
  | 0x77 => .discard (common w) (mf w)
  | 0x78 => .tierpf (common w) (a4 w)
  | 0x79 => .fence (common w) (a3 w)
  | 0x7A => .ldblk (common w) (mf w)
  | 0x7B => .stblk (common w) (mf w)
  | 0x7C => .rqry (common w) (sf w)
  | 0x7D => .reqnt (common w) (a3 w)
  | 0x7E => .atomCas (common w) (ma w)
  | 0x7F => .atomFadd (common w) (ma w)
  | 0x80 => .bar (common w) (a3 w)
  | 0x81 => .cribset (common w) (a4 w)
  | 0x82 => .cribarr (common w) (a3 w)
  | 0x83 => .cribwait (common w) (a3 w)
  | 0x84 => .waitge (common w) (mf w)
  | 0x85 => .doze (common w) (a4 w)
  | 0x86 => .waitquiet (common w) (a3 w)
  | 0x87 => .barArrive (common w) (a3 w)
  | 0x90 => .mxq (common w) (a3 w)
  | 0x91 => .mxdrain (common w) (a3 w)
  | 0x92 => .acqacc (common w) (a3 w)
  | 0x93 => .relacc (common w) (a3 w)
  | 0x94 => .grow (common w) (a3 w)
  | 0x95 => .shrink (common w) (a3 w)
  | 0xA0 => .put (common w) (a3 w)
  | 0xA1 => .get (common w) (a3 w)
  | 0xA2 => .ratom (common w) (a3 w)
  | 0xA3 => .amsg (common w) (a3 w)
  | 0xA4 => .coll (common w) (a3 w)
  | 0xB0 => .launch (common w) (mf w)
  | 0xB1 => .cancel (common w) (a3 w)
  | 0xB4 => .hypopen (common w) (a3 w)
  | 0xB5 => .hypset (common w) (a3 w)
  | 0xB6 => .resolveConfirm (common w) (a3 w)
  | 0xB7 => .resolveRefute (common w) (a3 w)
  | 0xC0 => .movs (common w) (sf w)
  | 0xC1 => .movsw (common w) (sf w)
  | 0xC2 => .rett (common w) (a3 w)
  | 0xC3 => .saved (common w) (a3 w)
  | _ => .reservedOpcode w

/-- Why a byte sequence holds no instruction word. -/
inductive DecodeRefusal where
  /-- Fewer than the eight bytes of an instruction word (R254). -/
  | truncated (bytes : Nat)
  deriving DecidableEq, Repr

/-- The instruction at the head of a byte sequence, with the bytes after it (R254: 8 bytes, little-endian). -/
def decodeBytes (bs : List Byte) : Except DecodeRefusal (Instr × List Byte) :=
  if bs.length < 8 then .error (.truncated bs.length)
  else .ok (decode (BitVec.ofNat 64 (leNat (bs.take 8))), bs.drop 8)

/-- The instruction read from a word numbered as the operation table numbers it: one 64-bit word, stored little-endian
and given to the decoder. -/
def decodeTableWord (nbits w : Nat) : Option Instr :=
  if nbits ≤ 64 then
    match decodeBytes (leBytes 8 (w % 2 ^ nbits)) with
    | .ok (i, _) => some i
    | .error _ => none
  else none

/-! ## The encoder -/

/-- Joins opcode, common fields and a 45-bit body (R257). -/
def assemble (op : BitVec 8) (c : Common) (body : BitVec 45) : DWord :=
  op ++ (c.stall ++ (c.sbw ++ (c.gneg ++ (c.gp ++ body))))

/-- Body of format A3 (R261). -/
def bodyA3 (f : A3) : BitVec 45 := f.d.toBits ++ (f.a.toBits ++ (f.b.toBits ++ f.mod))
/-- Body of format A4 (R261). -/
def bodyA4 (f : A4) : BitVec 45 := f.d.toBits ++ (f.a.toBits ++ (f.b.toBits ++ (f.c.toBits ++ f.mod)))
/-- Body of format MA (R261). -/
def bodyMA (f : MA) : BitVec 45 := f.d.toBits ++ (f.addr.toBits ++ (f.b.toBits ++ (f.off ++ f.mod)))
/-- Body of format MI (R261). -/
def bodyMI (f : MI) : BitVec 45 := f.d.toBits ++ (f.mod ++ f.imm)
/-- Body of format M (R261). -/
def bodyMF (f : MF) : BitVec 45 := f.d.toBits ++ (f.addr.toBits ++ (f.off ++ f.mod))
/-- Body of format B (R261). -/
def bodyBF (f : BF) : BitVec 45 := f.off ++ (f.cond.toBits ++ f.mod)
/-- Body of format S (R261). -/
def bodySF (f : SF) : BitVec 45 := f.d.toBits ++ (f.a.toBits ++ (f.spec ++ f.mod))

/-- The word of an instruction (R257, R261, R263); the acts of other agents have none, and a reserved word encodes as
itself. -/
def encode : Instr → Option DWord
  | .nop c f => some (assemble 0x00#8 c (bodyA3 f))
  | .bra c f => some (assemble 0x01#8 c (bodyBF f))
  | .brau c f => some (assemble 0x02#8 c (bodyBF f))
  | .jmpi c f => some (assemble 0x03#8 c (bodyA3 f))
  | .callLabel c f => some (assemble 0x04#8 c (bodyBF f))
  | .callRegister c f => some (assemble 0x05#8 c (bodyA3 f))
  | .ret c f => some (assemble 0x06#8 c (bodyA3 f))
  | .exit c f => some (assemble 0x07#8 c (bodyA3 f))
  | .trap c f => some (assemble 0x08#8 c (bodyMI f))
  | .yield c f => some (assemble 0x09#8 c (bodyA3 f))
  | .iadd c f => some (assemble 0x10#8 c (bodyA3 f))
  | .isub c f => some (assemble 0x11#8 c (bodyA3 f))
  | .imul c f => some (assemble 0x12#8 c (bodyA3 f))
  | .imulhi c f => some (assemble 0x13#8 c (bodyA3 f))
  | .imulhiU c f => some (assemble 0x14#8 c (bodyA3 f))
  | .imad c f => some (assemble 0x15#8 c (bodyA4 f))
  | .imin c f => some (assemble 0x16#8 c (bodyA3 f))
  | .iminU c f => some (assemble 0x17#8 c (bodyA3 f))
  | .imax c f => some (assemble 0x18#8 c (bodyA3 f))
  | .imaxU c f => some (assemble 0x19#8 c (bodyA3 f))
  | .iabs c f => some (assemble 0x1A#8 c (bodyA3 f))
  | .shl c f => some (assemble 0x1B#8 c (bodyA3 f))
  | .shr c f => some (assemble 0x1C#8 c (bodyA3 f))
  | .sar c f => some (assemble 0x1D#8 c (bodyA3 f))
  | .lopAnd c f => some (assemble 0x1E#8 c (bodyA3 f))
  | .lopOr c f => some (assemble 0x1F#8 c (bodyA3 f))
  | .lopXor c f => some (assemble 0x20#8 c (bodyA3 f))
  | .lopAndn c f => some (assemble 0x21#8 c (bodyA3 f))
  | .bfx c f => some (assemble 0x22#8 c (bodyA3 f))
  | .bfxU c f => some (assemble 0x23#8 c (bodyA3 f))
  | .bfi c f => some (assemble 0x24#8 c (bodyA4 f))
  | .popc c f => some (assemble 0x25#8 c (bodyA3 f))
  | .clz c f => some (assemble 0x26#8 c (bodyA3 f))
  | .brev c f => some (assemble 0x27#8 c (bodyA3 f))
  | .icmp c f => some (assemble 0x28#8 c (bodyA3 f))
  | .icmpU c f => some (assemble 0x29#8 c (bodyA3 f))
  | .sel c f => some (assemble 0x2A#8 c (bodyA4 f))
  | .mov c f => some (assemble 0x2B#8 c (bodyA3 f))
  | .movi c f => some (assemble 0x2C#8 c (bodyMI f))
  | .psetAnd c f => some (assemble 0x2D#8 c (bodyA3 f))
  | .psetOr c f => some (assemble 0x2E#8 c (bodyA3 f))
  | .psetXor c f => some (assemble 0x2F#8 c (bodyA3 f))
  | .fadd c f => some (assemble 0x30#8 c (bodyA3 f))
  | .fmul c f => some (assemble 0x31#8 c (bodyA3 f))
  | .ffma c f => some (assemble 0x32#8 c (bodyA4 f))
  | .fmin c f => some (assemble 0x33#8 c (bodyA3 f))
  | .fminNan c f => some (assemble 0x34#8 c (bodyA3 f))
  | .fmax c f => some (assemble 0x35#8 c (bodyA3 f))
  | .fmaxNan c f => some (assemble 0x36#8 c (bodyA3 f))
  | .fcmp c f => some (assemble 0x37#8 c (bodyA3 f))
  | .fcmpU c f => some (assemble 0x38#8 c (bodyA3 f))
  | .hadd2 c f => some (assemble 0x40#8 c (bodyA3 f))
  | .hadd2Bf c f => some (assemble 0x41#8 c (bodyA3 f))
  | .hmul2 c f => some (assemble 0x42#8 c (bodyA3 f))
  | .hmul2Bf c f => some (assemble 0x43#8 c (bodyA3 f))
  | .hfma2 c f => some (assemble 0x44#8 c (bodyA4 f))
  | .hfma2Bf c f => some (assemble 0x45#8 c (bodyA4 f))
  | .sfnRcp c f => some (assemble 0x46#8 c (bodyA3 f))
  | .sfnRsqrt c f => some (assemble 0x47#8 c (bodyA3 f))
  | .sfnSqrt c f => some (assemble 0x48#8 c (bodyA3 f))
  | .sfnLog2 c f => some (assemble 0x49#8 c (bodyA3 f))
  | .sfnExp2 c f => some (assemble 0x4A#8 c (bodyA3 f))
  | .sfnSin c f => some (assemble 0x4B#8 c (bodyA3 f))
  | .sfnCos c f => some (assemble 0x4C#8 c (bodyA3 f))
  | .fcvtFloatFromFloat c f => some (assemble 0x4D#8 c (bodyA3 f))
  | .fcvtFloatFromInteger c f => some (assemble 0x4E#8 c (bodyA3 f))
  | .fcvtIntegerFromFloat c f => some (assemble 0x4F#8 c (bodyA3 f))
  | .shflIdx c f => some (assemble 0x50#8 c (bodyA3 f))
  | .shflUp c f => some (assemble 0x51#8 c (bodyA3 f))
  | .shflDown c f => some (assemble 0x52#8 c (bodyA3 f))
  | .shflXor c f => some (assemble 0x53#8 c (bodyA3 f))
  | .voteAll c f => some (assemble 0x54#8 c (bodyA3 f))
  | .voteAny c f => some (assemble 0x55#8 c (bodyA3 f))
  | .voteBallot c f => some (assemble 0x56#8 c (bodyA3 f))
  | .reduxAdd c f => some (assemble 0x57#8 c (bodyA3 f))
  | .reduxMin c f => some (assemble 0x58#8 c (bodyA3 f))
  | .reduxMinu c f => some (assemble 0x59#8 c (bodyA3 f))
  | .reduxMax c f => some (assemble 0x5A#8 c (bodyA3 f))
  | .reduxMaxu c f => some (assemble 0x5B#8 c (bodyA3 f))
  | .rdfirst c f => some (assemble 0x5C#8 c (bodyA3 f))
  | .partn c f => some (assemble 0x5D#8 c (bodyA3 f))
  | .bsinit c f => some (assemble 0x5E#8 c (bodyA3 f))
  | .bsrd c f => some (assemble 0x5F#8 c (bodyA3 f))
  | .ld c f => some (assemble 0x60#8 c (bodyMF f))
  | .ldSx c f => some (assemble 0x61#8 c (bodyMF f))
  | .ldff c f => some (assemble 0x62#8 c (bodyMF f))
  | .ldu c f => some (assemble 0x63#8 c (bodyMF f))
  | .lduSx c f => some (assemble 0x64#8 c (bodyMF f))
  | .lds c f => some (assemble 0x65#8 c (bodyMF f))
  | .ldsSx c f => some (assemble 0x66#8 c (bodyMF f))
  | .st c f => some (assemble 0x67#8 c (bodyMF f))
  | .stu c f => some (assemble 0x68#8 c (bodyMF f))
  | .sts c f => some (assemble 0x69#8 c (bodyMF f))
  | .atoms c f => some (assemble 0x6A#8 c (bodyA3 f))
  | .atomAdd c f => some (assemble 0x6B#8 c (bodyMA f))
  | .atomAnd c f => some (assemble 0x6C#8 c (bodyMA f))
  | .atomOr c f => some (assemble 0x6D#8 c (bodyMA f))
  | .atomXor c f => some (assemble 0x6E#8 c (bodyMA f))
  | .atomMins c f => some (assemble 0x6F#8 c (bodyMA f))
  | .atomMinu c f => some (assemble 0x70#8 c (bodyMA f))
  | .atomMaxs c f => some (assemble 0x71#8 c (bodyMA f))
  | .atomMaxu c f => some (assemble 0x72#8 c (bodyMA f))
  | .atomXchg c f => some (assemble 0x73#8 c (bodyMA f))
  | .publish c f => some (assemble 0x74#8 c (bodyA3 f))
  | .refresh c f => some (assemble 0x75#8 c (bodyA3 f))
  | .clean c f => some (assemble 0x76#8 c (bodyMF f))
  | .discard c f => some (assemble 0x77#8 c (bodyMF f))
  | .tierpf c f => some (assemble 0x78#8 c (bodyA4 f))
  | .fence c f => some (assemble 0x79#8 c (bodyA3 f))
  | .ldblk c f => some (assemble 0x7A#8 c (bodyMF f))
  | .stblk c f => some (assemble 0x7B#8 c (bodyMF f))
  | .rqry c f => some (assemble 0x7C#8 c (bodySF f))
  | .reqnt c f => some (assemble 0x7D#8 c (bodyA3 f))
  | .atomCas c f => some (assemble 0x7E#8 c (bodyMA f))
  | .atomFadd c f => some (assemble 0x7F#8 c (bodyMA f))
  | .bar c f => some (assemble 0x80#8 c (bodyA3 f))
  | .cribset c f => some (assemble 0x81#8 c (bodyA4 f))
  | .cribarr c f => some (assemble 0x82#8 c (bodyA3 f))
  | .cribwait c f => some (assemble 0x83#8 c (bodyA3 f))
  | .waitge c f => some (assemble 0x84#8 c (bodyMF f))
  | .doze c f => some (assemble 0x85#8 c (bodyA4 f))
  | .waitquiet c f => some (assemble 0x86#8 c (bodyA3 f))
  | .barArrive c f => some (assemble 0x87#8 c (bodyA3 f))
  | .mxq c f => some (assemble 0x90#8 c (bodyA3 f))
  | .mxdrain c f => some (assemble 0x91#8 c (bodyA3 f))
  | .acqacc c f => some (assemble 0x92#8 c (bodyA3 f))
  | .relacc c f => some (assemble 0x93#8 c (bodyA3 f))
  | .grow c f => some (assemble 0x94#8 c (bodyA3 f))
  | .shrink c f => some (assemble 0x95#8 c (bodyA3 f))
  | .put c f => some (assemble 0xA0#8 c (bodyA3 f))
  | .get c f => some (assemble 0xA1#8 c (bodyA3 f))
  | .ratom c f => some (assemble 0xA2#8 c (bodyA3 f))
  | .amsg c f => some (assemble 0xA3#8 c (bodyA3 f))
  | .coll c f => some (assemble 0xA4#8 c (bodyA3 f))
  | .launch c f => some (assemble 0xB0#8 c (bodyMF f))
  | .cancel c f => some (assemble 0xB1#8 c (bodyA3 f))
  | .hypopen c f => some (assemble 0xB4#8 c (bodyA3 f))
  | .hypset c f => some (assemble 0xB5#8 c (bodyA3 f))
  | .resolveConfirm c f => some (assemble 0xB6#8 c (bodyA3 f))
  | .resolveRefute c f => some (assemble 0xB7#8 c (bodyA3 f))
  | .movs c f => some (assemble 0xC0#8 c (bodySF f))
  | .movsw c f => some (assemble 0xC1#8 c (bodySF f))
  | .rett c f => some (assemble 0xC2#8 c (bodyA3 f))
  | .saved c f => some (assemble 0xC3#8 c (bodyA3 f))
  | .reservedOpcode w => if (decode w = .reservedOpcode w) then some w else none
  | .bundleStart _ _ _ _ _ => none
  | .resultWriteback _ => none
  | .wainPacketLand _ _ => none
  | .wainCopyComplete _ => none
  | .followOnPost _ => none
  | .cribUnitCycle _ _ => none
  | .tierpfLineArrive _ _ => none
  | .publishComplete _ => none
  | .refreshComplete _ => none
  | .fenceComplete _ => none
  | .cleanDiscardComplete _ => none
  | .barInstanceComplete _ _ => none
  | .cribwaitRelease _ => none
  | .waitgeRelease _ => none
  | .dozeTimeReached _ => none
  | .growGrant _ => none
  | .acqaccGrant _ => none
  | .relaccComplete _ => none
  | .savedComplete _ => none
  | .spwConversionComplete _ _ => none
  | .launchQueueEntryGrant _ => none
  | .stookStart _ _ _ _ _ _ => none
  | .stookComplete _ => none
  | .enginePass _ _ => none
  | .matrixCommandComplete _ _ => none
  | .mxdrainEntryGrant _ => none
  | .drainComplete _ _ => none
  | .homeAccess _ _ _ => none
  | .phReplacementWriteback _ _ _ _ => none
  | .slideLine _ _ => none
  | .replaceLine _ => none
  | .moveEnd _ => none
  | .scrubbing _ _ _ => none
  | .hbmRetraining _ => none
  | .telemetry => none
  | .arborMergeReclaim _ => none
  | .hypopenService _ => none
  | .resolveService _ => none
  | .resolveApply _ _ _ => none
  | .resolveComplete _ _ => none
  | .flattenFold _ _ _ => none
  | .flattenEnd _ => none
  | .arborFreeComplete _ => none
  | .writePacket _ => none
  | .readRequest _ => none
  | .readResponse _ => none
  | .atomicRequest _ => none
  | .atomicResponse _ => none
  | .acknowledgement _ => none
  | .errorResponse _ => none
  | .activeMessage _ => none
  | .handlerStookStart _ _ _ => none
  | .contribution _ => none
  | .countingWaveSlot _ => none
  | .waveVerdict _ => none
  | .linkUp _ _ _ => none
  | .portFailure _ => none
  | .planeDeath _ => none
  | .hostWindowRead _ _ _ => none
  | .hostWindowWrite _ _ _ => none
  | .feataccWrite _ _ => none
  | .herrcntWrite _ => none
  | .registerWrite _ _ _ => none
  | .mopUnknown _ _ => none
  | .createJob _ => none
  | .destroyJob _ => none
  | .startJob _ _ _ _ => none
  | .createRange _ => none
  | .changeRange _ => none
  | .deleteRange _ => none
  | .startSlide _ => none
  | .startReplace _ => none
  | .startRebuild _ => none
  | .loadKey _ => none
  | .retireKey _ => none
  | .registerTemplateRange _ => none
  | .registerHandlerTable _ => none
  | .registerMatrixCommandRange _ => none
  | .giveArbor _ => none
  | .freeArbor _ => none
  | .preEmptStook _ => none
  | .preemptDeadlineExpiry _ => none
  | .preemptDrainComplete _ => none
  | .restoreStook _ _ _ _ => none
  | .setWatchdogPeriod _ => none
  | .retireChannel _ => none
  | .channelRetireByPort _ => none
  | .attest _ => none
  | .watchdogExpiry _ => none
  | .deviceReset _ _ => none
  | .alarm _ => none
  | .powerCapExceeded _ _ _ => none
  | .preciseChecksDecided _ _ => none

/-- The word an instruction was read from: what fault 0x01 reports (R264). -/
def Instr.word (i : Instr) : DWord := (encode i).getD 0

/-- Whether a constructor is an instruction (or a reserved word), not an act of another agent. -/
def Instr.isInstruction (i : Instr) : Bool := (encode i).isSome

/-- The common fields of an instruction. -/
def Instr.common : Instr → Common
  | .nop c _ => c
  | .bra c _ => c
  | .brau c _ => c
  | .jmpi c _ => c
  | .callLabel c _ => c
  | .callRegister c _ => c
  | .ret c _ => c
  | .exit c _ => c
  | .trap c _ => c
  | .yield c _ => c
  | .iadd c _ => c
  | .isub c _ => c
  | .imul c _ => c
  | .imulhi c _ => c
  | .imulhiU c _ => c
  | .imad c _ => c
  | .imin c _ => c
  | .iminU c _ => c
  | .imax c _ => c
  | .imaxU c _ => c
  | .iabs c _ => c
  | .shl c _ => c
  | .shr c _ => c
  | .sar c _ => c
  | .lopAnd c _ => c
  | .lopOr c _ => c
  | .lopXor c _ => c
  | .lopAndn c _ => c
  | .bfx c _ => c
  | .bfxU c _ => c
  | .bfi c _ => c
  | .popc c _ => c
  | .clz c _ => c
  | .brev c _ => c
  | .icmp c _ => c
  | .icmpU c _ => c
  | .sel c _ => c
  | .mov c _ => c
  | .movi c _ => c
  | .psetAnd c _ => c
  | .psetOr c _ => c
  | .psetXor c _ => c
  | .fadd c _ => c
  | .fmul c _ => c
  | .ffma c _ => c
  | .fmin c _ => c
  | .fminNan c _ => c
  | .fmax c _ => c
  | .fmaxNan c _ => c
  | .fcmp c _ => c
  | .fcmpU c _ => c
  | .hadd2 c _ => c
  | .hadd2Bf c _ => c
  | .hmul2 c _ => c
  | .hmul2Bf c _ => c
  | .hfma2 c _ => c
  | .hfma2Bf c _ => c
  | .sfnRcp c _ => c
  | .sfnRsqrt c _ => c
  | .sfnSqrt c _ => c
  | .sfnLog2 c _ => c
  | .sfnExp2 c _ => c
  | .sfnSin c _ => c
  | .sfnCos c _ => c
  | .fcvtFloatFromFloat c _ => c
  | .fcvtFloatFromInteger c _ => c
  | .fcvtIntegerFromFloat c _ => c
  | .shflIdx c _ => c
  | .shflUp c _ => c
  | .shflDown c _ => c
  | .shflXor c _ => c
  | .voteAll c _ => c
  | .voteAny c _ => c
  | .voteBallot c _ => c
  | .reduxAdd c _ => c
  | .reduxMin c _ => c
  | .reduxMinu c _ => c
  | .reduxMax c _ => c
  | .reduxMaxu c _ => c
  | .rdfirst c _ => c
  | .partn c _ => c
  | .bsinit c _ => c
  | .bsrd c _ => c
  | .ld c _ => c
  | .ldSx c _ => c
  | .ldff c _ => c
  | .ldu c _ => c
  | .lduSx c _ => c
  | .lds c _ => c
  | .ldsSx c _ => c
  | .st c _ => c
  | .stu c _ => c
  | .sts c _ => c
  | .atoms c _ => c
  | .atomAdd c _ => c
  | .atomAnd c _ => c
  | .atomOr c _ => c
  | .atomXor c _ => c
  | .atomMins c _ => c
  | .atomMinu c _ => c
  | .atomMaxs c _ => c
  | .atomMaxu c _ => c
  | .atomXchg c _ => c
  | .publish c _ => c
  | .refresh c _ => c
  | .clean c _ => c
  | .discard c _ => c
  | .tierpf c _ => c
  | .fence c _ => c
  | .ldblk c _ => c
  | .stblk c _ => c
  | .rqry c _ => c
  | .reqnt c _ => c
  | .atomCas c _ => c
  | .atomFadd c _ => c
  | .bar c _ => c
  | .cribset c _ => c
  | .cribarr c _ => c
  | .cribwait c _ => c
  | .waitge c _ => c
  | .doze c _ => c
  | .waitquiet c _ => c
  | .barArrive c _ => c
  | .mxq c _ => c
  | .mxdrain c _ => c
  | .acqacc c _ => c
  | .relacc c _ => c
  | .grow c _ => c
  | .shrink c _ => c
  | .put c _ => c
  | .get c _ => c
  | .ratom c _ => c
  | .amsg c _ => c
  | .coll c _ => c
  | .launch c _ => c
  | .cancel c _ => c
  | .hypopen c _ => c
  | .hypset c _ => c
  | .resolveConfirm c _ => c
  | .resolveRefute c _ => c
  | .movs c _ => c
  | .movsw c _ => c
  | .rett c _ => c
  | .saved c _ => c
  | i => Sys2Proof.common i.word

/-- The opcode of an instruction (R263). -/
def Instr.op (i : Instr) : Nat := opByte i.word

end Sys2Proof
end

