-- ==== Sys2Proof/Machine/Fields.lean ====
section
/-! DEFINITION. The field rules of every instruction (R203, R257 to R270 and the reference entries): which register
classes and `MOD` values are legal, which registers an instruction reads and writes, which feature owns it, and whether it
executes once per bundle. -/

namespace Sys2Proof

/-- What the field rules say of one instruction. -/
structure Shape where
  /-- Every field is legal (otherwise fault 0x02, R262). -/
  ok : Bool
  /-- The feature bit that owns the opcode; 0, `BASE`, for none (R3, R264). -/
  feat : Nat
  /-- The feature bits its modifiers need (R3: otherwise fault 0x02). -/
  modFeats : List Nat
  /-- Registers named, in field order: first register and how many (R10, R259). -/
  regs : List (Reg × Nat)
  /-- Those of them that are read at issue (R18). -/
  srcs : List (Reg × Nat)
  /-- Those of them that are written. -/
  dsts : List (Reg × Nat)
  /-- It executes once per bundle with an active lane (R59, R260). -/
  once : Bool
  deriving DecidableEq, Repr

/-- A field bit. -/
def mbit {n : Nat} (m : BitVec n) (i : Nat) : Bool := m.getLsbD i
/-- A field of n bits from bit lo. -/
def mfield {w : Nat} (m : BitVec w) (lo n : Nat) : Nat := natBits m.toNat lo n
/-- No `MOD` bit outside the mask is set (R262). -/
def modOk {n : Nat} (m : BitVec n) (mask : Nat) : Bool := m.toNat &&& mask == m.toNat

/-- A vector register, the first of n (pairs even, quads multiples of 4: R259). -/
def Reg.isV (r : Reg) (n : Nat := 1) : Bool := match r with | .v i => i.val % n == 0 | _ => false
/-- A uniform register, the first of n. -/
def Reg.isU (r : Reg) (n : Nat := 1) : Bool := match r with | .s i => i.val % n == 0 | _ => false
/-- A predicate. -/
def Reg.isP (r : Reg) : Bool := match r with | .p _ => true | _ => false
/-- The `z` field. -/
def Reg.isZ (r : Reg) : Bool := match r with | .z => true | _ => false
/-- A vector or uniform register. -/
def Reg.isVU (r : Reg) (n : Nat := 1) : Bool := r.isV n || r.isU n
/-- The role Reg of R265: vector, uniform or `z`. -/
def Reg.isReg (r : Reg) (n : Nat := 1) : Bool := r.isVU n || r.isZ
/-- A uniform register or `z`. -/
def Reg.isUZ (r : Reg) (n : Nat := 1) : Bool := r.isU n || r.isZ

/-- No slot may be named (R273, R301, R331, R269, R66). -/
def noSlot (c : Common) : Bool := c.sbw == 7#3
/-- A slot must be named. -/
def needSlot (c : Common) : Bool := decide (c.sbw.toNat ≤ 5)
/-- Any slot, or none; 6 is illegal (R257). -/
def anySlot (c : Common) : Bool := c.sbw != 6#3
/-- A uniform destination takes no vector source (R260). -/
def uniOk (d : Reg) (srcs : List Reg) : Bool := !d.isU || srcs.all fun r => !r.isV
/-- Registers an access width moves: one, a pair or a quad (R268). -/
def widRegs (w : Nat) : Nat := if w = 3 then 2 else if w = 4 then 4 else 1
/-- `ORD` and `SCOPE` as R125 permits them. -/
def ordOk (ord scope : Nat) (permitted : List Nat) : Bool := permitted.contains ord && (ord != 0 || scope == 0)

/-- Every register field is `z`, no slot, `MOD` within the mask. -/
def plain (c : Common) (f : A3) (mask : Nat) : Shape :=
  { ok := noSlot c && f.d.isZ && f.a.isZ && f.b.isZ && modOk f.mod mask, feat := 0, modFeats := [], regs := [],
    srcs := [], dsts := [], once := false }
/-- `plain`, executing once per bundle. -/
def plainOnce (c : Common) (f : A3) (mask : Nat) (ok : Bool := true) : Shape :=
  { plain c f mask with ok := (plain c f mask).ok && ok, once := true }
/-- D, A and B of n registers each in the role Reg, fixed latency (R265). A pair begins at an even register (R259), against
a listing of R177 (log entry 117). -/
def alu3 (c : Common) (f : A3) (mask n : Nat) (ok : Bool := true) : Shape :=
  { ok := noSlot c && modOk f.mod mask && ok && f.d.isReg n && f.a.isReg n && f.b.isReg n && uniOk f.d [f.a, f.b],
    feat := 0, modFeats := [], regs := [(f.d, n), (f.a, n), (f.b, n)], srcs := [(f.a, n), (f.b, n)], dsts := [(f.d, n)],
    once := f.d.isU }
/-- D and A in the role Reg, B `z`. -/
def alu2 (c : Common) (f : A3) (mask n : Nat) (slot : Bool) (ok : Bool := true) : Shape :=
  { ok := slot && modOk f.mod mask && ok && f.d.isReg n && f.a.isReg n && f.b.isZ && uniOk f.d [f.a] && anySlot c,
    feat := 0, modFeats := [], regs := [(f.d, n), (f.a, n)], srcs := [(f.a, n)], dsts := [(f.d, n)], once := f.d.isU }
/-- D, A, B and C in the role Reg. -/
def alu4 (c : Common) (f : A4) (mask n : Nat) : Shape :=
  { ok := noSlot c && modOk f.mod mask && f.d.isReg n && f.a.isReg n && f.b.isReg n && f.c.isReg n &&
      uniOk f.d [f.a, f.b, f.c],
    feat := 0, modFeats := [], regs := [(f.d, n), (f.a, n), (f.b, n), (f.c, n)],
    srcs := [(f.a, n), (f.b, n), (f.c, n)], dsts := [(f.d, n)], once := f.d.isU }
/-- A compare into a predicate. -/
def cmp3 (c : Common) (f : A3) (mask n : Nat) : Shape :=
  { ok := noSlot c && modOk f.mod mask && decide (mfield f.mod 0 3 ≤ 5) && f.d.isP && f.a.isReg n && f.b.isReg n,
    feat := 0, modFeats := [], regs := [(f.a, n), (f.b, n)], srcs := [(f.a, n), (f.b, n)], dsts := [(f.d, 1)],
    once := false }
/-- Predicate logic (R328). -/
def pset (c : Common) (f : A3) : Shape :=
  { ok := noSlot c && modOk f.mod 3 && f.d.isP && f.a.isP && f.b.isP, feat := 0, modFeats := [], regs := [],
    srcs := [(f.a, 1), (f.b, 1)], dsts := [(f.d, 1)], once := false }
/-- `FCVT` with its two codes, which need `FP4` for E2M1 (R3, R267). -/
def fcvt (c : Common) (f : A3) (dstFloat srcFloat : Bool) : Shape :=
  let dc := mfield f.mod 12 3
  let sc := mfield f.mod 9 3
  let ok := decide (dc ≤ if dstFloat then 5 else 3) && decide (sc ≤ if srcFloat then 5 else 3) &&
    !(dstFloat && srcFloat && dc == sc)
  { alu2 c f 0x7E03 1 (noSlot c) ok with
    modFeats := if (dstFloat && dc == 5) || (srcFloat && sc == 5) then [10] else [] }
/-- A lane shuffle (R337). -/
def shfl (c : Common) (f : A3) : Shape :=
  let imm := mbit f.mod 14
  { ok := needSlot c && modOk f.mod 0x401F && f.d.isV && f.a.isV && (if imm then f.b.isZ else f.b.isVU), feat := 0,
    modFeats := [], regs := [(f.d, 1), (f.a, 1), (f.b, 1)], srcs := [(f.a, 1), (f.b, 1)], dsts := [(f.d, 1)],
    once := false }
/-- A vote into a predicate (R337). -/
def voteP (c : Common) (f : A3) : Shape :=
  { ok := needSlot c && modOk f.mod 1 && f.d.isP && f.a.isP && f.b.isZ, feat := 0, modFeats := [], regs := [],
    srcs := [(f.a, 1)], dsts := [(f.d, 1)], once := false }
/-- A collective with a vector or uniform destination (R337). -/
def gather (c : Common) (f : A3) (mask : Nat) (srcOk : Bool) : Shape :=
  { ok := needSlot c && modOk f.mod mask && f.d.isVU && srcOk && f.b.isZ, feat := 0, modFeats := [],
    regs := [(f.d, 1), (f.a, 1)], srcs := [(f.a, 1)], dsts := [(f.d, 1)], once := f.d.isU }
/-- A global load (R313). -/
def load (c : Common) (f : MF) (sx uni : Bool) : Shape :=
  let w := mfield f.mod 6 3
  let n := widRegs w
  { ok := anySlot c && decide (w ≤ 4) && (!sx || decide (w ≤ 1)) && modOk f.mod 0x1FC &&
      ordOk (mfield f.mod 4 2) (mfield f.mod 2 2) [0, 1] &&
      (if uni then f.d.isU n && f.addr.isU 2 else f.d.isV n && f.addr.isVU 2),
    feat := 0, modFeats := [], regs := [(f.d, n), (f.addr, 2)], srcs := [(f.addr, 2)], dsts := [(f.d, n)], once := uni }
/-- A global store (R354). -/
def store (c : Common) (f : MF) (uni : Bool) : Shape :=
  let w := mfield f.mod 6 3
  let n := widRegs w
  { ok := anySlot c && decide (w ≤ 4) && modOk f.mod 0x1FC && ordOk (mfield f.mod 4 2) (mfield f.mod 2 2) [0, 2] &&
      (if uni then f.d.isU n && f.addr.isU 2 else f.d.isVU n && f.addr.isVU 2),
    feat := 0, modFeats := [], regs := [(f.d, n), (f.addr, 2)], srcs := [(f.d, n), (f.addr, 2)], dsts := [], once := uni }
/-- A scratchpad load or store (R313, R354). -/
def spadAcc (c : Common) (f : MF) (sx isStore : Bool) : Shape :=
  let w := mfield f.mod 7 2
  let n := widRegs w
  { ok := anySlot c && (!sx || decide (w ≤ 1)) && ordOk (mfield f.mod 5 2) (mfield f.mod 3 2) [0, if isStore then 2 else 1]
      && (mbit f.mod 2 || mfield f.mod 0 2 == 0) && f.d.isV n && f.addr.isV,
    feat := 0, modFeats := [], regs := [(f.d, n), (f.addr, 1)],
    srcs := if isStore then [(f.d, n), (f.addr, 1)] else [(f.addr, 1)], dsts := if isStore then [] else [(f.d, n)],
    once := false }
/-- `ATOM` (R277): `cas` names its compare value in B too; `fadd` is 32-bit only. -/
def atom (c : Common) (f : MA) (cas fadd : Bool) : Shape :=
  let w := if mbit f.mod 4 then 2 else 1
  let nb := if cas then 2 * w else w
  { ok := anySlot c && !(fadd && w == 2) && ordOk (mfield f.mod 2 2) (mfield f.mod 0 2) [0, 1, 2, 3] && f.d.isVU w &&
      f.addr.isVU 2 && f.b.isVU nb && uniOk f.d [f.addr, f.b],
    feat := 0, modFeats := [], regs := [(f.d, w), (f.addr, 2), (f.b, nb)], srcs := [(f.addr, 2), (f.b, nb)],
    dsts := [(f.d, w)], once := f.d.isU }
/-- The op, width, order and scope fields of `ATOMS` and `RATOM` (R205, R268). -/
def rmwModOk (m : BitVec 15) : Bool :=
  let op := mfield m 11 4
  decide (op ≤ 10) && !(op == 10 && mbit m 10) && ordOk (mfield m 8 2) (mfield m 6 2) [0, 1, 2, 3]
/-- Registers of the operand of `ATOMS` and `RATOM`. -/
def rmwOperands (m : BitVec 15) : Nat := (if mfield m 11 4 = 9 then 2 else 1) * (if mbit m 10 then 2 else 1)
/-- Uniform operands only, executed once per bundle. -/
def uniform (ok : Bool) (regs srcs dsts : List (Reg × Nat)) (feat : Nat := 0) : Shape :=
  { ok, feat, modFeats := [], regs, srcs, dsts, once := true }
/-- `CLEAN` and `DISCARD` (R121). -/
def cleanShape (c : Common) (f : MF) : Shape :=
  uniform (anySlot c && f.mod == 0 && f.d.isU && f.addr.isU 2) [] [(f.d, 1), (f.addr, 2)] []

/-- Scope of a special register (R270): width in registers, per-thread, and writable by `MOVSW`. -/
def specInfo (n : Nat) : Option (Nat × Bool × Bool) :=
  match n with
  | 0x000 | 0x001 => some (1, true, false)
  | 0x002 | 0x003 | 0x004 | 0x005 | 0x006 | 0x007 | 0x008 => some (1, false, false)
  | 0x010 | 0x011 | 0x012 | 0x013 | 0x014 | 0x015 | 0x016 | 0x017 => some (1, false, false)
  | 0x020 | 0x021 => some (2, false, false)
  | 0x030 => some (1, true, false)
  | 0x031 => some (1, false, false)
  | 0x032 => some (1, true, true)
  | 0x033 => some (1, true, false)
  | 0x034 => some (1, false, true)
  | 0x035 => some (2, false, false)
  | 0x040 => some (2, true, true)
  | 0x041 => some (1, true, false)
  | 0x042 | 0x043 => some (2, true, false)
  | 0x050 | 0x051 | 0x052 | 0x053 => some (2, false, false)
  | _ => none

/-- `MOVS` (R270, R322). -/
def movsShape (c : Common) (f : SF) : Shape :=
  match specInfo f.spec.toNat with
  | none => { ok := false, feat := 0, modFeats := [], regs := [], srcs := [], dsts := [], once := false }
  | some (n, thread, _) =>
    { ok := noSlot c && f.mod == 0 && f.a.isZ && f.d.isReg n && !(thread && f.d.isU), feat := 0, modFeats := [],
      regs := [(f.d, n)], srcs := [], dsts := [(f.d, n)], once := f.d.isU }
/-- `MOVSW` (R270, R322): `%ctl` from a uniform source, once per bundle. -/
def movswShape (c : Common) (f : SF) : Shape :=
  match specInfo f.spec.toNat with
  | none => { ok := false, feat := 0, modFeats := [], regs := [], srcs := [], dsts := [], once := false }
  | some (n, _, w) =>
    let ctl := f.spec == 0x034
    { ok := noSlot c && f.mod == 0 && f.d.isZ && f.a.isReg n && w && !(ctl && f.a.isV), feat := 0, modFeats := [],
      regs := [(f.a, n)], srcs := [(f.a, n)], dsts := [], once := ctl }

/-- Pair count of an `X2` bit (R265). -/
def x2 {n : Nat} (m : BitVec n) (i : Nat) : Nat := if mbit m i then 2 else 1

/-- The field rules of every instruction, by the table of R265 and the rules it cites. -/
def Instr.shape : Instr → Shape
  | .nop c f | .exit c f | .yield c f => plain c f 0
  | .bra c f => { ok := noSlot c && modOk f.mod 1 && f.cond.isP, feat := 0, modFeats := [], regs := [],
                  srcs := [(f.cond, 1)], dsts := [], once := false }
  | .brau c f => { ok := noSlot c && modOk f.mod 1 && f.cond.isU, feat := 0, modFeats := [], regs := [],
                   srcs := [(f.cond, 1)], dsts := [], once := false }
  | .jmpi c f | .ret c f => { ok := noSlot c && f.mod == 0 && f.d.isZ && f.a.isVU 2 && f.b.isZ, feat := 0, modFeats := [],
                              regs := [(f.a, 2)], srcs := [(f.a, 2)], dsts := [], once := false }
  | .callLabel c f => { ok := noSlot c && f.mod == 0 && f.cond.isVU 2, feat := 0, modFeats := [], regs := [(f.cond, 2)],
                        srcs := [], dsts := [(f.cond, 2)], once := f.cond.isU }
  | .callRegister c f =>
    { ok := noSlot c && f.mod == 0 && f.d.isVU 2 && f.a.isVU 2 && f.b.isZ && uniOk f.d [f.a], feat := 0, modFeats := [],
      regs := [(f.d, 2), (f.a, 2)], srcs := [(f.a, 2)], dsts := [(f.d, 2)], once := f.d.isU }
  | .trap c f => { ok := noSlot c && f.mod == 0 && f.d.isZ, feat := 0, modFeats := [], regs := [], srcs := [], dsts := [],
                   once := false }
  | .iadd c f | .isub c f => alu3 c f 0x6000 (x2 f.mod 14) (!(mbit f.mod 14 && mbit f.mod 13))
  | .imul c f | .imin c f | .iminU c f | .imax c f | .imaxU c f | .shl c f | .shr c f | .sar c f | .lopAnd c f | .lopOr c f
  | .lopXor c f | .lopAndn c f => alu3 c f 0x4000 (x2 f.mod 14)
  | .imulhi c f | .imulhiU c f | .bfx c f | .bfxU c f => alu3 c f 0 1
  | .imad c f => alu4 c f 0x10 (x2 f.mod 4)
  | .iabs c f => alu2 c f 0x2000 1 (noSlot c)
  | .bfi c f => alu4 c f 0 1
  | .popc c f | .clz c f | .brev c f => alu2 c f 0 1 (noSlot c)
  | .icmp c f | .icmpU c f => cmp3 c f 0x4007 (x2 f.mod 14)
  | .sel c f =>
    let n := x2 f.mod 4
    { ok := noSlot c && modOk f.mod 0x18 && f.d.isReg n && f.a.isReg n && f.b.isReg n && f.c.isP && uniOk f.d [f.a, f.b] &&
        (!f.d.isU || f.c == .p 7),
      feat := 0, modFeats := [], regs := [(f.d, n), (f.a, n), (f.b, n)], srcs := [(f.a, n), (f.b, n), (f.c, 1)],
      dsts := [(f.d, n)], once := f.d.isU }
  | .mov c f => alu2 c f 0x4000 (x2 f.mod 14) (noSlot c)
  | .movi c f => { ok := noSlot c && modOk f.mod 1 && f.d.isReg (x2 f.mod 0), feat := 0, modFeats := [],
                   regs := [(f.d, x2 f.mod 0)], srcs := [], dsts := [(f.d, x2 f.mod 0)], once := f.d.isU }
  | .psetAnd c f | .psetOr c f | .psetXor c f => pset c f
  | .fadd c f | .fmul c f => alu3 c f 0x3F 1
  | .ffma c f => alu4 c f 0xF 1
  | .fmin c f | .fminNan c f | .fmax c f | .fmaxNan c f => alu3 c f 0x3C 1
  | .fcmp c f | .fcmpU c f => cmp3 c f 7 1
  | .hadd2 c f | .hadd2Bf c f | .hmul2 c f | .hmul2Bf c f => alu3 c f 3 1
  | .hfma2 c f | .hfma2Bf c f => alu4 c f 3 1
  | .sfnRcp c f | .sfnRsqrt c f | .sfnSqrt c f | .sfnLog2 c f | .sfnExp2 c f | .sfnSin c f | .sfnCos c f =>
    alu2 c f 0 1 true
  | .fcvtFloatFromFloat c f => fcvt c f true true
  | .fcvtFloatFromInteger c f => fcvt c f true false
  | .fcvtIntegerFromFloat c f => fcvt c f false true
  | .shflIdx c f | .shflUp c f | .shflDown c f | .shflXor c f => shfl c f
  | .voteAll c f | .voteAny c f => voteP c f
  | .voteBallot c f => gather c f 1 f.a.isP
  | .reduxAdd c f | .reduxMin c f | .reduxMinu c f | .reduxMax c f | .reduxMaxu c f | .rdfirst c f => gather c f 0 f.a.isV
  | .partn c f => plainOnce c f 7 (decide (mfield f.mod 0 3 ≤ 4))
  | .bsinit c f => { ok := anySlot c && f.mod == 0 && f.d.isZ && f.a.isV 2 && f.b.isV, feat := 0, modFeats := [],
                     regs := [(f.a, 2), (f.b, 1)], srcs := [(f.a, 2), (f.b, 1)], dsts := [], once := false }
  | .bsrd c f =>
    let n := mfield f.mod 0 6
    { ok := noSlot c && modOk f.mod 0x403F && f.d.isV && f.a.isZ &&
        (if mbit f.mod 14 then f.b.isZ && decide (1 ≤ n) && decide (n ≤ 32) else f.b.isV),
      feat := 0, modFeats := [], regs := [(f.d, 1), (f.b, 1)], srcs := [(f.b, 1)], dsts := [(f.d, 1)], once := false }
  | .ld c f => load c f false false
  | .ldSx c f => load c f true false
  | .ldff c f =>
    let w := mfield f.mod 6 3
    let n := widRegs w
    { ok := anySlot c && decide (w ≤ 4) && modOk f.mod 0x1F8 && f.d.isV n && f.addr.isVU 2, feat := 1, modFeats := [],
      regs := [(f.d, n), (f.addr, 2)], srcs := [(f.addr, 2)],
      dsts := [(f.d, n), (.p (Fin.ofNat 8 (mfield f.mod 3 3)), 1)], once := false }
  | .ldu c f => load c f false true
  | .lduSx c f => load c f true true
  | .lds c f => spadAcc c f false false
  | .ldsSx c f => spadAcc c f true false
  | .st c f => store c f false
  | .stu c f => store c f true
  | .sts c f => spadAcc c f false true
  | .atoms c f =>
    let w := if mbit f.mod 10 then 2 else 1
    let nb := rmwOperands f.mod
    { ok := anySlot c && rmwModOk f.mod && modOk f.mod 0x7FF8 && (mbit f.mod 5 || mfield f.mod 3 2 == 0) && f.d.isV w &&
        f.a.isV && f.b.isVU nb,
      feat := 0, modFeats := [], regs := [(f.d, w), (f.a, 1), (f.b, nb)], srcs := [(f.a, 1), (f.b, nb)],
      dsts := [(f.d, w)], once := false }
  | .atomAdd c f | .atomAnd c f | .atomOr c f | .atomXor c f | .atomMins c f | .atomMinu c f | .atomMaxs c f
  | .atomMaxu c f | .atomXchg c f => atom c f false false
  | .atomCas c f => atom c f true false
  | .atomFadd c f => atom c f false true
  | .publish c f | .refresh c f => plainOnce c f 3
  | .fence c f => { plain c f 3 with ok := (plain c f 3).ok && c.gp == 7 && c.gneg == 0 }
  | .clean c f => cleanShape c f
  | .discard c f => cleanShape c f
  | .tierpf c f =>
    uniform (noSlot c && f.mod == 0 && f.d.isZ && f.a.isU 2 && f.b.isU && f.c.isU) [] [(f.a, 2), (f.b, 1), (f.c, 1)] [] 3
  | .ldblk c f =>
    let pl := mfield f.mod 5 3
    { ok := needSlot c && modOk f.mod 0x1E0 && pl != 1 && f.d.isV 2 && f.addr.isU 2, feat := 0,
      modFeats := if pl ≥ 2 then [11] else [], regs := [(f.d, 2), (f.addr, 2)], srcs := [(f.addr, 2)],
      dsts := [(f.d, 2)], once := false }
  | .stblk c f =>
    let s := mfield f.mod 6 3
    let n := if s = 1 ∨ s = 4 then 4 else 2
    { ok := noSlot c && modOk f.mod 0x1F0 && f.d.isV n && f.addr.isU 2, feat := 0,
      modFeats := if s = 4 then [10] else if s = 5 then [11] else [], regs := [(f.d, n), (f.addr, 2)],
      srcs := [(f.d, n), (f.addr, 2)], dsts := [], once := true }
  | .rqry c f =>
    let n := if f.spec.toNat ≤ 1 then 2 else 1
    { ok := needSlot c && f.mod == 0 && decide (f.spec.toNat ≤ 3) && f.d.isVU n && f.a.isVU 2 && uniOk f.d [f.a],
      feat := 0, modFeats := [], regs := [(f.d, n), (f.a, 2)], srcs := [(f.a, 2)], dsts := [(f.d, n)], once := f.d.isU }
  | .reqnt c f =>
    uniform (needSlot c && modOk f.mod 3 && f.d.isU 16 && f.a.isU 16 && f.b.isU) [] [(f.a, 16), (f.b, 1)] [(f.d, 16)]
  | .bar c f | .barArrive c f => plain c f 0xF
  | .cribset c f =>
    uniform (noSlot c && f.mod == 0 && f.d.isZ && f.a.isU && f.b.isU && f.c.isU) [] [(f.a, 1), (f.b, 1), (f.c, 1)] []
  | .cribarr c f | .cribwait c f =>
    uniform (noSlot c && f.mod == 0 && f.d.isZ && f.a.isU && f.b.isU) [] [(f.a, 1), (f.b, 1)] []
  | .waitge c f => uniform (noSlot c && f.mod == 0 && f.d.isU 2 && f.addr.isU 2) [] [(f.d, 2), (f.addr, 2)] []
  | .doze c f =>
    uniform (noSlot c && f.mod == 0 && f.d.isZ && f.a.isU 2 && f.b.isU 2 && f.c.isU 2) []
      [(f.a, 2), (f.b, 2), (f.c, 2)] []
  | .waitquiet c f => uniform (noSlot c && f.mod == 0 && f.d.isU && f.a.isZ && f.b.isZ) [] [] [(f.d, 1)] 7
  | .mxq c f => uniform (needSlot c && f.mod == 0 && f.d.isU && f.a.isU 16 && f.b.isZ) [] [(f.a, 16)] [(f.d, 1)]
  | .mxdrain c f => uniform (needSlot c && f.mod == 0 && f.d.isUZ && f.a.isU 4 && f.b.isZ) [] [(f.a, 4)] [(f.d, 1)]
  | .acqacc c f => plainOnce c f 0xF (decide (1 ≤ mfield f.mod 0 4) && decide (mfield f.mod 0 4 ≤ 8))
  | .relacc c f => plainOnce c f 0
  | .grow c f | .shrink c f => plainOnce c f 0x1F (decide (1 ≤ mfield f.mod 0 5))
  | .put c f =>
    let n := if mbit f.mod 0 then 2 else 1
    uniform (anySlot c && modOk f.mod 1 && f.d.isU 4 && f.a.isU n && f.b.isU) [] [(f.d, 4), (f.a, n), (f.b, 1)] []
  | .get c f =>
    uniform (needSlot c && f.mod == 0 && f.d.isU 4 && f.a.isU 4 && f.b.isU) [] [(f.d, 4), (f.a, 4), (f.b, 1)] []
  | .ratom c f =>
    let w := if mbit f.mod 10 then 2 else 1
    let nb := rmwOperands f.mod
    uniform (needSlot c && rmwModOk f.mod && modOk f.mod 0x7FC0 && f.d.isU w && f.a.isU 4 && f.b.isU nb) []
      [(f.a, 4), (f.b, nb)] [(f.d, w)] 5
  | .amsg c f => uniform (anySlot c && f.mod == 0 && f.d.isU 4 && f.a.isU && f.b.isU) [] [(f.d, 4), (f.b, 1)] [] 6
  | .coll c f =>
    let n := if mbit f.mod 0 then 2 else 1
    uniform (anySlot c && modOk f.mod 1 && f.d.isU n && f.a.isU 2 && f.b.isU) []
      [(f.d, n), (f.a, 2), (f.b, 1)] [] 8
  | .launch c f => uniform (needSlot c && f.mod == 0 && f.d.isU && f.addr.isU 2) [] [(f.addr, 2)] [(f.d, 1)]
  | .cancel c f =>
    uniform (anySlot c && modOk f.mod 7 && decide (mfield f.mod 0 3 ≤ 4) && f.d.isZ && f.a.isU 2 && f.b.isZ) []
      [(f.a, 2)] []
  | .hypopen c f =>
    uniform (needSlot c && modOk f.mod 0xF && f.d.isU && f.a.isU && f.b.isP) [] [(f.a, 1)] [(f.d, 1), (f.b, 1)] 4
  | .hypset c f =>
    { ok := noSlot c && f.mod == 0 && f.d.isZ && f.a.isVU && f.b.isZ, feat := 4, modFeats := [], regs := [(f.a, 1)],
      srcs := [(f.a, 1)], dsts := [], once := false }
  | .resolveConfirm c f | .resolveRefute c f =>
    uniform (needSlot c && f.mod == 0 && f.d.isUZ && f.a.isU && f.b.isZ) [] [(f.a, 1)] [(f.d, 1)] 4
  | .movs c f => movsShape c f
  | .movsw c f => movswShape c f
  | .rett c f => plain c f 0
  | .saved c f => { plain c f 0 with ok := (plain c f 0).ok && c.gp == 7 && c.gneg == 0 }
  | _ => { ok := false, feat := 0, modFeats := [], regs := [], srcs := [], dsts := [], once := false }

/-- A sheaf collective with a uniform destination, legal only while `%part` = 32 (R70). -/
def Instr.wholeSheaf : Instr → Bool
  | .voteBallot _ f | .reduxAdd _ f | .reduxMin _ f | .reduxMinu _ f | .reduxMax _ f | .reduxMaxu _ f | .rdfirst _ f =>
    f.d.isU
  | _ => false

/-- An instruction with a uniform destination or one that executes once per bundle, a `HYPSET` of a uniform path among
them (R59, R306). -/
def Instr.perBundle (i : Instr) : Bool := i.shape.once || match i with | .hypset _ f => f.a.isU | _ => false

end Sys2Proof
end

