-- ==== Sys2Proof/Machine/Flags.lean ====
section
/-! DEFINITION. The five sticky flags of `%fflags` and when a rounding raises them (R151). -/

namespace Sys2Proof.Machine
open Sys2Proof

/-- A set of flags, laid out as `%fflags`[4:0]: NV, DZ, OF, UF, NX from bit 4 down (R151). -/
abbrev Flags := BitVec 5

/-- Invalid (R151). -/
def flagNV : Flags := 16
/-- Division by zero (R151). -/
def flagDZ : Flags := 8
/-- Overflow (R151). -/
def flagOF : Flags := 4
/-- Underflow (R151). -/
def flagUF : Flags := 2
/-- Inexact (R151). -/
def flagNX : Flags := 1

/-- The flags of rounding a finite value to a floating-point format (R151): whether rounding was inexact, whether `sat`
changed the rounded value, whether the exact value is nonzero and the rounded one below the smallest normal. -/
def roundFlags (inexact saturated tiny : Bool) : Flags :=
  (if saturated then flagOF ||| flagNX else 0) ||| (if inexact then flagNX else 0) |||
    (if tiny && (inexact || saturated) then flagUF else 0)

/-- The flags of rounding a finite value to an integer format (R151, R297): clamping sets NV and NX. -/
def intFlags (inexact clamped : Bool) : Flags :=
  (if clamped then flagNV ||| flagNX else 0) ||| (if inexact then flagNX else 0)

end Sys2Proof.Machine
end

