-- ==== Sys2Proof/Machine/Float.lean ====
section
/-! DEFINITION. The plain number formats, exact values, rounding, saturation and the special functions (R147 to R151,
R350 to R352). -/

namespace Sys2Proof.Machine
open Sys2Proof

/-- An exact value: NaN, an infinity, or m · 2^e with a sign, zero included (R147, R148). -/
inductive Val where
  | nan
  | inf (neg : Bool)
  | fin (neg : Bool) (m : Nat) (e : Int)
  deriving DecidableEq, Repr

/-- A floating-point format (R147): exponent and significand bits, bias, magnitude code of the largest finite value,
whether it has infinities, its canonical NaN, and E_f. -/
structure Fmt where
  ebits : Nat
  mbits : Nat
  bias : Int
  maxCode : Nat
  hasInf : Bool
  nan : Nat
  ef : Int
  deriving DecidableEq, Repr

/-- FP32 (R147). -/
def fp32 : Fmt := ⟨8, 23, 127, 0x7F7FFFFF, true, 0x7FC00000, 127⟩
/-- BF16 (R147). -/
def bf16 : Fmt := ⟨8, 7, 127, 0x7F7F, true, 0x7FC0, 127⟩
/-- FP16 (R147). -/
def fp16 : Fmt := ⟨5, 10, 15, 0x7BFF, true, 0x7E00, 15⟩
/-- E5M2 (R147). -/
def e5m2 : Fmt := ⟨5, 2, 15, 0x7B, true, 0x7E, 15⟩
/-- E4M3 (R147): NaN only at S.1111.111, no infinity. -/
def e4m3 : Fmt := ⟨4, 3, 7, 0x7E, false, 0x7F, 8⟩
/-- E2M1 (R147): neither NaN nor infinity; a NaN converts to +0 (R150). -/
def e2m1 : Fmt := ⟨2, 1, 1, 7, false, 0, 2⟩

/-- Rounding directions (R148). -/
inductive Rm where
  | rne | rz | rd | ru
  deriving DecidableEq, Repr

/-- The rounding field (R148). -/
def rmOf (x : Nat) : Rm := match x % 4 with | 0 => .rne | 1 => .rz | 2 => .rd | _ => .ru

/-- The value of an encoding (R147). -/
def decodeF (f : Fmt) (x : Nat) : Val :=
  let neg := x / 2 ^ (f.ebits + f.mbits) % 2 = 1
  let code := x % 2 ^ (f.ebits + f.mbits)
  let ex := code / 2 ^ f.mbits
  let m := code % 2 ^ f.mbits
  if code > f.maxCode then (if f.hasInf && m = 0 then .inf neg else .nan)
  else if ex = 0 then .fin neg m (1 - f.bias - f.mbits)
  else .fin neg (2 ^ f.mbits + m) (ex - f.bias - f.mbits)

/-- The number of bits of a number. -/
def bitLen (n : Nat) : Nat := if n = 0 then 0 else n.log2 + 1

/-- m · 2^e rounded to a multiple of 2^q in direction rm; `sticky` says that the exact value lies just above m. The
result and whether it is inexact. -/
def roundTo (neg : Bool) (m : Nat) (e q : Int) (sticky : Bool) (rm : Rm) : Nat × Bool :=
  if q ≤ e then (m * 2 ^ (e - q).toNat, sticky)
  else
    let k := (q - e).toNat
    let hi := m / 2 ^ k
    let rem := m % 2 ^ k
    let half := 2 ^ (k - 1)
    let inexact := rem != 0 || sticky
    let up := match rm with
      | .rne => decide (rem > half) || (rem == half && (sticky || hi % 2 == 1))
      | .rz => false
      | .rd => neg && inexact
      | .ru => !neg && inexact
    (if up then hi + 1 else hi, inexact)

/-- sat(round(x, F, rm), F) of a finite value, as an encoding with its flags (R148, R149, R151). -/
def roundF (f : Fmt) (neg : Bool) (m : Nat) (e : Int) (sticky : Bool) (rm : Rm) : Nat × Flags :=
  let sgn := if neg then 2 ^ (f.ebits + f.mbits) else 0
  if m = 0 then (sgn, 0) else
  let emin := 1 - f.bias - (f.mbits : Int)
  let q := max ((bitLen m : Int) - (f.mbits + 1) + e) emin
  let (r, inexact) := roundTo neg m e q sticky rm
  let (r, q) := if r = 2 ^ (f.mbits + 1) then (2 ^ f.mbits, q + 1) else (r, q)
  let code := if r < 2 ^ f.mbits then r else ((q - emin).toNat) * 2 ^ f.mbits + r
  let toInf := f.hasInf && (match rm with | .rne => true | .rz => false | .rd => neg | .ru => !neg)
  if code > f.maxCode then
    (sgn + (if toInf then (2 ^ f.ebits - 1) * 2 ^ f.mbits else f.maxCode), roundFlags inexact true false)
  else (sgn + code, roundFlags inexact false (decide (code < 2 ^ f.mbits)))

/-- A value delivered in a floating-point format, with its flags (R150). -/
def encodeF (f : Fmt) (v : Val) (rm : Rm) : Nat × Flags :=
  match v with
  | .nan => (f.nan, if f = e2m1 then flagNV ||| flagNX else 0)
  | .inf neg =>
    let sgn := if neg then 2 ^ (f.ebits + f.mbits) else 0
    if f.hasInf then (sgn + (2 ^ f.ebits - 1) * 2 ^ f.mbits, 0) else (sgn + f.maxCode, flagNV ||| flagNX)
  | .fin neg m e => roundF f neg m e false rm

/-- A finite value rounded to an integer and clamped (R148, R297), as a signed number with its flags. -/
def roundI (lo hi : Int) (neg : Bool) (m : Nat) (e : Int) (rm : Rm) : Int × Flags :=
  let (r, inexact) := roundTo neg m e 0 false rm
  let y : Int := if neg then -(r : Int) else r
  let z := min (max y lo) hi
  (z, intFlags inexact (decide (z ≠ y)))

/-- A value delivered in an integer format (R150). -/
def encodeI (lo hi : Int) (v : Val) (rm : Rm) : Int × Flags :=
  match v with
  | .nan => (0, flagNV ||| flagNX)
  | .inf neg => (if neg then lo else hi, flagNV ||| flagNX)
  | .fin neg m e => roundI lo hi neg m e rm

/-! ## Exact arithmetic with the IEEE special cases (R295, R299) -/

/-- The negated value, NaN included. -/
def Val.neg : Val → Val
  | .nan => .nan
  | .inf s => .inf !s
  | .fin s m e => .fin (!s) m e

/-- m · 2^e scaled to exponent q ≤ e. -/
def scaleTo (m : Nat) (e q : Int) : Nat := m * 2 ^ (e - q).toNat

/-- The signed integer of a finite value at a common exponent. -/
def signedAt (neg : Bool) (m : Nat) (e q : Int) : Int :=
  if neg then -(scaleTo m e q : Int) else scaleTo m e q

/-- An exact sum; an exact zero of two operands not both of one signed zero is +0, or −0 under `.rd` (R295). -/
def addV (rm : Rm) : Val → Val → Val × Flags
  | .nan, _ | _, .nan => (.nan, 0)
  | .inf a, .inf b => if a = b then (.inf a, 0) else (.nan, flagNV)
  | .inf a, _ | _, .inf a => (.inf a, 0)
  | .fin a m e, .fin b n f =>
    if m = 0 ∧ n = 0 then (if a = b then (.fin a 0 0, 0) else (.fin (decide (rm = .rd)) 0 0, 0))
    else
      let q := min e f
      let x := signedAt a m e q + signedAt b n f q
      if x = 0 then (.fin (decide (rm = .rd)) 0 0, 0) else (.fin (decide (x < 0)) x.natAbs q, 0)

/-- An exact product (R295). -/
def mulV : Val → Val → Val × Flags
  | .nan, _ | _, .nan => (.nan, 0)
  | .inf a, .inf b => (.inf (a != b), 0)
  | .inf a, .fin b m _ | .fin b m _, .inf a => if m = 0 then (.nan, flagNV) else (.inf (a != b), 0)
  | .fin a m e, .fin b n f => (.fin (a != b) (m * n) (e + f), 0)

/-- The order of two values that are not NaN: none where either is (R296). Zeros of both signs are equal. -/
def cmpV : Val → Val → Option Ordering
  | .nan, _ | _, .nan => none
  | .inf a, .inf b => some (if a = b then .eq else if a then .lt else .gt)
  | .inf a, .fin _ _ _ => some (if a then .lt else .gt)
  | .fin _ _ _, .inf b => some (if b then .gt else .lt)
  | .fin a m e, .fin b n f => some (compare (signedAt a m e (min e f)) (signedAt b n f (min e f)))

/-- FADD, FMUL and FFMA on values: product, sum, one rounding (R295, R299, R304). -/
def addF (f : Fmt) (rm : Rm) (x y : Val) : Nat × Flags :=
  let (v, fl) := addV rm x y
  let (r, g) := encodeF f v rm
  (r, fl ||| g)
/-- A rounded product (R295). -/
def mulF (f : Fmt) (rm : Rm) (x y : Val) : Nat × Flags :=
  let (v, fl) := mulV x y
  let (r, g) := encodeF f v rm
  (r, fl ||| g)
/-- A fused multiply-add with one rounding, product negated before the sum where asked (R299). -/
def fmaF (f : Fmt) (rm : Rm) (negP : Bool) (x y z : Val) : Nat × Flags :=
  let (p, fp) := mulV x y
  let (v, fl) := addV rm (if negP then p.neg else p) z
  let (r, g) := encodeF f v rm
  (r, fp ||| fl ||| g)

/-! ## The special functions (R350 to R352) -/

/-- Fixed-point precision of the transcendental functions, in bits (log entry 10). -/
def sfnBits : Nat := 512

/-- 1/x for a finite nonzero x: a truncated quotient with its sticky bit. -/
def rcpQ (m : Nat) (e : Int) : Nat × Int × Bool :=
  let k := bitLen m + 40
  (2 ^ k / m, -(k : Int) - e, 2 ^ k % m != 0)

/-- m · 2^e with an even exponent. -/
def evenExp (m : Nat) (e : Int) : Nat × Int := if e % 2 = 0 then (m, e) else (2 * m, e - 1)

/-- √x of a finite positive x. -/
def sqrtQ (m : Nat) (e : Int) : Nat × Int × Bool :=
  let (m, e) := evenExp m e
  let y := m * 2 ^ 64
  let r := Nat.sqrt y
  (r, e / 2 - 32, r * r != y)

/-- 1/√x of a finite positive x. -/
def rsqrtQ (m : Nat) (e : Int) : Nat × Int × Bool :=
  let (m, e) := evenExp m e
  let k := bitLen m + 40
  let r := Nat.sqrt (2 ^ (2 * k) / m)
  (r, -(k : Int) - e / 2, r * r * m != 2 ^ (2 * k))

/-- The next n binary digits of log₂ y for y in [1, 2) in fixed point. -/
def log2Digits : Nat → Nat → Nat → Nat
  | 0, _, acc => acc
  | n + 1, y, acc =>
    let z := y * y / 2 ^ sfnBits
    if z ≥ 2 ^ (sfnBits + 1) then log2Digits n (z / 2) (2 * acc + 1) else log2Digits n z (2 * acc)

/-- log₂ of a finite positive x as a signed fixed-point number of 200 fraction bits; exact when x is a power of two. -/
def log2Q (m : Nat) (e : Int) : Int × Bool :=
  let l := m.log2
  let k : Int := (l : Int) + e
  if m = 2 ^ l then (k * 2 ^ 200, false)
  else
    let y := m * 2 ^ sfnBits / 2 ^ l
    (k * 2 ^ 200 + (log2Digits 200 y 0 : Nat), true)

/-- The product of the 2^(2^−i) for the set bits i of a fraction of n bits, most significant first. -/
def exp2Prod : Nat → Nat → Nat → Nat → Nat
  | 0, _, _, acc => acc
  | n + 1, frac, root, acc =>
    let root := Nat.sqrt (root * 2 ^ sfnBits)
    exp2Prod n frac root (if frac / 2 ^ n % 2 = 1 then acc * root / 2 ^ sfnBits else acc)

/-- 2^x of a finite x: significand, exponent and sticky bit. -/
def exp2Q (neg : Bool) (m : Nat) (e : Int) : Nat × Int × Bool :=
  if m = 0 then (1, 0, false)
  else if (bitLen m : Int) + e > 12 then (2 ^ 100, if neg then -5000 else 5000, true)
  else if (bitLen m : Int) + e < -64 then (if neg then (2 ^ 100 - 1, -100, true) else (2 ^ 100, -100, true))
  else
    let x : Int := if e ≥ -150 then signedAt neg m e (-150) else 0
    let n := x / 2 ^ 150
    let frac := (x % 2 ^ 150).toNat
    if frac = 0 then (1, n, false)
    else (exp2Prod 150 frac (2 * 2 ^ sfnBits) (2 ^ sfnBits), n - sfnBits, true)

/-- Σ of the arctangent series of 1/d in fixed point: n more terms from k on, t the power term. -/
def atanInv : Nat → Nat → Nat → Nat → Int
  | 0, _, _, _ => 0
  | n + 1, d, k, t => (if k % 2 = 0 then 1 else -1) * ((t / (2 * k + 1) : Nat) : Int) + atanInv n d (k + 1) (t / (d * d))

/-- π in fixed point with sfnBits fraction bits (Machin's formula). -/
def piQ : Int := 16 * atanInv 240 5 0 (2 ^ sfnBits / 5) - 4 * atanInv 120 239 0 (2 ^ sfnBits / 239)

/-- A Taylor series of sine (k = 1) or cosine (k = 0) in fixed point: n more terms, t the current one, sq = r². -/
def trigSeries : Nat → Nat → Int → Int → Int
  | 0, _, _, _ => 0
  | n + 1, k, t, sq => t + trigSeries n (k + 2) (-(t * sq) / 2 ^ sfnBits / ((k + 1) * (k + 2) : Nat)) sq

/-- sin x, or cos x, of a finite nonzero x: a signed fixed-point number, never exact (R350). -/
def trigQ (cosine neg : Bool) (m : Nat) (e : Int) : Int :=
  let one : Int := 2 ^ sfnBits
  let x : Int := if (sfnBits : Int) + e ≥ 0 then signedAt neg m e (-(sfnBits : Int)) else 0
  let half := piQ / 2
  let k := (2 * x + half) / (2 * half)
  let r := x - k * half
  let sq := r * r / one
  let quad := (k + (if cosine then 1 else 0)) % 4
  let s := if quad % 2 = 0 then trigSeries 120 1 r sq else trigSeries 120 0 one sq
  if quad < 2 then s else -s

/-- The special functions. -/
inductive Sfn where
  | rcp | rsqrt | sqrt | log2 | exp2 | sin | cos
  deriving DecidableEq, Repr

/-- A special function of an FP32 value, with its flags (R350 to R352). -/
def sfn (fn : Sfn) (x : Val) : Nat × Flags :=
  let nan : Nat × Flags := (fp32.nan, 0)
  let invalid : Nat × Flags := (fp32.nan, flagNV)
  let infinite (neg : Bool) : Nat := (encodeF fp32 (.inf neg) .rne).1
  let out (neg : Bool) (q : Nat × Int × Bool) : Nat × Flags := roundF fp32 neg q.1 q.2.1 q.2.2 .rne
  match fn, x with
  | _, .nan => nan
  | .rcp, .inf neg => ((encodeF fp32 (.fin neg 0 0) .rne).1, 0)
  | .rcp, .fin neg m e => if m = 0 then (infinite neg, flagDZ) else out neg (rcpQ m e)
  | .rsqrt, .inf neg => if neg then invalid else (0, 0)
  | .rsqrt, .fin neg m e =>
    if m = 0 then (infinite neg, flagDZ) else if neg then invalid else out false (rsqrtQ m e)
  | .sqrt, .inf neg => if neg then invalid else (infinite false, 0)
  | .sqrt, .fin neg m e =>
    if m = 0 then encodeF fp32 (.fin neg 0 0) .rne else if neg then invalid else out false (sqrtQ m e)
  | .log2, .inf neg => if neg then invalid else (infinite false, 0)
  | .log2, .fin neg m e =>
    if m = 0 then (infinite true, flagDZ) else if neg then invalid
    else
      let (y, st) := log2Q m e
      out (decide (y < 0)) (if y < 0 && st then y.natAbs - 1 else y.natAbs, -200, st)
  | .exp2, .inf neg => if neg then (0, 0) else (infinite false, 0)
  | .exp2, .fin neg m e => out false (exp2Q neg m e)
  | .sin, .inf _ | .cos, .inf _ => invalid
  | .sin, .fin neg m e =>
    if m = 0 then encodeF fp32 (.fin neg 0 0) .rne
    else let y := trigQ false neg m e; out (decide (y < 0)) (y.natAbs, -(sfnBits : Int), true)
  | .cos, .fin neg m e =>
    if m = 0 then encodeF fp32 (.fin false 1 0) .rne
    else let y := trigQ true neg m e; out (decide (y < 0)) (y.natAbs, -(sfnBits : Int), true)

/-! ## Formats by code (R267) -/

/-- The float format of a code (R267). -/
def fmtOf (c : Nat) : Option Fmt :=
  match c with | 0 => some fp32 | 1 => some bf16 | 2 => some fp16 | 3 => some e5m2 | 4 => some e4m3 | 5 => some e2m1 | _ => none

/-- The width of a float format in bits. -/
def Fmt.width (f : Fmt) : Nat := 1 + f.ebits + f.mbits

/-- The value of an integer as an exact value. -/
def intV (x : Int) : Val := .fin (decide (x < 0)) x.natAbs 0

/-- The FP32 value of a register word. -/
def f32V (w : Word) : Val := decodeF fp32 w.toNat

end Sys2Proof.Machine
end

