-- ==== Sys2Proof/Config.lean ====
section
/-! DEFINITION. What the BX9 leaves open: the free values. Each is a constant without a body, so nothing can be proved of
a particular value of it; the log entry that names it says where the machine uses it. -/

namespace Sys2Proof.Config

/-- Which of two allowed values is taken: old or new (R71), landed or kept (R258), first or second writer (R101).
Applied to the state's free counter. Log entry 2. -/
opaque freePick : Nat → Bool

/-- A byte the architecture does not state. Applied to the state's free counter and a position. Log entry 3. -/
opaque freeByte : Nat → Nat → Byte

/-- A byte of a line read under key material other than the one it was written under (R104): the range index, the line
offset, the stored bytes and the position in the line. Log entry 3. -/
opaque foreignByte : Nat → Nat → List Byte → Nat → Byte

/-- The L3 set of a line, from job, range index, line offset and key (R190: not architected). Taken modulo the sets of a
slice. Log entry 4. -/
opaque l3Set : Nat → Nat → Nat → Nat → Nat

/-- The attestation report (R248, R249) from the digests of the firmware images, the alarm policy, `FEATACC` and the nonce
bytes. Its layout and length are not stated. Log entry 6. -/
opaque attestReport : List (List Byte) → Option Bool → DWord → List Byte → List Byte

/-- How many firmware images there are beside the first. Log entry 106. -/
opaque fwImages : Nat

/-- The SHA3-512 digest of a firmware image as a device reset found it: the number of the reset and of the image (R246).
Log entry 106. -/
opaque fwDigest : Nat → Nat → List Byte

/-- Whether an image passes a check in which some image fails (R246). Log entry 106. -/
opaque fwPass : Nat → Nat → Bool

/-- Whether an alarm of this kind erases the keys under the policy fixed in firmware (R250), where the event does not
say. Log entry 7. -/
opaque armingPolicy : Nat → Bool

/-- How long after the request a wain plans a copy to be complete (R112), in nanoseconds. Applied to the state's free
counter. Log entry 12. -/
opaque planTime : Nat → Nat

end Sys2Proof.Config
end

