-- ==== Sys2Proof/Machine/State.lean ====
section
/-! DEFINITION. Everything the BX9 holds, as plain data, and the machine right after a device reset. -/

namespace Sys2Proof.Machine
open Sys2Proof

/-- Memory in canonical form: addresses strictly rising, no listed byte zero (an unlisted byte reads zero; log entry 1). -/
abbrev Memory := List Host.Cell

/-! ## Ranges (R72 to R85) -/

/-- One share of a placement: a channel table entry (R74). -/
structure Share where
  ch : Nat
  pbase : Nat
  sliding : Bool
  nbase : Nat
  sfront : Nat
  deriving DecidableEq, Repr

/-- A placement: tier, granule code, and the shares of its channel list (R73, R74, R80). -/
structure Placement where
  tier : Nat
  gcode : Nat
  table : Nat
  shares : List Share
  deriving DecidableEq, Repr

/-- The move of a range (R82 to R85). -/
inductive Move where
  | none
  | slide
  | replace (target : Placement)
  | rebuild (target : Placement)
  deriving DecidableEq, Repr

/-- Data classes (R73, R100 to R103). -/
inductive Class where
  | sh
  | ph
  | ro
  deriving DecidableEq, Repr

/-- One entry of the loss list (R251): reason and line offset. -/
structure Loss where
  reason : Nat
  line : Nat
  deriving DecidableEq, Repr

/-- Key material (R247): the key drawn at the n-th device reset, or what 96 wrapped bytes unwrap to (log entry 5). -/
inductive KeyMat where
  | fresh (n : Nat)
  | wrapped (bytes : List Byte)
  deriving DecidableEq, Repr

/-- What the stored bytes from `lo` below `hi` of memory were written under (R77, R247): key material, and the tweaks of
range `rng`, the bytes being those of position `pos` of a placement of `count` shares of granule `granule` whose share
starts at `base` (R80). Without material they stand as they are. -/
structure Seal where
  lo : Nat
  hi : Nat
  mat : Option KeyMat
  rng : Nat
  base : Nat
  granule : Nat
  count : Nat
  pos : Nat
  deriving DecidableEq, Repr

/-- A valid range table entry (R73, R75), with its loss list (R251) and the retired channels that hold shares of it (R252).
`transit` says how far the line at `FRONT` is on its way between two base dies: 1 taken at its old port, 2 past the routers
(R28, R82). -/
structure RangeEnt where
  idx : Nat
  base : Nat
  limit : Nat
  owner : Nat
  key : Nat
  rights : BitVec 7
  cls : Class
  hyp : Bool
  par : Bool
  peer : Option (Nat × Nat)
  place : Placement
  move : Move
  front : Nat
  transit : Nat
  lossVa : Nat
  losses : List Loss
  lossCount : Nat
  lostCh : List Nat
  deriving DecidableEq, Repr

/-! ## Caches and home data (R95 to R106, R188 to R191) -/

/-- A line that a home L3 slice holds, named by job, range, line offset and key (R81, R104), and whether memory still
lacks what was written to it. -/
structure L3Line where
  job : Nat
  rng : Nat
  line : Nat
  key : Nat
  bytes : List Byte
  dirty : Bool
  deriving DecidableEq, Repr

/-- A copy of a line in an L1 (unit: core) or an L2 (unit: die), with byte masks of what it holds and of what is
dirty, the cores whose writes an L2 copy holds, and the way of the L2 that it occupies (R99, R101, R105). -/
structure CacheLine where
  unit : Nat
  rng : Nat
  line : Nat
  key : Nat
  fn : Nat
  job : Nat
  bytes : List Byte
  valid : BitVec 64
  dirty : BitVec 64
  writers : List Nat
  way : Nat
  deriving DecidableEq, Repr

/-- A version of a line under a hypothesis (R190). -/
structure Version where
  arbor : Nat
  rng : Nat
  line : Nat
  key : Nat
  path : Word
  mask : BitVec 64
  bytes : List Byte
  deriving DecidableEq, Repr

/-- One word of a core's instruction cache, for a job, with the key it was fetched under (R104, R272). -/
structure CodeWord where
  core : Nat
  job : Nat
  va : Nat
  key : Nat
  word : DWord
  deriving DecidableEq, Repr

/-- A line of a peer range that an engine, the launch unit or an instruction cache has fetched by a read request and not
yet used (R75): `who` names the reader. Where the fetch has failed, the cause, reason, package and plane it failed with
(R207). -/
structure PeerLine where
  who : Nat
  rng : Nat
  line : Nat
  bytes : List Byte
  failed : Option (Nat × Nat × Nat × Nat)
  deriving DecidableEq, Repr

/-! ## Threads, sheaves and stooks (R32, R46, R53 to R71, R224) -/

/-- What covers a read of a register: the thread's stall sum reaching a value (R16), or an operation having landed. -/
inductive Cover where
  | stalls (n : Nat)
  | op (id : Nat)
  deriving DecidableEq, Repr

/-- A register whose latest write a thread's reads may not yet be covered for, and the value before that write (R71).
Register number 1024 stands for the bit window and, above it, the cursor (R287). -/
structure Pend where
  reg : Nat
  old : Nat
  cover : Cover
  deriving DecidableEq, Repr

/-- How far a thread is in a save or restore (R234 to R238). -/
inductive SaveStage where
  | none
  | parked
  | saving
  | saved
  | stookSaving
  | stookSaved
  | restoring
  | restored
  deriving DecidableEq, Repr

/-- One thread. Its vector registers are the list's entries, as many as the sheaf's allotment. `issued` is the number of
the last issue it took part in (R364). -/
structure Thread where
  pc : DWord
  clause : DWord
  v : List Word
  p : BitVec 8
  age : Nat
  exited : Bool
  held : Option Nat
  readyAt : Nat
  inBundle : Bool
  cnt : Nat
  issued : Nat
  fflags : BitVec 5
  hyp : Word
  orphan : Bool
  window : DWord
  bcur : Nat
  epc : DWord
  fault : DWord
  svarea : DWord
  code : BitVec 8
  cloff : BitVec 5
  async : Bool
  hact : Bool
  rmode : Bool
  pending : List (Nat × DWord)
  arrivals : List Nat
  pend : List Pend
  stage : SaveStage
  spidx : Nat
  deriving DecidableEq, Repr

/-- The mark of a failed slot (R207). -/
structure SlotFail where
  slot : Nat
  cause : Nat
  detail : DWord
  deriving DecidableEq, Repr

/-- One sheaf (R32). `tag` is the residence tag of its stook. -/
structure Sheaf where
  tag : Nat
  index : Nat
  core : Nat
  s : List Word
  part : Nat
  failed : List SlotFail
  threads : List Thread
  deriving DecidableEq, Repr

/-- A kernel header (R231). -/
structure KHdr where
  entry : DWord
  handler : DWord
  sptab : DWord
  ssave : DWord
  srest : DWord
  feat : DWord
  spad : Nat
  ncrib : Nat
  vregs : Nat
  ssz : Nat
  tsz : Nat
  nsp : Nat
  deriving DecidableEq, Repr

/-- A crib (R108), with the unit cycle it was last evaluated in (R109). -/
structure Crib where
  cycle : Nat
  turn : Nat
  btgt : Nat
  bytes : Nat
  atgt : Nat
  arr : Nat
  deriving DecidableEq, Repr

/-- An update on its way to a crib (R109). -/
inductive CribKind where
  | set (sheaf at' bt : Nat)
  | store (pos : Nat) (bytes : List Byte)
  | arrive (n : Nat)
  | credit (n : Nat)
  deriving DecidableEq, Repr

/-- A crib update with the core cycle in which it reaches the unit, and the sheaf whose instruction makes it, if one does
(R109). -/
structure CribUp where
  crib : Nat
  cycle : Nat
  kind : CribKind
  sheaf : Option Nat
  deriving DecidableEq, Repr

/-- How far a pre-emption is (R234 to R236). -/
inductive PreStage where
  | parking
  | draining
  | threads
  | stook
  deriving DecidableEq, Repr

/-- A pre-emption request on a stook (R234, R235). -/
structure Preempt where
  region : Nat
  deadline : Nat
  fn : Nat
  stage : PreStage
  deriving DecidableEq, Repr

/-- What a stook was started as. -/
inductive StookKind where
  | root
  | launch
  | handler (msg : Nat)
  deriving DecidableEq, Repr

/-- One resident stook (R32, R38, R44, R200). Scratchpad byte o of share k stands at k · 2^32 + o (R97). `olds` are the
residence tags it had before its saves: what it started under them still counts for its completion (R43). -/
structure Stook where
  tag : Nat
  job : Nat
  kind : StookKind
  launch : Nat
  index : Nat
  nstook : Nat
  nsheaf : Nat
  prio : Nat
  die : Nat
  bay : Nat
  cores : List Nat
  share : Nat
  spad : Memory
  cribs : List Crib
  cribUps : List CribUp
  kh : KHdr
  lparams : List Word
  tiles : Nat
  mxErr : Option (Nat × DWord)
  bars : List Nat
  pre : Option Preempt
  restore : Option Nat
  frozen : Bool
  placedAt : Nat
  olds : List Nat
  deriving DecidableEq, Repr

/-- A stook saved to memory (R236). -/
structure SavedStook where
  job : Nat
  kind : StookKind
  launch : Nat
  index : Nat
  nstook : Nat
  nsheaf : Nat
  prio : Nat
  kh : KHdr
  lparams : List Word
  region : Nat
  tag : Nat
  die : Nat
  cores : List Nat
  olds : List Nat
  deriving DecidableEq, Repr

/-! ## Issue (R53 to R66) -/

/-- The threads of one sheaf in a bundle. -/
structure Part where
  sheaf : Nat
  lanes : Lanes
  deriving DecidableEq, Repr

/-- A bundle in an issue slot. `pos` counts the words of the clause already issued, `start` is the core cycle of its
bundle start. -/
structure Bundle where
  start : Nat
  tag : Nat
  parts : List Part
  base : DWord
  cls : Nat
  count : Nat
  pos : Nat
  nextAt : Nat
  jumps : List (Nat × Nat × DWord)
  hold : Bool
  deferred : Bool
  deriving DecidableEq, Repr

/-- A change of scratchpad ways in progress on a core (R96), with the slot whose bundle it holds at a `MOVSW` and that
instruction's common fields. -/
structure Conversion where
  spw : Nat
  hold : Option (Nat × Common)
  tag : Nat
  deriving DecidableEq, Repr

/-- One core: `%ctl` (R323), its two issue slots, and conversions under way. Cores are numbered 64 · die + core. Up to
the core cycle `chkAt` instructions issue under `chkOld` (R324). `picked` holds the slots and the sheaves (tag, index)
chosen in the core cycle `pickedAt`; slot 0 issued last in the cycle before `slot0At`, and slot 1 chose or issued last in the
cycle before `slot1At` (R54). -/
structure Core where
  id : Nat
  chk : Bool
  chkAt : Nat
  chkOld : Bool
  spw : Nat
  slot0 : Option Bundle
  slot1 : Option Bundle
  convs : List Conversion
  pickedAt : Nat
  picked : List (Nat × Nat × Nat)
  slot0At : Nat
  slot1At : Nat
  deriving DecidableEq, Repr

/-! ## Memory requests and results (R123 to R129, R258) -/

/-- Read-modify-write operations, coded as R205. -/
inductive Rmw where
  | add | and | or | xor | mins | minu | maxs | maxu | xchg | cas | fadd
  deriving DecidableEq, Repr

/-- What a memory request does. -/
inductive ReqKind where
  | load (sx : Bool)
  | store
  | rmw (op : Rmw) (operand compare : Nat)
  | block
  | clean
  | discard
  | cribSet (sheaf at' bt : Nat)
  | cribArrive (n : Nat)
  | barrier
  deriving DecidableEq, Repr

/-- Where a request goes: an offset of a range, with the entry it was translated under, a scratchpad share, or a
barrier. -/
inductive Place where
  | range (ent : RangeEnt) (off : Nat)
  | spad (k off : Nat)
  | bar (b : Nat)
  deriving DecidableEq, Repr

/-- Whose access it is (R185): an untagged thread or other party, a tagged thread under a path, an orphaned thread. -/
inductive Who where
  | untagged
  | tagged (h : Word)
  | orphan (h : Word)
  deriving DecidableEq, Repr

/-- A memory request that has issued and not yet executed wholly. Its id gives issue order. `dest` names the registers of a
result, lowest word first, `extra` the further registers it sets, `ff` the predicate that an access of `LDFF` clears where
another load would take 0x14 (R230); `issued` is the number of the issue it comes from. `once` marks the access of an
instruction that executes once per bundle (R59). -/
structure Req where
  id : Nat
  op : Nat
  tag : Nat
  job : Nat
  sheaf : Nat
  lanes : Lanes
  core : Nat
  kind : ReqKind
  place : Place
  width : Nat
  data : List Byte
  acq : Bool
  rel : Bool
  scope : Nat
  home : Bool
  who : Who
  dest : List (Nat × Option Nat)
  extra : List (Nat × Option Nat × Word)
  ff : Option Nat
  got : List Byte
  done : List Nat
  va : DWord
  pc : DWord
  clause : DWord
  issued : Nat
  once : Bool
  deriving DecidableEq, Repr

/-- A result on its way to registers: register number, lane (none for a uniform register) and value (R258). -/
structure Result where
  id : Nat
  op : Nat
  tag : Nat
  sheaf : Nat
  writes : List (Nat × Option Nat × Word)
  deriving DecidableEq, Repr

/-- An operation that has not finished for its slot: slot 7 is no slot (R258). `left` counts what is outstanding, `regs` are
its registers, `back` those of them that a `SHRINK` has returned since, each with the number of that `SHRINK` (R353). -/
structure Op where
  id : Nat
  tag : Nat
  sheaf : Nat
  slot : Nat
  left : Nat
  lanes : Lanes
  regs : List Nat
  back : List (Nat × Nat)
  deriving DecidableEq, Repr

/-- A set of threads whose accesses before a point must be done first (R127, point 4; R129). -/
structure Dep where
  tag : Nat
  sheaf : Nat
  lanes : Lanes
  upto : Nat
  deriving DecidableEq, Repr

/-! ## Holds (R66) and deferred checks (R364) -/

/-- What a held bundle waits for. -/
inductive HoldKind where
  | publish (scope : Nat)
  | refresh (scope : Nat)
  | fence (scope : Nat)
  | bar (b : Nat) (inst : List (Nat × Nat))
  | cribWait (crib turn : Nat)
  | waitGe (va : DWord) (target : Nat)
  | doze (va : DWord) (target time : Nat)
  | waitQuiet (dest issued : Nat)
  | grow (n : Nat)
  | acqAcc (n : Nat)
  | relAcc
  | saved (stook : Bool)
  | launchQ (dest : Nat) (rec : List Byte)
  | mxDrain (dest : Nat) (words : List Word)
  /-- By a flatten; `freed` once the arbor has served a free, whose answer it then waits for (R183, R364). -/
  | hypOpen (freed : Bool)
  deriving DecidableEq, Repr

/-- A held bundle of one sheaf: all its threads, the active ones, and the instruction that holds it. -/
structure Hold where
  id : Nat
  tag : Nat
  sheaf : Nat
  lanes : Lanes
  active : Lanes
  core : Nat
  pc : DWord
  clause : DWord
  op : Nat
  seq : Nat
  kind : HoldKind
  deriving DecidableEq, Repr

/-- An instruction whose precise checks are not yet decided, with what it read at issue (R364, R18): operand words by
lane, the requests it makes if the checks pass, and the destination registers that a `SHRINK` has returned since (R353). -/
structure Deferred where
  core : Nat
  slot : Nat
  tag : Nat
  sheaf : Nat
  active : Lanes
  pc : DWord
  clause : DWord
  instr : Instr
  upto : Nat
  op : Nat
  words : List (Nat × List Word)
  reqs : List Req
  gone : List Nat
  deriving DecidableEq, Repr

/-! ## Wains (R111 to R116), tier prefetch (R120) -/

/-- A copy template (R113). -/
structure Template where
  sva : Nat
  dva : Nat
  cntr : Nat
  dstr1 : Int
  sstr1 : Int
  dstr2 : Int
  sstr2 : Int
  incr : Nat
  cnt2 : Nat
  cnt1 : Nat
  cnt0 : Nat
  cribEn : Bool
  crib : Nat
  follow : Bool
  hinh : Bool
  notify : Bool
  dspad : Bool
  esize : Nat
  unit : Nat
  bcred : Nat
  mxidx : Nat
  deriving DecidableEq, Repr

/-- One landing packet of a copy: where its bytes come from and go (R114). -/
structure Packet where
  src : RangeEnt
  soff : Nat
  dst : Place
  len : Nat
  deriving DecidableEq, Repr

/-- A queued copy with its packets in loop order, and the numbers of those that have landed (R114, R115). It has started
once its first packet has read its bytes, which `first` holds until they land; `late` says that its promise has passed. -/
structure Copy where
  id : Nat
  tag : Nat
  job : Nat
  sheaf : Nat
  die : Nat
  wain : Nat
  channel : Nat
  word : DWord
  template : Template
  packets : List Packet
  landed : List Nat
  who : Who
  dep : Dep
  promise : DWord
  started : Bool
  first : Option (List Byte)
  late : Bool
  deriving DecidableEq, Repr

/-- A follow-on matrix command waiting to be posted (R168). -/
structure FollowOn where
  id : Nat
  tag : Nat
  job : Nat
  mxidx : Nat
  deriving DecidableEq, Repr

/-- A `TIERPF` with the lines that have not arrived: line offset and bytes to credit (R120). -/
structure TierOp where
  id : Nat
  tag : Nat
  crib : Nat
  rng : Nat
  lines : List (Nat × Nat)
  dep : Dep
  deriving DecidableEq, Repr

/-! ## The matrix engine (R162 to R176) -/

/-- A matrix command (R165). -/
structure MxCmd where
  aaddr : DWord
  baddr : DWord
  astr : Nat
  bstr : Nat
  cntr : Nat
  incr : Nat
  nblk : Nat
  crib : Nat
  cribEn : Bool
  prio : Nat
  load : Bool
  zero : Bool
  iacc : Bool
  reca : Bool
  asp : Bool
  bsp : Bool
  ea : Nat
  eb : Nat
  apl : Nat
  bpl : Nat
  tile : Nat
  reserved : Bool
  deriving DecidableEq, Repr

/-- A drain descriptor (R175). -/
structure MxDesc where
  dest : DWord
  cribEn : Bool
  crib : Nat
  clr : Bool
  conv : Nat
  mode : Nat
  tile : Nat
  rstr : Nat
  reserved : Bool
  deriving DecidableEq, Repr

/-- What an entry of the reservation table does. -/
inductive MxWork where
  | command (c : MxCmd)
  | drain (d : MxDesc) (dest : Nat) (core : Nat)
  deriving DecidableEq, Repr

/-- An entry of a bay's reservation table. `next` is the next segment or row, and `endsAt` the core cycle in which its last
pass of a multiplication so far ends (R163, R170). -/
structure MxEntry where
  die : Nat
  bay : Nat
  slot : Nat
  seq : Nat
  tag : Nat
  job : Nat
  sheaf : Nat
  op : Nat
  prio : Nat
  work : MxWork
  next : Nat
  stopped : Bool
  status : Word
  dep : Dep
  endsAt : Nat
  deriving DecidableEq, Repr

/-- An accumulator tile a stook holds: words that are not zero, by 128 · row + column, and the status word (R172). -/
structure Tile where
  tag : Nat
  name : Nat
  words : List (Nat × Word)
  status : Word
  deriving DecidableEq, Repr

/-- The term counters of a bay (R171), and the core cycle up to which its engine runs the multiplication's pass it has begun
(R170). -/
structure BayCtr where
  die : Nat
  bay : Nat
  terms : DWord
  ksteps : DWord
  kskips : DWord
  mxcyc : DWord
  busyTo : Nat
  deriving DecidableEq, Repr

/-! ## Work (R32 to R52) -/

/-- A launch of a job (R36, R37). -/
structure Launch where
  no : Nat
  /-- Where it stands in the order of acceptance, over all jobs (R45). -/
  accepted : Nat
  graph : Nat
  kh : KHdr
  nstook : Nat
  nsheaf : Nat
  prio : Nat
  scnt : Nat
  lcnt : Nat
  lparams : List Word
  deps : List Nat
  reads : List (Nat × Nat)
  writes : List (Nat × Nat)
  issuer : Nat
  started : List Nat
  removed : List Nat
  removedAll : Bool
  finished : Nat
  cancelled : Bool
  complete : Bool
  afterPhase : Bool
  deriving DecidableEq, Repr

/-- A graph of a job with the number of its phase; the last one of the list is open (R39, R50). -/
structure Graph where
  no : Nat
  closed : Bool
  pend : Bool
  cancelled : Bool
  phase : Nat
  deriving DecidableEq, Repr

/-- Message counts of one endpoint for one job (R214): endpoints 0 to 7 are dies, 8 to 11 base dies. -/
structure Counts where
  inj : Nat
  cons : Nat
  lost : Nat
  deriving DecidableEq, Repr

/-- A counting wave (R215): when it started, its next slot, the sums of the running pass, those of other packages that
have come, by pass and package, and the totals of the two passes. `broken` says that a sum was missing or answered
unsupported. -/
structure Wave where
  start : Nat
  slot : Nat
  die : List Counts
  base : List Counts
  peers : List (Nat × Nat × Counts)
  first : Counts
  second : Counts
  broken : Bool
  deriving DecidableEq, Repr

/-- What the counting waves of a job's packages send each other (R215, R217): a `WAITQUIET` is pending there, the sums of a
pass of the wave that started in a frame, the verdict with its lost count, no such feature (R202), or the lost mark that a
release by the wave of a frame has set. -/
inductive WaveMsg where
  | pending
  | sums (frame pass : Nat) (c : Counts)
  | verdict (frame : Nat) (quiet : Bool) (lost : Nat)
  | unsupported (frame : Nat)
  | released (frame lost : Nat)
  deriving DecidableEq, Repr

/-- What fired a job's watchdog (R240). -/
structure Fired where
  cause : Nat
  epc : DWord
  deriving DecidableEq, Repr

/-- How the root stook stands. -/
inductive RootState where
  | absent
  | waiting
  | running
  | exited
  deriving DecidableEq, Repr

/-- What the launch unit has counted in a job block: `PHASECNT`, `GRAPHCNT` and `GRAPHMARK` (R34). -/
structure JobCounters where
  phase : Nat
  graph : Nat
  mark : Nat
  deriving DecidableEq, Repr

/-- A job (R32, R34, R35, R245). `older` are the waves of earlier frames that have not ended; `pkgs` are
the packages it spans, `depth` the levels that the fabric service adds to the tree of its waves (R215; log entry 118);
`peerWaits` says that a `WAITQUIET` of it is pending in another package, `verdict` what another package's root has found for
the wave of a frame. `markFrame` is the frame of the wave that set the lost mark last, `markWas` the mark before it: the
other waits that this wave releases count from there (R217). -/
structure Job where
  id : Nat
  fn : Nat
  started : Bool
  ended : Bool
  destroying : Bool
  block : Nat
  counters : JobCounters
  rootVa : Nat
  rootKh : Option KHdr
  root : RootState
  aperture : Nat
  nextLaunch : Nat
  launches : List Launch
  graphs : List Graph
  phaseNo : Nat
  phaseCancelled : Bool
  replay : DWord
  tmpl : Option Nat
  handlers : Option Nat
  mxRange : Option Nat
  period : Nat
  lastRetire : Nat
  fired : Option Fired
  lostMark : Nat
  markFrame : Option Nat
  markWas : Nat
  counts : List Counts
  pkgs : List Nat
  depth : Nat
  peerWaits : Bool
  wave : Option Wave
  older : List Wave
  verdict : Option (Nat × Bool × Nat)
  deriving DecidableEq, Repr

/-! ## The arbor (R180 to R196) -/

/-- The state of a node (R181). -/
inductive NodeState where
  | isOpen
  | committed
  | refuted
  deriving DecidableEq, Repr

/-- A node of the tree table. -/
structure Node where
  path : Word
  state : NodeState
  deriving DecidableEq, Repr

/-- A served resolve that has not completed: the nodes it commits and refutes, the slices that have applied it, and
who waits for its status (R192). A free's refutation has no waiter. -/
structure Resolve where
  seq : Nat
  commits : List Word
  refutes : List Word
  applied : List Nat
  op : Nat
  status : Nat
  dest : Nat
  freeing : Bool
  deriving DecidableEq, Repr

/-- What a `HYPOPEN` or `RESOLVE` asks of an arbor: `dest` and `pred` are register numbers, 1023 and 647 for none. -/
inductive AskKind where
  | hypOpen (dest pred : Nat) (parent : Word) (child : Nat)
  | resolve (confirm : Bool) (dest : Nat) (path : Word)
  deriving DecidableEq, Repr

/-- A `HYPOPEN` or `RESOLVE` at its arbor: its operation, its bundle's active lanes, the slot or the hold its bundle
waits in, and the accesses it follows. -/
structure Ask where
  op : Nat
  tag : Nat
  sheaf : Nat
  act : Lanes
  core : Nat
  slot : Nat
  hold : Option Nat
  dep : Dep
  kind : AskKind
  deriving DecidableEq, Repr

/-- A request waiting at an arbor, in order of receipt (R183, R187). -/
inductive ArborReq where
  | ask (x : Ask)
  | free
  deriving DecidableEq, Repr

/-- A job's arbor (R181 to R195). -/
structure Arbor where
  id : Nat
  job : Nat
  nodes : List Node
  prefixP : Word
  nextSeq : Nat
  inflight : List Resolve
  queue : List ArborReq
  flatten : Bool
  freeing : Bool
  freeFn : Option Nat
  deriving DecidableEq, Repr

/-! ## The fabric (R197 to R217) -/

/-- A destination word (R200). -/
structure DestWord where
  toff : DWord
  kind : Nat
  pkg : Nat
  range : Nat
  die : Nat
  core : Nat
  crib : Nat
  cribEn : Bool
  xoff : Nat
  reserved : Bool
  deriving DecidableEq, Repr

/-- A collective as its descriptor gives it (R210). -/
structure Coll where
  opr : Nat
  rd : Nat
  nchunk : Nat
  npart : Nat
  elems : Nat
  root : DestWord
  deriving DecidableEq, Repr

/-- What a message carries (R199). An error response names the plane of the request it answers (R207). A contribution
names the descriptor's VA at its issuer, its bay (16 · die + bay), the chunk, the packet of the chunk, the participant and
its words. -/
inductive MsgKind where
  | write (dest : DestWord) (bytes : List Byte)
  | readReq (src : DestWord) (len : Nat)
  | readResp (bytes : List Byte)
  | atomicReq (dest : DestWord) (op : Rmw) (width operand compare : Nat)
  | atomicResp (old : Nat)
  | ack
  | active (dest : DestWord) (k : Nat) (args : List Word)
  | contribution (coll : Coll) (desc bay chunk pkt part : Nat) (words : List Word)
  | error (cause reason plane : Nat)
  deriving DecidableEq, Repr

/-- A message in flight. `core` is the core of its source's package that waits for its answer, none where a router does;
`req` names the issuer's request, `piece` the packet of it, `use` the use of a chunk that a contribution belongs to;
`accepted` marks an active message that its target has taken in, or a contribution that its router holds. -/
structure Msg where
  id : Nat
  job : Nat
  core : Option Nat
  plane : Nat
  port : Option Nat
  srcPkg : Nat
  dstPkg : Nat
  srcEp : Nat
  dstEp : Nat
  req : Nat
  piece : Nat
  use : Nat
  accepted : Bool
  kind : MsgKind
  deriving DecidableEq, Repr

/-- What kind of fabric request waits at its issuer; the last are a unit's own fetch of a peer line, a write or counter of a
unit in a peer range, and the landing of a packet of a `GET` in one (R75). -/
inductive FabKind where
  | put
  | get (src dest : DestWord) (len : Nat)
  | ratom (dest : Nat) (width : Nat) (acq : Bool) (scope : Nat) (target : DestWord)
  | amsg
  | coll
  | peer (req : Nat)
  | poll (hold : Nat)
  | wain (copy pkt : Nat)
  | drain (entry : Nat)
  | result (root : DestWord) (chunk : Nat)
  | fetch (who rng line : Nat)
  | unit
  | land (get piece : Nat)
  deriving DecidableEq, Repr

/-- Where a packet goes: memory, a core or a die, or the leaf router of a collective. -/
inductive FabTo where
  | mem (pkg rng off : Nat)
  | core (pkg die core : Nat)
  | router (root : DestWord)
  deriving DecidableEq, Repr

/-- A packet not sent yet, with the memory its payload is read from. -/
structure Unsent where
  piece : Nat
  goal : FabTo
  kind : MsgKind
  src : Option (RangeEnt × Nat × Nat)
  deriving DecidableEq, Repr

/-- A fabric request that has not completed: its unsent packets, the packets outstanding and its operation (R204, R207).
`lanes` is the elected lane (R203); `relScope` a release's scope. -/
structure FabReq where
  id : Nat
  op : Nat
  tag : Nat
  job : Nat
  sheaf : Nat
  lanes : Lanes
  core : Nat
  kind : FabKind
  left : List Nat
  unsent : List Unsent
  dep : Dep
  relScope : Option Nat
  deriving DecidableEq, Repr

/-- How often a participant has contributed to a packet of a chunk of a collective; or, as participant 65536, how many
uses of the chunk have landed (R211). -/
structure ChunkUse where
  job : Nat
  root : DestWord
  chunk : Nat
  pkt : Nat
  part : Nat
  uses : Nat
  deriving DecidableEq, Repr

/-- A Dzizin port (R202, R208): the peer package and its accepted word, once linked. -/
structure Port where
  id : Nat
  peer : Option (Nat × DWord)
  isolated : Bool
  deriving DecidableEq, Repr

/-! ## The host (R87, R88, R242 to R250) -/

/-- A window table entry (R87): its two words as written. -/
structure Window where
  idx : Nat
  w0 : DWord
  w1 : DWord
  deriving DecidableEq, Repr

/-- Why a function's command has not finished. -/
inductive Busy where
  | idle
  | waiting (op : DWord) (seq : Nat) (args : List DWord)
  | draining (rng upto : Nat)
  | freeing (job : Nat)
  | destroying (job seq : Nat)
  | preempt (tag : Nat)
  | restore (tag : Nat)
  deriving DecidableEq, Repr

/-- The registers of a PCIe function (R242). -/
structure Func where
  id : Nat
  winsize : Nat
  herrcnt : Nat
  mop : DWord
  status : Nat
  result : Nat
  busy : Busy
  margs : List DWord
  windows : List Window
  l2mask : BitVec 16
  deriving DecidableEq, Repr

/-- The answer to a host read (R88): none for Unsupported Request. -/
structure HostRead where
  fn : Nat
  off : Nat
  data : Option (List Byte)
  deriving DecidableEq, Repr

/-- A firmware image as the last device reset found it (R246, R248). -/
structure Firmware where
  digest : List Byte
  passed : Bool
  started : Bool
  deriving DecidableEq, Repr

/-- A memory key (R104, R247): its material, or erased. -/
structure Key where
  id : Nat
  mat : Option KeyMat
  deriving DecidableEq, Repr

/-- The core clock of a die (R24, R25): cycles counted at time `since`, and the rate num/den of 4 GHz after it. -/
structure Clock where
  die : Nat
  num : Nat
  den : Nat
  base : Nat
  since : Nat
  deriving DecidableEq, Repr

/-- One choice the model makes for the agents of the package: which of them acts next (log entry 8). -/
inductive Agendum where
  /-- An act of another agent, as the event rows of the operation table name them. -/
  | event (i : Instr)
  /-- The bundle in this issue slot issues its next instruction. -/
  | issue (core slot : Nat)
  /-- Time passes, in core cycles at 4 GHz. -/
  | advance (n : Nat)
  /-- A home slice writes a dirty line to memory by replacement. -/
  | l3Writeback (rng line : Nat)
  /-- A message of a peer package arrives at a Dzizin port. -/
  | arrive (m : Msg)
  /-- The fabric service gives the package its number, before the first link comes up (R200). -/
  | number (pkg : Nat)
  /-- A peer package has consumed a message that asks for no answer. -/
  | delivered (id : Nat)
  /-- The fabric service names the packages of a job and the levels of its wave tree (R202, R215). -/
  | span (job : Nat) (pkgs : List Nat) (depth : Nat)
  /-- A counting wave's word from another package of a job (R215). -/
  | wave (job pkg : Nat) (m : WaveMsg)
  /-- A core reads code ahead into its instruction cache (R272). -/
  | readAhead (core job : Nat) (va : DWord)
  /-- A memory port finds a line uncorrectable, as it scrubs or serves a read that is not an instruction's (R27, R251). -/
  | uncorrectable (rng line : Nat)
  /-- The power and thermal controller steps the core clock of a die to num/den of 4 GHz (R24). -/
  | clockStep (die num den : Nat)
  /-- The host reads a register of BAR0 (R242). -/
  | registerRead (fn off : Nat)
  /-- System software writes memory at a device physical address: a channel table, the word of a slide list, or the capacity
  of a loss list (R73, R83, R251). -/
  | software (addr : Nat) (bytes : List Byte)
  deriving DecidableEq, Repr

/-- The package. -/
structure State where
  /-- Time since device reset in quarters of a nanosecond: `%dtime` is a fourth of it (R25). -/
  now : Nat
  clocks : List Clock
  /-- The issue slot an instruction issues in: core and slot. -/
  cur : Nat × Nat
  /-- Numbers requests, operations, holds, copies and messages in order. -/
  nextId : Nat
  /-- The model's own: how many free values have been taken. -/
  free : Nat
  /-- The model's own: which agents act next. -/
  agenda : List Agendum
  ranges : List RangeEnt
  /-- The entries of ranges that management has deleted or cut while accesses translated under them are on their way home
  (R77). -/
  leaving : List RangeEnt
  /-- Channel-local bytes: byte a of channel c stands at c · 2^48 + a; CXL port k is channel 256 + k (R74). -/
  mem : Memory
  /-- Memory at device physical addresses that channel tables and loss lists name (R73, log entry 9). -/
  devMem : Memory
  /-- What the bytes of `mem` were written under, the latest write first (R104, R247). -/
  seals : List Seal
  l3 : List L3Line
  l2 : List CacheLine
  l1 : List CacheLine
  code : List CodeWord
  peerBuf : List PeerLine
  versions : List Version
  cxlCap : List Nat
  retired : List Nat
  cores : List Core
  sheaves : List Sheaf
  stooks : List Stook
  saved : List SavedStook
  reqs : List Req
  results : List Result
  ops : List Op
  holds : List Hold
  deferred : List Deferred
  copies : List Copy
  followOns : List FollowOn
  tierOps : List TierOp
  mxTable : List MxEntry
  tiles : List Tile
  bayCtrs : List BayCtr
  jobs : List Job
  nextJob : Nat
  arbors : List Arbor
  pkg : Nat
  ports : List Port
  deadPlanes : List Nat
  msgs : List Msg
  outgoing : List Msg
  fabReqs : List FabReq
  chunkUses : List ChunkUse
  featDev : DWord
  featAcc : DWord
  featWritten : Bool
  alarm : DWord
  /-- The alarm policy fixed in firmware at boot; none where it is not known (R250). -/
  arming : Option Bool
  /-- The retraining period in ms, the one before the last write, and the frame of that write (R253). -/
  retrain : Nat
  retrainWas : Nat
  retrainAt : Nat
  retrained : List (Nat × Nat)
  keys : List Key
  resets : Nat
  /-- When an armed alarm last erased the keys (R250). -/
  erasedAt : Option Nat
  firmware : List Firmware
  /-- The last report of `ATTEST` (R249). -/
  report : List Byte
  funcs : List Func
  hostReads : List HostRead
  /-- What the host has read of BAR0: function, offset and value. -/
  regReads : List (Nat × Nat × DWord)
  /-- What the counting waves of jobs have sent to other packages: job, package and word. -/
  waveOut : List (Nat × Nat × WaveMsg)
  deriving DecidableEq, Repr

/-- Why the machine stops with a fault. -/
inductive Fault where
  /-- Raised by no meaning: every fault of the BX9 is a cause that a thread takes, a next state (R225 to R228). Safe. -/
  | never
  deriving DecidableEq, Repr

/-- Why a step has no meaning. -/
inductive Refusal where
  /-- An instruction the model gives no meaning yet, by mnemonic. Safe. -/
  | notModelled (mnemonic : String)
  /-- Raised by step: an agenda entry names an instruction as the act of another agent; instructions act only by issue
  (R55). Safe. -/
  | notAnEvent (i : Instr)
  deriving DecidableEq, Repr

/-- The outcome of an instruction or a step. -/
abbrev Out := Host.Outcome State Fault Refusal

/-- The accepted registers of a function after reset (R242). -/
def Func.reset (id : Nat) : Func :=
  { id, winsize := 20, herrcnt := 0, mop := 0, status := 0, result := 0, busy := .idle,
    margs := List.replicate 8 0, windows := [], l2mask := 0xFFFF }

/-- A core after reset (R323). -/
def Core.reset (id : Nat) : Core :=
  { id, chk := false, chkAt := 0, chkOld := false, spw := 0, slot0 := none, slot1 := none, convs := [], pickedAt := 0,
    picked := [], slot0At := 0, slot1At := 0 }

/-- The device feature word (R1). -/
def featWord : DWord := 0x1000000000000FFF

/-- The machine right after a device reset whose firmware checks passed (R1, R25, R95, R171, R242, R246). -/
def State.reset : State :=
  { now := 0, clocks := [], cur := (0, 0), nextId := 1, free := 0, agenda := [], ranges := [], leaving := [], mem := [],
    devMem := [], seals := [], l3 := [], l2 := [], l1 := [], code := [], peerBuf := [], versions := [],
    cxlCap := List.replicate 4 (2 ^ 42), retired := [],
    cores := [], sheaves := [], stooks := [], saved := [], reqs := [], results := [], ops := [], holds := [],
    deferred := [], copies := [], followOns := [], tierOps := [], mxTable := [], tiles := [], bayCtrs := [], jobs := [],
    nextJob := 1, arbors := [], pkg := 0, ports := [], deadPlanes := [], msgs := [], outgoing := [], fabReqs := [],
    chunkUses := [], featDev := featWord, featAcc := 0, featWritten := false, alarm := 0, arming := none,
    retrain := 64, retrainWas := 64, retrainAt := 0, retrained := [], keys := [Key.mk 0 (some (.fresh 0))],
    resets := 0, erasedAt := none, firmware := [], report := [], funcs := [], hostReads := [], regReads := [],
    waveOut := [] }

end Sys2Proof.Machine
end

