-- ==== Sys2Proof/Machine/Mem.lean ====
section
/-! DEFINITION. Finding and updating the parts of the state, and memory: bytes, placements, homes, versions and the
L1 and L2 copies (R72 to R106, R188 to R191, R251). -/

namespace Sys2Proof.Machine
open Sys2Proof

/-! ## Lists -/

/-- Changes every element the test picks. -/
def modWhere {α : Type} (p : α → Bool) (f : α → α) (l : List α) : List α := l.map fun x => if p x then f x else x

/-- Changes the first element the test picks, or adds a changed default at the end. -/
def upsert {α : Type} (p : α → Bool) (d : α) (f : α → α) : List α → List α
  | [] => [f d]
  | x :: xs => if p x then f x :: xs else x :: upsert p d f xs

/-- The lanes of a set, in increasing order. -/
def lanesOf (m : Lanes) : List Nat := (List.range 32).filter fun l => m.getLsbD l

/-- The set of the lanes the test picks. -/
def lanesWhere (p : Nat → Bool) : Lanes :=
  (List.range 32).foldl (fun m l => if p l then m ||| (1#32 <<< l) else m) 0

/-- A set without one lane. -/
def dropLane (m : Lanes) (l : Nat) : Lanes := m &&& ~~~(1#32 <<< l)

/-! ## The parts of the state -/

namespace State

/-- A core by number 64 · die + core; one nothing has touched stands as after reset. -/
def core (s : State) (c : Nat) : Core := (s.cores.find? (·.id == c)).getD (Core.reset c)
/-- Changes a core. -/
def modCore (s : State) (c : Nat) (f : Core → Core) : State :=
  { s with cores := upsert (·.id == c) (Core.reset c) f s.cores }
/-- The bundle in an issue slot. -/
def slot (s : State) (c k : Nat) : Option Bundle := if k = 0 then (s.core c).slot0 else (s.core c).slot1
/-- Puts a bundle, or nothing, in an issue slot. -/
def setSlot (s : State) (c k : Nat) (b : Option Bundle) : State :=
  s.modCore c fun x => if k = 0 then { x with slot0 := b } else { x with slot1 := b }
/-- A sheaf by residence tag and index. -/
def sheaf (s : State) (tag i : Nat) : Option Sheaf := s.sheaves.find? fun h => h.tag == tag && h.index == i
/-- Changes a sheaf. -/
def modSheaf (s : State) (tag i : Nat) (f : Sheaf → Sheaf) : State :=
  { s with sheaves := modWhere (fun h => h.tag == tag && h.index == i) f s.sheaves }
/-- A thread by tag, sheaf and lane. -/
def thread (s : State) (tag i l : Nat) : Option Thread := (s.sheaf tag i).bind fun h => h.threads[l]?
/-- Changes one thread. -/
def modThread (s : State) (tag i l : Nat) (f : Thread → Thread) : State :=
  s.modSheaf tag i fun h => { h with threads := h.threads.modify l f }
/-- Changes every thread of a lane set of one sheaf. -/
def modThreads (s : State) (tag i : Nat) (m : Lanes) (f : Thread → Thread) : State :=
  s.modSheaf tag i fun h => { h with threads := h.threads.mapIdx fun l t => if m.getLsbD l then f t else t }
/-- A resident stook by residence tag. -/
def stook (s : State) (tag : Nat) : Option Stook := s.stooks.find? (·.tag == tag)
/-- The resident stook that a residence tag names, or has named before a save (R43). -/
def stookNow (s : State) (tag : Nat) : Option Stook := s.stooks.find? fun k => k.tag == tag || k.olds.contains tag
/-- Changes a stook. -/
def modStook (s : State) (tag : Nat) (f : Stook → Stook) : State :=
  { s with stooks := modWhere (·.tag == tag) f s.stooks }
/-- A job by number. -/
def job (s : State) (j : Nat) : Option Job := s.jobs.find? (·.id == j)
/-- Changes a job. -/
def modJob (s : State) (j : Nat) (f : Job → Job) : State := { s with jobs := modWhere (·.id == j) f s.jobs }
/-- A range table entry by index. -/
def range (s : State) (x : Nat) : Option RangeEnt := s.ranges.find? (·.idx == x)
/-- Changes a range table entry. -/
def modRange (s : State) (x : Nat) (f : RangeEnt → RangeEnt) : State :=
  { s with ranges := modWhere (·.idx == x) f s.ranges }
/-- A function's registers; one nothing has touched stands as after reset. -/
def func (s : State) (f : Nat) : Func := (s.funcs.find? (·.id == f)).getD (Func.reset f)
/-- Changes a function's registers. -/
def modFunc (s : State) (fn : Nat) (f : Func → Func) : State :=
  { s with funcs := upsert (·.id == fn) (Func.reset fn) f s.funcs }
/-- A job's arbor. -/
def arbor (s : State) (j : Nat) : Option Arbor := s.arbors.find? (·.job == j)
/-- Changes an arbor. -/
def modArbor (s : State) (a : Nat) (f : Arbor → Arbor) : State :=
  { s with arbors := modWhere (·.id == a) f s.arbors }
/-- A bay's term counters. -/
def bayCtr (s : State) (d b : Nat) : BayCtr :=
  (s.bayCtrs.find? fun x => x.die == d && x.bay == b).getD ⟨d, b, 0, 0, 0, 0, 0⟩
/-- Changes a bay's term counters. -/
def modBayCtr (s : State) (d b : Nat) (f : BayCtr → BayCtr) : State :=
  { s with bayCtrs := upsert (fun x => x.die == d && x.bay == b) ⟨d, b, 0, 0, 0, 0, 0⟩ f s.bayCtrs }
/-- The state with one number used up; `s.nextId` is that number. -/
def bump (s : State) : State := { s with nextId := s.nextId + 1 }
/-- The clock of a die: nominal after reset (R24). -/
def clock (s : State) (d : Nat) : Clock := (s.clocks.find? (·.die == d)).getD ⟨d, 1, 1, 0, 0⟩
/-- Core cycles a die has counted (R24, R25): one count for all its cores, from the device reset on (log entry 115). -/
def cycles (s : State) (d : Nat) : Nat :=
  let c := s.clock d
  c.base + (s.now - c.since) * c.num / c.den
/-- The earliest time, not before now, at which a die has counted n cycles; now where its clock stands. -/
def timeOf (s : State) (d n : Nat) : Nat :=
  let c := s.clock d
  if c.num = 0 ∨ n ≤ s.cycles d then s.now else max s.now (c.since + ((n - c.base) * c.den + c.num - 1) / c.num)
/-- `%dtime` (R25). -/
def dtime (s : State) : Nat := s.now / 4

end State

/-! ## Plain memory -/

namespace Memory

/-- The byte at an address; an unlisted address reads zero (log entry 1). -/
def get (m : Memory) (a : Nat) : Byte := ((m.find? (·.1 == a)).map (·.2)).getD 0

/-- Writes one byte and keeps the canonical form. -/
def set : Memory → Nat → Byte → Memory
  | [], a, b => if b = 0 then [] else [(a, b)]
  | (x, y) :: r, a, b =>
    if a < x then (if b = 0 then (x, y) :: r else (a, b) :: (x, y) :: r)
    else if a = x then (if b = 0 then r else (a, b) :: r)
    else (x, y) :: set r a b

/-- The canonical form: addresses strictly rising, no listed byte zero. -/
def wf : Memory → Bool
  | [] => true
  | [(_, b)] => b != 0
  | (x, b) :: (y, c) :: r => decide (x < y) && b != 0 && wf ((y, c) :: r)

/-- The n bytes from an address on. -/
def getN (m : Memory) (a n : Nat) : List Byte := (List.range n).map fun i => get m (a + i)

/-- Writes bytes from an address on. -/
def setN (m : Memory) (a : Nat) : List Byte → Memory
  | [] => m
  | b :: bs => setN (set m a b) (a + 1) bs

/-- Writes zero to n bytes from an address on. -/
def zero (m : Memory) (a n : Nat) : Memory := m.filter fun c => c.1 < a || a + n ≤ c.1

end Memory

/-- Replaces bytes of a list from a position on. -/
def overlay (bs : List Byte) (pos : Nat) (new : List Byte) : List Byte :=
  bs.mapIdx fun i b => if pos ≤ i then (new[i - pos]?).getD b else b

/-- The byte mask of n bytes from a position of a line. -/
def byteMask (pos n : Nat) : BitVec 64 := BitVec.ofNat 64 ((2 ^ n - 1) * 2 ^ pos)

/-- Bytes of a line, those of the mask taken from the second list. -/
def maskBytes (bs new : List Byte) (mask : BitVec 64) : List Byte :=
  bs.mapIdx fun i b => if mask.getLsbD i then (new[i]?).getD b else b

/-! ## Placement and home (R80, R81, R83, R84) -/

/-- The granule G of a placement in bytes (R73). -/
def Placement.granule (p : Placement) : Nat := 256 * 2 ^ p.gcode

/-- The share an offset lies in, and its channel-local offset (R80). -/
def Placement.local (p : Placement) (o : Nat) : Nat × Nat :=
  let g := p.granule
  let n := p.shares.length
  (o / g % n, o / (g * n) * g + o % g)

/-- Where an offset stands in the memory of the package (R80, with the slide rule of R83). -/
def Placement.address (p : Placement) (o : Nat) : Nat :=
  let (j, x) := p.local o
  match p.shares[j]? with
  | none => 0
  | some h =>
    let ch := if p.tier = 1 then 256 + h.ch else h.ch
    let b := if h.sliding && decide (x < h.sfront) then h.nbase else h.pbase
    ch * 2 ^ 48 + b + x

/-- The first byte of a share in the memory of the package. -/
def Placement.start (p : Placement) (h : Share) : Nat := (if p.tier = 1 then 256 + h.ch else h.ch) * 2 ^ 48 + h.pbase

/-- A length rounded up to lines. -/
def toLines (n : Nat) : Nat := (n + 63) / 64 * 64

/-- The bytes of a share below the last that an offset under a multiple of 64 uses (R80). -/
def Placement.shareUsed (p : Placement) (j n : Nat) : Nat :=
  let g := p.granule
  let row := g * p.shares.length
  n / row * g + min g (n % row - j * g)

/-- The size of a share of a range of n bytes: its granules, each whole, as R91 counts them (R83; log entry 140). -/
def Placement.shareSize (p : Placement) (j n : Nat) : Nat :=
  (p.shareUsed j n + (p.granule - 1)) / p.granule * p.granule

/-- The channel of an offset. -/
def Placement.channel (p : Placement) (o : Nat) : Nat := ((p.shares[(p.local o).1]?).map (·.ch)).getD 0

/-- The home slice of a line under a placement (R81). -/
def Placement.home (p : Placement) (o : Nat) : Nat :=
  if p.tier = 1 then 64 * p.channel o + o / 64 % 64 else p.channel o

/-- The placement that holds an offset: past the frontier of a re-place or rebuild the target's (R84, frontier
steering). -/
def RangeEnt.placeOf (e : RangeEnt) (o : Nat) : Placement :=
  match e.move with
  | .replace t | .rebuild t => if o / 64 * 64 < e.front then t else e.place
  | _ => e.place

/-- The memory address of an offset. -/
def RangeEnt.address (e : RangeEnt) (o : Nat) : Nat := (e.placeOf o).address o
/-- The home slice of an offset (R81). -/
def RangeEnt.home (e : RangeEnt) (o : Nat) : Nat := (e.placeOf o).home o
/-- The tier of an offset. -/
def RangeEnt.tierOf (e : RangeEnt) (o : Nat) : Nat := (e.placeOf o).tier

/-- A line of this range is in its loss list (R251). -/
def RangeEnt.lost (e : RangeEnt) (line : Nat) : Bool := e.losses.any (·.line == line)

/-- The other positions of a position's parity group (R252). -/
def Placement.peersOf (p : Placement) (j : Nat) : List Nat :=
  (List.range p.shares.length).filter fun i => i / 16 == j / 16 && i != j

/-- The offset at which channel-local row x of position i lies (R80). -/
def Placement.offsetAt (p : Placement) (i x : Nat) : Nat :=
  let g := p.granule
  (x / g * p.shares.length + i) * g + x % g

/-- The parity group of a position: its size n (R252). -/
def Placement.groupSize (p : Placement) (j : Nat) : Nat := min 16 (p.shares.length - j / 16 * 16)

/-- Where the parity of a position's group at row x stands in a range of n bytes: on position 16g + x/64 mod n of the list,
at this place of its share, beyond the data in the order of the rows (R252). -/
def Placement.parityAt (p : Placement) (j x n : Nat) : Nat × Nat :=
  let i := j / 16 * 16 + x / 64 % p.groupSize j
  (i, p.shareSize i n + x / 64 / p.groupSize j * 64)

/-- The parity lines of a range of n bytes that position j holds, one for each row of its group that falls to it; a
position alone in its group holds none (R252). -/
def Placement.parityLines (p : Placement) (j n : Nat) : Nat :=
  if p.groupSize j < 2 then 0 else
  let rows := ((List.range (p.groupSize j)).map fun i => p.shareUsed (j / 16 * 16 + i) n / 64).foldl max 0
  ((List.range rows).filter fun r => (p.parityAt j (64 * r) n).1 == j).length

/-- The bytes of a share on its channel, with the parity lines stored beyond its data (R74, R252). -/
def Placement.extent (p : Placement) (par : Bool) (j n : Nat) : Nat :=
  p.shareSize j n + if par then 64 * p.parityLines j n else 0

/-- The extents of memory that a placement of a range takes: first byte and the byte after the last. -/
def RangeEnt.extents (e : RangeEnt) (p : Placement) : List (Nat × Nat) :=
  p.shares.zipIdx.flatMap fun x =>
    let n := p.extent e.par x.2 (toLines e.limit)
    (p.start x.1, p.start x.1 + n) ::
      if x.1.sliding then [(p.start { x.1 with pbase := x.1.nbase }, p.start { x.1 with pbase := x.1.nbase } + n)] else []

/-- The target of a re-place or rebuild. -/
def Move.target : Move → Option Placement
  | .replace t | .rebuild t => some t
  | .none | .slide => Option.none

/-- A range, or the target of its move, takes a byte of memory. -/
def RangeEnt.occupies (e : RangeEnt) (a : Nat) : Bool :=
  (e.place :: e.move.target.toList).any fun p => (e.extents p).any fun x => decide (x.1 ≤ a) && decide (a < x.2)

/-- The lines of a line's parity row on the other positions of its group, below a limit (R252). -/
def Placement.rowLines (p : Placement) (line limit : Nat) : List Nat :=
  let (j, x) := p.local line
  ((p.peersOf j).map fun i => p.offsetAt i x).filter fun o => decide (o < limit)

/-- The channels from which a line's parity group recovers it (R252). -/
def Placement.groupChannels (p : Placement) (line : Nat) : List Nat :=
  (p.peersOf (p.local line).1).filterMap fun i => (p.shares[i]?).map (·.ch)

/-- Parity recovers a line of a placement: its group of up to 16 positions holds another position, none of them is on a lost
channel, and no other line of the row is listed (R252). -/
def RangeEnt.guards (e : RangeEnt) (p : Placement) (line : Nat) : Bool :=
  let group := p.groupChannels line
  e.par && !group.isEmpty && !group.any e.lostCh.contains && !(p.rowLines line e.limit).any e.lost

/-- A line lies on a retired channel, under the placement that holds it, and nothing recovers it (R85, R252). -/
def RangeEnt.deadAt (e : RangeEnt) (line : Nat) : Bool :=
  let p := e.placeOf line
  p.tier == 0 && e.lostCh.contains (p.channel line) && !e.guards p line

/-- The lines of a row that parity recovered and that a new loss in the row leaves without recovery (R252). -/
def RangeEnt.alsoLost (e : RangeEnt) (line : Nat) : List Nat :=
  let e' := { e with losses := ⟨1, line⟩ :: e.losses }
  ((e.placeOf line).rowLines line e.limit).filter fun l => !e.lost l && !e.deadAt l && e'.deadAt l

/-- The n bytes from an offset meet the line that a re-place has in transit (R82, R84). -/
def RangeEnt.held (e : RangeEnt) (off n : Nat) : Bool :=
  e.transit != 0 && decide (off < e.front + 64) && decide (e.front < off + n)

/-- The loss list is not empty (R89, R364). -/
def RangeEnt.anyLost (e : RangeEnt) : Bool := !e.losses.isEmpty

/-- The entry that holds a line of a range index: the range, or one that management has deleted or cut while accesses under
it are on their way (R77). -/
def State.entAt (s : State) (x line : Nat) : Option RangeEnt :=
  (s.ranges ++ s.leaving).find? fun e => e.idx == x && decide (line < toLines e.limit)

/-- The entry an access translated under `e` finds at home: the range as it stands, or the old entry (R77). -/
def State.entNow (s : State) (e : RangeEnt) : RangeEnt :=
  match s.range e.idx with
  | some x => if x.owner = e.owner ∧ x.base = e.base then { x with key := e.key, cls := e.cls, hyp := e.hyp } else e
  | none => e

/-! ## Keys (R104, R247) -/

/-- The material of a key ID, unless it is not loaded, retired or erased. -/
def State.keyMat (s : State) (k : Nat) : Option KeyMat := (s.keys.find? (·.id == k)).bind (·.mat)

/-- The line offset whose tweak the byte of a memory address was written under (R80, R247). -/
def Seal.line (z : Seal) (a : Nat) : Nat :=
  ((a - z.base) / z.granule * z.count + z.pos) * z.granule + (a - z.base) % z.granule

/-- What is written under this seal reads back under key material for a line of a range at an address (R104, R247). -/
def Seal.opens (z : Seal) (m : KeyMat) (rng line a : Nat) : Bool :=
  match z.mat with
  | some m' => m == m' && z.rng == rng && z.line a == line
  | none => true

/-- The seal of one line at a memory address. -/
def lineSeal (mat : Option KeyMat) (rng line a : Nat) : Seal :=
  { lo := a, hi := a + 64, mat, rng, base := a, granule := 64, count := 1, pos := line / 64 }

/-- What the byte of an address was last written under. -/
def State.sealAt (s : State) (a : Nat) : Option Seal := s.seals.find? fun z => decide (z.lo ≤ a) && decide (a < z.hi)

/-- Bytes are written under a seal: those it covers whole are gone. -/
def State.sealed (s : State) (z : Seal) : State :=
  { s with seals := z :: s.seals.filter fun y => !(decide (z.lo ≤ y.lo) && decide (y.hi ≤ z.hi)) }

/-- Copies the stored bytes of a line, under whatever key and tweak they are (R86, R247: moves need no re-encryption). -/
def State.copyLine (s : State) (src dst : Nat) : State :=
  let z := match s.sealAt src with
    | some z => lineSeal z.mat z.rng (z.line src) dst
    | none => lineSeal none 0 0 dst
  { s with mem := Memory.setN s.mem dst (Memory.getN s.mem src 64) }.sealed z

/-! ## Home data -/

/-- What memory holds of a line, read under the entry's key and the line's tweak (R80, R104, R247): what was written under
other material or another tweak, or anything where the key is erased, reads as bytes that are not stated. -/
def State.memLine (s : State) (e : RangeEnt) (line : Nat) : List Byte :=
  let a := e.address line
  let raw := Memory.getN s.mem a 64
  let plain := match s.keyMat e.key, s.sealAt a with
    | some m, some z => z.opens m e.idx line a
    | some _, none => true
    | none, _ => false
  if plain then raw else (List.range 64).map (Config.foreignByte e.idx line raw)

/-- A home slice's line is this line of the range under its key (R81). -/
def L3Line.names (l : L3Line) (e : RangeEnt) (line : Nat) : Bool :=
  l.job == e.owner && l.rng == e.idx && l.line == line && l.key == e.key

/-- The committed bytes below any version: the home slice's copy, or memory. -/
def State.baseLine (s : State) (e : RangeEnt) (line : Nat) : List Byte :=
  match s.l3.find? (·.names e line) with
  | some l => l.bytes
  | none => s.memLine e line

/-- The exclusive or of lines of 64 bytes. -/
def xorLines (ls : List (List Byte)) : List Byte :=
  (List.range 64).map fun i => ls.foldl (fun b l => b ^^^ (l[i]?).getD 0) 0

/-- What the parity line of a line's row holds (R251, R252): the exclusive or of the row's lines as they stand at home, so
that every write of one updates it at its own point of home order. These bytes follow from the lines and are kept nowhere
else (log entry 49). -/
def State.parityLine (s : State) (e : RangeEnt) (line : Nat) : List Byte :=
  xorLines ((line :: (e.placeOf line).rowLines line e.limit).map (s.baseLine e))

/-- A line as its parity group recovers it, from the parity line and the rest of its row (R252). -/
def State.recovered (s : State) (e : RangeEnt) (line : Nat) : List Byte :=
  xorLines (s.parityLine e line :: ((e.placeOf line).rowLines line e.limit).map (s.baseLine e))

/-- Puts a line in its home slice, dirty. -/
def State.setBase (s : State) (e : RangeEnt) (line : Nat) (bs : List Byte) : State :=
  let put (l : L3Line) : L3Line := { l with bytes := bs, dirty := true }
  { s with l3 := upsert (·.names e line) ⟨e.owner, e.idx, line, e.key, bs, true⟩ put s.l3 }

/-- The home slice takes a line in as memory holds it, where it holds none (R120). -/
def State.fetchBase (s : State) (e : RangeEnt) (line : Nat) : State :=
  if s.l3.any (·.names e line) then s
  else { s with l3 := s.l3 ++ [⟨e.owner, e.idx, line, e.key, s.memLine e line, false⟩] }

/-- A line belongs to no range any more, and a range that is there takes its place in memory. -/
def State.displaced (s : State) (e : RangeEnt) (line : Nat) : Bool :=
  !(s.ranges.any fun x => x.idx == e.idx && decide (line < toLines x.limit)) &&
    s.ranges.any (·.occupies (e.address line))

/-- Writes a line to memory under its key and tweak (R83: wherever the frontier stands; R247). Nothing is written under a key
without material, nor over a range that has taken a deleted line's place, which reads zero (R77; log entry 137). -/
def State.storeLine (s : State) (e : RangeEnt) (line : Nat) (bs : List Byte) : State :=
  match s.keyMat e.key with
  | none => s
  | some m =>
    if s.displaced e line then s else
    let a := e.address line
    { s with mem := Memory.setN s.mem a bs }.sealed (lineSeal (some m) e.idx line a)

/-- The home slice writes a dirty copy to memory and keeps it as a clean one (R106). -/
def State.cleanHome (s : State) (e : RangeEnt) (line : Nat) : State :=
  match s.l3.find? (·.names e line) with
  | none => s
  | some l =>
    let s := if l.dirty then s.storeLine e line l.bytes else s
    { s with l3 := modWhere (·.names e line) (fun l => { l with dirty := false }) s.l3 }

/-- The home slice's copy leaves it, written to memory if it is dirty (R83). -/
def State.expelHome (s : State) (e : RangeEnt) (line : Nat) : State :=
  let s := s.cleanHome e line
  { s with l3 := s.l3.filter (!·.names e line) }

/-! ## Versions (R180, R181, R188 to R191) -/

/-- The depth of a path (R180). -/
def pathDepth (h : Word) : Nat := h.toNat / 2 ^ 28
/-- A path is well-formed (R180). -/
def pathOk (h : Word) : Bool :=
  decide (pathDepth h ≤ 7) && decide (h.toNat % 2 ^ (28 - 4 * pathDepth h) = 0)
/-- h is an ancestor-or-self of g (R180). -/
def isAncestor (h g : Word) : Bool :=
  decide (pathDepth h ≤ pathDepth g) &&
    decide (h.toNat % 2 ^ 28 / 2 ^ (28 - 4 * pathDepth h) = g.toNat % 2 ^ 28 / 2 ^ (28 - 4 * pathDepth h))
/-- The prefix of a path of depth d. -/
def pathPrefix (h : Word) (d : Nat) : Word :=
  BitVec.ofNat 32 (d * 2 ^ 28 + h.toNat % 2 ^ 28 / 2 ^ (28 - 4 * d) * 2 ^ (28 - 4 * d))
/-- Child c of a node of depth below 7 (R187). -/
def pathChild (h : Word) (c : Nat) : Word :=
  BitVec.ofNat 32 ((pathDepth h + 1) * 2 ^ 28 + h.toNat % 2 ^ 28 + c * 2 ^ (24 - 4 * pathDepth h))

/-- A node's state in the tree table: one not created since the last flatten counts as refuted (R181). -/
def Arbor.state (a : Arbor) (h : Word) : NodeState :=
  if h = 0 then .committed else ((a.nodes.find? (·.path == h)).map (·.state)).getD .refuted

/-- A node's state as a slice sees it: a resolve the slice has not applied has not reached it yet (R192, R193). -/
def Arbor.stateAt (a : Arbor) (slice : Nat) (h : Word) : NodeState :=
  if a.inflight.any fun r => !r.applied.contains slice && (r.commits.contains h || r.refutes.contains h) then .isOpen
  else a.state h

/-- The versions of a line. -/
def State.versionsOf (s : State) (a : Arbor) (e : RangeEnt) (line : Nat) : List Version :=
  s.versions.filter fun v => v.arbor == a.id && v.rng == e.idx && v.line == line && v.key == e.key

/-- The longest prefix of a path that is open or committed at a slice (R191). -/
def Arbor.livePrefix (a : Arbor) (slice : Nat) (h : Word) : Word :=
  (((List.range (pathDepth h + 1)).reverse.map (pathPrefix h)).find? fun g => a.stateAt slice g != .refuted).getD 0

/-- The path a read uses at a slice (R191). -/
def Arbor.readPath (a : Arbor) (slice : Nat) : Who → Word
  | .untagged => 0
  | .tagged h => if a.stateAt slice h = .refuted then a.livePrefix slice h else h
  | .orphan h => a.livePrefix slice h

/-- The line of a peer range that stands first of those fetched (R75). -/
def State.peerEntry (s : State) (e : RangeEnt) (line : Nat) : Option PeerLine :=
  s.peerBuf.find? fun p => p.rng == e.idx && p.line == line

/-- A line of a peer range as its fetch has brought it (R75); one that was not fetched is not stated. -/
def State.peerLine (s : State) (e : RangeEnt) (line : Nat) : List Byte :=
  match s.peerEntry e line with
  | some p => (List.range 64).map fun i => (p.bytes[i]?).getD 0
  | none => (List.range 64).map (Config.foreignByte e.idx line [])

/-- The line as an access reads it at home: base, overlaid byte by byte by the deepest visible version (R191). Of a range
without `HYP` every party reads committed data (R188). -/
def State.viewLine (s : State) (e : RangeEnt) (line : Nat) (w : Who) : List Byte :=
  if e.peer.isSome then s.peerLine e line else
  let base := s.baseLine e line
  match s.arbor e.owner with
  | none => base
  | some a =>
    let slice := e.home line
    let g := if e.hyp then a.readPath slice w else 0
    let vis := (s.versionsOf a e line).filter fun v =>
      a.stateAt slice v.path == .committed || (a.stateAt slice v.path == .isOpen && g != 0 && isAncestor v.path g)
    base.mapIdx fun i b =>
      ((vis.filter (·.mask.getLsbD i)).foldl
        (fun best v => if pathDepth v.path ≥ best.1 then (pathDepth v.path, (v.bytes[i]?).getD b) else best) (0, b)).2

/-- The loss list of a range written out at `LOSSVA`: the count, and the entries that the capacity leaves room for
(R251). -/
def State.writeLosses (s : State) (x : Nat) : State :=
  match s.range x with
  | none => s
  | some e =>
    if e.lossVa = 0 then s else
    let cap := leNat (Memory.getN s.devMem (e.lossVa + 8) 8)
    let m := Memory.setN s.devMem e.lossVa (leBytes 8 e.lossCount)
    let entries := (e.losses.take cap).flatMap fun l => leBytes 8 (l.reason * 2 ^ 56 + l.line)
    { s with devMem := Memory.setN m (e.lossVa + 16) entries }

/-- Removes the loss entry of a line that one write event covers whole (R251): the entries after it move up, and the
count drops (log entry 100). -/
def State.healLine (s : State) (e : RangeEnt) (line : Nat) : State :=
  if e.lost line then
    (s.modRange e.idx fun x =>
      { x with losses := x.losses.filter (·.line != line),
               lossCount := x.lossCount - (x.losses.filter (·.line == line)).length }).writeLosses e.idx
  else s

/-- The same for a write of the whole line that does not reach the committed data yet, an L1 copy's or a version's: below
it the line holds bytes that are not stated (log entry 101). -/
def State.healUnder (s : State) (e : RangeEnt) (line : Nat) : State :=
  if e.lost line then
    let below := (List.range 64).map (Config.freeByte s.free)
    let s := { s with free := s.free + 1 }
    (s.setBase e line below).healLine e line
  else s

/-- A write by an untagged party: base changes, committed versions lose those bytes (R191). -/
def State.writeBase (s : State) (e : RangeEnt) (off : Nat) (bs : List Byte) (mask : BitVec 64) : State :=
  let line := off / 64 * 64
  let s := s.setBase e line (maskBytes (s.baseLine e line) (overlay (List.replicate 64 0) (off - line) bs) mask)
  let s := if mask = BitVec.allOnes 64 then s.healLine e line else s
  match s.arbor e.owner with
  | none => s
  | some a =>
    let slice := e.home line
    let vs := s.versions.map fun v =>
      if v.arbor == a.id && v.rng == e.idx && v.line == line && v.key == e.key
          && a.stateAt slice v.path == .committed then { v with mask := v.mask &&& ~~~mask } else v
    { s with versions := vs.filter fun v => !(v.mask == 0 && v.rng == e.idx && v.line == line) }

/-- The slice and the set of it that a line under a key competes in, under a placement: 12 MiB in 16 ways are 12,288 sets
(R23, R190). -/
def l3PlaceIn (p : Placement) (e : RangeEnt) (line key : Nat) : Nat × Nat :=
  (p.home line, Config.l3Set e.owner e.idx line key % 12288)

/-- The same under the placement that holds the line. -/
def l3Place (e : RangeEnt) (line key : Nat) : Nat × Nat := l3PlaceIn (e.placeOf line) e line key

/-- A version's line stands in a set, or is in transit to it (R84, R190). -/
def State.standsIn (s : State) (place : Nat × Nat) (v : Version) : Bool :=
  match s.entAt v.rng v.line with
  | some r => l3Place r v.line v.key == place || (r.transit != 0 && v.line == r.front &&
      match r.move.target with
      | some t => l3PlaceIn t r v.line v.key == place
      | none => false)
  | none => false

/-- The versions that stand in the ways of a set (R190), those of lines that are on their way into it among them. -/
def State.versionsAt (s : State) (place : Nat × Nat) : List Version := s.versions.filter (s.standsIn place)

/-- A version's node is refuted, as a slice sees it: the version can be reclaimed (R190). -/
def State.reclaimable (s : State) (slice : Nat) (v : Version) : Bool :=
  match s.arbors.find? (·.id == v.arbor) with
  | some b => b.stateAt slice v.path == .refuted
  | none => true

/-- A speculative way is free for a tagged write of a line at its slice: the line has the version already, its set holds
fewer than four versions, or a refuted one can be reclaimed (R190). -/
def State.wayFree (s : State) (a : Arbor) (e : RangeEnt) (h : Word) (line : Nat) : Bool :=
  let place := l3Place e line e.key
  (s.versionsOf a e line).any (·.path == h) ||
    decide (((s.versionsAt place).filter fun v => !s.reclaimable place.1 v).length < 4)

/-- A version takes a speculative way: where all four of the set are in use, a refuted version is reclaimed (R190). -/
def State.reclaimWay (s : State) (e : RangeEnt) (line : Nat) : State :=
  let place := l3Place e line e.key
  let there := s.versionsAt place
  if there.length < 4 then s else
  match there.find? (s.reclaimable place.1) with
  | some v => { s with versions := s.versions.erase v }
  | none => s

/-- The live versions of a line and those of the sets of its new slice fit into the four ways of each set (R190, R196). -/
def State.roomIn (s : State) (e : RangeEnt) (t : Placement) (line : Nat) : Bool :=
  let mine (v : Version) : Bool := v.rng == e.idx && v.line == line
  (s.versions.filter mine).all fun v =>
    let place := l3PlaceIn t e line v.key
    let there (x : Version) : Bool := s.standsIn place x || (mine x && l3PlaceIn t e line x.key == place)
    decide ((s.versions.filter fun x => there x && !s.reclaimable place.1 x).length ≤ 4)

/-- Of a set that a line's versions have come into, refuted ones are reclaimed until four are left (R190). -/
def State.fitWays (s : State) (place : Nat × Nat) : State :=
  let there := s.versionsAt place
  let out := (there.filter (s.reclaimable place.1)).take (there.length - 4)
  { s with versions := s.versions.filter (!out.contains ·) }

/-- A write under a path: the version of that path at its home slice takes the bytes (R190, R191). -/
def State.writeVersion (s : State) (a : Arbor) (e : RangeEnt) (h : Word) (off : Nat) (bs : List Byte) : State :=
  let line := off / 64 * 64
  let s := if bs.length = 64 then s.healUnder e line else s
  let s := if (s.versionsOf a e line).any (·.path == h) then s else s.reclaimWay e line
  let vs := upsert
      (fun v => v.arbor == a.id && v.rng == e.idx && v.line == line && v.key == e.key && v.path == h)
      ⟨a.id, e.idx, line, e.key, h, 0, List.replicate 64 0⟩
      (fun v => { v with mask := v.mask ||| byteMask (off - line) bs.length, bytes := overlay v.bytes (off - line) bs })
      s.versions
  { s with versions := vs }

/-- A write of bytes within one line at its home (R191). -/
def State.homeWrite (s : State) (e : RangeEnt) (off : Nat) (bs : List Byte) (w : Who) : State :=
  match w with
  | .untagged => s.writeBase e off bs (byteMask (off % 64) bs.length)
  | .orphan _ => s
  | .tagged h =>
    if !e.hyp then s else
    match s.arbor e.owner with
    | none => s
    | some a => if a.stateAt (e.home off) h = .refuted then s else s.writeVersion a e h off bs

/-- A read of n bytes within one line at its home. -/
def State.homeRead (s : State) (e : RangeEnt) (off n : Nat) (w : Who) : List Byte :=
  ((s.viewLine e (off / 64 * 64) w).drop (off % 64)).take n

/-- A read of n bytes from an offset on, line by line, at home, as an untagged party. -/
def State.homeReadN (s : State) (e : RangeEnt) (off n : Nat) : List Byte :=
  (((List.range ((off + n + 63) / 64 - off / 64)).flatMap fun i => s.viewLine e ((off / 64 + i) * 64) .untagged).drop
    (off % 64)).take n

/-- The pieces of n bytes from an offset, one for each line: offset and length (R123). -/
def linePieces (off n : Nat) : List (Nat × Nat) :=
  (List.range ((off + n + 63) / 64 - off / 64)).map fun i =>
    let lo := max off ((off / 64 + i) * 64)
    (lo, min (off + n) ((off / 64 + i + 1) * 64) - lo)

/-- The first lost line that an access of n bytes meets: a write of a whole line does not fail on it (R251). -/
def RangeEnt.firstBlocked (e : RangeEnt) (write : Bool) (off n : Nat) : Option Nat :=
  ((linePieces off n).find? fun p => e.lost (p.1 / 64 * 64) && !(write && p.2 == 64)).map (·.1 / 64 * 64)

/-- A write of bytes from an offset on, one write event for each line, as an untagged party. -/
def State.homeWriteN (s : State) (e : RangeEnt) (off : Nat) (bs : List Byte) : State :=
  (linePieces off bs.length).foldl (fun s p => s.homeWrite e p.1 ((bs.drop (p.1 - off)).take p.2) .untagged) s

/-- Speculative ways are free for a tagged write of these lines, each after those before it have taken theirs (R190). -/
def State.waysFree (s : State) (a : Arbor) (e : RangeEnt) (h : Word) (lines : List Nat) : Bool :=
  (lines.foldl (fun (x : Bool × State) line =>
    (x.1 && (a.stateAt (e.home line) h == .refuted || x.2.wayFree a e h line), x.2.writeVersion a e h line []))
    (true, s)).1

/-! ## L1 and L2 copies (R99, R101, R102, R105) -/

/-- The L2 of a die holds nothing for a function whose way mask is zero (R99). -/
def State.l2Off (s : State) (fn : Nat) : Bool := (s.func fn).l2mask == 0

/-- A copy of a line, if the list holds one. -/
def findCopy (l : List CacheLine) (unit : Nat) (e : RangeEnt) (line : Nat) : Option CacheLine :=
  l.find? fun x => x.unit == unit && x.job == e.owner && x.rng == e.idx && x.line == line && x.key == e.key

/-- Changes the copy of a line, made empty first if there is none, in the L2 way given. -/
def modCopy (l : List CacheLine) (unit : Nat) (e : RangeEnt) (line fn way : Nat) (f : CacheLine → CacheLine) :
    List CacheLine :=
  upsert (fun x => x.unit == unit && x.job == e.owner && x.rng == e.idx && x.line == line && x.key == e.key)
    ⟨unit, e.idx, line, e.key, fn, e.owner, List.replicate 64 0, 0, 0, [], way⟩ f l

/-- Copies in a way of a die's L2. -/
def State.wayUse (s : State) (die w : Nat) : Nat := (s.l2.filter fun x => x.unit == die && x.way == w).length

/-- The way of a die's L2 that a line filled by a function takes: of those its mask allows, the one that holds least (R99;
log entry 31). -/
def State.fillWay (s : State) (die fn : Nat) : Nat :=
  let ways := (List.range 16).filter (s.func fn).l2mask.getLsbD
  ways.foldl (fun b w => if s.wayUse die w < s.wayUse die b then w else b) ((ways.head?).getD 0)

/-- What an L2 holds clean of bytes that an engine or a message has written at home takes their values: such a write counts
as published at `.dev`, and a refresh at `.die` of any core is then enough to see it (R110, R133). -/
def State.freshen (s : State) (e : RangeEnt) (off : Nat) (bs : List Byte) : State :=
  let same (x : CacheLine) : Bool :=
    x.job == e.owner && x.rng == e.idx && x.line == off / 64 * 64 && x.key == e.key
  let m := byteMask (off % 64) bs.length
  { s with l2 := modWhere same (fun x =>
      { x with bytes := maskBytes x.bytes (overlay (List.replicate 64 0) (off % 64) bs) (m &&& ~~~x.dirty) }) s.l2 }

/-- An engine or a message writes bytes within one line at home; an orphan's or tagged write reaches no committed data (R133,
R191, R196). -/
def State.agentWrite (s : State) (e : RangeEnt) (off : Nat) (bs : List Byte) (w : Who) : State :=
  let s := s.homeWrite e off bs w
  if w = .untagged then s.freshen e off bs else s

/-- The same from an offset on, one write event for each line, as an untagged party. -/
def State.agentWriteN (s : State) (e : RangeEnt) (off : Nat) (bs : List Byte) : State :=
  (linePieces off bs.length).foldl (fun s p => s.agentWrite e p.1 ((bs.drop (p.1 - off)).take p.2) .untagged) s

/-- Fills the bytes a copy does not hold from a fetched line. -/
def CacheLine.fill (c : CacheLine) (bs : List Byte) : CacheLine :=
  { c with bytes := maskBytes bs c.bytes c.valid, valid := BitVec.allOnes 64 }

/-- The dirty bytes of a copy merge at home (R101): one write event of the bytes written. -/
def State.mergeHome (s : State) (c : CacheLine) : State :=
  match s.entAt c.rng c.line with
  | none => s
  | some e => if c.dirty = 0 then s else s.writeBase { e with key := c.key } c.line c.bytes c.dirty

/-- A copy leaves an L2 by replacement: its dirty bytes go home (R102). -/
def State.evictL2 (s : State) (c : CacheLine) : State :=
  let s := s.mergeHome c
  { s with l2 := s.l2.filter (· != c) }

/-- A function whose way mask is zero bypasses its die's L2: what the L2 still holds of a line leaves it first, so that
neither its dirty bytes are missed nor its older ones found later (R99, R102, R133). -/
def State.bypassL2 (s : State) (die fn : Nat) (e : RangeEnt) (line : Nat) : State :=
  match if s.l2Off fn then findCopy s.l2 die e line else none with
  | some c => s.evictL2 c
  | none => s

/-- Fills a line into a core's L1, and into its die's L2 unless the function bypasses it; the L2's bytes come first, then
home's (R101, R99). -/
def State.fillL1 (s : State) (core fn : Nat) (e : RangeEnt) (line : Nat) : State :=
  let die := core / 64
  let s := s.bypassL2 die fn e line
  let home := s.viewLine e line .untagged
  if s.l2Off fn then { s with l1 := modCopy s.l1 core e line fn 0 (·.fill home) }
  else
    let l2 := modCopy s.l2 die e line fn (s.fillWay die fn) (·.fill home)
    let bs := ((findCopy l2 die e line).map (·.bytes)).getD home
    { s with l2 := l2, l1 := modCopy s.l1 core e line fn 0 (·.fill bs) }

/-- A snapshot read of n bytes within one line by a core (R101). -/
def State.snapRead (s : State) (core fn : Nat) (e : RangeEnt) (off n : Nat) : List Byte × State :=
  let line := off / 64 * 64
  let m := byteMask (off % 64) n
  let take (c : CacheLine) : List Byte := (c.bytes.drop (off % 64)).take n
  match findCopy s.l1 core e line with
  | some c =>
    if c.valid &&& m = m then (take c, s)
    else
      let s := s.fillL1 core fn e line
      (((findCopy s.l1 core e line).map take).getD [], s)
  | none =>
    let s := s.fillL1 core fn e line
    (((findCopy s.l1 core e line).map take).getD [], s)

/-- A `PH` write into a core's L1, with its byte mask (R101). -/
def State.phWrite (s : State) (core fn : Nat) (e : RangeEnt) (off : Nat) (bs : List Byte) : State :=
  let m := byteMask (off % 64) bs.length
  let s := if bs.length = 64 then s.healUnder e (off / 64 * 64) else s
  { s with l1 := modCopy s.l1 core e (off / 64 * 64) fn 0 fun c =>
      { c with bytes := overlay c.bytes (off % 64) bs, valid := c.valid ||| m, dirty := c.dirty ||| m } }

/-- The dirty bytes of an L1 copy go home past the die's L2: a copy there takes them as clean bytes, so that what it holds
is never older than home (R99, R106, R133). -/
def State.mergeThrough (s : State) (c : CacheLine) : State :=
  let same (x : CacheLine) : Bool :=
    x.unit == c.unit / 64 && x.job == c.job && x.rng == c.rng && x.line == c.line && x.key == c.key
  let s := s.mergeHome c
  { s with l2 := modWhere same (fun x => { x with bytes := maskBytes x.bytes c.bytes c.dirty, valid := x.valid ||| c.dirty,
                                                  dirty := x.dirty &&& ~~~c.dirty }) s.l2 }

/-- The dirty bytes of an L1 copy merge into the die's L2, or go home under an empty way mask (R99, R105). -/
def State.mergeL2 (s : State) (c : CacheLine) : State :=
  if c.dirty = 0 then s
  else if s.l2Off c.fn then s.mergeThrough c
  else
    match s.entAt c.rng c.line with
    | none => s
    | some e =>
      { s with l2 := modCopy s.l2 (c.unit / 64) { e with key := c.key } c.line c.fn (s.fillWay (c.unit / 64) c.fn) fun x =>
          { x with bytes := maskBytes x.bytes c.bytes c.dirty, valid := x.valid ||| c.dirty,
                   dirty := x.dirty ||| c.dirty, writers := c.unit :: x.writers.filter (· != c.unit) } }

/-- `PUBLISH` at a scope by a core for a job, of everything its store buffer has drained (R105). -/
def State.publish (s : State) (core job scope : Nat) : State :=
  if scope = 0 then s else
  let mine := s.l1.filter fun c => c.unit == core && c.job == job && c.dirty != 0
  let s := mine.foldl State.mergeL2 s
  let s := { s with l1 := modWhere (fun c => c.unit == core && c.job == job) (fun c => { c with dirty := 0 }) s.l1 }
  if scope = 1 then s else
  let die := core / 64
  let out := s.l2.filter fun c => c.unit == die && c.job == job && c.dirty != 0 && c.writers.contains core
  let s := out.foldl State.mergeHome s
  let l2 := modWhere (fun c => c.unit == die && c.job == job && c.writers.contains core)
    (fun c => { c with dirty := 0, writers := [] }) s.l2
  let s := { s with l2 := l2 }
  if scope = 2 then s else
  (mine ++ out).foldl (fun s c =>
    match s.entAt c.rng c.line with
    | some e => if e.tierOf c.line = 1 then s.cleanHome { e with key := c.key } c.line else s
    | none => s) s

/-- What a die's L2 holds dirty of a job goes home, whoever wrote it: what a thread of the die has read there is never newer
than home from now on (R102, R133). -/
def State.drainL2 (s : State) (die job : Nat) : State :=
  let mine (c : CacheLine) : Bool := c.unit == die && c.job == job && c.dirty != 0
  let s := (s.l2.filter mine).foldl State.mergeHome s
  { s with l2 := modWhere mine (fun c => { c with dirty := 0, writers := [] }) s.l2 }

/-- Drops the clean bytes of the copies the test picks and keeps the dirty ones (R105). -/
def dropClean (p : CacheLine → Bool) (l : List CacheLine) : List CacheLine :=
  (modWhere p (fun c => { c with valid := c.dirty }) l).filter fun c => c.valid != 0

/-- `REFRESH` at a scope by a core for a job; at `.dev` and `.sys` also the core's instruction cache (R105, R272). -/
def State.refresh (s : State) (core job scope : Nat) : State :=
  if scope = 0 then s else
  let s := { s with l1 := dropClean (fun c => c.unit == core && c.job == job) s.l1 }
  if scope = 1 then s else
  { s with l2 := dropClean (fun c => c.unit == core / 64 && c.job == job) s.l2,
           code := s.code.filter (·.core != core) }

/-- Adds an entry to a range's loss list, counting on past its capacity (R251), the list in memory at `LOSSVA` too; with it
go the lines of a retired channel that parity recovered from it (R252). -/
def State.addLoss (s : State) (x line reason : Nat) : State :=
  match s.range x with
  | none => s
  | some e =>
    if e.losses.any (·.line == line) then s else
    let new : List Loss := ⟨reason, line⟩ :: (e.alsoLost line).map (⟨2, ·⟩)
    (s.modRange x fun e => { e with losses := e.losses ++ new, lossCount := e.lossCount + new.length }).writeLosses x

/-! ## Capacities (R23, R30, R95, R102) -/

/-- A `PH` or `RO` copy leaves an L1 by replacement: its dirty bytes go to the die's L2, or home (R99, R102). -/
def State.evictL1 (s : State) (c : CacheLine) : State :=
  let s := s.mergeL2 c
  { s with l1 := s.l1.filter (· != c) }

/-- The entry that a line of a home slice belongs to (R77). -/
def State.lineRange (s : State) (l : L3Line) : Option RangeEnt :=
  (s.entAt l.rng l.line).filter (·.owner == l.job)

/-- A line leaves its home slice by replacement: it goes to memory (R83), where it belongs to a range. -/
def State.evictL3 (s : State) (l : L3Line) : State :=
  match s.lineRange l with
  | some e => s.expelHome { e with key := l.key } l.line
  | none => { s with l3 := s.l3.filter (· != l) }

/-- The slice and set that hold a line; a line whose range is gone is counted at slice 0. -/
def State.l3PlaceOf (s : State) (l : L3Line) : Nat × Nat :=
  match s.lineRange l with
  | some e => l3Place e l.line l.key
  | none => (0, Config.l3Set l.job l.rng l.line l.key % 12288)

/-- What a list holds past a capacity, the oldest first. -/
def overfull {α : Type} (cap : Nat) (l : List α) : List α := l.take (l.length - cap)

/-- Every L1, L2 and L3 slice holds no more lines than its ways have room for: an L1 1,024 for each of its 12 - `spw` ways
of 64 KiB, an L2 65,536 in each of its 16 ways of 4 MiB, each of the 12,288 sets of an L3 slice 16 lines and versions
together; what is oldest leaves (R23, R30, R95, R99, R190; log entry 31). -/
def State.trim (s : State) : State :=
  let s := if s.l1.length ≤ 1024 then s else
    (s.l1.map (·.unit)).eraseDups.foldl (fun s u =>
      (overfull (1024 * (12 - (s.core u).spw)) (s.l1.filter (·.unit == u))).foldl State.evictL1 s) s
  let s := if s.l2.length ≤ 65536 then s else
    (List.range 128).foldl (fun s i =>
      (overfull 65536 (s.l2.filter fun x => x.unit == i / 16 && x.way == i % 16)).foldl State.evictL2 s) s
  if s.l3.length + s.versions.length ≤ 16 then s else
    (s.l3.map s.l3PlaceOf).eraseDups.foldl (fun s place =>
      (overfull (16 - (s.versionsAt place).length) (s.l3.filter (s.l3PlaceOf · == place))).foldl State.evictL3 s) s

end Sys2Proof.Machine
end

