-- ==== Sys2Proof/Machine/Translate.lean ====
section
/-! DEFINITION. Translation and its checks (R72, R76 to R79, R111), and the words of memory that the launch unit and the
engines read and write through it. -/

namespace Sys2Proof.Machine
open Sys2Proof

/-- A cause with its detail: what a failing check raises. -/
abbrev Trap := Nat × DWord

/-- The rights bits of R73, R at bit 6. -/
def rightR : BitVec 7 := 64
/-- Write. -/
def rightW : BitVec 7 := 32
/-- Code. -/
def rightX : BitVec 7 := 16
/-- Atomics. -/
def rightA : BitVec 7 := 8
/-- Host. -/
def rightH : BitVec 7 := 4
/-- Fabric peers. -/
def rightF : BitVec 7 := 2
/-- Copy engine. -/
def rightC : BitVec 7 := 1

/-- The range grants every right needed. -/
def RangeEnt.grants (e : RangeEnt) (r : BitVec 7) : Bool := e.rights &&& r == r

/-- The range of a job that contains a VA (R72, R89). -/
def State.findRange (s : State) (job va : Nat) : Option RangeEnt :=
  if va ≥ 2 ^ 57 then none
  else s.ranges.find? fun e => e.owner == job && decide (e.base ≤ va) && decide (va < e.base + e.limit)

/-- The checks of R78 and R79 for n bytes at a VA with an alignment and rights: the range and the offset. -/
def State.translate (s : State) (job va n align : Nat) (rights : BitVec 7) : Except Trap (RangeEnt × Nat) :=
  let w := BitVec.ofNat 64 va
  if va % align ≠ 0 then .error (0x13, w)
  else match s.findRange job va with
    | none => .error (0x10, w)
    | some e =>
      if va + n > e.base + e.limit then .error (0x11, BitVec.ofNat 64 (e.base + e.limit))
      else if !e.grants rights then .error (0x12, w)
      else .ok (e, va - e.base)

/-- The key of a range is live (R104). -/
def State.keyLive (s : State) (e : RangeEnt) : Bool := (s.keyMat e.key).isSome

/-- The loss and key checks of an access of n bytes (R251, R104), 0x14 before 0x15 as the entries order them. -/
def State.lineChecks (s : State) (e : RangeEnt) (write : Bool) (off n : Nat) (va : Nat) : Option Trap :=
  match e.firstBlocked write off n with
  | some l => some (0x14, BitVec.ofNat 64 (if l ≤ off then va else e.base + l))
  | none => if s.keyLive e then none else some (0x15, BitVec.ofNat 64 va)

/-- A VA lies in the job's wain aperture (R111). -/
def State.inAperture (s : State) (job va : Nat) : Bool :=
  match s.job job with
  | some j => j.started && decide (j.aperture ≤ va) && decide (va < j.aperture + 32768)
  | none => false

/-- A VA plus a signed offset, modulo 2^64. -/
def vaPlus (va : DWord) (off : Int) : Nat := (va + BitVec.ofInt 64 off).toNat

/-- The checks of an engine's or unit's access: the wain aperture is recognised first (R111), then R78 and R79. -/
def State.translateOut (s : State) (job va n align : Nat) (rights : BitVec 7) : Except Trap (RangeEnt × Nat) :=
  if s.inAperture job va then .error (0x12, BitVec.ofNat 64 va) else s.translate job va n align rights

/-- How a unit's read of n bytes of a peer range failed, if a line of them did (R75, R207). -/
def State.peerFailure (s : State) (e : RangeEnt) (off n : Nat) : Option (Nat × Nat × Nat × Nat) :=
  if e.peer.isNone then none
  else (linePieces off n).findSome? fun p => (s.peerEntry e (p.1 / 64 * 64)).bind (·.failed)

/-- Nothing stops a unit's read of n bytes: no line of them is lost, their key is live, and no fetch of them from a peer
failed (R75, R104, R251). -/
def State.readable (s : State) (e : RangeEnt) (off n va : Nat) : Bool :=
  (s.lineChecks e false off n va).isNone && (s.peerFailure e off n).isNone

/-- n bytes of a job's memory read at home as committed data, where they translate with the rights and can be read. -/
def State.readVa (s : State) (job va n : Nat) (rights : BitVec 7) : Option (List Byte) :=
  match s.translate job va n 1 rights with
  | .ok (e, off) => if s.readable e off n va then some (s.homeReadN e off n) else none
  | .error _ => none

/-- A 64-bit word of a job's memory at home; zero where it cannot be read. -/
def State.readWord (s : State) (job va : Nat) : Nat := leNat ((s.readVa job va 8 0).getD [])

/-- The checks of a counter: 8-aligned, in an `SH` range with W and A (R33, R37 step 3). -/
def State.checkCounter (s : State) (job va : Nat) : Option Trap :=
  match s.translateOut job va 8 8 (rightW ||| rightA) with
  | .error t => some t
  | .ok (e, _) => if e.cls = .sh then none else some (0x12, BitVec.ofNat 64 va)

/-- A kernel header read with X (R231); none where it cannot be read, lost lines, a retired key and a failed fetch among
the reasons (R75, R104, R251), or a reserved bit is set. -/
def State.readHeader (s : State) (job va : Nat) : Option KHdr :=
  match s.translateOut job va 128 128 rightX with
  | .error _ => none
  | .ok (e, off) =>
    if !s.readable e off 128 va then none else
    let x := leNat (s.homeReadN e off 128)
    let f (lo n : Nat) : Nat := natBits x lo n
    let d (lo : Nat) : DWord := BitVec.ofNat 64 (f lo 64)
    if f (0x30 * 8 + 25) 7 ≠ 0 ∨ f (0x30 * 8 + 9) 7 ≠ 0 ∨ f (0x38 * 8 + 9) 7 ≠ 0 ∨ f 512 512 ≠ 0 then none
    else some
      { entry := d 0, handler := d 64, sptab := d 128, ssave := d 192, srest := d 256, feat := d 320,
        spad := f (0x30 * 8 + 32) 32, ncrib := f (0x30 * 8 + 16) 9, vregs := f (0x30 * 8) 9,
        ssz := f (0x38 * 8 + 32) 32, tsz := f (0x38 * 8 + 16) 16, nsp := f (0x38 * 8) 9 }

/-- The scratchpad share of each of c cores (R44). -/
def shareOf (spad c : Nat) : Nat := (spad + 256 * c - 1) / (256 * c) * 256

/-- A header is refused at `LAUNCH` (R37, step 5): feature bits, register count, crib count, shares beyond capacity. -/
def State.headerRefused (s : State) (k : KHdr) : Bool :=
  k.feat &&& ~~~s.featAcc != 0 || k.vregs % 8 != 0 || decide (k.vregs < 8) || decide (k.vregs > 256) ||
    decide (k.ncrib > 256) || decide (shareOf k.spad 4 + 16 * k.ncrib > 11 * 65536)

/-- A feature is accepted (R2, R3); bit 0 is always part of the instruction set. -/
def State.accepts (s : State) (f : Nat) : Bool := f == 0 || s.featAcc.getLsbD f

end Sys2Proof.Machine
end

