-- ==== Sys2Proof/Machine/Post.lean ====
section
/-! DEFINITION. Message counts, planes, endpoints and the injection of messages (R197 to R199, R208, R214), and what the
engines and units of the package read from and write to memory through it, peer ranges among them (R33, R75). -/

namespace Sys2Proof.Machine
open Sys2Proof

/-- Changes a job's counts at an endpoint (R214). -/
def State.modCount (s : State) (job ep : Nat) (f : Counts → Counts) : State :=
  s.modJob job fun j => { j with counts := j.counts.modify ep f }
/-- One message injected. -/
def State.injected (s : State) (job ep : Nat) : State := s.modCount job ep fun c => { c with inj := c.inj + 1 }
/-- One message consumed. -/
def State.consumed (s : State) (job ep : Nat) : State := s.modCount job ep fun c => { c with cons := c.cons + 1 }
/-- One message, or another failure, counted lost (R217). -/
def State.lostOne (s : State) (job ep : Nat) : State := s.modCount job ep fun c => { c with lost := c.lost + 1 }

/-- The switch planes that live. -/
def State.planes (s : State) : List Nat := (List.range 4).filter fun p => !s.deadPlanes.contains p

/-- The plane of a destination's hash value (R197). -/
def State.planeOf (s : State) (h : Nat) : Nat :=
  if s.deadPlanes.contains (h % 4) then (s.planes[h % s.planes.length]?).getD 0 else h % 4

/-- The hash value of a memory destination (R197). -/
def memHash (x o : Nat) : Nat := x + o / 256
/-- The hash value of a core or die endpoint (R197). -/
def coreHash (d c : Nat) : Nat := 64 * d + c

/-- The endpoint of a compute die (R199). -/
def dieEp (d : Nat) : Nat := d
/-- The endpoint of the base die that holds a slice (R23, R199). -/
def sliceEp (slice : Nat) : Nat := 8 + slice / 64
/-- What stands for the endpoint of a message that lies in another package: it keeps its counts there (R214, R215). -/
def peerEp : Nat := 12
/-- The endpoint of the base die that carries a Dzizin port (R23). -/
def portEp (port : Nat) : Nat := 8 + port / 4

/-- A package number that is this package's or a linked peer's. -/
def State.knowsPkg (s : State) (p : Nat) : Bool :=
  p == s.pkg || s.ports.any fun x => match x.peer with | some (q, _) => q == p | none => false

/-- The port that leads to a package: the first that was linked to it, isolated or not, since routes are fixed (R198,
R208; log entry 102). -/
def State.portTo (s : State) (p : Nat) : Option Port :=
  s.ports.find? fun x => match x.peer with | some (q, _) => q == p | none => false

/-- A message that waits for an answer. -/
def MsgKind.asks : MsgKind → Bool
  | .write .. | .readReq .. | .atomicReq .. | .active .. => true
  | _ => false

/-- The response that answers a message, from its target to its source. -/
def Msg.answer (m : Msg) (k : MsgKind) : Msg :=
  { m with core := none, srcPkg := m.dstPkg, dstPkg := m.srcPkg, srcEp := m.dstEp, dstEp := m.srcEp, port := none,
           accepted := false, kind := k }

/-- The plane of the answer to a message: that of the core it goes to (R197); one to a router, whose hash the rule does not
give, keeps the plane of what it answers (log entry 141). -/
def State.answerPlane (s : State) (m : Msg) : Nat :=
  match m.core with
  | some c => s.planeOf (coreHash (c / 64) (c % 64))
  | none => m.plane

/-- The router of a port's base die consumes a message by proxy, counted lost, and answers a request with reason 0x31 (R207,
R208, R217). -/
def State.proxy (s : State) (m : Msg) (ep : Nat) : State :=
  let answer : Msg :=
    { m.answer (.error 0x31 0x31 m.plane) with id := s.nextId, srcEp := ep, plane := s.answerPlane m }
  let s := if m.kind.asks then { s.bump.injected m.job ep with msgs := s.msgs ++ [answer] } else s
  (s.consumed m.job ep).lostOne m.job ep

/-- Injects a message (R214). One for a peer package leaves through its port; where none leads there, or the port is
isolated, the router that owns it consumes the message by proxy (R208). -/
def State.inject (s : State) (m : Msg) : State :=
  let m := { m with id := s.nextId }
  let s := s.bump.injected m.job m.srcEp
  if m.dstPkg = s.pkg then { s with msgs := s.msgs ++ [m] }
  else
    let port := s.portTo m.dstPkg
    match port.filter (!·.isolated) with
    | some p => { s with outgoing := s.outgoing ++ [{ m with port := some p.id }] }
    | none => s.proxy m (portEp ((port.map (·.id)).getD 0))

/-- The home endpoint of an offset of a range of this package. -/
def RangeEnt.endpoint (e : RangeEnt) (off : Nat) : Nat := sliceEp (e.home off)

/-- A message from a thread's core to a place in memory (R197, R199). -/
def State.memMsg (s : State) (job core pkg x off req piece : Nat) (k : MsgKind) : Msg :=
  let ep := if pkg = s.pkg then ((s.range x).map (·.endpoint off)).getD 8 else peerEp
  { id := 0, job, core := some core, plane := s.planeOf (memHash x off), port := none, srcPkg := s.pkg, dstPkg := pkg,
    srcEp := dieEp (core / 64), dstEp := ep, req, piece, use := 0, accepted := false, kind := k }

/-- A message from a thread's core to a core or die (R197, R199). -/
def State.coreMsg (s : State) (job core pkg die c req piece : Nat) (k : MsgKind) : Msg :=
  { id := 0, job, core := some core, plane := s.planeOf (coreHash die c), port := none, srcPkg := s.pkg, dstPkg := pkg,
    srcEp := dieEp (core / 64), dstEp := if pkg = s.pkg then dieEp die else peerEp, req, piece, use := 0,
    accepted := false, kind := k }

/-! ## Peer ranges as units reach them (R75) -/

/-- The number under which an instruction fetch of an issue slot reads peer ranges. -/
def codeReader (core slot : Nat) : Nat := 2 ^ 64 + 2 * core + slot

/-- The number under which a save or restore of a stook reads peer ranges. -/
def stookReader (tag : Nat) : Nat := 2 ^ 68 + tag

/-- A request of a unit to a peer range sets out; its answer completes it (R75, R199). -/
def State.unitAsk (s : State) (job die : Nat) (kind : FabKind) (pkg x off : Nat) (k : MsgKind) : State :=
  let f : FabReq := { id := s.nextId, op := 0, tag := 0, job := job, sheaf := 0, lanes := 0, core := 64 * die, kind := kind,
                      left := [0], unsent := [], dep := ⟨0, 0, 0, 0⟩, relScope := none }
  let s := { s.bump with fabReqs := s.fabReqs ++ [f] }
  s.inject (s.memMsg job (64 * die) pkg x off f.id 0 k)

/-- A word that names an offset of a range of a package (R200). -/
def DestWord.memory (pkg x off : Nat) : DestWord :=
  { toff := BitVec.ofNat 64 off, kind := 0, pkg, range := x, die := 0, core := 0, crib := 0, cribEn := false, xoff := 0,
    reserved := false }

/-- A unit has fetched the lines of these that lie in peer ranges. -/
def State.hasLines (s : State) (who : Nat) (need : List (RangeEnt × Nat)) : Bool :=
  need.all fun n => n.1.peer.isNone || s.peerBuf.any fun p => p.who == who && p.rng == n.1.idx && p.line == n.2

/-- A unit's lines stand first among those fetched. -/
def State.peerFirst (s : State) (who : Nat) : State :=
  { s with peerBuf := s.peerBuf.filter (·.who == who) ++ s.peerBuf.filter (·.who != who) }

/-- What one unit fetched is another's. -/
def State.handOver (s : State) (who to' : Nat) : State :=
  { s with peerBuf := modWhere (·.who == who) (fun p => { p with who := to' }) s.peerBuf }

/-- A unit's lines of peer ranges are all fetched, and stand first; else read requests set out for those that are
missing (R75). -/
def State.gather (s : State) (who job die : Nat) (need : List (RangeEnt × Nat)) : Bool × State :=
  let need := (need.filter (·.1.peer.isSome)).eraseDups
  if s.hasLines who need then
    (true, s.peerFirst who)
  else
    (false, (need.filter fun n => !s.hasLines who [n]).foldl (fun s n =>
      match n.1.peer with
      | none => s
      | some (pkg, x) =>
        if s.fabReqs.any (·.kind == .fetch who n.1.idx n.2) then s
        else s.unitAsk job die (.fetch who n.1.idx n.2) pkg x n.2
          (.readReq (.memory pkg x n.2) (min 64 (n.1.limit - n.2)))) s)

/-- A unit has used what it fetched. -/
def State.used (s : State) (who : Nat) : State := { s with peerBuf := s.peerBuf.filter (·.who != who) }

/-- The lines of n bytes from an offset of a range. -/
def RangeEnt.linesOf (e : RangeEnt) (off n : Nat) : List (RangeEnt × Nat) :=
  (linePieces off n).map fun p => (e, p.1 / 64 * 64)

/-- The lines of n bytes of a job's memory, where they translate. -/
def State.vaLines (s : State) (job va n : Nat) : List (RangeEnt × Nat) :=
  match s.translate job va n 1 0 with
  | .ok (e, off) => e.linesOf off n
  | .error _ => []

/-- A count of a job block: what memory holds, or where the block lies in a peer range what the launch unit, which alone
writes it, has counted (R34, R75; log entry 123). -/
def State.blockWord (s : State) (job va count : Nat) : Nat :=
  match s.translate job va 8 1 0 with
  | .ok (e, _) => if e.peer.isSome then count else s.readWord job va
  | .error _ => 0

/-- Writes bytes to a job's memory at home, by write requests to a peer range; nothing where they do not translate, or
meet a lost line or a retired key (R104, R251). -/
def State.writeVa (s : State) (job va : Nat) (bs : List Byte) : State :=
  match s.translate job va bs.length 1 0 with
  | .error _ => s
  | .ok (e, off) =>
    match e.peer with
    | some (pkg, x) => (linePieces off bs.length).foldl (fun s p =>
        s.unitAsk job 0 .unit pkg x p.1 (.write (.memory pkg x p.1) ((bs.drop (p.1 - off)).take p.2))) s
    | none => if (s.lineChecks e true off bs.length va).isSome then s else s.homeWriteN e off bs

/-- Adds to a 64-bit counter with an atomic add at its home, by an atomic request on a peer range (R33, R75); a VA of zero
names no counter. -/
def State.addCounter (s : State) (job va n : Nat) : State :=
  if va = 0 then s else
  match s.translate job va 8 1 0 with
  | .error _ => s
  | .ok (e, off) =>
    match e.peer with
    | some (pkg, x) => s.unitAsk job 0 .unit pkg x off (.atomicReq (.memory pkg x off) .add 8 n 0)
    | none => s.writeVa job va (leBytes 8 (s.readWord job va + n))

end Sys2Proof.Machine
end

