-- ==== Sys2Proof/Machine/Partition.lean ====
section
/-! DEFINITION. Removing stooks, refuting an arbor's nodes, and the watchdog's reset of a partition (R51, R196, R217,
R240, R241). -/

namespace Sys2Proof.Machine
open Sys2Proof

/-- Takes the threads of a stook out of the issue slots and everything it started out of the machine. -/
def State.dropStook (s : State) (tag : Nat) : State :=
  let clear (b : Option Bundle) : Option Bundle := b.bind fun x => if x.tag == tag then none else some x
  { s with
    cores := s.cores.map fun c =>
      { c with slot0 := clear c.slot0, slot1 := clear c.slot1, convs := c.convs.filter (·.tag != tag) }
    sheaves := s.sheaves.filter (·.tag != tag)
    stooks := s.stooks.filter (·.tag != tag)
    reqs := s.reqs.filter (·.tag != tag)
    results := s.results.filter (·.tag != tag)
    ops := s.ops.filter (·.tag != tag)
    holds := s.holds.filter (·.tag != tag)
    deferred := s.deferred.filter (·.tag != tag)
    copies := s.copies.filter (·.tag != tag)
    followOns := s.followOns.filter (·.tag != tag)
    tierOps := s.tierOps.filter (·.tag != tag)
    mxTable := s.mxTable.filter (·.tag != tag)
    tiles := s.tiles.filter (·.tag != tag)
    fabReqs := s.fabReqs.filter (·.tag != tag)
    peerBuf := s.peerBuf.filter (·.who != stookReader tag) }

/-- Refutes every open node of an arbor, with a pass that reaches the slices in their slots as every other; a flatten
follows, which frees the versions once all passes have reached all slices (R28, R29, R193, R195, R196). Nothing waits at it
afterwards. -/
def State.refuteAll (s : State) (a : Nat) : State :=
  s.modArbor a fun x =>
    let ns := (x.nodes.filter (·.state == .isOpen)).map (·.path)
    let r : Resolve :=
      { seq := x.nextSeq, commits := [], refutes := ns, applied := [], op := 0, status := 0, dest := 1023, freeing := true }
    { x with nodes := modWhere (·.state == .isOpen) (fun n => { n with state := .refuted }) x.nodes,
             inflight := if ns.isEmpty then x.inflight else x.inflight ++ [r], nextSeq := x.nextSeq + 1,
             queue := x.queue.filter (· == .free), flatten := true }

/-- R51 for one job: queue emptied, stooks destroyed, messages in flight consumed by proxy and counted lost, those that
stand at a Dzizin port among them (R241), `GRAPHCNT` := `GRAPHMARK`, the root stook to start anew. A job that has ended
already stays ended (log entry 103). -/
def State.resetJob (s : State) (job : Nat) : State :=
  match s.job job with
  | none => s
  | some j =>
    let s := ((s.stooks.filter (·.job == job)).map (·.tag)).foldl State.dropStook s
    let s := { s with saved := s.saved.filter (·.job != job) }
    let proxy (s : State) (ep : Nat) : State := (s.consumed job ep).lostOne job ep
    let s := (s.msgs.filter (·.job == job)).foldl (fun s m => proxy s m.dstEp) s
    let s := (s.outgoing.filter (·.job == job)).foldl (fun s m => proxy s (portEp (m.port.getD 0))) s
    let s := { s with msgs := s.msgs.filter (·.job != job), outgoing := s.outgoing.filter (·.job != job),
                      chunkUses := s.chunkUses.filter (·.job != job), copies := s.copies.filter (·.job != job), followOns := s.followOns.filter (·.job != job),
                      fabReqs := s.fabReqs.filter (·.job != job), mxTable := s.mxTable.filter (·.job != job) }
    let s := match s.arbor job with | some a => s.refuteAll a.id | none => s
    let s := { s with peerBuf := [] }
    if !j.started || j.ended then s else
    let mark := s.blockWord job (j.block + 0x18) j.counters.mark
    let phase := s.blockWord job (j.block + 8) j.counters.phase
    let s := s.writeVa job (j.block + 0x10) (leBytes 8 mark)
    s.modJob job fun j =>
      { j with counters := ⟨phase, mark, mark⟩, launches := [], graphs := [⟨mark + 1, false, false, false, phase + 1⟩], phaseNo := phase + 1,
               phaseCancelled := false, replay := BitVec.ofNat 64 phase, root := .waiting,
               wave := none, older := [], lastRetire := s.now }

/-- The jobs of a function, in order. -/
def State.jobsOf (s : State) (fn : Nat) : List Nat := (s.jobs.filter (·.fn == fn)).map (·.id)

/-- The watchdog of a job fires: its whole partition is reset (R240, R241). -/
def State.fire (s : State) (job cause : Nat) (epc : DWord) : State :=
  match s.job job with
  | none => s
  | some j =>
    let s := s.modJob job fun j => { j with fired := some ⟨cause, epc⟩ }
    let js := s.jobsOf j.fn
    let isPh (c : CacheLine) : Bool := js.contains c.job && ((s.entAt c.rng c.line).map (·.cls == .ph)).getD true
    let s := { s with l1 := s.l1.filter (!isPh ·), l2 := s.l2.filter (!isPh ·) }
    let refuse (f : Func) : Func :=
      match f.busy with
      | .preempt _ | .restore _ => if f.id == j.fn then { f with busy := .idle, status := 2 } else f
      | _ => f
    let s := { s with funcs := s.funcs.map refuse }
    js.foldl State.resetJob s

end Sys2Proof.Machine
end

