-- ==== Sys2Proof/Machine/Ops.lean ====
section
/-! DEFINITION. The shared operations of threads: registers and what covers their reads (R16, R71, R258), taking a cause
and returning from the handler (R224 to R229), holds (R66, R227, R234), and the issue of one instruction by the bundle of
the current slot (R17, R56, R57, R271). -/

namespace Sys2Proof.Machine
open Sys2Proof

/-! ## Registers -/

/-- The value a register of a lane holds; `z` and unassigned numbers read zero, `p7` reads true (R259). -/
def Sheaf.raw (h : Sheaf) (l r : Nat) : Word :=
  match h.threads[l]? with
  | none => 0
  | some t =>
    if r < 256 then (t.v[r]?).getD 0
    else if r < 640 then (h.s[r - 256]?).getD 0
    else if r < 647 then (if t.p.getLsbD (r - 640) then 1 else 0)
    else if r = 647 then 1
    else 0

/-- The allotment of a sheaf in registers per thread (R47). -/
def Sheaf.allot (h : Sheaf) : Nat := ((h.threads.head?).map (·.v.length)).getD 0

/-- The pending entry of a register in a thread. -/
def Thread.pending? (t : Thread) (r : Nat) : Option Pend := t.pend.find? (·.reg == r)

/-- A read of the register is covered: its stall counts have added up, or its result has landed (R16, R71; log entry 20),
under a slot or under none (log entry 144). -/
def Thread.covers (t : Thread) (ops : List Op) (r : Nat) : Bool :=
  match t.pending? r with
  | none => true
  | some p => match p.cover with
    | .stalls n => decide (n ≤ t.cnt)
    | .op id => !ops.any (·.id == id)

/-- A read of a register at issue: its value, or, where the read is not covered, the old or the new value (R71). -/
def State.readReg (s : State) (h : Sheaf) (l r : Nat) : Word :=
  let now := h.raw l r
  match h.threads[l]? with
  | none => now
  | some t =>
    if t.covers s.ops r then now else
    match t.pending? r with
    | none => now
    | some p =>
      let pick := Config.freePick (s.free * 65536 + l * 2048 + r)
      match p.cover with
      | .stalls _ => if pick then BitVec.ofNat 32 p.old else now
      | .op id =>
        let new := (s.results.find? (·.op == id)).bind fun x =>
          x.writes.find? fun w => w.1 == r && (w.2.1 == none || w.2.1 == some l)
        if pick then now else (new.map (·.2.2)).getD now

/-- Puts a value in a register of a lane (a uniform one for all): no write to `p7`, `z` or beyond the allotment. -/
def Sheaf.put (h : Sheaf) (l r : Nat) (x : Word) : Sheaf :=
  if r < 256 then { h with threads := h.threads.modify l fun t => { t with v := t.v.set r x } }
  else if r < 640 then { h with s := h.s.set (r - 256) x }
  else if r < 647 then
    let set (p : BitVec 8) : BitVec 8 :=
      if x = 0 then p &&& ~~~(1#8 <<< (r - 640)) else p ||| (1#8 <<< (r - 640))
    { h with threads := h.threads.modify l fun t => { t with p := set t.p } }
  else h

/-- Records that a register's latest write may not yet be covered. -/
def Thread.mark (t : Thread) (r old : Nat) (c : Cover) : Thread :=
  { t with pend := ⟨r, old, c⟩ :: t.pend.filter (·.reg != r) }

/-- A write of fixed latency: the value, and the stall sum at which each thread's reads are covered (R16). -/
def Sheaf.write (h : Sheaf) (l r : Nat) (x : Word) : Sheaf :=
  let old := (h.raw l r).toNat
  if r < 256 ∨ (640 ≤ r ∧ r < 647) then
    let h := h.put l r x
    { h with threads := h.threads.modify l fun t => t.mark r old (.stalls (t.cnt + 4)) }
  else if r < 640 then
    let h := h.put l r x
    { h with threads := h.threads.map fun t => t.mark r old (.stalls (t.cnt + 2)) }
  else h

/-- Marks registers as outstanding for an operation, in the lanes that will be written (R258). -/
def Sheaf.markOp (h : Sheaf) (m : Lanes) (r op : Nat) : Sheaf :=
  { h with threads := h.threads.mapIdx fun l t =>
      if (r < 256 ∨ (640 ≤ r ∧ r < 647)) ∧ m.getLsbD l ∨ (256 ≤ r ∧ r < 640) then t.mark r (h.raw l r).toNat (.op op) else t }

/-- A variable-latency result lands in a register: where a later write has overtaken it, one of the two values stays
(R258); a register beyond the allotment takes nothing (R353). -/
def State.landReg (s : State) (tag i op : Nat) (w : Nat × Option Nat × Word) : State :=
  match s.sheaf tag i with
  | none => s
  | some h =>
    let l := w.2.1.getD 0
    let mine := ((h.threads[l]?).bind fun t => t.pending? w.1).map fun p => p.cover == .op op
    let keep := mine != some true && !Config.freePick (s.free * 65536 + l * 2048 + w.1)
    let s := { s with free := s.free + 1 }
    if keep then s else s.modSheaf tag i fun h => h.put l w.1 w.2.2

/-! ## Operations and slots (R258) -/

/-- Outstanding producers of a slot of a sheaf. -/
def State.slotCount (s : State) (tag i k : Nat) : Nat :=
  (s.ops.filter fun o => o.tag == tag && o.sheaf == i && o.slot == k).length

/-- One outstanding part of an operation is done; with the last the operation ends and its slot drops. -/
def State.opPart (s : State) (id : Nat) : State :=
  let ops := modWhere (·.id == id) (fun o => { o with left := o.left - 1 }) s.ops
  { s with ops := ops.filter fun o => o.id != id || o.left != 0 }

/-- Ends an operation whatever is outstanding. -/
def State.opEnd (s : State) (id : Nat) : State := { s with ops := s.ops.filter (·.id != id) }

/-- A job's watchdog period starts afresh: a thread retired an instruction (R240). -/
def State.retire (s : State) (job : Nat) : State := s.modJob job fun j => { j with lastRetire := s.now }

/-! ## Leaving a bundle, and taking a cause -/

/-- Takes a thread out of the bundle it is in. -/
def State.leave (s : State) (tag i l : Nat) : State :=
  let cut (b : Option Bundle) : Option Bundle := b.map fun b =>
    if b.tag = tag then
      { b with parts := modWhere (·.sheaf == i) (fun p => { p with lanes := dropLane p.lanes l }) b.parts }
    else b
  let cores := s.cores.map fun c => ({ c with slot0 := cut c.slot0, slot1 := cut c.slot1 } : Core)
  let s := { s with cores := cores }
  s.modThread tag i l fun t => { t with inBundle := false }

/-- The core cycle of a stook's die. -/
def State.cycleOf (s : State) (tag : Nat) : Nat := ((s.stook tag).map fun k => s.cycles k.die).getD 0

/-- Handler entry (R226): saves the counter, detail, code and position, sets HACT, moves to the handler. -/
def State.enter (s : State) (k : Stook) (i l cause : Nat) (detail epc clause : DWord) (async : Bool) : State :=
  let s := s.leave k.tag i l
  s.modThread k.tag i l fun t =>
    { t with epc := epc, fault := detail, code := BitVec.ofNat 8 cause,
             cloff := BitVec.ofNat 5 ((epc - clause).toNat / 8), async := async, hact := true, pc := k.kh.handler,
             clause := k.kh.handler, held := none, readyAt := max t.readyAt (s.cycles k.die + 1) }

/-- A thread takes a synchronous or deferred cause: it enters its handler, or, without a usable one, fires the job's
watchdog (R226, R228). `clause` is the header of the clause that `epc` lies in. -/
def State.take (s : State) (tag i l cause : Nat) (detail epc clause : DWord) : State :=
  match s.stook tag, s.thread tag i l with
  | some k, some t =>
    if t.exited then s
    else if k.kh.handler = 0 ∨ t.hact ∨ t.rmode then s.fire k.job cause epc
    else s.enter k i l cause detail epc clause false
  | _, _ => s

/-- The causes that are asynchronous (R225). -/
def asyncCodes : List Nat := [0x23, 0x51, 0x50]

/-- Ends a thread as `EXIT` does: it drops its pending causes (R227, R294). -/
def State.exitThread (s : State) (tag i l : Nat) : State :=
  let s := s.leave tag i l
  s.modThread tag i l fun t => { t with exited := true, pending := [], held := none }

/-- `RETT` (R229, R256): clears HACT and RMODE and resumes at `%epc`. -/
def Thread.rett (t : Thread) : Thread :=
  { t with hact := false, rmode := false, svarea := 0, pc := t.epc, clause := t.epc - 8 * t.cloff.zeroExtend 64 }

/-! ## Holds (R66) -/

/-- The holds an asynchronous cause releases (R227). -/
def HoldKind.releasable : HoldKind → Bool
  | .publish _ | .refresh _ | .fence _ | .bar _ _ | .cribWait _ _ | .waitGe .. | .doze .. | .waitQuiet .. | .relAcc => true
  | .grow _ | .acqAcc _ | .saved _ | .launchQ .. | .mxDrain .. | .hypOpen _ => false

/-- The holds a pre-emption request withdraws (R66, R234): every blocking instruction. A `HYPOPEN` that the answer of a free
will end is one held for its checks (R364). -/
def HoldKind.parks : HoldKind → Bool
  | .saved _ | .hypOpen true => false
  | _ => true

/-- Withdraws a held instruction for one thread: its counter returns to it, and a `BAR` arrival it made is undone (R227,
R234). -/
def State.withdraw (s : State) (h : Hold) (l : Nat) : State :=
  let s := s.modThread h.tag h.sheaf l fun t =>
    let arr := match h.kind with
      | .bar b inst => if inst.any (·.1 == l) then t.arrivals.modify b (· - 1) else t.arrivals
      | _ => t.arrivals
    { t with held := none, pc := h.pc, clause := h.clause, arrivals := arr,
             readyAt := max t.readyAt (s.cycleOf h.tag + 1) }
  let s := match h.kind with
    | .bar _ _ =>
      let mine (q : Req) : Bool := q.op == h.op && q.lanes == 1#32 <<< l
      (s.reqs.filter mine).foldl (fun (s : State) _ => s.opPart h.op) { s with reqs := s.reqs.filter (!mine ·) }
    | _ => s
  let hs := modWhere (·.id == h.id)
    (fun x => { x with lanes := dropLane x.lanes l, active := dropLane x.active l }) s.holds
  let s := { s with holds := hs.filter fun x => x.id != h.id || x.lanes != 0 }
  if s.holds.any (·.id == h.id) then s else s.opEnd h.op

/-- A hold is over: its threads are ready from the next cycle (R66). -/
def State.unhold (s : State) (h : Hold) : State :=
  let s := s.modThreads h.tag h.sheaf h.lanes fun t =>
    if t.held == some h.id then { t with held := none, readyAt := max t.readyAt (s.cycleOf h.tag + 1) } else t
  { s with holds := s.holds.filter (·.id != h.id) }

/-- Ends a hold, and the instruction retires (R66, R240). -/
def State.release (s : State) (h : Hold) : State :=
  let s := s.unhold h
  match s.stook h.tag with
  | some k => s.retire k.job
  | none => s

/-- Every active thread of a hold takes a cause at the held instruction, which does not retire; the others are released
(R240). -/
def State.holdTrap (s : State) (h : Hold) (t : Trap) : State :=
  let s := (s.unhold h).opEnd h.op
  (lanesOf h.active).foldl (fun s l => s.take h.tag h.sheaf l t.1 t.2 h.pc h.clause) s

/-- The deepest a thread can take a posted cause now: no handler routine active, and a handler, or 0x51 (R227, R228). -/
def State.canTake (s : State) (tag : Nat) (t : Thread) (code : Nat) : Bool :=
  !t.hact && !t.rmode && (match s.stook tag with | some k => k.kh.handler != 0 || code == 0x51 | none => false)

/-- Posts an asynchronous cause to a thread: merged with one of its code that is pending, and releasing the thread from
a wait it may leave (R227). The threads of a stook that is saved are not there to take it (log entry 161). -/
def State.post (s : State) (tag i l code : Nat) (detail : DWord) : State :=
  match s.thread tag i l with
  | none => s
  | some t =>
    if t.exited then s else
    let s := s.modThread tag i l fun t => { t with pending := (code, detail) :: t.pending.filter (·.1 != code) }
    match t.held.bind fun id => s.holds.find? (·.id == id) with
    | some h => if h.kind.releasable && s.canTake tag t code then s.withdraw h l else s
    | none => s

/-! ## Issue -/

/-- One instruction as the threads of one sheaf of the bundle issue it: `lanes` are the bundle's, `act` the active
ones (R17); `pc` is its address, `clause` the header, `last` the end of the clause. -/
structure Ctx where
  core : Nat
  slot : Nat
  tag : Nat
  sheaf : Nat
  pc : DWord
  clause : DWord
  last : Bool
  lanes : Lanes
  act : Lanes
  i : Instr
  deriving DecidableEq, Repr

/-- What an instruction does for the active lanes of one sheaf. -/
abbrev Body := Ctx → State → State

/-- The sheaf that issues. -/
def Ctx.sh (c : Ctx) (s : State) : Option Sheaf := s.sheaf c.tag c.sheaf

/-- The `STALL` of an instruction counts for a thread that has left its bundle by a cause, as for the others (R16, R53):
`s.free` numbers the issue. -/
def State.stalled (s : State) (tag i l stall : Nat) : State :=
  s.modThread tag i l fun t =>
    { t with cnt := t.cnt + stall, issued := s.free, readyAt := max t.readyAt (s.cycleOf tag + max 1 stall) }

/-- The `STALL` of an instruction; of a word that takes 0x01 it is not looked at (R264). -/
def State.stallOf (s : State) (i : Instr) : Nat :=
  match i with
  | .reservedOpcode _ => 0
  | _ => if s.accepts i.shape.feat then i.common.stall.toNat else 0

/-- A lane takes a cause at the instruction, with the counter given to be saved (R225, R226). -/
def Ctx.takeLane (c : Ctx) (l cause : Nat) (detail epc clause : DWord) (s : State) : State :=
  (s.take c.tag c.sheaf l cause detail epc clause).stalled c.tag c.sheaf l (s.stallOf c.i)

/-- The lanes given take a cause at the instruction (R225). -/
def Ctx.trap (c : Ctx) (m : Lanes) (t : Trap) (s : State) : State :=
  (lanesOf m).foldl (fun s l => c.takeLane l t.1 t.2 c.pc c.clause s) s

/-- Changes the bundle in the current slot. -/
def Ctx.modBundle (c : Ctx) (f : Bundle → Bundle) (s : State) : State :=
  match s.slot c.core c.slot with
  | some b => s.setSlot c.core c.slot (some (f b))
  | none => s

/-- A lane's counter goes elsewhere than the next clause (R56). -/
def Ctx.jump (c : Ctx) (l : Nat) (target : DWord) (s : State) : State :=
  c.modBundle (fun b => { b with jumps := (c.sheaf, l, target) :: b.jumps }) s

/-- The bundle is held by a blocking instruction until its condition holds (R57, R66). -/
def Ctx.hold (c : Ctx) (kind : HoldKind) (op : Nat) (s : State) : State :=
  let h : Hold := { id := s.nextId, tag := c.tag, sheaf := c.sheaf, lanes := c.lanes, active := c.act, core := c.core,
                    pc := c.pc, clause := c.clause, op := op, seq := s.now, kind := kind }
  let s := { s.bump with holds := s.holds ++ [h] }
  let s := s.modThreads c.tag c.sheaf c.lanes fun t => { t with held := some h.id }
  c.modBundle (fun b => { b with hold := true }) s

/-- Opens an operation under the instruction's slot, with its outstanding parts and the registers it will write (R258):
`s.nextId` before is its id. -/
def Ctx.openOp (c : Ctx) (left : Nat) (s : State) : State :=
  let regs := c.i.shape.dsts.flatMap fun d => if d.1.isZ then [] else (List.range d.2).map (d.1.num + ·)
  let o : Op := { id := s.nextId, tag := c.tag, sheaf := c.sheaf, slot := c.i.common.sbw.toNat, left := left,
                  lanes := c.act, regs := regs, back := [] }
  let s := { s.bump with ops := s.ops ++ [o] }
  s.modSheaf c.tag c.sheaf fun h => regs.foldl (fun h r => h.markOp c.act r o.id) h

/-- Sets flags in the lanes given (R151). -/
def State.orFlags (s : State) (tag i : Nat) (m : Lanes) (f : Flags) : State :=
  if f = 0 then s else s.modThreads tag i m fun t => { t with fflags := t.fflags ||| f }

/-- The guard of a lane: its predicate, negated or not; `p7` reads true (R17). An uncovered read of it is a free value
(R71). -/
def State.guardOf (s : State) (h : Sheaf) (c : Common) (l : Nat) : Bool :=
  (if c.gp = 7#3 then true else s.readReg h l (640 + c.gp.toNat) != 0) != (c.gneg == 1#1)

/-- The registers of a field list, by number. -/
def regNums (l : List (Reg × Nat)) : List Nat :=
  l.flatMap fun x => if x.1.isZ then [] else (List.range x.2).map (x.1.num + ·)

/-- The registers beyond its fields that an instruction reads, as the register of its length says: the payload of a `PUT`
and the arguments of an `AMSG` (R18, R204). -/
def Sheaf.payload (h : Sheaf) (i : Instr) (l : Nat) : List Nat :=
  let regs (r : Reg) (n : Nat) : List Nat := ((List.range n).map (r.num + ·)).filter (· < 640)
  match i with
  | .put _ f => if mbit f.mod 0 then [] else regs f.a (min 64 ((h.raw l f.b.num).toNat / 4))
  | .amsg _ f => regs f.a (natBits (h.raw l f.b.num).toNat 16 6)
  | _ => []

/-- The first register a lane reads uncovered: the guard, then the sources in the order of their fields, then the payload
(R71; log entry 151). -/
def State.uncovered (s : State) (h : Sheaf) (i : Instr) (l : Nat) : Option Nat :=
  match h.threads[l]? with
  | none => none
  | some t =>
    let g := if i.common.gp = 7#3 then [] else [640 + i.common.gp.toNat]
    let w := match i with | .bsrd _ _ => [1024] | _ => []
    (g ++ (regNums i.shape.srcs).filter (· != 647) ++ w ++ h.payload i l).find? fun r => !t.covers s.ops r

/-- The instruction executed in a lane: between the two states the lane did not take a cause at it (R225, R240). -/
def executed (s s' : State) (c : Ctx) (l : Nat) : Bool :=
  match s.thread c.tag c.sheaf l, s'.thread c.tag c.sheaf l with
  | some t, some t' => !(!t.hact && t'.hact && t'.epc == c.pc)
  | _, _ => false

/-- Check mode of a core in the present cycle (R71, R324). -/
def State.checking (s : State) (core : Nat) : Bool :=
  let c := s.core core
  if s.cycles (core / 64) ≤ c.chkAt then c.chkOld else c.chk

/-- `FENCE` ignores its guard's threads: it holds every thread of the bundle (R137). -/
def isFence : Instr → Bool
  | .fence _ _ => true
  | _ => false

/-- The state with one free value taken; `s.free` before names it. -/
def State.draw (s : State) : State := { s with free := s.free + 1 }

/-- The lanes of a bundle's sheaf that are active (R17). -/
def State.activeLanes (s : State) (h : Sheaf) (i : Instr) (m : Lanes) : Lanes :=
  if isFence i then m else lanesWhere fun l => m.getLsbD l && s.guardOf h i.common l

/-- The lanes that take 0x04 in check mode: an active one with an uncovered read, or one whose guard is not covered
(R71). -/
def State.lateLanes (s : State) (h : Sheaf) (i : Instr) (m act : Lanes) : Lanes :=
  lanesWhere fun l => m.getLsbD l && (s.checking s.cur.1 && !isFence i && (s.uncovered h i l).isSome) &&
    (act.getLsbD l || (i.common.gp != 7#3 && s.uncovered h i l == some (640 + i.common.gp.toNat)))

/-- The bundle of the current slot is held, by a blocking instruction or by checks that are not decided. -/
def State.slotHeld (s : State) : Bool :=
  match s.slot s.cur.1 s.cur.2 with
  | some b => b.hold || b.deferred
  | none => false

/-- What follows the meaning of an instruction for its sheaf: the wreck of a stook whose watchdog fired is cleared away,
and the watchdog period of a job whose thread retired an instruction starts afresh (R240, R241). -/
def afterBody (s s' : State) (c : Ctx) (job : Nat) : State :=
  if (s'.stook c.tag).isNone then s'.dropStook c.tag
  else if !s'.slotHeld && (lanesOf c.act).any (executed s s' c) then s'.retire job
  else s'

/-- What issue gives an instruction's meaning to act on, with the lanes that are active. -/
def issueCtx (i : Instr) (s : State) (b : Bundle) (p : Part) (m : Lanes) : Ctx :=
  { core := s.cur.1, slot := s.cur.2, tag := b.tag, sheaf := p.sheaf, pc := b.base + 8 + 8 * BitVec.ofNat 64 b.pos,
    clause := b.base, last := decide (b.pos + 1 = b.count), lanes := p.lanes, act := m, i := i }

/-- An instruction that executes clears the mark of its slot (R207). -/
def State.clearMark (s : State) (b : Bundle) (p : Part) (i : Instr) : State :=
  s.modSheaf b.tag p.sheaf fun h => { h with failed := h.failed.filter (·.slot != i.common.sbw.toNat) }

/-! ## Whose access (R185) -/

/-- How accesses under a `%hyp` go: orphaned, under an open path, or untagged. Between service and completion of a
resolve, of a confirm too, they are still tagged (R185; log entry 158). -/
def State.whoPath (s : State) (job : Nat) (orphan : Bool) (h : Word) : Who :=
  if orphan then .orphan h
  else if h = 0 then .untagged
  else match s.arbor job with
    | none => .untagged
    | some a =>
      let moving := a.inflight.any fun r => r.commits.contains h || r.refutes.contains h
      if a.state h = .committed && !moving then .untagged else .tagged h

/-- How a thread's accesses go (R185). -/
def State.whoOf (s : State) (job : Nat) (t : Thread) : Who := s.whoPath job t.orphan t.hyp

/-- The thread is orphaned. -/
def Who.isOrphan : Who → Bool
  | .orphan _ => true
  | _ => false

/-- The thread is tagged. -/
def Who.isTagged : Who → Bool
  | .tagged _ => true
  | _ => false

/-- Lanes of a sheaf hold different `%hyp`. -/
def State.mixedHyp (s : State) (tag i : Nat) (m : Lanes) : Bool :=
  match (lanesOf m).filterMap fun l => s.thread tag i l with
  | [] => false
  | t :: ts => ts.any fun u => u.hyp != t.hyp

/-- The same where one of them at least is tagged, as R189 has it of instructions whose entries say no more (log entry
28). -/
def State.mixedTagged (s : State) (tag i : Nat) (m : Lanes) : Bool :=
  s.mixedHyp tag i m && match s.stook tag with
    | none => false
    | some k => (lanesOf m).any fun l =>
        match s.thread tag i l with | some t => (s.whoOf k.job t).isTagged | none => false

/-- Active lanes of an instruction executed once per bundle that hold different `%hyp` (R189, R311, R315). -/
def Ctx.mixed (c : Ctx) (s : State) : Bool := s.mixedHyp c.tag c.sheaf c.act

/-- The same where one of them at least is tagged. -/
def Ctx.mixedTagged (c : Ctx) (s : State) : Bool := s.mixedTagged c.tag c.sheaf c.act

/-- Instructions that check the paths of a bundle's lanes at a place of their own among their causes, or raise 0x22 in a
tagged lane whatever the others hold (R106, R112, R187, R189, R192, R203, R311, R315, R356). -/
def ownPath : Instr → Bool
  | .ldu _ _ | .lduSx _ _ | .stu _ _ | .stblk _ _ | .atomAdd _ _ | .atomAnd _ _ | .atomOr _ _ | .atomXor _ _ | .atomMins _ _
  | .atomMinu _ _ | .atomMaxs _ _ | .atomMaxu _ _ | .atomXchg _ _ | .atomCas _ _ | .atomFadd _ _ | .clean _ _ | .discard _ _
  | .tierpf _ _ | .waitge _ _ | .doze _ _ | .mxq _ _ | .mxdrain _ _ | .put _ _ | .get _ _ | .ratom _ _ | .amsg _ _ | .coll _ _
  | .launch _ _ | .hypopen _ _ | .resolveConfirm _ _ | .resolveRefute _ _ => true
  | _ => false

/-- Instructions that execute once per bundle, those with a uniform destination among them, and leave the check of R189 to
this place: a bundle with a tagged lane needs one `%hyp` for them (R59, R189, R260; log entry 28). -/
def actsOnce (i : Instr) : Bool := i.shape.once && !ownPath i

/-- The part of an instruction's issue that belongs to one sheaf of the bundle, with the fault order of R271: a lane that
only its uncovered guard kept from being active takes 0x04 whatever the active ones take (R71). Where it
fires the watchdog, what it started is abandoned with the rest (R241). -/
def issuePart (i : Instr) (body : Body) (b : Bundle) (s : State) (p : Part) : State :=
  match s.stook b.tag, s.sheaf b.tag p.sheaf with
  | some k, some h =>
    let sh := i.shape
    let c := issueCtx i s b p
    let act := s.activeLanes h i p.lanes
    let late := s.lateLanes h i p.lanes act
    let lateTrap (m : Lanes) (s' : State) : State := (lanesOf m).foldl
      (fun s' l => (c act).trap (1#32 <<< l) (0x04, BitVec.ofNat 64 ((s.uncovered h i l).getD 0)) s') s'
    if !s.accepts sh.feat then (c p.lanes).trap p.lanes (0x01, i.word) s
    else if act ||| late = 0 then s
    else if !sh.ok || (i.wholeSheaf && h.part != 32) || sh.modFeats.any (!s.accepts ·) then
      lateTrap (late &&& ~~~act) ((c act).trap act (0x02, 0) s)
    else
      match ((regNums sh.regs).filter (· < 256)).find? (h.allot ≤ ·) with
      | some r => lateTrap (late &&& ~~~act) ((c act).trap act (0x05, BitVec.ofNat 64 r) s)
      | none =>
        let s := lateTrap late s
        let act := act &&& ~~~late
        if act = 0 then s else
        let c : Ctx := { c act with lanes := p.lanes &&& ~~~late }
        if actsOnce i && c.mixedTagged s then c.trap act (0x22, 0) s else
        let s := s.clearMark b p i
        afterBody s (body c s) c k.job
  | _, _ => s

/-- Adds a stall count to every thread of a bundle (R16). -/
def Bundle.eachThread (b : Bundle) (f : Nat → Nat → Thread → Thread) (s : State) : State :=
  b.parts.foldl (fun s p => s.modSheaf b.tag p.sheaf fun h =>
    { h with threads := h.threads.mapIdx fun l t => if p.lanes.getLsbD l then f p.sheaf l t else t }) s

/-- After an instruction of the bundle: stall counts add up; a held or empty bundle leaves the clause with its counters at
the next word (R57); the last instruction sends each thread to its next clause (R56, R254); otherwise the bundle goes on. A
bundle whose checks are not decided stays where it is (R364). The half rate of a `CLASS` 2 clause keeps the cycle after an
instruction from the next one of the clause alone (R14; log entry 143). -/
def finishIssue (c : Common) (s : State) : State :=
  let (core, k) := s.cur
  match s.slot core k with
  | none => s
  | some b =>
    if b.deferred then s else
    let t := s.cycles (core / 64)
    let stall := c.stall.toNat
    let gap := max 1 stall
    let next := b.base + 8 + 8 * BitVec.ofNat 64 (b.pos + 1)
    let last := decide (b.pos + 1 ≥ b.count)
    let s := b.eachThread (fun _ _ x => { x with cnt := x.cnt + stall, issued := s.free }) s
    if b.hold || b.parts.all (·.lanes == 0) then
      let s := b.eachThread (fun _ _ x => { x with pc := next, clause := if last then next else b.base,
                                                   readyAt := t + gap, inBundle := false }) s
      s.setSlot core k none
    else if last then
      let goal (i l : Nat) : DWord := ((b.jumps.find? fun j => j.1 == i && j.2.1 == l).map (·.2.2)).getD next
      let s := b.eachThread (fun i l x => { x with pc := goal i l, clause := goal i l, readyAt := t + gap,
                                                   inBundle := false }) s
      s.setSlot core k none
    else
      let gap := if b.cls = 2 then max 2 gap else gap
      s.setSlot core k (some { b with pos := b.pos + 1, nextAt := t + gap })

/-- Some active sheaf's slot is full: the instruction waits (R258). Of a word that takes 0x01 no such field is looked at
(R264). -/
def slotFull (i : Instr) (b : Bundle) (s : State) : Bool :=
  (match i with | .reservedOpcode _ => false | _ => s.accepts i.shape.feat) &&
    decide (i.common.sbw.toNat ≤ 5) && b.parts.any fun p => decide (63 ≤ s.slotCount b.tag p.sheaf i.common.sbw.toNat)

/-- One instruction issues from the bundle of the current slot. Without a bundle there no thread reaches it, and it has
no effect (R60); a bundle held for its checks or by a full slot issues nothing. -/
def issueWith (i : Instr) (body : Body) (s : State) : State :=
  match s.slot s.cur.1 s.cur.2 with
  | none => s
  | some b =>
    if b.deferred || b.hold || decide (b.count ≤ b.pos) || slotFull i b s then s else
    let s := b.parts.foldl (issuePart i body b) s.draw
    finishIssue i.common s

end Sys2Proof.Machine
end

