-- ==== Sys2Proof/Machine/Operands.lean ====
section
/-! DEFINITION. Operand forms: reading a register, pair or quad of a lane at issue (R4, R18, R259), writing a result of
fixed latency (R16, R273, R301, R331), and giving a result of variable latency to its slot (R258). -/

namespace Sys2Proof.Machine
open Sys2Proof

/-- The signed value of the low n bits. -/
def sgn (n x : Nat) : Int := if x % 2 ^ n < 2 ^ (n - 1) then (x % 2 ^ n : Nat) else (x % 2 ^ n : Nat) - (2 ^ n : Nat)

/-- A signed value wrapped to n bits. -/
def wrapI (n : Nat) (x : Int) : Nat := (x % (2 ^ n : Nat)).toNat

/-- What a lane reads from n registers, the first lowest (R4); `z` reads zero (R266). -/
def State.rd (s : State) (h : Sheaf) (l : Nat) (r : Reg) (n : Nat) : Nat :=
  if r.isZ then 0
  else (List.range n).foldl (fun x i => x + (s.readReg h l (r.num + i)).toNat * 2 ^ (32 * i)) 0

/-- What a lane reads from a predicate (R17, R328). -/
def State.rdP (s : State) (h : Sheaf) (l : Nat) (r : Reg) : Bool := r == .p 7 || s.readReg h l r.num != 0

/-- The n words of a value, the lowest first. -/
def wordsOf (n x : Nat) : List Word := (List.range n).map fun i => BitVec.ofNat 32 (x / 2 ^ (32 * i))

/-- Writes n registers of a lane with the fixed latency of its class (R16); `z` and `p7` take nothing. -/
def Sheaf.wr (h : Sheaf) (l : Nat) (d : Reg) (n x : Nat) : Sheaf :=
  if d.isZ then h
  else (wordsOf n x).zipIdx.foldl (fun h w => h.write l (d.num + w.2) w.1) h

/-- The lanes that compute: every active one, or one for a uniform destination (R260). -/
def Ctx.runs (c : Ctx) (d : Reg) : List Nat := if d.isU then (lanesOf c.act).take 1 else lanesOf c.act

/-- The lanes a result's flags go to: the lane, or every active lane for a uniform destination (R273, R301). -/
def Ctx.flagLanes (c : Ctx) (d : Reg) (l : Nat) : Lanes := if d.isU then c.act else 1#32 <<< l

/-- A write of n uniform registers by a bundle: its `STALL` counts towards their latency for the sheaf's other threads too,
since it is the producer's (R16, R71). -/
def Sheaf.credit (h : Sheaf) (m : Lanes) (d : Reg) (n stall : Nat) : Sheaf :=
  if !d.isU then h else
  let sooner (p : Pend) : Pend := match p.cover with
    | .stalls k => if d.num ≤ p.reg ∧ p.reg < d.num + n then { p with cover := .stalls (k - stall) } else p
    | .op _ => p
  { h with threads := h.threads.mapIdx fun l t => if m.getLsbD l then t else { t with pend := t.pend.map sooner } }

/-- A result of fixed latency per lane, or once with a uniform destination: every source is read before any lane is
written (R18). -/
def fixedBody (d : Reg) (n : Nat) (f : State → Sheaf → Nat → Nat × Flags) : Body := fun c s =>
  match c.sh s with
  | none => s
  | some h =>
    let rs := (c.runs d).map fun l => (l, f s h l)
    let s := s.modSheaf c.tag c.sheaf fun h =>
      (rs.foldl (fun h r => h.wr r.1 d n r.2.1) h).credit c.lanes d n c.i.common.stall.toNat
    rs.foldl (fun s r => s.orFlags c.tag c.sheaf (c.flagLanes d r.1) r.2.2) s

/-- A result of variable latency: it waits in `results` until it lands (R258). -/
def Ctx.deliver (c : Ctx) (op : Nat) (writes : List (Nat × Option Nat × Word)) (s : State) : State :=
  let r : Result := { id := s.nextId, op := op, tag := c.tag, sheaf := c.sheaf, writes := writes }
  { s.bump with results := s.results ++ [r] }

/-- The register writes of n words of a value to a destination, for a lane or for the sheaf. -/
def regWrites (d : Reg) (l n x : Nat) : List (Nat × Option Nat × Word) :=
  if d.isZ then []
  else (wordsOf n x).zipIdx.map fun w => (d.num + w.2, if d.isU then none else some l, w.1)

/-- Results of variable latency computed at issue: `SFN` and the collectives (R258, R336, R350). Their flags are set at
issue (R151; log entry 157). -/
def variableBody (d : Reg) (f : State → Sheaf → Nat → Nat × Flags) : Body := fun c s =>
  match c.sh s with
  | none => s
  | some h =>
    let rs := (c.runs d).map fun l => (l, f s h l)
    let op := s.nextId
    let s := c.openOp 1 s
    let s := c.deliver op (rs.flatMap fun r => regWrites d r.1 1 r.2.1) s
    rs.foldl (fun s r => s.orFlags c.tag c.sheaf (c.flagLanes d r.1) r.2.2) s

/-! ## Mould of the arithmetic instructions (R265) -/

/-- D and A. -/
def runAlu1 (i : Instr) (d a : Reg) (n : Nat) (op : Nat → Nat × Flags) (s : State) : Out :=
  .next (issueWith i (fixedBody d n fun s h l => op (s.rd h l a n)) s)

/-- D, A and B of n registers each. -/
def runAlu2 (i : Instr) (f : A3) (n : Nat) (op : Nat → Nat → Nat × Flags) (s : State) : Out :=
  .next (issueWith i (fixedBody f.d n fun s h l => op (s.rd h l f.a n) (s.rd h l f.b n)) s)

/-- D, A, B and C of n registers each. -/
def runAlu3 (i : Instr) (f : A4) (n : Nat) (op : Nat → Nat → Nat → Nat × Flags) (s : State) : Out :=
  .next (issueWith i (fixedBody f.d n fun s h l => op (s.rd h l f.a n) (s.rd h l f.b n) (s.rd h l f.c n)) s)

/-- A compare into a predicate. -/
def runCmp (i : Instr) (f : A3) (n : Nat) (op : Nat → Nat → Bool) (s : State) : Out :=
  .next (issueWith i
    (fixedBody f.d 1 fun s h l => (if op (s.rd h l f.a n) (s.rd h l f.b n) then 1 else 0, 0)) s)

end Sys2Proof.Machine
end

