-- ==== Sys2Proof/Machine/Crib.lean ====
section
/-! DEFINITION. Scratchpad and cribs: bytes, shares, crib updates and the crib unit (R97, R98, R108, R109). -/

namespace Sys2Proof.Machine
open Sys2Proof

/-- The 16 bytes of a crib (R108). -/
def Crib.image (c : Crib) : List Byte :=
  leBytes 2 c.arr ++ leBytes 2 c.atgt ++ leBytes 4 c.bytes ++ leBytes 4 c.btgt ++ leBytes 4 c.turn

/-- A crib read back from its bytes. -/
def Crib.ofImage (cycle : Nat) (bs : List Byte) : Crib :=
  let x := leNat bs
  { cycle, arr := natBits x 0 16, atgt := natBits x 16 16, bytes := natBits x 32 32, btgt := natBits x 64 32,
    turn := natBits x 96 32 }

/-- The condition of R109, step 4: never of an idle crib. -/
def Crib.met (c : Crib) : Bool :=
  !(c.atgt == 0 && c.btgt == 0) && decide (c.atgt ≤ c.arr) && decide (c.btgt ≤ c.bytes)

/-- One evaluation of the condition (R109, steps 4 and 5). -/
def Crib.eval (c : Crib) : Crib :=
  if c.met then { c with turn := (c.turn + 1) % 2 ^ 32, arr := c.arr - c.atgt, bytes := c.bytes - c.btgt } else c

/-- The updates of one unit cycle combined, then one evaluation (R109): of several `CRIBSET`s that of the lowest sheaf index
takes effect, and of one sheaf's the last (R59, R292). -/
def Crib.combine (c : Crib) (us : List CribKind) : Crib :=
  let first := us.foldl (fun (b : Option (Nat × Nat × Nat)) u => match u, b with
    | .set h a t, none => some (h, a, t)
    | .set h a t, some x => if h ≤ x.1 then some (h, a, t) else some x
    | _, b => b) none
  let c := match first with
    | some (_, a, t) => { c with atgt := a, btgt := t, arr := 0, bytes := 0 }
    | none => c
  let c := us.foldl (fun c u => match u with
    | .store pos bs => Crib.ofImage c.cycle (overlay c.image pos bs)
    | _ => c) c
  let c := us.foldl (fun c u => match u with
    | .arrive n => { c with arr := min (c.arr + n) 0xFFFF }
    | .credit n => { c with bytes := min (c.bytes + n) 0xFFFFFFFF }
    | _ => c) c
  c.eval

/-- The earliest cycle of an update waiting for a crib. -/
def Stook.firstUp (k : Stook) (i : Nat) : Option Nat :=
  (k.cribUps.filter (·.crib == i)).foldl
    (fun b u => match b with | none => some u.cycle | some x => some (min x u.cycle)) none

/-- The step of R109 in which an update of a cycle is applied. -/
def CribKind.rank : CribKind → Nat
  | .set .. => 1
  | .store .. => 2
  | .arrive _ | .credit _ => 3

/-- The earliest cycle in which a further update of a crib is combined: none overtakes those under way, and one that its
cycle would apply before an earlier one of its own sheaf comes a cycle later, so that the sheaf's order stands (R59, R109,
R127; log entry 164). -/
def Stook.cribCycleFor (k : Stook) (i : Nat) (u : CribKind) (sheaf : Option Nat) : Nat :=
  (k.cribUps.filter (·.crib == i)).foldl (fun t x =>
    max t (x.cycle + if sheaf.isSome && x.sheaf == sheaf && decide (u.rank < x.kind.rank) then 1 else 0))
    (((k.cribs[i]?).map (·.cycle)).getD 0 + 1)

/-- An update sets out for a crib in the present core cycle, or the next in which it can be combined. -/
def State.cribUp (s : State) (tag i : Nat) (u : CribKind) (sheaf : Option Nat := none) : State :=
  let t := s.cycleOf tag
  s.modStook tag fun k => { k with cribUps := k.cribUps ++ [⟨i, max t (k.cribCycleFor i u sheaf), u, sheaf⟩] }

/-- One crib-unit cycle of a crib (R109): a carry that met the condition before the next update's cycle is evaluated
first; otherwise the updates of that cycle are combined. A cycle that was evaluated already is not evaluated again (step
5). -/
def Stook.cribCycle (k : Stook) (i now : Nat) : Stook :=
  match k.cribs[i]? with
  | none => k
  | some c =>
    if now ≤ c.cycle then k else
    let t := min now ((k.firstUp i).getD now)
    if c.met && decide (c.cycle + 1 < t) then
      { k with cribs := k.cribs.set i { c.eval with cycle := c.cycle + 1 } }
    else
      let us := (k.cribUps.filter fun u => u.crib == i && decide (u.cycle ≤ t)).map (·.kind)
      { k with cribs := k.cribs.set i { c.combine us with cycle := max t c.cycle }
               cribUps := k.cribUps.filter fun u => !(u.crib == i && decide (u.cycle ≤ t)) }

/-- The end of what a scratchpad access may reach in a share: its size, and on core 0 the cribs after it (R97). -/
def Stook.spadEnd (k : Stook) (share : Nat) : Nat := k.share + if share = 0 then 16 * k.cribs.length else 0

/-- The checks of a scratchpad access of w bytes at an offset of a share (R97, R315). -/
def Stook.spadCheck (k : Stook) (share o w : Nat) : Option Trap :=
  if k.cores.length ≤ share then some (0x02, 0)
  else if o % w ≠ 0 then some (0x13, BitVec.ofNat 64 o)
  else if k.spadEnd share < o + w then some (0x11, BitVec.ofNat 64 (k.spadEnd share))
  else none

/-- A scratchpad byte range lies among the cribs: which crib, and the position in it. -/
def Stook.cribAt (k : Stook) (share o : Nat) : Option (Nat × Nat) :=
  if share = 0 ∧ k.share ≤ o then some ((o - k.share) / 16, (o - k.share) % 16) else none

/-- Reads scratchpad or crib bytes: a crib reads as after one crib-unit cycle (R97, R98). -/
def Stook.spadRead (k : Stook) (share o n : Nat) : List Byte :=
  match k.cribAt share o with
  | some (i, pos) => ((((k.cribs[i]?).map fun c => c.eval.image).getD []).drop pos).take n
  | none => Memory.getN k.spad (share * 2 ^ 32 + o) n

/-- No update waits for the crib that an access reads. -/
def Stook.cribQuiet (k : Stook) (share o : Nat) : Bool :=
  match k.cribAt share o with
  | some (i, _) => (k.firstUp i).isNone
  | none => true

/-- Cuts n bytes from a position of the cribs at the cribs' borders: position and length of each part. -/
def cribPieces (pos n : Nat) : List (Nat × Nat) :=
  (List.range ((pos + n + 15) / 16 - pos / 16)).map fun i =>
    let lo := max pos ((pos / 16 + i) * 16)
    (lo, min (pos + n) ((pos / 16 + i + 1) * 16) - lo)

/-- Writes scratchpad bytes; a store to crib bytes is an update of each crib it reaches (R97, R109). -/
def State.spadWrite (s : State) (tag share o : Nat) (bs : List Byte) (sheaf : Option Nat := none) : State :=
  match s.stook tag with
  | none => s
  | some k =>
    let inner := if share = 0 then min bs.length (k.share - o) else bs.length
    let s := if inner = 0 then s
      else s.modStook tag fun k => { k with spad := Memory.setN k.spad (share * 2 ^ 32 + o) (bs.take inner) }
    if bs.length ≤ inner then s else
    let pos := o + inner - k.share
    (cribPieces pos (bs.length - inner)).foldl (fun s p =>
      s.cribUp tag (p.1 / 16) (.store (p.1 % 16) ((bs.drop (inner + (p.1 - pos))).take p.2)) sheaf) s

/-- Credits bytes to a crib, if it is one of the stook's. -/
def State.credit (s : State) (tag i n : Nat) : State := s.cribUp tag i (.credit n)

end Sys2Proof.Machine
end

