-- ==== Sys2Proof/Machine/Net.lean ====
section
/-! DEFINITION. The order of the fabric's messages, destination words, and the checks of a target (R198, R200, R201). -/

namespace Sys2Proof.Machine
open Sys2Proof

/-- A message is consumed: it leaves the machine and its endpoint counts it (R214). -/
def State.consume (s : State) (m : Msg) : State :=
  { (s.consumed m.job m.dstEp) with msgs := s.msgs.filter (·.id != m.id) }

/-- The destination word a message carries. -/
def MsgKind.dest : MsgKind → Option DestWord
  | .write d _ | .readReq d _ | .atomicReq d _ _ _ _ | .active d _ _ => some d
  | _ => none

/-- The core a message goes to: the one its destination word names, or the one that waits for the answer it is (R198). -/
def State.coreTo (s : State) (m : Msg) : Option Nat :=
  match m.kind with
  | .readResp _ | .atomicResp _ | .ack | .error .. => (s.fabReqs.find? (·.id == m.req)).map (·.core)
  | k => match k.dest with
    | some u => if u.kind = 1 then some (64 * u.die + u.core) else none
    | none => none

/-- Two messages to one granule, or to one router place, keep their order (R198). -/
def Msg.samePlace (m x : Msg) : Bool :=
  match m.kind, x.kind with
  | .contribution a _ _ c k p _, .contribution b _ _ d l q _ => a.root == b.root && c == d && k == l && p == q
  | a, b => match a.dest, b.dest with
    | some u, some v => u.kind == v.kind &&
        (if u.kind = 0 then u.range == v.range && u.toff.toNat / 256 == v.toff.toNat / 256
         else u.kind == 3 && u.die == v.die)
    | _, _ => false

/-- A message asks for a line that is in transit, and waits at its old home (R84). -/
def State.msgHeld (s : State) (m : Msg) : Bool :=
  let at' (w : DestWord) (n : Nat) : Bool := w.kind == 0 && ((s.range w.range).map (·.held w.toff.toNat n)).getD false
  match m.kind with
  | .write w bs => at' w bs.length
  | .readReq w n => at' w n
  | .atomicReq w _ n _ _ => at' w n
  | _ => false

/-- No message from the same endpoint to the same granule or core, injected earlier, is still on its way, whatever jobs
they belong to (R198), and the line it goes to is not in transit (R84). -/
def State.firstOf (s : State) (m : Msg) : Bool :=
  !s.msgHeld m &&
  s.msgs.all fun x => decide (m.id ≤ x.id) || x.accepted || x.srcEp != m.srcEp || x.srcPkg != m.srcPkg ||
    !(m.samePlace x || ((s.coreTo m).isSome && s.coreTo m == s.coreTo x))

/-- Checks of a message of a job at a memory target (R201): the range, or the cause of the local access, in the order of
R78. A range that is itself a peer range grants a message nothing (0x12; log entry 147). -/
def State.targetCheck (s : State) (job pkg x off n align : Nat) (rights : BitVec 7) : Except Nat RangeEnt :=
  if off % align ≠ 0 then .error 0x13 else
  match s.range x with
  | none => .error 0x10
  | some e =>
    if e.owner ≠ job then .error 0x10
    else if off ≥ e.limit then .error 0x10
    else if off + n > e.limit then .error 0x11
    else if !e.grants (rights ||| (if pkg = s.pkg then 0 else rightF)) then .error 0x12
    else if (rights &&& rightW != 0) && (e.cls == .ro) then .error 0x12
    else if (rights &&& rightA != 0) && (e.cls != .sh) then .error 0x12
    else if e.peer.isSome then .error 0x12
    else if (e.firstBlocked (rights &&& rightR == 0) off n).isSome then .error 0x14
    else if !s.keyLive e then .error 0x15
    else .ok e

/-- The stook a scratchpad destination names on its core, and the share (R200). -/
def State.spadTarget (s : State) (job : Nat) (w : DestWord) (n : Nat) : Option (Stook × Nat) :=
  let core := 64 * w.die + w.core
  let o := w.toff.toNat % 2 ^ 32
  let tag := w.toff.toNat / 2 ^ 32
  let fits (k : Stook) : Bool := k.job == job && k.cores.contains core && decide (o + n ≤ k.share)
  let pick := if tag ≠ 0 then s.stooks.find? fun k => k.tag == tag && fits k
    else (s.stooks.filter fits).foldl (fun b k => match b with
      | none => some k
      | some x => if k.placedAt < x.placedAt then some k else some x) none
  pick.map fun k => (k, k.cores.idxOf core)

/-- A destination word from its four registers (R200); `reserved` where a field that its kind asks to be zero is not. -/
def DestWord.ofNat (x : Nat) : DestWord :=
  let hi := x / 2 ^ 64 % 2 ^ 64
  let kind := natBits hi 60 4
  let toff := x % 2 ^ 64
  let range := natBits hi 28 20
  let die := natBits hi 25 3
  let core := natBits hi 19 6
  let xoff := natBits hi 0 10
  { toff := BitVec.ofNat 64 toff, kind, pkg := natBits hi 48 12, range, die, core, crib := natBits hi 11 8,
    cribEn := natBits hi 10 1 == 1, xoff,
    reserved := match kind with
      | 0 => decide (toff ≥ 2 ^ 48) || die != 0 || core != 0 || xoff != 0
      | 1 => range != 0 || xoff != 0
      | 2 => range != 0 || die != 0 || core != 0
      | 3 => toff != 0 || range != 0 || core != 0 || xoff != 0
      | _ => true }

end Sys2Proof.Machine
end

