-- ==== Sys2Proof/Machine/Access.lean ====
section
/-! DEFINITION. Memory requests: the checks of an access, their order (R127), their execution at home, in L1 or in
scratchpad (R100, R101, R123, R188 to R191), and the landing of their results (R258, R314, R355). -/

namespace Sys2Proof.Machine
open Sys2Proof

/-! ## Order of requests (R127) -/

/-- A request reads. -/
def Req.isRead (r : Req) : Bool := match r.kind with | .load _ | .rmw .. | .block => true | _ => false
/-- A request writes, a `DISCARD` of `SH` lines among them (R122, R139). A `CRIBSET` is no write (log entry 131). -/
def Req.isWrite (r : Req) : Bool :=
  match r.kind with
  | .store | .rmw .. | .cribArrive _ | .barrier => true
  | .discard => (match r.place with | .range e _ => e.cls == .sh | _ => false)
  | _ => false

/-- Two ranges name the same lines by offset: they are one range, or peer ranges of one peer range (R75). -/
def RangeEnt.sameLines (e f : RangeEnt) : Bool := e.idx == f.idx || (e.peer.isSome && e.peer == f.peer)

/-- Two requests touch one line (R127, point 1). -/
def Req.sameLine (q r : Req) : Bool :=
  match q.place, r.place with
  | .range e o, .range f p =>
    e.sameLines f && decide (o / 64 ≤ (p + r.width - 1) / 64) && decide (p / 64 ≤ (o + q.width - 1) / 64)
  | .spad k o, .spad k' p => q.tag == r.tag && k == k' && o / 64 == p / 64
  | _, _ => false

/-- A thread is common to two requests; or both are a sheaf's accesses that execute once per bundle, which take effect in
issue order as one thread's would (R59; log entry 139). -/
def Req.sameThread (q r : Req) : Bool :=
  q.tag == r.tag && q.sheaf == r.sheaf && (q.lanes &&& r.lanes != 0 || (q.once && r.once))

/-- q, issued earlier, must execute before r: by R127 and R138, or as an earlier lane of one instruction (R278, R355). -/
def Req.before (q r : Req) : Bool :=
  (q.sameThread r && (q.sameLine r || (q.isRead && r.isWrite) || q.acq || r.rel || (q.rel && r.isWrite))) ||
    (q.op == r.op && q.sameLine r && r.isWrite)

/-- The fabric requests under a slot that a release waits for (R209). -/
def State.fabPending (s : State) (tag i : Nat) (m : Lanes) (upto : Nat) : Bool :=
  s.fabReqs.any fun f => f.tag == tag && f.sheaf == i && f.lanes &&& m != 0 && decide (f.id < upto) &&
    (match f.kind with | .put | .get .. | .ratom .. => true | _ => false) &&
    s.ops.any fun o => o.id == f.op && o.slot != 7

/-- Stores of a core and job that have not drained from the store buffer (R105). -/
def State.undrained (s : State) (core job upto : Nat) : Bool :=
  s.reqs.any fun q => q.core == core && q.job == job && !q.home && q.isWrite && decide (q.id < upto)

/-- Writes of a core and job to peer homes that have not been acknowledged (R105). -/
def State.peerWrites (s : State) (core job upto : Nat) : Bool :=
  s.reqs.any fun q => q.core == core && q.job == job && q.isWrite && decide (q.id < upto) &&
    match q.place with | .range e _ => e.peer.isSome | _ => false

/-- What a publish at a scope waits for: the store buffer, and at `.sys` the acknowledgements of peer homes (R105). -/
def State.unpublished (s : State) (core job scope upto : Nat) : Bool :=
  s.undrained core job upto || (scope == 3 && s.peerWrites core job upto)

/-- A `RATOM` that lanes of a sheaf issued before a point and that has not been answered: it is a read-modify-write of
each lane that was active (R122, R203). -/
def FabReq.openRatom (f : FabReq) (tag i : Nat) (m : Lanes) (upto : Nat) : Bool :=
  f.tag == tag && f.sheaf == i && f.dep.lanes &&& m != 0 && decide (f.id < upto) &&
    match f.kind with | .ratom .. => true | _ => false

/-- The `RATOM` must have executed before the request: it acquires, the request writes or releases, or the two touch one
line (R127, R136). An access that executes once per bundle follows those of its whole sheaf (R59). -/
def State.ratomBefore (s : State) (f : FabReq) (r : Req) : Bool :=
  f.openRatom r.tag r.sheaf (if r.once then BitVec.allOnes 32 else r.lanes) r.id &&
    (r.isWrite || r.rel || match f.kind with
      | .ratom _ _ acq _ target => acq || (match r.place with
          | .range e o => (target.pkg, target.range) == e.peer.getD (s.pkg, e.idx) &&
              decide (o / 64 ≤ target.toff.toNat / 64) && decide (target.toff.toNat / 64 ≤ (o + r.width - 1) / 64)
          | _ => false)
      | _ => false)

/-- The range that a snapshot access was translated under keeps no lines in L1 or L2 any more, because it has `HYP` or class
`SH` by now: the access goes home (R100, R188). -/
def State.goesHome (s : State) (r : Req) (e : RangeEnt) : Bool :=
  r.home || match s.range e.idx with
    | some x => x.owner == e.owner && x.base == e.base && (x.hyp || x.cls == .sh)
    | none => false

/-- The request goes to the home of a line that is in transit (R82, R84): a load that its L1 or L2 can serve and a `PH`
store do not. -/
def State.lineWaits (s : State) (r : Req) : Bool :=
  match r.place with
  | .range ent off =>
    let e := s.entNow ent
    e.held off r.width && (s.goesHome r e || (r.isRead &&
      (findCopy s.l1 r.core e e.front).isNone && (findCopy s.l2 (r.core / 64) e e.front).isNone))
  | _ => false

/-- An instruction of this sheaf that executes once per bundle and that issued before an operation has its checks still to
decide (R59, R364). -/
def State.onceDeferred (s : State) (tag i op : Nat) : Bool :=
  s.deferred.any fun d => d.tag == tag && d.sheaf == i && decide (d.op < op) && d.instr.perBundle

/-- The request of an instruction of the fabric. -/
def FabKind.ofInstr : FabKind → Bool
  | .put | .get .. | .ratom .. | .amsg | .coll => true
  | _ => false

/-- An instruction of this sheaf that executes once per bundle and that issued before an operation has not taken effect: an
access that has not executed, a fabric request that has not been sent, a `RATOM` that has not been answered, or one whose
checks are still to decide. The next one of the sheaf waits for it, as that of one thread would (R59; log entry 139). -/
def State.onceBefore (s : State) (tag i op : Nat) : Bool :=
  s.reqs.any (fun q => q.once && q.tag == tag && q.sheaf == i && decide (q.op < op)) ||
    s.fabReqs.any (fun g => g.kind.ofInstr && g.tag == tag && g.sheaf == i && decide (g.op < op) &&
      (!g.unsent.isEmpty || match g.kind with | .ratom .. => true | _ => false)) ||
    s.onceDeferred tag i op

/-- What must execute before a request has done so, `RATOM`s and the accesses of deferred instructions among it (R59, R127,
R335). -/
def State.ordered (s : State) (r : Req) : Bool :=
  s.reqs.all (fun q => decide (r.id ≤ q.id) || !q.before r) && s.fabReqs.all (!s.ratomBefore · r) &&
    (s.deferred.all fun d => d.reqs.all fun q => decide (r.id ≤ q.id) || q.op == r.op || !q.before r) &&
    !(r.once && s.onceDeferred r.tag r.sheaf r.op)

/-- A request may execute now (R84, R127, R138, R209). -/
def State.canRun (s : State) (r : Req) : Bool :=
  s.ordered r &&
    (!r.rel || (!s.unpublished r.core r.job r.scope r.id && !s.fabPending r.tag r.sheaf r.lanes r.id)) &&
    !s.lineWaits r &&
    (match r.place with
      | .spad k o => !r.isRead || ((s.stook r.tag).map (·.cribQuiet k o)).getD true
      | _ => true)

/-- The acquires that lanes of a sheaf issued before a point are done, those of `RATOM`s among them: what follows may act
(R127, point 3; R335). -/
def State.acquired (s : State) (tag i : Nat) (m : Lanes) (upto : Nat) : Bool :=
  s.reqs.all (fun q => !(q.acq && q.tag == tag && q.sheaf == i && q.lanes &&& m != 0 && decide (q.id < upto))) &&
    s.fabReqs.all fun f => !(f.openRatom tag i m upto && match f.kind with | .ratom _ _ acq _ _ => acq | _ => false)

/-- What an engine request has to follow: the issuing lanes' accesses so far (R127, point 4). -/
def Ctx.dep (c : Ctx) (s : State) : Dep := ⟨c.tag, c.sheaf, c.act, s.nextId⟩

/-- A dependence is met: those accesses are done, `RATOM`s among them (R127, R129, R138). -/
def State.met (s : State) (d : Dep) : Bool :=
  s.reqs.all (fun q => !(q.tag == d.tag && q.sheaf == d.sheaf && q.lanes &&& d.lanes != 0 && decide (q.id < d.upto))) &&
    s.fabReqs.all fun f => !f.openRatom d.tag d.sheaf d.lanes d.upto

/-! ## Read-modify-write (R205, R277) -/

/-- The operation of a code (R205). -/
def rmwOf (k : Nat) : Rmw :=
  match k with
  | 0 => .add | 1 => .and | 2 => .or | 3 => .xor | 4 => .mins | 5 => .minu | 6 => .maxs | 7 => .maxu | 8 => .xchg
  | 9 => .cas | _ => .fadd

/-- The new value of a w-byte word, or none where nothing is written (R277). -/
def rmwNew (op : Rmw) (w old b cmp : Nat) : Option Nat :=
  let n := 8 * w
  match op with
  | .add => some ((old + b) % 2 ^ n)
  | .and => some (old &&& b)
  | .or => some (old ||| b)
  | .xor => some (old ^^^ b)
  | .mins => some (if sgn n b < sgn n old then b else old)
  | .minu => some (min old b)
  | .maxs => some (if sgn n old < sgn n b then b else old)
  | .maxu => some (max old b)
  | .xchg => some b
  | .cas => if old = cmp then some b else none
  | .fadd => some (addF fp32 .rne (decodeF fp32 old) (decodeF fp32 b)).1

/-! ## Execution -/

/-- The words a finished load delivers (R314). -/
def Req.resultWords (r : Req) : List Word :=
  let v := leNat r.got
  match r.kind with
  | .load true => wordsOf 1 (wrapI 32 (sgn (8 * r.width) v))
  | _ => wordsOf r.dest.length v

/-- A request has executed wholly: a result sets out for its registers, or the slot's count drops; an acquire refreshes
(R125, R258). -/
def State.finishReq (s : State) (r : Req) : State :=
  let s := { s with reqs := s.reqs.filter (·.id != r.id) }
  let s := if r.acq then s.refresh r.core r.job r.scope else s
  match r.kind with
  | .block =>
    let keep (d : Deferred) : Deferred := { d with words := [(0, wordsOf 16 (leNat r.got))] }
    { s with deferred := modWhere (·.op == r.op) keep s.deferred }
  | _ =>
  if r.isRead then
    let ws := ((r.dest.zip r.resultWords).map fun p => (p.1.1, p.1.2, p.2)) ++ r.extra
    let x : Result := { id := s.nextId, op := r.op, tag := r.tag, sheaf := r.sheaf, writes := ws }
    { s.bump with results := s.results ++ [x] }
  else s.opPart r.op

/-- A piece of a request is done with the bytes it read. -/
def State.pieceDone (s : State) (r : Req) (piece pos : Nat) (bs : List Byte) : State :=
  let r := { r with done := piece :: r.done, got := overlay r.got pos bs }
  let n := match r.place with
    | .range _ off => (linePieces off r.width).length
    | .spad .. | .bar _ => 1
  if n ≤ r.done.length then s.finishReq r
  else { s with reqs := modWhere (·.id == r.id) (fun _ => r) s.reqs }

/-- A tagged or orphaned thread has read a line at home: the clean bytes of the copies its core could read later go, so that
no later snapshot of the thread is older (R102, R133, R188). -/
def State.passCopies (s : State) (r : Req) (e : RangeEnt) (line : Nat) : State :=
  if r.who = .untagged then s else
  let here (unit : Nat) (c : CacheLine) : Bool :=
    c.unit == unit && c.job == e.owner && c.rng == e.idx && c.line == line && c.key == e.key
  { s with l1 := dropClean (here r.core) s.l1, l2 := dropClean (here (r.core / 64)) s.l2 }

/-- One access of n bytes at offset o of a range, at home or as a snapshot: the bytes read. -/
def State.accessRange (s : State) (r : Req) (e : RangeEnt) (pos o n : Nat) : List Byte × State :=
  match r.kind with
  | .load _ | .block =>
    if s.goesHome r e then (s.homeRead e o n r.who, s.passCopies r e (o / 64 * 64))
    else s.snapRead r.core ((s.job r.job).map (·.fn) |>.getD 0) e o n
  | .store =>
    let bs := (r.data.drop pos).take n
    ([], if s.goesHome r e then s.homeWrite e o bs r.who
      else s.phWrite r.core ((s.job r.job).map (·.fn) |>.getD 0) e o bs)
  | .rmw op b cmp =>
    let old := s.homeRead e o n r.who
    match rmwNew op n (leNat old) b cmp with
    | some x => (old, s.homeWrite e o (leBytes n x) r.who)
    | none => (old, s)
  | _ => ([], s)

/-- One access of n bytes at offset o of a scratchpad share (R98). -/
def State.accessSpad (s : State) (r : Req) (share o : Nat) : List Byte × State :=
  match s.stook r.tag with
  | none => ([], s)
  | some k =>
    match r.kind with
    | .store => ([], s.spadWrite r.tag share o r.data (some r.sheaf))
    | .rmw op b cmp =>
      let old := k.spadRead share o r.width
      match rmwNew op r.width (leNat old) b cmp with
      | some x => (old, s.spadWrite r.tag share o (leBytes r.width x) (some r.sheaf))
      | none => (old, s)
    | .cribSet h a b => ([], s.cribUp r.tag (((k.cribAt share o).map (·.1)).getD 0) (.set h a b) (some r.sheaf))
    | .cribArrive n => ([], s.cribUp r.tag (((k.cribAt share o).map (·.1)).getD 0) (.arrive n) (some r.sheaf))
    | _ => (k.spadRead share o r.width, s)

/-- A release publishes before its first write (R125). -/
def State.preRelease (s : State) (r : Req) : State :=
  if r.rel && r.done.isEmpty then s.publish r.core r.job r.scope else s

/-- One piece of a request executes. -/
def State.runPiece (s : State) (r : Req) (piece : Nat) : State :=
  let s := s.preRelease r
  match r.place with
  | .spad k o =>
    let (bs, s) := s.accessSpad r k o
    s.pieceDone r 0 0 bs
  | .bar _ => s.pieceDone r 0 0 []
  | .range ent off =>
    match (linePieces off r.width)[piece]? with
    | none => s
    | some (o, n) =>
      let (bs, s) := s.accessRange r (s.entNow ent) (o - off) o n
      s.pieceDone r piece (o - off) bs

/-- The memory port would read the line for this access: the home slice holds no copy, and no L1 or L2 serves it. -/
def State.readsMemory (s : State) (r : Req) (e : RangeEnt) (line : Nat) : Bool :=
  !(s.l3.any (·.names e line)) && e.tierOf line == 0 &&
    (s.goesHome r e || ((findCopy s.l1 r.core e line).isNone && (findCopy s.l2 (r.core / 64) e line).isNone))

/-- No thread of a request has issued a later instruction: a cause is still precise (R225, R364). -/
def State.isLatest (s : State) (r : Req) : Bool :=
  (lanesOf r.lanes).all fun l => match s.thread r.tag r.sheaf l with | some t => decide (t.issued ≤ r.issued) | none => true

/-- A request meets a line that cannot be delivered, or an erased key: it raises the cause, or clears its predicate (R104,
R230, R251). -/
def State.failPiece (s : State) (r : Req) (cause : Nat) (detail : DWord) : State :=
  let s := { s with reqs := s.reqs.filter (·.id != r.id) }
  match r.ff with
  | some p =>
    let ws := (lanesOf r.lanes).map fun l => (p, some l, (0 : Word))
    let x : Result := { id := s.nextId, op := r.op, tag := r.tag, sheaf := r.sheaf, writes := ws }
    { s.bump with results := s.results ++ [x] }
  | none =>
    let s := s.opPart r.op
    (lanesOf r.lanes).foldl (fun s l => s.take r.tag r.sheaf l cause detail r.pc r.clause) s

/-- The `%fault` of an access whose line is lost: the VA of the line's first byte that it touches (R225, R251). -/
def Req.lostVa (r : Req) (e : RangeEnt) (off line : Nat) : DWord :=
  if line ≤ off then r.va else BitVec.ofNat 64 (e.base + line)

/-- Sends one piece of an access to a peer range as a fabric message (R75). -/
def State.sendPeer (s : State) (r : Req) (pkg x piece o pos n : Nat) : State :=
  let w := DestWord.memory pkg x o
  let k : MsgKind := match r.kind with
    | .store => .write w ((r.data.drop pos).take n)
    | .rmw op b c => if r.who.isOrphan then .readReq w n else .atomicReq w op n b c
    | _ => .readReq w n
  let f : FabReq := { id := s.nextId, op := r.op, tag := r.tag, job := r.job, sheaf := r.sheaf, lanes := r.lanes,
                      core := r.core, kind := .peer r.id, left := [piece], unsent := [], dep := ⟨r.tag, r.sheaf, 0, 0⟩,
                      relScope := none }
  let s := { s.bump with fabReqs := s.fabReqs ++ [f] }
  s.inject (s.memMsg r.job r.core pkg x o f.id piece k)

/-- An access whose checks stand but whose key has been retired: nothing of the line is left to it, it reads bytes that are
not stated and writes nothing (R104; log entry 104). -/
def State.deadPiece (s : State) (r : Req) (e : RangeEnt) (piece pos o n : Nat) : State :=
  let s := s.preRelease r
  s.pieceDone r piece pos (if r.isRead then s.homeRead e o n r.who else [])

/-- An access whose checks stand but whose line is lost: the line is never delivered, and it is not written in part (R251;
log entry 104). -/
def State.lostPiece (s : State) (r : Req) (piece pos n : Nat) : State :=
  let s := s.preRelease r
  let s := { s with free := s.free + 1 }
  s.pieceDone r piece pos (if r.isRead then (List.range n).map (Config.freeByte (s.free - 1)) else [])

/-- A home access: one piece of a request executes (R123), or, on a peer range, sets out for the peer; an orphan's store
there is discarded, with what it releases (R125, R191). Where the line was lost since the checks, or the key retired, the
access takes its cause while that is precise, and one of `LDFF` clears its predicate at any time (R230); once the thread has
gone on, its checks stand (R364; log entry 104). `ue` finds the line uncorrectable (log entry 88). -/
def homeAccess (id piece : Nat) (ue : Bool) (s : State) : State :=
  match s.reqs.find? (·.id == id) with
  | none => s
  | some r =>
    if !s.canRun r || r.done.contains piece then s else
    match r.place, r.kind with
    | _, .clean | _, .discard => s
    | .spad .., _ | .bar _, _ => if piece = 0 then s.runPiece r 0 else s
    | .range ent off, _ =>
      match (linePieces off r.width)[piece]? with
      | none => s
      | some (o, n) =>
        let e := s.entNow ent
        match e.peer with
        | some (pkg, x) =>
          if r.who.isOrphan && r.kind == .store then (s.preRelease r).pieceDone r piece (o - off) []
          else if s.fabReqs.any fun f => f.kind == .peer id && f.left.contains piece then s
          else (s.preRelease r).sendPeer r pkg x piece o (o - off) n
        | none =>
          let whole := r.kind == .store && n == 64
          let line := o / 64 * 64
          let latest := s.isLatest r || r.ff.isSome
          if latest && !s.keyLive e then s.failPiece r 0x15 r.va
          else if latest && e.lost line && !whole then s.failPiece r 0x14 (r.lostVa e off line)
          else if !s.keyLive e then s.deadPiece r e piece (o - off) o n
          else if ue && !whole && s.readsMemory r e line then
            let s := s.addLoss e.idx line 1
            if latest then s.failPiece r 0x14 (r.lostVa e off line) else s.lostPiece r piece (o - off) n
          else if e.lost line && !whole then s.lostPiece r piece (o - off) n
          else s.runPiece r piece

/-! ## Issue of an access -/

/-- What an instruction accesses in global memory, per lane or once per bundle. -/
structure AccSpec where
  addr : Reg
  off : Int
  width : Nat
  align : Nat
  once : Bool
  rights : BitVec 7
  shOnly : Bool
  kind : Nat → Nat → ReqKind
  data : Option (Reg × Nat)
  dest : Option (Reg × Nat)
  acq : Bool
  rel : Bool
  scope : Nat
  ff : Option Nat
  /-- It demands one `%hyp` of all active lanes even where none is tagged (R315, R356). -/
  oneHyp : Bool := false

/-- The groups of lanes that access: each active lane, or all together (R122). -/
def Ctx.groups (c : Ctx) (once : Bool) : List (Nat × Lanes) :=
  if once then (match lanesOf c.act with | [] => [] | l :: _ => [(l, c.act)])
  else (lanesOf c.act).map fun l => (l, 1#32 <<< l)

/-- The registers a result goes to. -/
def destRegs (d : Option (Reg × Nat)) (l : Nat) : List (Nat × Option Nat) :=
  match d with
  | none => []
  | some (r, n) =>
    if r.isZ then [] else (List.range n).map fun i => (r.num + i, if r.isU then none else some l)

/-- The checks of R279, R315 and R356 from the aperture on, and the request they let through; its numbers are still
open. The capacity of a tagged write is not decided here (R364); the tier that R189 asks for is that of the placement
that holds the line now (log entry 152). -/
def AccSpec.request (q : AccSpec) (c : Ctx) (s : State) (h : Sheaf) (k : Stook) (l : Nat) (m : Lanes) :
    Except Trap Req :=
  let va := vaPlus (BitVec.ofNat 64 (s.rd h l q.addr 2)) q.off
  let w := BitVec.ofNat 64 va
  let kind := match q.data with
    | some (r, n) => q.kind (s.rd h l r n) n
    | none => q.kind 0 0
  if s.inAperture k.job va then .error (0x12, w) else
  match s.translate k.job va q.width q.align q.rights with
  | .error t => .error t
  | .ok (e, off) =>
    let who := match h.threads[l]? with | some t => s.whoOf k.job t | none => .untagged
    let write := q.rights &&& rightW != 0
    if (write && e.cls == .ro) || (q.shOnly && e.cls != .sh) then .error (0x12, w)
    else if write && who.isTagged && (!e.hyp || e.tierOf off == 1 || e.peer.isSome) then .error (0x22, w)
    else if q.once && (if q.oneHyp then c.mixed s else c.mixedTagged s) then .error (0x22, w)
    else
      let r : Req :=
        { id := 0, op := 0, tag := c.tag, job := k.job, sheaf := c.sheaf, lanes := m, core := h.core, kind,
          place := .range e off, width := q.width,
          data := match kind, q.data with
            | .store, some (r, n) => leBytes q.width (s.rd h l r n)
            | _, _ => []
          acq := q.acq, rel := q.rel, scope := q.scope,
          home := e.cls == .sh || e.hyp || e.peer.isSome || who != .untagged, who, dest := destRegs q.dest l,
          extra := match q.ff with | some p => if p = 647 then [] else [(p, some l, 1)] | none => []
          ff := q.ff, got := List.replicate q.width 0, done := [], va := w, pc := c.pc, clause := c.clause,
          issued := s.free, once := q.once }
      if write && who.isTagged then .ok r
      else match s.lineChecks e write off q.width va with
        | some t => .error t
        | none => .ok r

/-- Numbers requests, in lane order, and puts them under an operation; tagged writes wait for their capacity check, and with
them what other lanes of the instruction write, so that the lanes keep their order (R190, R278, R355, R364). -/
def Ctx.enqueue (c : Ctx) (op : Nat) (words : List (Nat × List Word)) (rs : List Req) (s : State) : State :=
  let (rs, s) := rs.foldl (fun (a : List Req × State) r =>
    (a.1 ++ [{ r with id := a.2.nextId, op := op }], a.2.bump)) ([], s)
  let wait := rs.any fun r => r.isWrite && r.who.isTagged
  let s := { s with reqs := s.reqs ++ if wait then [] else rs }
  let held := if wait then rs else []
  if held.isEmpty && words.isEmpty then s else
  let d : Deferred := { core := c.core, slot := c.slot, tag := c.tag, sheaf := c.sheaf, active := c.act, pc := c.pc,
                        clause := c.clause, instr := c.i, upto := s.nextId, op := op, words := words, reqs := held, gone := [] }
  c.modBundle (fun b => { b with deferred := true }) { s with deferred := s.deferred ++ [d] }

/-- The union of lane sets. -/
def unionLanes (ms : List Lanes) : Lanes := ms.foldl (· ||| ·) 0

/-- Takes the failing groups' causes, opens the operation for the others and queues their requests. A first-fault load
clears the predicate of failing lanes above the lowest (R230). -/
def Ctx.issueReqs (c : Ctx) (ff : Option Nat) (more : List (Nat × List Word)) (ts : List (Nat × Lanes × Except Trap Req))
    (s : State) : State :=
  let l0 := ((lanesOf c.act).head?).getD 0
  let rs := ts.filterMap fun t => match t.2.2 with | .ok r => some r | .error _ => none
  let soft (l : Nat) : Bool := ff.isSome && l != l0
  let s := ts.foldl (fun s t => match t.2.2 with
    | .error e => if soft t.1 then s else c.trap t.2.1 e s
    | .ok _ => s) s
  let clears := ts.filterMap fun t => match t.2.2 with | .error _ => if soft t.1 then some t.1 else none | .ok _ => none
  if rs.isEmpty && more.isEmpty && clears.isEmpty then s else
  let good := unionLanes (rs.map (·.lanes)) ||| lanesWhere fun l => clears.contains l || more.any (·.1 == l)
  let op := s.nextId
  let s := ({ c with act := good } : Ctx).openOp (rs.length + more.length + if clears.isEmpty then 0 else 1) s
  let s := match ff with
    | some p => if clears.isEmpty then s
                else c.deliver op (if p = 647 then [] else clears.map fun l => (p, some l, 0)) s
    | none => s
  c.enqueue op more rs s

/-- An access of global memory by an instruction. -/
def globalBody (q : AccSpec) : Body := fun c s =>
  match c.sh s, s.stook c.tag with
  | some h, some k => c.issueReqs q.ff [] ((c.groups q.once).map fun g => (g.1, g.2, q.request c s h k g.1 g.2)) s
  | _, _ => s

/-- The share an access of the scratchpad reaches (R97). -/
def Ctx.shareOf (c : Ctx) (s : State) (k : Stook) (csel : Bool) (n : Nat) : Nat :=
  if csel then n else ((c.sh s).map fun h => k.cores.idxOf h.core).getD 0

/-- An access of the scratchpad by each active lane (R97, R281, R314, R355). -/
def spadBody (a : Reg) (off : Int) (w : Nat) (csel : Bool) (kc : Nat) (atomic : Bool) (kind : Nat → Nat → ReqKind)
    (data dest : Option (Reg × Nat)) (acq rel : Bool) (scope : Nat) : Body := fun c s =>
  match c.sh s, s.stook c.tag with
  | some h, some k =>
    let share := c.shareOf s k csel kc
    c.issueReqs none [] ((c.groups false).map fun g =>
      let o := wrapI 32 ((s.rd h g.1 a 1 : Int) + off)
      let kd := match data with
        | some (r, n) => kind (s.rd h g.1 r n) n
        | none => kind 0 0
      let r : Req :=
        { id := 0, op := 0, tag := c.tag, job := k.job, sheaf := c.sheaf, lanes := g.2, core := h.core, kind := kd,
          place := .spad share o, width := w,
          data := match kd, data with
            | .store, some (r, n) => leBytes w (s.rd h g.1 r n)
            | _, _ => []
          acq, rel, scope, home := true, who := .untagged, dest := destRegs dest g.1, extra := [], ff := none,
          got := List.replicate w 0, done := [], va := BitVec.ofNat 64 o, pc := c.pc, clause := c.clause,
          issued := s.free, once := false }
      (g.1, g.2, match k.spadCheck share o w with
        | some t => .error t
        | none => if atomic && (k.cribAt share o).isSome then .error (0x12, BitVec.ofNat 64 o) else .ok r)) s
  | _, _ => s

/-- A write that was tagged as it issued, or that stands with one in its instruction, whose checks are being decided (R190,
R191): 0x21 where a slice has no way free, then the loss list; otherwise the home accepts the write at once, as its thread's
path stands now. One to a peer range sets out later. -/
def State.decideWrite (s : State) (r : Req) : State :=
  let fail (s : State) (t : Trap) : State :=
    (lanesOf r.lanes).foldl (fun s l => s.take r.tag r.sheaf l t.1 t.2 r.pc r.clause) (s.opPart r.op)
  match r.place with
  | .range ent off =>
    let e := s.entNow ent
    let free := match r.who, s.arbor r.job with
      | .tagged h, some a => s.waysFree a e h ((linePieces off r.width).map (·.1 / 64 * 64))
      | _, _ => true
    if !free then fail s (0x21, r.va)
    else match s.lineChecks e true off r.width r.va.toNat with
      | some t => fail s t
      | none =>
        let s := { s with reqs := s.reqs ++ [r] }
        if e.peer.isSome then s else
        (List.range (linePieces off r.width).length).foldl (fun s i =>
          match s.reqs.find? (·.id == r.id) with
          | some r => s.runPiece r i
          | none => s) s
  | _ => s.opPart r.op

/-- A result lands (R258). -/
def resultWriteback (id : Nat) (s : State) : State :=
  match s.results.find? (·.id == id) with
  | none => s
  | some x =>
    let s := { s with results := s.results.filter (·.id != id) }
    let s := x.writes.foldl (fun s w => s.landReg x.tag x.sheaf x.op w) s
    s.opPart x.op

/-- `HOME_ACCESS` (R123). -/
def execHomeAccess (id piece : Nat) (ue : Bool) (s : State) : Out := .next (homeAccess id piece ue s)

/-- `RESULT_WRITEBACK` (R258). -/
def execResultWriteback (id : Nat) (s : State) : Out := .next (resultWriteback id s)

end Sys2Proof.Machine
end

