-- ==== Sys2Proof/Machine/Alu.lean ====
section
/-! DEFINITION. Integer, logic, shift, bit-field, compare, select and move instructions (R284, R286, R307 to R309, R320,
R321, R328, R347, R349). -/

namespace Sys2Proof.Machine
open Sys2Proof

/-! ## The functions computed -/

/-- sat(x, INT32) as a register word (R308). -/
def sat32 (x : Int) : Nat := wrapI 32 (min (max x (-2147483648)) 2147483647)
/-- `IADD` (R308). -/
def iaddOp (w : Nat) (sat : Bool) (x y : Nat) : Nat := if sat then sat32 (sgn 32 x + sgn 32 y) else (x + y) % 2 ^ w
/-- `ISUB` (R308). -/
def isubOp (w : Nat) (sat : Bool) (x y : Nat) : Nat :=
  if sat then sat32 (sgn 32 x - sgn 32 y) else wrapI w (sgn w x - sgn w y)
/-- Bits [63:32] of a product (R308). -/
def mulhiOp (signed : Bool) (x y : Nat) : Nat :=
  if signed then wrapI 32 (sgn 32 x * sgn 32 y / (2 ^ 32 : Int)) else x * y / 2 ^ 32 % 2 ^ 32
/-- x is below y, as signed or unsigned n-bit values. -/
def below (signed : Bool) (w x y : Nat) : Bool := if signed then decide (sgn w x < sgn w y) else decide (x < y)
/-- `IABS` (R308). -/
def iabsOp (sat : Bool) (x : Nat) : Nat :=
  let y : Int := (sgn 32 x).natAbs
  if sat then sat32 y else wrapI 32 y
/-- The condition of a compare from below and equal (R266). -/
def condOf (k : Nat) (lt eq : Bool) : Bool :=
  match k with
  | 0 => eq | 1 => !eq | 2 => lt | 3 => lt || eq | 4 => !(lt || eq) | 5 => !lt | _ => false
/-- `SHL`, 0 from the width on (R347). -/
def shlOp (w x c : Nat) : Nat := if c ≥ w then 0 else x * 2 ^ c % 2 ^ w
/-- `SHR` (R347). -/
def shrOp (w x c : Nat) : Nat := if c ≥ w then 0 else x / 2 ^ c
/-- `SAR` (R347). -/
def sarOp (w x c : Nat) : Nat := wrapI w (sgn w x / (2 ^ min c w : Nat))
/-- Position and length of a bit-field control: n = 0 from position 32 on (R284). -/
def bfCtl (c : Nat) : Nat × Nat :=
  let pos := c % 256
  (pos, if pos ≥ 32 then 0 else min (c / 256 % 256) (32 - pos))
/-- `BFX` and `BFX.u` (R284). -/
def bfxOp (signed : Bool) (x c : Nat) : Nat :=
  let (pos, n) := bfCtl c
  if n = 0 then 0 else if signed then wrapI 32 (sgn n (x / 2 ^ pos)) else x / 2 ^ pos % 2 ^ n
/-- `BFI` (R284). -/
def bfiOp (x base c : Nat) : Nat :=
  let (pos, n) := bfCtl c
  if n = 0 then base else base / 2 ^ (pos + n) * 2 ^ (pos + n) + x % 2 ^ n * 2 ^ pos + base % 2 ^ pos
/-- `POPC` (R320). -/
def popcOp (x : Nat) : Nat := ((List.range 32).filter fun i => x.testBit i).length
/-- `CLZ` (R286). -/
def clzOp (x : Nat) : Nat := 32 - bitLen x
/-- `BREV` (R286). -/
def brevOp (x : Nat) : Nat := (List.range 32).foldl (fun r i => if x.testBit i then r + 2 ^ (31 - i) else r) 0
/-- `LOP.andn` (R320). -/
def andnOp (x y : Nat) : Nat := x ^^^ (x &&& y)

/-- A result that raises no flag. -/
def quiet2 (f : Nat → Nat → Nat) (x y : Nat) : Nat × Flags := (f x y, 0)

/-! ## Meanings -/

/-- `IADD` (R308). -/
def execIadd (c : Common) (f : A3) : State → Out :=
  runAlu2 (.iadd c f) f (x2 f.mod 14) (quiet2 (iaddOp (32 * x2 f.mod 14) (mbit f.mod 13)))
/-- `ISUB` (R308). -/
def execIsub (c : Common) (f : A3) : State → Out :=
  runAlu2 (.isub c f) f (x2 f.mod 14) (quiet2 (isubOp (32 * x2 f.mod 14) (mbit f.mod 13)))
/-- `IMUL` (R308). -/
def execImul (c : Common) (f : A3) : State → Out :=
  runAlu2 (.imul c f) f (x2 f.mod 14) (quiet2 fun x y => x * y % 2 ^ (32 * x2 f.mod 14))
/-- `IMULHI` (R308). -/
def execImulhi (c : Common) (f : A3) : State → Out := runAlu2 (.imulhi c f) f 1 (quiet2 (mulhiOp true))
/-- `IMULHI.u` (R308). -/
def execImulhiU (c : Common) (f : A3) : State → Out := runAlu2 (.imulhiU c f) f 1 (quiet2 (mulhiOp false))
/-- `IMAD` (R308). -/
def execImad (c : Common) (f : A4) : State → Out :=
  runAlu3 (.imad c f) f (x2 f.mod 4) fun x y z => ((x * y + z) % 2 ^ (32 * x2 f.mod 4), 0)
/-- `IMIN` (R308). -/
def execImin (c : Common) (f : A3) : State → Out :=
  runAlu2 (.imin c f) f (x2 f.mod 14) (quiet2 fun x y => if below true (32 * x2 f.mod 14) x y then x else y)
/-- `IMIN.u` (R308). -/
def execIminU (c : Common) (f : A3) : State → Out :=
  runAlu2 (.iminU c f) f (x2 f.mod 14) (quiet2 fun x y => if below false (32 * x2 f.mod 14) x y then x else y)
/-- `IMAX` (R308). -/
def execImax (c : Common) (f : A3) : State → Out :=
  runAlu2 (.imax c f) f (x2 f.mod 14) (quiet2 fun x y => if below true (32 * x2 f.mod 14) x y then y else x)
/-- `IMAX.u` (R308). -/
def execImaxU (c : Common) (f : A3) : State → Out :=
  runAlu2 (.imaxU c f) f (x2 f.mod 14) (quiet2 fun x y => if below false (32 * x2 f.mod 14) x y then y else x)
/-- `IABS` (R308). -/
def execIabs (c : Common) (f : A3) : State → Out :=
  runAlu1 (.iabs c f) f.d f.a 1 fun x => (iabsOp (mbit f.mod 13) x, 0)
/-- `SHL` (R347). -/
def execShl (c : Common) (f : A3) : State → Out :=
  runAlu2 (.shl c f) f (x2 f.mod 14) (quiet2 (shlOp (32 * x2 f.mod 14)))
/-- `SHR` (R347). -/
def execShr (c : Common) (f : A3) : State → Out :=
  runAlu2 (.shr c f) f (x2 f.mod 14) (quiet2 (shrOp (32 * x2 f.mod 14)))
/-- `SAR` (R347). -/
def execSar (c : Common) (f : A3) : State → Out :=
  runAlu2 (.sar c f) f (x2 f.mod 14) (quiet2 (sarOp (32 * x2 f.mod 14)))
/-- `LOP.and` (R320). -/
def execLopAnd (c : Common) (f : A3) : State → Out :=
  runAlu2 (.lopAnd c f) f (x2 f.mod 14) (quiet2 fun x y => x &&& y)
/-- `LOP.or` (R320). -/
def execLopOr (c : Common) (f : A3) : State → Out :=
  runAlu2 (.lopOr c f) f (x2 f.mod 14) (quiet2 fun x y => x ||| y)
/-- `LOP.xor` (R320). -/
def execLopXor (c : Common) (f : A3) : State → Out :=
  runAlu2 (.lopXor c f) f (x2 f.mod 14) (quiet2 fun x y => x ^^^ y)
/-- `LOP.andn` (R320). -/
def execLopAndn (c : Common) (f : A3) : State → Out := runAlu2 (.lopAndn c f) f (x2 f.mod 14) (quiet2 andnOp)
/-- `BFX` (R284). -/
def execBfx (c : Common) (f : A3) : State → Out := runAlu2 (.bfx c f) f 1 (quiet2 (bfxOp true))
/-- `BFX.u` (R284). -/
def execBfxU (c : Common) (f : A3) : State → Out := runAlu2 (.bfxU c f) f 1 (quiet2 (bfxOp false))
/-- `BFI` (R284). -/
def execBfi (c : Common) (f : A4) : State → Out := runAlu3 (.bfi c f) f 1 fun x y z => (bfiOp x y z, 0)
/-- `POPC` (R320). -/
def execPopc (c : Common) (f : A3) : State → Out := runAlu1 (.popc c f) f.d f.a 1 fun x => (popcOp x, 0)
/-- `CLZ` (R286). -/
def execClz (c : Common) (f : A3) : State → Out := runAlu1 (.clz c f) f.d f.a 1 fun x => (clzOp x, 0)
/-- `BREV` (R286). -/
def execBrev (c : Common) (f : A3) : State → Out := runAlu1 (.brev c f) f.d f.a 1 fun x => (brevOp x, 0)
/-- `ICMP` (R309). -/
def execIcmp (c : Common) (f : A3) : State → Out :=
  runCmp (.icmp c f) f (x2 f.mod 14) fun x y => condOf (mfield f.mod 0 3) (below true (32 * x2 f.mod 14) x y) (x == y)
/-- `ICMP.u` (R309). -/
def execIcmpU (c : Common) (f : A3) : State → Out :=
  runCmp (.icmpU c f) f (x2 f.mod 14) fun x y => condOf (mfield f.mod 0 3) (below false (32 * x2 f.mod 14) x y) (x == y)
/-- `SEL` (R349). -/
def execSel (c : Common) (f : A4) (s : State) : Out :=
  let n := x2 f.mod 4
  .next (issueWith (.sel c f)
    (fixedBody f.d n fun s h l => (if s.rdP h l f.c != mbit f.mod 3 then s.rd h l f.a n else s.rd h l f.b n, 0)) s)
/-- `MOV` (R321). -/
def execMov (c : Common) (f : A3) : State → Out := runAlu1 (.mov c f) f.d f.a (x2 f.mod 14) fun x => (x, 0)
/-- `MOVI` (R321). -/
def execMovi (c : Common) (f : MI) (s : State) : Out :=
  .next (issueWith (.movi c f) (fixedBody f.d (x2 f.mod 0) fun _ _ _ => (wrapI 64 f.imm.toInt, 0)) s)
/-- The Boolean operations of `PSET` on predicates, each operand negated or not (R328). -/
def runPset (i : Instr) (f : A3) (op : Bool → Bool → Bool) (s : State) : Out :=
  .next (issueWith i
    (fixedBody f.d 1 fun s h l =>
      (if op (s.rdP h l f.a != mbit f.mod 0) (s.rdP h l f.b != mbit f.mod 1) then 1 else 0, 0)) s)
/-- `PSET.and` (R328). -/
def execPsetAnd (c : Common) (f : A3) : State → Out := runPset (.psetAnd c f) f (· && ·)
/-- `PSET.or` (R328). -/
def execPsetOr (c : Common) (f : A3) : State → Out := runPset (.psetOr c f) f (· || ·)
/-- `PSET.xor` (R328). -/
def execPsetXor (c : Common) (f : A3) : State → Out := runPset (.psetXor c f) f (· != ·)

end Sys2Proof.Machine
end

