-- ==== Sys2Proof/Machine/Ordering.lean ====
section
/-! DEFINITION. `PUBLISH`, `REFRESH`, `FENCE`, `CLEAN` and `DISCARD`, their completions, and replacement of cached lines
(R102, R105 to R107, R137, R139, R209). -/

namespace Sys2Proof.Machine
open Sys2Proof

/-- `PUBLISH`: holds the bundle (R105). -/
def execPublish (c : Common) (f : A3) (s : State) : Out :=
  .next (issueWith (.publish c f) (fun x s => x.hold (.publish (mfield f.mod 0 2)) 0 s) s)
/-- `REFRESH`: holds the bundle (R105). -/
def execRefresh (c : Common) (f : A3) (s : State) : Out :=
  .next (issueWith (.refresh c f) (fun x s => x.hold (.refresh (mfield f.mod 0 2)) 0 s) s)
/-- `FENCE`: holds every thread of the bundle, guarded or not (R137). -/
def execFence (c : Common) (f : A3) (s : State) : Out :=
  .next (issueWith (.fence c f) (fun x s => x.hold (.fence (mfield f.mod 0 2)) 0 s) s)

/-- The store buffer is drained and, at `.sys`, the peers have acknowledged; the lanes' earlier acquires are done (R105,
R127). -/
def State.publishReady (s : State) (h : Hold) (job scope : Nat) : Bool :=
  !s.unpublished h.core job scope h.id && s.acquired h.tag h.sheaf h.active h.id

/-- Looks a hold up with its job. -/
def State.holdJob (s : State) (id : Nat) : Option (Hold × Nat) :=
  (s.holds.find? (·.id == id)).bind fun h => (s.stook h.tag).map fun k => (h, k.job)

/-- `PUBLISH_COMPLETE` (R105). -/
def execPublishComplete (id : Nat) (s : State) : Out :=
  .next (match s.holdJob id with
    | some (h, job) => match h.kind with
      | .publish scope => if s.publishReady h job scope then (s.publish h.core job scope).release h else s
      | _ => s
    | none => s)

/-- `REFRESH_COMPLETE`, after the lanes' earlier acquires (R105, R127). -/
def execRefreshComplete (id : Nat) (s : State) : Out :=
  .next (match s.holdJob id with
    | some (h, job) => match h.kind with
      | .refresh scope =>
        if s.acquired h.tag h.sheaf h.active h.id then (s.refresh h.core job scope).release h else s
      | _ => s
    | none => s)

/-- Every access and engine request of threads that issued before a number is done (R137). -/
def State.allDone (s : State) (tag i : Nat) (m : Lanes) (upto : Nat) : Bool :=
  s.met ⟨tag, i, m, upto⟩ && s.fabReqs.all fun f =>
    !(f.tag == tag && f.sheaf == i && f.lanes &&& m != 0 && decide (f.id < upto))

/-- `FENCE_COMPLETE` (R137). -/
def execFenceComplete (id : Nat) (s : State) : Out :=
  .next (match s.holdJob id with
    | some (h, job) => match h.kind with
      | .fence scope =>
        if s.publishReady h job scope && s.allDone h.tag h.sheaf h.lanes h.id then
          ((s.publish h.core job scope).refresh h.core job scope).release h
        else s
      | _ => s
    | none => s)

/-! ## Extents -/

/-- A copy lies in n bytes from an offset of a range. -/
def CacheLine.inExtent (x : CacheLine) (e : RangeEnt) (off n : Nat) : Bool :=
  x.job == e.owner && x.rng == e.idx && x.key == e.key && decide (off / 64 * 64 ≤ x.line) && decide (x.line < off + n)

/-- A home slice's line lies in n bytes from an offset of a range. -/
def L3Line.inExtent (l : L3Line) (e : RangeEnt) (off n : Nat) : Bool :=
  l.names e l.line && decide (off / 64 * 64 ≤ l.line) && decide (l.line < off + n)

/-- `CLEAN` of an extent by a core (R106): an L1's dirty bytes are in the die's L2 copy too afterwards (R133). -/
def State.cleanExtent (s : State) (core : Nat) (e : RangeEnt) (off n : Nat) : State :=
  let mine (x : CacheLine) : Bool := x.unit == core && x.inExtent e off n
  let dies (x : CacheLine) : Bool := x.unit == core / 64 && x.inExtent e off n
  if e.cls = .sh then
    (s.l3.filter (·.inExtent e off n)).foldl (fun s l => s.cleanHome e l.line) s
  else
    let s := (s.l1.filter mine).foldl State.mergeThrough ((s.l2.filter dies).foldl State.mergeHome s)
    { s with l1 := modWhere mine (fun c => { c with dirty := 0 }) s.l1,
             l2 := modWhere dies (fun c => { c with dirty := 0, writers := [] }) s.l2 }

/-- Committed versions of an extent go: a home write of every byte has overtaken them (R139, R191). -/
def State.dropCommitted (s : State) (e : RangeEnt) (off n : Nat) : State :=
  match s.arbor e.owner with
  | none => s
  | some a => { s with versions := s.versions.filter fun v =>
      !(v.arbor == a.id && v.rng == e.idx && v.key == e.key && decide (off / 64 * 64 ≤ v.line) && decide (v.line < off + n) &&
        a.stateAt (e.home v.line) v.path == .committed) }

/-- `DISCARD` of an extent by a core (R106): on `SH` lines a home write of what memory last held (R139). -/
def State.discardExtent (s : State) (core : Nat) (e : RangeEnt) (off n : Nat) : State :=
  if e.cls = .sh then
    State.dropCommitted { s with l3 := s.l3.filter (!·.inExtent e off n) } e off n
  else
    { s with l1 := s.l1.filter fun x => !(x.unit == core && x.inExtent e off n)
             l2 := s.l2.filter fun x => !(x.unit == core / 64 && x.inExtent e off n) }

/-- `CLEAN` and `DISCARD`: the checks of R106 in order, 0x12 on `RO` (R103) before 0x22 (log entry 156), then a request that
every later access to the lines follows. -/
def cleanBody (f : MF) (kind : ReqKind) : Body := fun c s =>
  match c.sh s, s.stook c.tag, lanesOf c.act with
  | some h, some k, l0 :: _ =>
    let len := s.rd h l0 f.d 1
    let va := vaPlus (BitVec.ofNat 64 (s.rd h l0 f.addr 2)) f.off.toInt
    let w := BitVec.ofNat 64 va
    let toEnd := match s.findRange k.job va with | some e => decide (va + len = e.base + e.limit) | none => false
    if va % 64 ≠ 0 ∨ (len % 64 ≠ 0 ∧ !toEnd) then c.trap c.act (0x13, w) s
    else if len = 0 then s
    else match s.translateOut k.job va len 1 rightW with
      | .error t => c.trap c.act t s
      | .ok (e, off) =>
        let tagged := (lanesOf c.act).any fun l =>
          match h.threads[l]? with | some t => s.whoOf k.job t != .untagged | none => false
        if e.cls = .ro then c.trap c.act (0x12, w) s
        else if tagged then c.trap c.act (0x22, w) s
        else if !s.keyLive e then c.trap c.act (0x15, w) s
        else
          let op := s.nextId
          let s := c.openOp 1 s
          c.enqueue op []
            [{ id := 0, op := 0, tag := c.tag, job := k.job, sheaf := c.sheaf, lanes := c.act, core := h.core, kind,
               place := .range e off, width := len, data := [], acq := false, rel := false, scope := 0, home := true,
               who := .untagged, dest := [], extra := [], ff := none, got := [], done := [], va := w, pc := c.pc,
               clause := c.clause, issued := s.free, once := true }] s
  | _, _, _ => s

/-- `CLEAN` (R106). -/
def execClean (c : Common) (f : MF) (s : State) : Out := .next (issueWith (.clean c f) (cleanBody f .clean) s)
/-- `DISCARD` (R106, R139). -/
def execDiscard (c : Common) (f : MF) (s : State) : Out := .next (issueWith (.discard c f) (cleanBody f .discard) s)

/-- The `CLEAN` or `DISCARD` of a request takes place, where it may (R107). -/
def State.doExtent (s : State) (id : Nat) : State :=
  match s.reqs.find? (·.id == id) with
  | some r =>
    match r.kind, r.place with
    | .clean, .range ent off =>
      if s.canRun r then (s.cleanExtent r.core (s.entNow ent) off r.width).finishReq r else s
    | .discard, .range ent off =>
      if s.canRun r then (s.discardExtent r.core (s.entNow ent) off r.width).finishReq r else s
    | _, _ => s
  | none => s

/-- `CLEAN_DISCARD_COMPLETE` (R107): every line has been handled and the slot drops. -/
def execCleanDiscardComplete (id : Nat) (s : State) : Out := .next (s.doExtent id)

/-- The requests that a test picks execute in issue order, as far as they may; a barrier's arrivals land by themselves. -/
def State.drive (s : State) (p : Req → Bool) : State :=
  (s.reqs.filter p).foldl (fun s r =>
    match r.kind with
    | .clean | .discard => s.doExtent r.id
    | .barrier => if s.canRun r then s.runPiece r 0 else s
    | _ =>
      let n := match r.place with | .range _ off => (linePieces off r.width).length | .spad .. | .bar _ => 1
      (List.range n).foldl (fun s i => homeAccess r.id i false s) s) s

/-- `PH_REPLACEMENT_WRITEBACK` (R102): copies of a line leave an L1 or L2, their dirty bytes written back with their mask:
from L1 to the L2, or home under an empty way mask. -/
def execPhReplacementWriteback (l2 : Bool) (unit rng line : Nat) (s : State) : Out :=
  let at' (x : CacheLine) : Bool := x.unit == unit && x.rng == rng && x.line == line
  .next (if l2 then
      (s.l2.filter at').foldl State.evictL2 s
    else (s.l1.filter at').foldl State.evictL1 s)

end Sys2Proof.Machine
end

