-- ==== Sys2Proof/Machine/Sync.lean ====
section
/-! DEFINITION. Waits and their releases: `BAR`, the crib instructions, `WAITGE`, `DOZE`, `GROW` and `SHRINK` (R47, R109,
R110, R118, R119, R283, R292, R293, R303, R353, R361). -/

namespace Sys2Proof.Machine
open Sys2Proof

/-- A request of the given lanes that moves no data, of an instruction that executes once per bundle or not (R59). -/
def Ctx.baseReq (c : Ctx) (s : State) (k : Stook) (m : Lanes) (once : Bool) (kind : ReqKind) (place : Place) : Req :=
  { id := 0, op := 0, tag := c.tag, job := k.job, sheaf := c.sheaf, lanes := m,
    core := ((c.sh s).map (·.core)).getD 0, kind, place, width := 16, data := [], acq := false, rel := false, scope := 0,
    home := true, who := .untagged, dest := [], extra := [], ff := none, got := [], done := [], va := 0, pc := c.pc,
    clause := c.clause, issued := s.free, once }

/-- The operand of an instruction that executes once per bundle (R59): what the lowest active lane reads. -/
def Ctx.uni (c : Ctx) (s : State) (r : Reg) (n : Nat) : Nat :=
  match c.sh s, lanesOf c.act with
  | some h, l :: _ => s.rd h l r n
  | _, _ => 0

/-! ## `BAR` (R283) -/

/-- Each active lane arrives at barrier b, a release at `.die`; `BAR` then holds its bundle. -/
def barBody (b : Nat) (wait : Bool) : Body := fun c s =>
  let s := s.modThreads c.tag c.sheaf c.act fun t => { t with arrivals := t.arrivals.modify b (· + 1) }
  match c.sh s, s.stook c.tag with
  | some h, some k =>
    let ls := lanesOf c.act
    let op := s.nextId
    let s := c.openOp ls.length s
    let s := c.enqueue op []
      (ls.map fun l => { c.baseReq s k (1#32 <<< l) false .barrier (.bar b) with rel := true, scope := 1 }) s
    let inst := ls.map fun l => (l, ((h.threads[l]?).bind fun t => t.arrivals[b]?).getD 0)
    if wait then c.hold (.bar b inst) op s else s
  | _, _ => s

/-- `BAR` (R283). -/
def execBar (c : Common) (f : A3) (s : State) : Out :=
  .next (issueWith (.bar c f) (barBody (mfield f.mod 0 4) true) s)
/-- `BAR.arrive` (R283). -/
def execBarArrive (c : Common) (f : A3) (s : State) : Out :=
  .next (issueWith (.barArrive c f) (barBody (mfield f.mod 0 4) false) s)

/-- The arrivals of a lane at a barrier that its release has let through. -/
def State.landedAt (s : State) (h : Sheaf) (l b : Nat) (t : Thread) : Nat :=
  (t.arrivals[b]?).getD 0 -
    (s.reqs.filter fun q => q.tag == h.tag && q.sheaf == h.index && q.place == .bar b && q.lanes.getLsbD l).length

/-- The last instance of a barrier at which every thread of the stook has arrived or exited; none while all have exited
(R283). -/
def State.instanceDone (s : State) (tag b : Nat) : Option Nat :=
  ((s.sheaves.filter (·.tag == tag)).flatMap fun h =>
    (h.threads.zipIdx.filter fun p => !p.1.exited).map fun p => s.landedAt h p.2 b p.1).min?

/-- `BAR_INSTANCE_COMPLETE`: arrivals land, and the holds whose instances are complete end, an acquire at `.die` (R283). -/
def execBarInstanceComplete (tag b : Nat) (s : State) : Out :=
  let mine := s.reqs.filter fun q => q.tag == tag && q.place == .bar b
  let s := mine.foldl (fun s q => if s.canRun q then s.runPiece q 0 else s) s
  let done := s.instanceDone tag b
  let passed (n : Nat) : Bool := match done with | some k => decide (n ≤ k) | none => true
  let s := s.modStook tag fun k => { k with bars := k.bars.modify b fun n => max n (done.getD n) }
  let free := s.holds.filter fun h => h.tag == tag && match h.kind with
    | .bar b' inst => b' == b && inst.all fun p => !h.active.getLsbD p.1 || passed p.2
    | _ => false
  .next (free.foldl (fun s h =>
    let job := ((s.stook tag).map (·.job)).getD 0
    (s.refresh h.core job 1).release h) s)

/-! ## Cribs (R109, R110, R292) -/

/-- The scratchpad place of a crib (R97). -/
def Stook.cribPlace (k : Stook) (i : Nat) : Place := .spad 0 (k.share + 16 * i)

/-- A crib number beyond the stook's cribs, with the cause (R110). -/
def Stook.badCrib (k : Stook) (i : Nat) : Option Trap :=
  if k.cribs.length ≤ i then some (0x02, BitVec.ofNat 64 i) else none

/-- A crib update of a bundle: a request that reaches the crib when it may (R127, R292). -/
def cribBody (f : A3) (kind : Nat → ReqKind) : Body := fun c s =>
  match s.stook c.tag with
  | none => s
  | some k =>
    let i := c.uni s f.a 1
    match k.badCrib i with
    | some t => c.trap c.act t s
    | none =>
      let op := s.nextId
      let s := c.openOp 1 s
      c.enqueue op [] [{ c.baseReq s k c.act true (kind (c.uni s f.b 1)) (k.cribPlace i) with rel := true, scope := 1 }] s

/-- `CRIBARR`: adds bits [15:0] of the count, a release at `.die` (R110). -/
def execCribarr (c : Common) (f : A3) (s : State) : Out :=
  .next (issueWith (.cribarr c f) (cribBody f fun n => .cribArrive (n % 65536)) s)

/-- `CRIBSET` (R109, step 1). -/
def execCribset (c : Common) (f : A4) (s : State) : Out :=
  let body : Body := fun x s =>
    match s.stook x.tag with
    | none => s
    | some k =>
      let i := x.uni s f.a 1
      let at' := x.uni s f.b 1
      match k.badCrib i with
      | some t => x.trap x.act t s
      | none =>
        if at' > 0xFFFF then x.trap x.act (0x02, BitVec.ofNat 64 at') s
        else
          let op := s.nextId
          let s := x.openOp 1 s
          x.enqueue op [] [x.baseReq s k x.act true (.cribSet x.sheaf at' (x.uni s f.c 1)) (k.cribPlace i)] s
  .next (issueWith (.cribset c f) body s)

/-- `CRIBWAIT`: holds the bundle (R110). -/
def execCribwait (c : Common) (f : A3) (s : State) : Out :=
  let body : Body := fun x s =>
    match s.stook x.tag with
    | none => s
    | some k =>
      let i := x.uni s f.a 1
      match k.badCrib i with
      | some t => x.trap x.act t s
      | none => x.hold (.cribWait i (x.uni s f.b 1)) 0 s
  .next (issueWith (.cribwait c f) body s)

/-- `CRIB_UNIT_CYCLE` (R109). -/
def execCribUnitCycle (tag crib : Nat) (s : State) : Out :=
  .next (s.modStook tag fun k => k.cribCycle crib (s.cycleOf tag))

/-- What a hold reads, as the waiting lanes make the access: n bytes of a place, for the order of R127. -/
def Hold.read (h : Hold) (job : Nat) (p : Place) (n : Nat) : Req :=
  { id := h.id, op := h.op, tag := h.tag, job, sheaf := h.sheaf, lanes := h.active, core := h.core,
    kind := .load false, place := p, width := n, data := [], acq := false, rel := false, scope := 2, home := true,
    who := .untagged, dest := [], extra := [], ff := none, got := [], done := [], va := 0, pc := h.pc, clause := h.clause,
    issued := 0, once := true }

/-- `CRIBWAIT_RELEASE`: the turn is past the one waited on, an acquire at `.die`; it is read after what the lanes did to the
crib before, with no update waiting for the unit, and after their acquires (R110, R127). -/
def execCribwaitRelease (id : Nat) (s : State) : Out :=
  .next (match s.holds.find? (·.id == id) with
    | some h => match h.kind, s.stook h.tag with
      | .cribWait i t, some k =>
        let turn := ((k.cribs[i]?).map (·.turn)).getD 0
        if s.ordered (h.read k.job (k.cribPlace i) 16) && (k.firstUp i).isNone
            && decide (0 < sgn 32 (wrapI 32 ((turn : Int) - t))) then
          (s.refresh h.core k.job 1).release h
        else s
      | _, _ => s
    | none => s)

/-! ## Counters in memory (R118, R119, R361) -/

/-- The checks of a waited counter: 8-aligned, in an `SH` range with R, and readable (R118). -/
def State.waitCheck (s : State) (job va : Nat) : Except Trap (RangeEnt × Nat) :=
  if s.inAperture job va then .error (0x12, BitVec.ofNat 64 va) else
  match s.translate job va 8 8 rightR with
  | .error t => .error t
  | .ok (e, off) =>
    if e.cls ≠ .sh then .error (0x12, BitVec.ofNat 64 va)
    else match s.lineChecks e false off 8 va with
      | some t => .error t
      | none => .ok (e, off)

/-- A wait on a counter: its checks, one `%hyp` for a bundle with a tagged lane (R189), then the hold. -/
def waitBody (va : Ctx → State → Nat) (kind : Ctx → State → DWord → HoldKind) : Body := fun c s =>
  match s.stook c.tag with
  | none => s
  | some k =>
    match s.waitCheck k.job (va c s) with
    | .error t => c.trap c.act t s
    | .ok _ =>
      if c.mixedTagged s then c.trap c.act (0x22, BitVec.ofNat 64 (va c s)) s
      else c.hold (kind c s (BitVec.ofNat 64 (va c s))) 0 s

/-- `WAITGE` (R118). -/
def execWaitge (c : Common) (f : MF) (s : State) : Out :=
  .next (issueWith (.waitge c f)
    (waitBody (fun x s => vaPlus (BitVec.ofNat 64 (x.uni s f.addr 2)) f.off.toInt)
      fun x s va => .waitGe va (x.uni s f.d 2)) s)

/-- `DOZE` (R119). -/
def execDoze (c : Common) (f : A4) (s : State) : Out :=
  .next (issueWith (.doze c f)
    (waitBody (fun x s => x.uni s f.a 2) fun x s va => .doze va (x.uni s f.b 2) (x.uni s f.c 2)) s)

/-- The waiting lanes' earlier accesses that come before the counter's read are done, `RATOM`s among them (R127, points 1
and 3; R335). -/
def State.waitOrdered (s : State) (h : Hold) (e : RangeEnt) (off : Nat) : Bool :=
  s.ordered (h.read e.owner (.range e off) 8)

/-- A wait has read its counter: at least the target, it ends as an acquire at `.dev`; below it, a `WAITGE` goes on and
a `DOZE` raises 0x20 at the instruction after it (R118, R119). -/
def State.waitRead (s : State) (h : Hold) (x : Nat) : State :=
  let job := ((s.stook h.tag).map (·.job)).getD 0
  let pass : State := (s.refresh h.core job 2).release h
  match h.kind with
  | .waitGe _ target => if target ≤ x then pass else s
  | .doze va target _ =>
    if target ≤ x then pass else
    let s := s.release h
    (lanesOf h.active).foldl (fun s l =>
      match s.thread h.tag h.sheaf l with
      | some t => s.take h.tag h.sheaf l 0x20 va t.pc t.clause
      | none => s) s
  | _ => s

/-- One read of a waited counter at its home (R118), as an untagged read whatever `%hyp` its threads hold (R361);
on a peer range the read sets out for the peer (R75), and a line in transit makes it wait (R84). -/
def State.pollWait (s : State) (h : Hold) (va : DWord) : State :=
  match s.stook h.tag with
  | none => s
  | some k =>
    match s.waitCheck k.job va.toNat with
    | .error t => s.holdTrap h t
    | .ok (e, off) =>
      if !s.waitOrdered h e off || (e.peer.isNone && e.held off 8) then s else
      match e.peer with
      | none => s.waitRead h (leNat (s.homeReadN e off 8))
      | some (pkg, x) =>
        if s.fabReqs.any (·.kind == .poll h.id) then s else
        let w := DestWord.memory pkg x off
        let f : FabReq := { id := s.nextId, op := 0, tag := h.tag, job := k.job, sheaf := h.sheaf, lanes := h.active,
                            core := h.core, kind := .poll h.id, left := [0], unsent := [], dep := ⟨h.tag, h.sheaf, 0, 0⟩,
                            relScope := none }
        let s := { s.bump with fabReqs := s.fabReqs ++ [f] }
        s.inject (s.memMsg k.job h.core pkg x off f.id 0 (.readReq w 8))

/-- `WAITGE_RELEASE` (R118). -/
def execWaitgeRelease (id : Nat) (s : State) : Out :=
  .next (match s.holds.find? (·.id == id) with
    | some h => match h.kind with
      | .waitGe va _ => s.pollWait h va
      | _ => s
    | none => s)

/-- `DOZE_TIME_REACHED`: the time has come and the counter is read (R119). -/
def execDozeTimeReached (id : Nat) (s : State) : Out :=
  .next (match s.holds.find? (·.id == id) with
    | some h => match h.kind with
      | .doze va _ time => if time ≤ s.dtime then s.pollWait h va else s
      | _ => s
    | none => s)

/-! ## Allotments (R47, R303, R353) -/

/-- Vector register bytes of a core that its sheaves hold, with those that a `SHRINK` has returned whose results are still
outstanding (R47, R353). A core has 512 KiB (R45). -/
def State.regBytes (s : State) (core : Nat) : Nat :=
  ((s.sheaves.filter (·.core == core)).map fun h =>
    let out := (s.ops.filter fun o => o.tag == h.tag && o.sheaf == h.index).flatMap (·.back)
    128 * (h.allot + out.eraseDups.length)).sum

/-- `GROW`: holds the bundle until it is granted (R47). -/
def execGrow (c : Common) (f : A3) (s : State) : Out :=
  let n := mfield f.mod 0 5
  let body : Body := fun x s =>
    match x.sh s with
    | none => s
    | some h => if h.allot + 8 * n > 256 then x.trap x.act (0x02, 0) s else x.hold (.grow n) 0 s
  .next (issueWith (.grow c f) body s)

/-- `GROW_GRANT`: the oldest `GROW` of a core gets its registers, which read zero (R47). -/
def execGrowGrant (id : Nat) (s : State) : Out :=
  .next (match s.holds.find? (·.id == id) with
    | some h => match h.kind, s.sheaf h.tag h.sheaf with
      | .grow n, some sh =>
        let older := s.holds.any fun g => g.core == h.core && decide (g.id < h.id) && match g.kind with
          | .grow _ => true
          | _ => false
        if older then s
        else if sh.allot + 8 * n > 256 then s.holdTrap h (0x02, 0)
        else if s.regBytes h.core + 1024 * n > 524288 then s
        else
          let s := s.modSheaf h.tag h.sheaf fun x =>
            { x with threads := x.threads.map fun t => { t with v := t.v ++ List.replicate (8 * n) 0 } }
          s.release h
      | _, _ => s
    | none => s)

/-- `SHRINK`: the highest registers go at once; a result outstanding for one of them is discarded when it comes (R47,
R353). -/
def execShrink (c : Common) (f : A3) (s : State) : Out :=
  let n := mfield f.mod 0 5
  let body : Body := fun x s =>
    match x.sh s with
    | none => s
    | some h =>
      if h.allot < 8 * n + 8 then x.trap x.act (0x02, 0) s else
      let top := h.allot - 8 * n
      let gone (r : Nat) : Bool := decide (top ≤ r) && decide (r < 256)
      let s := s.modSheaf x.tag x.sheaf fun h => { h with threads := h.threads.map fun t =>
        { t with v := t.v.take top, pend := t.pend.filter fun p => !gone p.reg } }
      let trim (r : Result) : Result := { r with writes := r.writes.filter fun w => !gone w.1 }
      let s := { s with results := modWhere (fun r => r.tag == x.tag && r.sheaf == x.sheaf) trim s.results }
      let keep (o : Op) : Op := { o with
        regs := o.regs.filter (!gone ·), back := o.back ++ (o.regs.filter gone).eraseDups.map fun r => (r, s.free) }
      let s := { s with ops := modWhere (fun o => o.tag == x.tag && o.sheaf == x.sheaf) keep s.ops }
      let cut (r : Req) : Req := { r with dest := r.dest.map fun d => if gone d.1 then (1023, d.2) else d }
      let s := { s with reqs := modWhere (fun r => r.tag == x.tag && r.sheaf == x.sheaf) cut s.reqs }
      let drop (d : Deferred) : Deferred := { d with reqs := d.reqs.map cut, gone := d.gone ++ (List.range 256).filter gone }
      { s with deferred := modWhere (fun d => d.tag == x.tag && d.sheaf == x.sheaf) drop s.deferred }
  .next (issueWith (.shrink c f) body s)

end Sys2Proof.Machine
end

