-- ==== Sys2Proof/Machine/Wain.lean ====
section
/-! DEFINITION. Wains: templates, the checks of a request, landing packets and completion; tier prefetch (R111 to R116,
R120, R196, R359). -/

namespace Sys2Proof.Machine
open Sys2Proof

/-! ## Templates (R113) -/

/-- A template from its 64 bytes, and whether its reserved bits are zero. -/
def Template.ofBytes (bs : List Byte) : Template × Bool :=
  let x := leNat bs
  let f (byte lo n : Nat) : Nat := natBits x (8 * byte + lo) n
  let dspad := f 0x30 35 1 == 1
  ({ sva := f 0 0 64, dva := f 8 0 64, cntr := f 0x10 0 64, dstr1 := sgn 32 (f 0x18 32 32), sstr1 := sgn 32 (f 0x18 0 32),
     dstr2 := sgn 32 (f 0x20 32 32), sstr2 := sgn 32 (f 0x20 0 32), incr := f 0x28 48 16, cnt2 := f 0x28 32 16,
     cnt1 := f 0x28 16 16, cnt0 := f 0x28 0 16, cribEn := f 0x30 48 1 == 1, crib := f 0x30 40 8,
     follow := f 0x30 38 1 == 1, hinh := f 0x30 37 1 == 1, notify := f 0x30 36 1 == 1, dspad, esize := f 0x30 32 3,
     unit := f 0x30 0 32, bcred := f 0x38 32 32, mxidx := f 0x38 0 12 },
   f 0x30 49 15 == 0 && f 0x30 39 1 == 0 && f 0x38 12 20 == 0 && (!dspad || f 8 34 30 == 0))

/-- The element size in bytes. -/
def Template.size (t : Template) : Nat := 2 ^ t.esize

/-- Element size and counts are legal. -/
def Template.legal (t : Template) : Bool := decide (t.esize ≤ 4) && t.cnt0 != 0 && t.cnt1 != 0 && t.cnt2 != 0

/-- The displacement of a request word (R112, R114). -/
def Template.disp (t : Template) (w : DWord) : Int := sgn 52 (w.toNat / 2 ^ 12) * t.unit

/-- The source address of element (c2, c1, 0) (R114). -/
def Template.src (t : Template) (w : DWord) (c2 c1 : Nat) : Nat :=
  wrapI 64 ((t.sva : Int) + t.disp w + c2 * t.sstr2 + c1 * t.sstr1)
/-- The destination address, or scratchpad offset, of element (c2, c1, 0) (R114); an offset past the share, or below it,
lies outside it (R112). -/
def Template.dst (t : Template) (w : DWord) (c2 c1 : Nat) : Nat :=
  wrapI 64 (((if t.dspad then t.dva % 2 ^ 32 else t.dva : Nat) : Int) + t.disp w + c2 * t.dstr2 + c1 * t.dstr1)

/-- The first element address that is not a multiple of the element size, in loop order, source before destination. -/
def Template.misaligned (t : Template) (w : DWord) : Option Nat :=
  let at' (c2 c1 : Nat) : List Nat := [t.src w c2 c1, t.dst w c2 c1]
  (at' 0 0 ++ (if 1 < t.cnt1 then at' 0 1 else []) ++ (if 1 < t.cnt2 then at' 1 0 else [])).find? (· % t.size != 0)

/-! ## The bytes of a copy -/

/-- A stretch of elements that lie in one place: first element, place and count. -/
structure Stretch where
  first : Nat
  ent : Option RangeEnt
  place : Place
  count : Nat

/-- Cuts a run of elements at range ends, each element checked as one access; the first failing element (R78, R79, R111). -/
def State.walk (s : State) (job : Nat) (rights : BitVec 7) (noRo : Bool) (size : Nat) :
    Nat → Nat → Nat → Nat → List Stretch × Option (Nat × Trap)
  | 0, va, i, n => ([], if n = 0 then none else some (i, 0x10, BitVec.ofNat 64 va))
  | fuel + 1, va, i, n =>
    if n = 0 then ([], none) else
    match s.translateOut job va size 1 rights with
    | .error t => ([], some (i, t))
    | .ok (e, off) =>
      if noRo && e.cls == .ro then ([], some (i, 0x12, BitVec.ofNat 64 va))
      else if !s.keyLive e then ([], some (i, 0x15, BitVec.ofNat 64 va))
      else
        let k := min n ((e.limit - off) / size)
        let r := s.walk job rights noRo size fuel (va + k * size) (i + k) (n - k)
        (⟨i, some e, .range e off, k⟩ :: r.1, r.2)

/-- A place some bytes on. -/
def Place.plus (p : Place) (n : Nat) : Place :=
  match p with
  | .range e o => .range e (o + n)
  | .spad k o => .spad k (o + n)
  | .bar b => .bar b

/-- The offset of a place. -/
def Place.off : Place → Nat
  | .range _ o => o
  | .spad _ o => o
  | .bar _ => 0

/-- The stretch an element lies in. -/
def stretchAt (l : List Stretch) (i : Nat) : Option Stretch :=
  l.find? fun x => decide (x.first ≤ i) && decide (i < x.first + x.count)

/-- Packs a run into landing packets that end at 256-byte boundaries of the destination and where a range ends (R114). -/
def packRun (size : Nat) (src dst : List Stretch) : Nat → Nat → Nat → List Packet
  | 0, _, _ => []
  | fuel + 1, i, n =>
    if n ≤ i then [] else
    match stretchAt src i, stretchAt dst i with
    | some a, some b =>
      match a.ent with
      | none => []
      | some e =>
        let d := b.place.plus ((i - b.first) * size)
        let k := min (min (a.first + a.count - i) (b.first + b.count - i)) (max 1 ((256 - d.off % 256) / size))
        ⟨e, a.place.off + (i - a.first) * size, d, k * size⟩ :: packRun size src dst fuel (i + k) n
    | _, _ => []

/-- The packets of one run, or the cause of its first failing element, source before destination (R112). -/
def State.wainRun (s : State) (job : Nat) (t : Template) (w : DWord) (c2 c1 : Nat) : Except Trap (List Packet) :=
  let fuel := s.ranges.length + 1
  let src := s.walk job (rightC ||| rightR) false t.size fuel (t.src w c2 c1) 0 t.cnt0
  let dst : List Stretch × Option (Nat × Trap) :=
    if t.dspad then ([⟨0, none, .spad (t.dva / 2 ^ 32 % 4) (t.dst w c2 c1), t.cnt0⟩], none)
    else s.walk job (rightC ||| rightW) true t.size fuel (t.dst w c2 c1) 0 t.cnt0
  match src.2, dst.2 with
  | some a, some b => if a.1 ≤ b.1 then .error a.2 else .error b.2
  | some a, none => .error a.2
  | none, some b => .error b.2
  | none, none => .ok (packRun t.size src.1 dst.1 t.cnt0 0 t.cnt0)

/-- The packets of every run in loop order. -/
def State.wainPackets (s : State) (job : Nat) (t : Template) (w : DWord) : Except Trap (List Packet) :=
  (List.range (t.cnt2 * t.cnt1)).foldl (fun acc r =>
    match acc with
    | .error e => .error e
    | .ok ps => match s.wainRun job t w (r / t.cnt1) (r % t.cnt1) with
      | .error e => .error e
      | .ok qs => .ok (ps ++ qs)) (.ok [])

/-- Scratchpad packets and the crib lie inside the stook (R97, R112). -/
def Stook.wainInside (k : Stook) (t : Template) (ps : List Packet) : Option Trap :=
  let share := t.dva / 2 ^ 32 % 4
  let out : Option Trap :=
    if !t.dspad then none
    else if k.cores.length ≤ share then some (0x02, BitVec.ofNat 64 (t.dva % 2 ^ 32))
    else if ps.any fun p => decide (k.spadEnd share < p.dst.off + p.len) then
      some (0x11, BitVec.ofNat 64 (k.spadEnd share))
    else none
  match out with
  | some t => some t
  | none => if t.cribEn then k.badCrib t.crib else none

/-- A tagged copy's first write that R189 refuses. -/
def taggedRefusal (ps : List Packet) : Option Nat :=
  ps.findSome? fun p => match p.dst with
    | .range e o => if !e.hyp || e.tierOf o == 1 || e.peer.isSome then some (e.base + o) else none
    | _ => none

/-- A range registered for a job holds item i of 64 bytes (R112, R168). -/
def State.registered (s : State) (job : Nat) (x : Option Nat) (i : Nat) : Option RangeEnt :=
  (x.bind s.range).bind fun e => if e.owner = job ∧ e.grants rightR ∧ 64 * i + 64 ≤ e.limit then some e else none

/-- The checks a wain makes, in the order of R112: the template and the packets, or a cause; a template that cannot be
read at its home gives the cause of that read (R104, R251). -/
def State.wainCheck (s : State) (k : Stook) (va : DWord) (w : DWord) (who : Who) : Except Trap (Template × List Packet) :=
  match s.job k.job with
  | none => .error (0x02, va)
  | some j =>
    let i := w.toNat % 4096
    match s.registered k.job j.tmpl i with
    | none => .error (0x02, va)
    | some e =>
      match s.lineChecks e false (64 * i) 64 (e.base + 64 * i) with
      | some c => .error c
      | none =>
      let (t, ok) := Template.ofBytes (s.homeReadN e (64 * i) 64)
      if !ok || !t.legal then .error (0x02, va)
      else if t.follow && (s.registered k.job j.mxRange t.mxidx).isNone then .error (0x02, va)
      else match t.misaligned w with
        | some a => .error (0x13, BitVec.ofNat 64 a)
        | none =>
          match s.wainPackets k.job t w with
          | .error t => .error t
          | .ok ps =>
            match if t.cntr = 0 then none else s.checkCounter k.job t.cntr with
            | some c => .error (c.1, BitVec.ofNat 64 t.cntr)
            | none =>
              match k.wainInside t ps with
              | some c => .error c
              | none =>
                match if t.hinh && who.isTagged then taggedRefusal ps else none with
                | some v => .error (0x22, BitVec.ofNat 64 v)
                | none => .ok (t, ps)

/-- One aperture request is checked and queued: the value it returns (R112), or its cause. A full channel returns 0. -/
def State.wainAccept (s : State) (tag i l core : Nat) (off : Nat) (w : DWord) (dep : Dep) : Except Trap (DWord × State) :=
  match s.stook tag, s.thread tag i l with
  | some k, some t =>
    let va := BitVec.ofNat 64 (((s.job k.job).map (·.aperture)).getD 0 + off)
    let who := s.whoOf k.job t
    match s.wainCheck k va w who with
    | .error t => .error t
    | .ok (tm, ps) =>
      let die := core / 64
      let wain := off / 2 ^ 12 % 8
      let ch := off / 2 ^ 6 % 64
      let queued := s.copies.filter fun c => c.job == k.job && c.die == die && c.wain == wain && c.channel == ch
      if 8 ≤ queued.length then .ok (0, s) else
      let p := BitVec.ofNat 64 (s.dtime + Config.planTime s.free)
      let promise := if p = 0 then 1 else p
      let c : Copy := { id := s.nextId, tag, job := k.job, sheaf := i, die, wain, channel := ch, word := w, template := tm,
                        packets := ps, landed := [], who := if tm.hinh then who else .untagged, dep, promise,
                        started := false, first := none, late := false }
      .ok (promise, { s.bump with copies := s.copies ++ [c], free := s.free + 1 })
  | _, _ => .error (0x02, 0)

/-- The wain's answer to one lane of an `ATOM.xchg` (R112, R364): the promise under the slot, or a cause; after its checks
the one `%hyp` that a bundle with a tagged lane needs for a uniform destination (R189, R279). A register returned since by
`SHRINK` takes nothing (R353). -/
def decideWain (d : Deferred) (f : MA) (s : State) (x : Nat × List Word) : State :=
  let m := if f.d.isU then d.active else 1#32 <<< x.1
  let v (i : Nat) : Nat := ((x.2[i]?).map (·.toNat)).getD 0
  let core := ((s.sheaf d.tag d.sheaf).map (·.core)).getD 0
  let refuse (t : Trap) : State :=
    (lanesOf m).foldl (fun s l => s.take d.tag d.sheaf l t.1 t.2 d.pc d.clause) (s.opPart d.op)
  match s.wainAccept d.tag d.sheaf x.1 core (v 0) (BitVec.ofNat 64 (v 1 + v 2 * 2 ^ 32)) ⟨d.tag, d.sheaf, m, d.upto⟩ with
  | .error t => refuse t
  | .ok (p, s') =>
    if f.d.isU && s.mixedTagged d.tag d.sheaf m then
      refuse (0x22, BitVec.ofNat 64 (v 0 + (((s.job (((s.stook d.tag).map (·.job)).getD 0)).map (·.aperture)).getD 0)))
    else
    let r : Result := { id := s'.nextId, op := d.op, tag := d.tag, sheaf := d.sheaf,
                        writes := (regWrites f.d x.1 2 p.toNat).filter fun w => !d.gone.contains w.1 }
    { s'.bump with results := s'.results ++ [r] }

/-- The line of a copy request's template, if it lies in a peer range (R75). -/
def State.templateLines (s : State) (job : Nat) (x : Nat × List Word) : List (RangeEnt × Nat) :=
  let i := (((x.2[1]?).map (·.toNat)).getD 0) % 4096
  match (s.job job).bind fun j => s.registered job j.tmpl i with
  | some e => if e.peer.isSome then [(e, 64 * i)] else []
  | none => []

/-! ## Landing (R114, R115) -/

/-- A copy's party at this moment (R196): its path may have been committed or refuted meanwhile. -/
def State.copyWho (s : State) (c : Copy) : Who :=
  match c.who with
  | .tagged h => s.whoPath c.job false h
  | w => w

/-- The bytes at an offset of a range, as an engine reads them at home; of a peer range, those it has fetched (R75). -/
def State.engineRead (s : State) (e : RangeEnt) (off n : Nat) (w : Who) : List Byte :=
  let e := s.entNow e
  (linePieces off n).flatMap fun p => s.homeRead e p.1 p.2 w

/-- An engine writes bytes at a local place, one write event for each line. -/
def State.engineWrite (s : State) (tag : Nat) (p : Place) (bs : List Byte) (w : Who) : State :=
  match p with
  | .range e off =>
    (linePieces off bs.length).foldl (fun s q => s.agentWrite (s.entNow e) q.1 ((bs.drop (q.1 - off)).take q.2) w) s
  | .spad k off => s.spadWrite tag k off bs
  | .bar _ => s

/-- Two byte stretches of places meet. -/
def Place.meets (p : Place) (n : Nat) (q : Place) (m : Nat) : Bool :=
  match p, q with
  | .range e o, .range f u => e.idx == f.idx && decide (o < u + m) && decide (u < o + n)
  | .spad k o, .spad l u => k == l && decide (o < u + m) && decide (u < o + n)
  | _, _ => false

/-- A packet that lands out of turn disturbs one before it in loop order (R114). -/
def Packet.after (p q : Packet) : Bool :=
  p.dst.meets p.len (.range q.src q.soff) q.len || p.dst.meets p.len q.dst q.len ||
    (Place.range p.src p.soff).meets p.len q.dst q.len

/-- The source of a packet can be read: no line of it is lost (R251). Under a key retired since the request it reads as bytes
that are not stated (log entry 129). -/
def State.sourceReady (s : State) (p : Packet) : Bool :=
  let e := s.entNow p.src
  e.peer.isSome || (e.firstBlocked false p.soff p.len).isNone

/-- The destination of a packet is no lost line that it does not cover (R251). -/
def State.targetReady (s : State) (p : Packet) : Bool :=
  match p.dst with
  | .range f off => let f := s.entNow f; f.peer.isSome || (f.firstBlocked true off p.len).isNone
  | _ => true

/-- The destination of a packet is memory under a key that has been retired since the request: the packet writes nothing
(R104; log entry 129). -/
def State.targetDead (s : State) (p : Packet) : Bool :=
  match p.dst with
  | .range f _ => let f := s.entNow f; f.peer.isNone && !s.keyLive f
  | _ => false

/-- A packet waits for a line that a re-place has in transit (R84). -/
def State.packetHeld (s : State) (p : Packet) : Bool :=
  (s.entNow p.src).held p.soff p.len || match p.dst with
    | .range f off => (s.entNow f).held off p.len
    | _ => false

/-- A packet may land: its destination is no lost line, and a tagged write finds its ways (R190, R251). -/
def State.packetReady (s : State) (c : Copy) (p : Packet) : Bool :=
  s.targetReady p && match p.dst with
  | .range f off =>
    let f := s.entNow f
    f.peer.isSome || s.targetDead p || match s.copyWho c, s.arbor c.job with
      | .tagged h, some a => s.waysFree a f h ((linePieces off p.len).map (·.1 / 64 * 64))
      | _, _ => true
  | _ => true

/-- A packet has landed: credited as it lands where the template gives no sum (R115). -/
def State.packetLanded (s : State) (c : Copy) (k n : Nat) : State :=
  let s := { s with copies := modWhere (·.id == c.id) (fun c => { c with landed := k :: c.landed }) s.copies }
  if c.template.cribEn && c.template.bcred == 0 then s.credit c.tag c.template.crib n else s

/-- Bytes of a range from offset so on, as copying them element by element to offset d of the same range leaves them there
(R114). -/
def elementwise (bs : List Byte) (so d size : Nat) : List Byte :=
  (List.range bs.length).foldl (fun out i =>
    let at' := so + i
    out ++ [((if d ≤ at' ∧ at' < d + i / size * size then out[at' - d]? else bs[i]?)).getD 0]) []

/-- The bytes that packet k of a copy moves: those read as the copy started, or those at its source now; to a peer range that
it reads too, as element by element they would land (R114). -/
def State.packetBytes (s : State) (c : Copy) (k : Nat) (p : Packet) : List Byte :=
  match if k = 0 then c.first else none with
  | some bs => bs
  | none =>
    let bs := s.engineRead p.src p.soff p.len (s.copyWho c)
    match p.dst with
    | .range e o => if e.idx = p.src.idx then elementwise bs p.soff o c.template.size else bs
    | _ => bs

/-- The bytes of a packet move: one element after another where source and destination meet (R114). -/
def State.movePacket (s : State) (c : Copy) (k : Nat) (p : Packet) : State :=
  if s.targetDead p then s else
  let w := s.copyWho c
  let size := c.template.size
  if p.dst.meets p.len (.range p.src p.soff) p.len then
    (List.range (p.len / size)).foldl (fun s i =>
      s.engineWrite c.tag (p.dst.plus (i * size)) (s.engineRead p.src (p.soff + i * size) size w) w) s
  else s.engineWrite c.tag p.dst (s.packetBytes c k p) w

/-- Two copies of one channel of a wain. -/
def Copy.sameChannel (c x : Copy) : Bool :=
  c.job == x.job && c.die == x.die && c.wain == x.wain && c.channel == x.channel

/-- A copy starts: its first packet reads its source, where that can be read at once and does not meet its destination;
elsewhere the packet reads as it lands (R114; log entry 95). -/
def State.startCopy (s : State) (c : Copy) : State :=
  let first := (c.packets.head?).bind fun p =>
    if (s.entNow p.src).peer.isSome || p.dst.meets p.len (.range p.src p.soff) p.len || !s.sourceReady p ||
        (s.entNow p.src).held p.soff p.len then none
    else some (s.engineRead p.src p.soff p.len (s.copyWho c))
  { s with copies := modWhere (·.id == c.id) (fun c => { c with started := true, first := first }) s.copies }

/-- A write packet of an engine sets out for a peer package (R75, R199). -/
def State.peerWrite (s : State) (kind : FabKind) (tag job core pkg x off : Nat) (bs : List Byte) : State :=
  let w := DestWord.memory pkg x off
  let f : FabReq := { id := s.nextId, op := 0, tag, job, sheaf := 0, lanes := 0, core, kind, left := [0], unsent := [],
                      dep := ⟨tag, 0, 0, 0⟩, relScope := none }
  let s := { s.bump with fabReqs := s.fabReqs ++ [f] }
  s.inject (s.memMsg job core pkg x off f.id 0 (.write w bs))

/-- A packet of a copy lands, or sets out for a peer package; an orphan's write to a peer range is discarded (R191, R196).
The copies accepted before it in its channel start before it does, and a source in a peer range is fetched first (R75,
R114). A packet whose copy's promise is due waits for no line in transit, whose bytes move only as it is installed (R84,
R115). -/
def State.landPacket (s : State) (id k : Nat) (due : Bool) : State :=
  match s.copies.find? (·.id == id) with
  | none => s
  | some c =>
    match c.packets[k]? with
    | none => s
    | some p =>
      let waits := (c.packets.take k).zipIdx.any fun q => !c.landed.contains q.2 && p.after q.1
      let before := s.copies.filter fun x => x.sameChannel c && decide (x.id < c.id) && !x.started
      let read := k == 0 && c.first.isSome
      if c.landed.contains k || !s.met c.dep || waits || !(read || s.sourceReady p) || !s.packetReady c p ||
          (!due && s.packetHeld p) || s.fabReqs.any (·.kind == .wain id k) || !before.all (fun x => s.met x.dep) then s else
      let (there, s) := if read then (true, s) else s.gather c.id c.job c.die ((s.entNow p.src).linesOf p.soff p.len)
      if !there then s else
      let s := before.foldl State.startCopy { s with free := s.free + 1 }
      let s := { s with copies := modWhere (·.id == id) (fun c => { c with started := true }) s.copies }
      let s := match p.dst with
        | .range f off =>
          match (s.entNow f).peer with
          | some (pkg, x) =>
            if (s.copyWho c).isOrphan then s.packetLanded c k p.len
            else s.peerWrite (.wain id k) c.tag c.job (64 * c.die) pkg x off (s.packetBytes c k p)
          | none => (s.movePacket c k p).packetLanded c k p.len
        | _ => (s.movePacket c k p).packetLanded c k p.len
      s.used c.id

/-- `WAIN_PACKET_LAND` (R114, R115). -/
def execWainPacketLand (id k : Nat) (s : State) : Out := .next (s.landPacket id k false)

/-- A copy whose bytes have all landed completes, in acceptance order in its channel: credit, counter, follow-on, notify
(R115, R116). -/
def State.completeCopy (s : State) (id : Nat) : State :=
  match s.copies.find? (·.id == id) with
  | none => s
  | some c =>
    let t := c.template
    let first := s.copies.all fun x => !(x.sameChannel c && decide (x.id < c.id))
    if !first || !(List.range c.packets.length).all c.landed.contains then s else
    let s := { s with copies := s.copies.filter (·.id != id) }
    let s := if t.cribEn && t.bcred != 0 then s.credit c.tag t.crib t.bcred else s
    let s := if t.incr = 0 then s else s.addCounter c.job t.cntr t.incr
    let s := if t.follow then { s.bump with followOns := s.followOns ++ [⟨s.nextId, c.tag, c.job, t.mxidx⟩] } else s
    let tag := ((s.stookNow c.tag).map (·.tag)).getD c.tag
    if t.notify then (List.range 32).foldl (fun s l => s.post tag c.sheaf l 0x50 c.word) s else s

/-- `WAIN_COPY_COMPLETE` (R115, R116). -/
def execWainCopyComplete (id : Nat) (s : State) : Out := .next (s.completeCopy id)

/-- What delays a copy past its promise (R115): an uncorrectable line, a line of a rebuild, a lowered core clock, the drain
of a pre-emption. -/
def State.copyDelayed (s : State) (c : Copy) : Bool :=
  let rebuilt (e : RangeEnt) : Bool := match (s.entNow e).move with | .rebuild _ => true | _ => false
  let k := s.clock c.die
  let drains := match (s.stook c.tag).bind (·.pre) with | some p => p.stage == .draining | none => false
  decide (k.num < k.den) || drains || c.packets.zipIdx.any fun q =>
    !c.landed.contains q.2 && (!s.sourceReady q.1 || !s.targetReady q.1 || rebuilt q.1.src ||
      match q.1.dst with | .range e _ => rebuilt e | _ => false)

/-- The time of a copy's promise has come: where something delays it, or a copy accepted before it in its channel, it is
late. Else the accesses it follows are done, its packets land and it completes, after those before it in its channel (R6,
R114, R115; log entry 107). -/
def State.meetPromise (s : State) (id : Nat) : State :=
  match s.copies.find? (·.id == id) with
  | none => s
  | some c =>
    let mine := s.copies.filter fun x => x.sameChannel c && decide (x.id ≤ c.id)
    if mine.any s.copyDelayed then
      { s with copies := modWhere (·.id == id) (fun c => { c with late := true }) s.copies }
    else
      let finish (s : State) (x : Copy) : State :=
        ((List.range x.packets.length).foldl (fun s k => s.landPacket x.id k true) s).completeCopy x.id
      mine.foldl finish (if mine.all fun x => s.met x.dep then s else s.drive fun r => decide (r.id < c.id))

/-- A copy whose promise has come has nothing more to do now: what it waits for is an answer of a peer package or a
speculative way, and time stands until it has come (R115; log entry 107). -/
def State.promiseStands (s : State) (id : Nat) : Bool := s.meetPromise id == s

/-! ## Tier prefetch (R120, R359) -/

/-- A line's bytes are credited at once: an HBM-tier line, or one its home slice holds (R120). -/
def State.tierNear (s : State) (e : RangeEnt) (line : Nat) : Bool :=
  e.tierOf line != 1 || s.l3.any (·.names e line)

/-- Credits the lines that are near. -/
def State.tierCredit (s : State) (o : TierOp) : State :=
  match s.range o.rng with
  | none => s
  | some e =>
    let s := (o.lines.filter fun p => s.tierNear e p.1).foldl (fun s p => s.credit o.tag o.crib p.2) s
    let rest := o.lines.filter fun p => !s.tierNear e p.1
    { s with tierOps := (modWhere (·.id == o.id) (fun x => { x with lines := rest }) s.tierOps).filter (!·.lines.isEmpty) }

/-- `TIERPF` (R120): the aperture accepts none (R111), a retired key raises 0x15 (R104), and a bundle with a tagged lane
needs one `%hyp` (R189). -/
def execTierpf (c : Common) (f : A4) (s : State) : Out :=
  let body : Body := fun x s =>
    match s.stook x.tag with
    | none => s
    | some k =>
      let va := x.uni s f.a 2
      let len := x.uni s f.b 1
      let i := x.uni s f.c 1
      let ext := if len = 0 then Except.ok none else (s.translateOut k.job va len 1 rightR).map some
      match ext, k.badCrib i with
      | .error t, _ => x.trap x.act t s
      | .ok _, some _ => x.trap x.act (0x02, 0) s
      | .ok none, none => if x.mixedTagged s then x.trap x.act (0x22, BitVec.ofNat 64 va) s else s
      | .ok (some (e, off)), none =>
        if x.mixedTagged s then x.trap x.act (0x22, BitVec.ofNat 64 va) s
        else if !s.keyLive e then x.trap x.act (0x15, BitVec.ofNat 64 va) s
        else
        let o : TierOp := { id := s.nextId, tag := x.tag, crib := i, rng := e.idx, dep := x.dep s,
                            lines := (linePieces off len).map fun p => (p.1 / 64 * 64, p.2) }
        let s := { s.bump with tierOps := s.tierOps ++ [o] }
        if s.met o.dep then s.tierCredit o else s
  .next (issueWith (.tierpf c f) body s)

/-- `TIERPF_LINE_ARRIVE`: a line reaches its home slice, which holds it from then on, and its bytes are credited (R120);
under a key retired since the issue they are credited all the same (log entry 130). -/
def execTierpfLineArrive (id line : Nat) (s : State) : Out :=
  .next (match s.tierOps.find? (·.id == id) with
    | none => s
    | some o =>
      match o.lines.find? (·.1 == line) with
      | none => s
      | some p =>
        if !s.met o.dep then s else
        let s := match s.range o.rng with
          | some e => if e.tierOf line = 1 && e.peer.isNone && s.keyLive e then s.fetchBase e line else s
          | none => s
        let s := s.credit o.tag o.crib p.2
        let cut (x : TierOp) : TierOp := { x with lines := x.lines.filter (·.1 != line) }
        { s with tierOps := (modWhere (·.id == id) cut s.tierOps).filter (!·.lines.isEmpty) })

end Sys2Proof.Machine
end

