-- ==== Sys2Proof/Machine/Fabric.lean ====
section
/-! DEFINITION. `PUT`, `GET`, `RATOM`, `AMSG` and `COLL`: their checks, packets and sending; collective descriptors (R199,
R200, R203 to R205, R209 to R213, R276, R291, R302, R330 to R335). -/

namespace Sys2Proof.Machine
open Sys2Proof

/-! ## Packets and sending -/

/-- Cuts n bytes from an offset at multiples of 256: position and length of each packet (R197, R204). -/
def cut256 (off n : Nat) : List (Nat × Nat) :=
  (List.range ((off + n + 255) / 256 - off / 256)).map fun i =>
    let lo := max off ((off / 256 + i) * 256)
    (lo - off, min (off + n) ((off / 256 + i + 1) * 256) - lo)

/-- The offset a destination word names in its target: a range offset, or a scratchpad offset. -/
def DestWord.off (w : DestWord) : Nat := if w.kind = 0 then w.toff.toNat else w.toff.toNat % 2 ^ 32

/-- A destination word some bytes on; a scratchpad word keeps its residence tag. -/
def DestWord.plus (w : DestWord) (n : Nat) : DestWord :=
  if w.kind = 0 then { w with toff := w.toff + BitVec.ofNat 64 n }
  else { w with toff := BitVec.ofNat 64 (w.toff.toNat / 2 ^ 32 * 2 ^ 32 + (w.off + n) % 2 ^ 32) }

/-- A `GET`'s local word: in scratchpad it names the issuing stook, by zero or by its own residence tag (R200, R204). -/
def DestWord.ownStook (w : DestWord) (tag : Nat) : DestWord :=
  if w.kind = 0 then w else { w with toff := BitVec.ofNat 64 (tag * 2 ^ 32 + w.off) }

/-- The residence tag of a scratchpad word. -/
def DestWord.restag (w : DestWord) : Nat := w.toff.toNat / 2 ^ 32

/-- Where a destination word's packet goes. -/
def DestWord.goal (w : DestWord) : FabTo :=
  if w.kind = 0 then .mem w.pkg w.range w.toff.toNat else .core w.pkg w.die w.core

/-- One packet of a request is done; with the last the request is gone (R204). -/
def State.fabDone (s : State) (f : FabReq) (piece : Nat) : State :=
  let cut (x : FabReq) : FabReq := { x with left := x.left.filter (· != piece) }
  let s := { s with fabReqs := (modWhere (·.id == f.id) cut s.fabReqs).filter fun x =>
    x.id != f.id || !x.left.isEmpty || !x.unsent.isEmpty }
  if f.left.contains piece then s.opPart f.op else s

/-- Sends one packet: its payload is read at home now where it comes from memory (R204). A payload that cannot be
delivered (R104, R251) is lost with its packet. -/
def State.sendPacket (s : State) (f : FabReq) (u : Unsent) : State :=
  let lost := match u.src with
    | some (e, off, n) =>
      let e := s.entNow e
      e.peer.isNone && ((e.firstBlocked false off n).isSome || !s.keyLive e)
    | none => false
  if lost then (s.lostOne f.job (dieEp (f.core / 64))).fabDone f u.piece else
  let bytes := match u.src with
    | some (e, off, n) => s.engineRead e off n .untagged
    | none => []
  let k := match u.src, u.kind with
    | some _, .write d _ => .write d bytes
    | some _, .contribution c d b ch p i _ => .contribution c d b ch p i (wordsOf (bytes.length / 4) (leNat bytes))
    | _, k => k
  match u.goal with
  | .mem pkg x off => s.inject (s.memMsg f.job f.core pkg x off f.id u.piece k)
  | .core pkg die c => s.inject (s.coreMsg f.job f.core pkg die c f.id u.piece k)
  | .router root =>
    s.inject { id := 0, job := f.job, core := some f.core, plane := s.planeOf (coreHash root.die root.core), port := none,
               srcPkg := s.pkg, dstPkg := s.pkg, srcEp := dieEp (f.core / 64), dstEp := 8 + f.core / 128, req := f.id,
               piece := u.piece, use := 0, accepted := false, kind := k }

/-- A request may be sent: the accesses it follows are done, what a release publishes is drained and acknowledged, its
earlier requests have cleared their slots, no line of its payload is in transit, and no earlier instruction of its sheaf that
executes once per bundle still waits (R59, R84, R127, R198, R209, R333). -/
def State.sendReady (s : State) (f : FabReq) : Bool :=
  !f.unsent.isEmpty && s.met f.dep &&
    (match f.relScope with
      | none => true
      | some x => !s.unpublished f.core f.job x f.id && !s.fabPending f.tag f.sheaf f.dep.lanes f.id) &&
    (f.unsent.all fun u => match u.src with
      | some (e, off, n) => !(s.entNow e).held off n
      | none => true) &&
    !(f.kind.ofInstr && s.onceBefore f.tag f.sheaf f.op)

/-- Sends every packet of a request; a release publishes first (R333). -/
def State.sendReq (s : State) (f : FabReq) : State :=
  let s := match f.relScope with | some sc => s.publish f.core f.job sc | none => s
  let s := { s with fabReqs := modWhere (·.id == f.id) (fun x => { x with unsent := [] }) s.fabReqs,
                    free := s.free + 1 }
  f.unsent.foldl (fun s u => s.sendPacket f u) s

/-- The lines of the memory that a request's payload is read from. -/
def FabReq.sourceLines (f : FabReq) : List (RangeEnt × Nat) :=
  f.unsent.flatMap fun u => match u.src with | some (e, off, n) => e.linesOf off n | none => []

/-- Sends the requests that may be sent now, in order of issue; a payload in a peer range is fetched first (R75). -/
def State.settle (s : State) : State :=
  s.fabReqs.foldl (fun s f => match s.fabReqs.find? (·.id == f.id) with
    | some f =>
      if !s.sendReady f then s else
      match s.gather f.id f.job (f.core / 64) f.sourceLines with
      | (true, s) => (s.sendReq f).used f.id
      | (false, s) => s
    | none => s) s

/-- Puts a request under an operation that is open, and sends it when it may be sent. -/
def State.submit (s : State) (core job tag i : Nat) (act : Lanes) (op : Nat) (dep : Dep) (kind : FabKind)
    (us : List Unsent) (rel : Option Nat) : State :=
  let l := ((lanesOf act).head?).getD 0
  let f : FabReq := { id := s.nextId, op, tag, job, sheaf := i, lanes := 1#32 <<< l, core, kind,
                      left := us.map (·.piece), unsent := us, dep, relScope := rel }
  let ops := modWhere (·.id == op) (fun o => { o with left := us.length }) s.ops
  ({ s.bump with fabReqs := s.fabReqs ++ [f], ops := ops }).settle

/-- A request of the current bundle (R203). -/
def Ctx.submit (c : Ctx) (kind : FabKind) (us : List Unsent) (rel : Option Nat) (s : State) : State :=
  let dep := c.dep s
  let op := s.nextId
  let s := c.openOp us.length s
  match s.stook c.tag, c.sh s with
  | some k, some h => s.submit h.core k.job c.tag c.sheaf c.act op dep kind us rel
  | _, _ => s

/-- Some active lane is tagged (R189). -/
def Ctx.anyTagged (c : Ctx) (s : State) : Bool :=
  match s.stook c.tag with
  | none => false
  | some k => (lanesOf c.act).any fun l =>
      match s.thread c.tag c.sheaf l with | some t => (s.whoOf k.job t).isTagged | none => false

/-- n uniform registers from r on, as words. -/
def Ctx.regWords (c : Ctx) (s : State) (r : Reg) (n : Nat) : List Word :=
  match c.sh s, lanesOf c.act with
  | some h, l :: _ => (List.range n).map fun i => s.readReg h l (r.num + i)
  | _, _ => []

/-- The bytes of words. -/
def wordBytes (ws : List Word) : List Byte := ws.flatMap fun w => leBytes 4 w.toNat

/-- The extent of a source in memory: R78 and R79 with R, and its key (R204, R364). -/
def State.sourceExtent (s : State) (job va n : Nat) : Except Trap (RangeEnt × Nat) :=
  match s.translateOut job va n 1 rightR with
  | .error t => .error t
  | .ok (e, off) => if s.keyLive e then .ok (e, off) else .error (0x15, BitVec.ofNat 64 va)

/-- The extent that a `GET` lands in: R78 and R79 with W at an offset of a range of the job (R204). -/
def State.landingExtent (s : State) (job x off n : Nat) : Option Trap :=
  match s.range x with
  | none => some (0x10, BitVec.ofNat 64 off)
  | some e =>
    let va := BitVec.ofNat 64 (e.base + off)
    if e.owner ≠ job ∨ e.limit ≤ off then some (0x10, va)
    else if e.limit < off + n then some (0x11, BitVec.ofNat 64 (e.base + e.limit))
    else if !e.grants rightW || e.cls == .ro then some (0x12, va)
    else if !s.keyLive e then some (0x15, va)
    else none

/-! ## Collective descriptors (R210) -/

/-- A descriptor's fields from its 64 bytes, and whether its reserved bits are zero. -/
def Coll.ofBytes (bs : List Byte) : Coll × Bool :=
  let x := leNat bs
  let opr := natBits x 62 2
  let rd := natBits x 48 8
  let elems := natBits x 0 8
  ({ opr, rd, nchunk := natBits x 32 16, npart := natBits x 16 16, elems,
     root := DestWord.ofNat (natBits x 128 128) },
   natBits x 56 6 == 0 && natBits x 8 8 == 0 && natBits x 64 64 == 0 && natBits x 256 256 == 0)

/-- Words of a chunk (R204, R210). -/
def Coll.words (c : Coll) : Nat := if c.opr = 3 then c.rd + 2 else c.elems

/-- Packets of a chunk: 64 words each for a plain operator, one for the rescale triple (R210); a chunk without words still
travels in one. -/
def Coll.packets (c : Coll) : Nat := if c.opr = 3 then 1 else max 1 ((c.elems + 63) / 64)

/-- Every field within its limits (R210). -/
def Coll.inLimits (c : Coll) : Bool :=
  decide (1 ≤ c.npart) && decide (c.npart ≤ 4096) && decide (1 ≤ c.nchunk) &&
    (if c.opr = 3 then decide (1 ≤ c.rd) && decide (c.rd ≤ 62) && c.elems == 0
     else decide (1 ≤ c.elems) && decide (c.elems ≤ 128) && c.rd == 0)

/-- The descriptor at a VA, read at home with R: alignment, extent of n bytes, loss and key. -/
def State.readColl (s : State) (job va n : Nat) : Except Trap (Coll × Bool) :=
  if va % 64 ≠ 0 then .error (0x13, BitVec.ofNat 64 va)
  else match s.translateOut job va n 1 rightR with
    | .error t => .error t
    | .ok (e, off) =>
      match s.lineChecks e false off n va with
      | some t => .error t
      | none => .ok (Coll.ofBytes (s.homeReadN e off 64))

/-- The lines of peer ranges that a descriptor lies in, those of its participant entries once the first one is known (R75,
R210). -/
def State.collLines (s : State) (who job va : Nat) : List (RangeEnt × Nat) :=
  let head := s.vaLines job va 64
  match s.translate job va 64 1 rightR with
  | .ok (e, off) =>
    if s.hasLines who head then s.vaLines job va (64 + 16 * (Coll.ofBytes (s.homeReadN e off 64)).1.npart) else head
  | .error _ => []

/-- Participant i of a descriptor at a VA (R210). -/
def State.collPart (s : State) (job va i : Nat) : DestWord :=
  DestWord.ofNat (leNat ((s.readVa job (va + 64 + 16 * i) 16 0).getD []))

/-! ## The instructions -/

/-- An instruction whose descriptor's bytes decide its checks holds its bundle, with the words it read (R364). -/
def Ctx.deferWords (c : Ctx) (ws : List Word) (s : State) : State :=
  let dep := c.dep s
  let op := s.nextId
  let s := c.openOp 1 s
  let d : Deferred := { core := c.core, slot := c.slot, tag := c.tag, sheaf := c.sheaf, active := c.act, pc := c.pc,
                        clause := c.clause, instr := c.i, upto := dep.upto, op, words := [(0, ws)], reqs := [], gone := [] }
  c.modBundle (fun b => { b with deferred := true }) { s with deferred := s.deferred ++ [d] }

/-- Every active lane of a deferred instruction takes a cause, and its operation ends. -/
def State.deferTrap (s : State) (d : Deferred) (t : Trap) : State :=
  (lanesOf d.active).foldl (fun s l => s.take d.tag d.sheaf l t.1 t.2 d.pc d.clause) (s.opEnd d.op)

/-- Some active lane of a deferred instruction is tagged (R189). -/
def State.deferTagged (s : State) (d : Deferred) : Bool :=
  match s.stook d.tag, s.sheaf d.tag d.sheaf with
  | some k, some h => (lanesOf d.active).any fun l =>
      match h.threads[l]? with | some t => (s.whoOf k.job t).isTagged | none => false
  | _, _ => false

/-- The write packets of a `PUT` to one destination word, pieces numbered from `p0` on. -/
def putPackets (w : DestWord) (cuts : List (Nat × Nat)) (src : Option (RangeEnt × Nat)) (bs : List Byte) (p0 : Nat) :
    List Unsent :=
  cuts.zipIdx.map fun p =>
    let d := w.plus p.1.1
    { piece := p0 + p.2, goal := d.goal, kind := .write d ((bs.drop p.1.1).take p.1.2),
      src := src.map fun x => (x.1, x.2 + p.1.1, p.1.2) }

/-- `PUT` (R204, R330). One to several places is a collective, which without the feature `COLL` raises 0x01, after the
checks of its own fields (R3, R202; log entry 142). -/
def execPut (c : Common) (f : A3) (s : State) : Out :=
  let body : Body := fun x s =>
    match s.stook x.tag with
    | none => s
    | some k =>
      let w := DestWord.ofNat (x.uni s f.d 4)
      let n := x.uni s f.b 1
      let mem := mbit f.mod 0
      let bad := w.reserved || decide (2 < w.kind) ||
        (if mem then decide (n = 0) || decide (n > 16777216)
         else decide (n < 4) || decide (n > 256) || n % 4 != 0 || decide (639 < f.a.num + n / 4 - 1))
      if bad then x.trap x.act (0x02, 0) s
      else if w.kind = 2 && !s.accepts 8 then x.trap x.act (0x01, x.i.word) s else
      let va := x.uni s f.a 2
      let src : Except Trap (Option (RangeEnt × Nat)) :=
        if mem then (s.sourceExtent k.job va n).map some else .ok none
      match src with
      | .error t => x.trap x.act t s
      | .ok src =>
        let ws := if mem then [] else x.regWords s f.a (n / 4)
        if w.kind = 2 then x.deferWords (wordsOf 4 (x.uni s f.d 4) ++ wordsOf 1 n ++ wordsOf 2 va ++ ws) s
        else if x.anyTagged s then x.trap x.act (0x22, 0) s
        else x.submit .put (putPackets w (cut256 w.off n) src (wordBytes ws) 0) none s
  .next (issueWith (.put c f) body s)

/-- Packets to several places, one place after another, their pieces numbered on. -/
def multicast (ps : List DestWord) (n : Nat) (src : Option (RangeEnt × Nat)) (bs : List Byte) : List Unsent :=
  (ps.foldl (fun (a : List Unsent × Nat) p =>
    let us := putPackets p (cut256 p.off n) src bs a.2
    (a.1 ++ us, a.2 + us.length)) ([], 0)).1

/-- The descriptor of a multicast `PUT` has been read: a cause, in the order of R204, or the write packets of each
participant, each within one of its landing slices (R213, R330). The source extent is checked again as it is decided. -/
def decidePut (d : Deferred) (f : A3) (s : State) : State :=
  let ws := (d.words.flatMap (·.2))
  let v (i n : Nat) : Nat := (((ws.drop i).take n).zipIdx.map fun p => p.1.toNat * 2 ^ (32 * p.2)).sum
  let w := DestWord.ofNat (v 0 4)
  let n := v 4 1
  let va := v 5 2
  let dva := w.toff
  match s.stook d.tag, s.sheaf d.tag d.sheaf with
  | some k, some h =>
    match s.readColl k.job dva.toNat 64 with
    | .error t => s.deferTrap d t
    | .ok (c, ok) =>
      match s.translateOut k.job dva.toNat (64 + 16 * c.npart) 1 rightR with
      | .error t => s.deferTrap d t
      | .ok _ =>
        if !ok || c.npart = 0 || decide (4096 < c.npart) then s.deferTrap d (0x02, dva) else
        let source : Except Trap (Option (RangeEnt × Nat)) :=
          if mbit f.mod 0 then (s.sourceExtent k.job va n).map some else .ok none
        match source with
        | .error t => s.deferTrap d t
        | .ok src =>
        if s.deferTagged d then s.deferTrap d (0x22, 0) else
        let ps := (List.range c.npart).map fun i =>
          let p := s.collPart k.job dva.toNat i
          { p.plus (64 * w.xoff) with reserved := p.reserved || p.kind != 1 }
        s.submit h.core k.job d.tag d.sheaf d.active d.op ⟨d.tag, d.sheaf, d.active, d.upto⟩ .put
          (multicast ps n src (wordBytes (ws.drop 7))) none
  | _, _ => s

/-- `GET` (R204, R302). -/
def execGet (c : Common) (f : A3) (s : State) : Out :=
  let body : Body := fun x s =>
    match s.stook x.tag with
    | none => s
    | some k =>
      let r := DestWord.ofNat (x.uni s f.d 4)
      let w := DestWord.ofNat (x.uni s f.a 4)
      let n := x.uni s f.b 1
      let core := 64 * w.die + w.core
      if r.reserved || w.reserved || r.kind != 0 || decide (1 < w.kind) || w.pkg != s.pkg || decide (n = 0) ||
          decide (n > 16777216) ||
          (w.kind == 1 && (!k.cores.contains core || (w.restag != 0 && w.restag != k.tag))) then x.trap x.act (0x02, 0) s
      else
        let out : Option Trap :=
          if w.kind = 0 then
            s.landingExtent k.job w.range w.off n
          else if k.share < w.off + n then some (0x11, BitVec.ofNat 64 k.share)
          else if w.cribEn then k.badCrib w.crib
          else none
        match out with
        | some t => x.trap x.act t s
        | none =>
          if x.anyTagged s then x.trap x.act (0x22, 0) s else
          let us := (cut256 r.off n).zipIdx.map fun p =>
            let d := r.plus p.1.1
            ({ piece := p.2, goal := d.goal, kind := .readReq d p.1.2, src := none } : Unsent)
          x.submit (.get r w n) us none s
  .next (issueWith (.get c f) body s)

/-- `RATOM` (R333, R334). -/
def execRatom (c : Common) (f : A3) (s : State) : Out :=
  let body : Body := fun x s =>
    match s.stook x.tag with
    | none => s
    | some k =>
      let w := DestWord.ofNat (x.uni s f.a 4)
      let wd := if mbit f.mod 10 then 2 else 1
      let v := x.uni s f.b (rmwOperands f.mod)
      let tagged := (lanesOf x.act).any fun l =>
        match s.thread x.tag x.sheaf l with | some t => s.whoOf k.job t != .untagged | none => false
      if w.reserved || w.kind != 0 || !s.knowsPkg w.pkg then x.trap x.act (0x02, 0) s
      else if tagged then x.trap x.act (0x22, 0) s
      else
        let kind := MsgKind.atomicReq w (rmwOf (mfield f.mod 11 4)) (4 * wd) (v % 2 ^ (32 * wd)) (v / 2 ^ (32 * wd))
        let scope := mfield f.mod 6 2
        x.submit (.ratom f.d.num wd (mbit f.mod 8) scope w) [{ piece := 0, goal := w.goal, kind, src := none }]
          (if mbit f.mod 9 then some scope else none) s
  .next (issueWith (.ratom c f) body s)

/-- `AMSG` (R204, R206, R276). -/
def execAmsg (c : Common) (f : A3) (s : State) : Out :=
  let body : Body := fun x s =>
    let w := DestWord.ofNat (x.uni s f.d 4)
    let ctl := x.uni s f.b 1
    let n := natBits ctl 16 6
    if w.reserved || w.kind != 3 || natBits ctl 12 4 != 0 || natBits ctl 22 10 != 0 || decide (62 < n) ||
        decide (639 < f.a.num + n - 1) then x.trap x.act (0x02, 0) s
    else if x.anyTagged s then x.trap x.act (0x22, 0) s
    else x.submit .amsg
      [{ piece := 0, goal := w.goal, kind := .active w (natBits ctl 0 12) (x.regWords s f.a n), src := none }] none s
  .next (issueWith (.amsg c f) body s)

/-- How many registers from r on a lane reads covered at issue, of up to 64; more where check mode is off (R71). -/
def Ctx.coveredRun (c : Ctx) (s : State) (r : Reg) (l : Nat) : Nat :=
  match (c.sh s).bind fun h => h.threads[l]? with
  | some t => if s.checking c.core then ((List.range 64).find? fun i => !t.covers s.ops (r.num + i)).getD 65535 else 65535
  | none => 65535

/-- `COLL`: what it reads at issue, with how much of its payload each lane reads covered; the descriptor decides the rest
(R71, R204, R364). -/
def execColl (c : Common) (f : A3) (s : State) : Out :=
  let body : Body := fun x s =>
    let i := x.uni s f.b 1
    if natBits i 12 4 != 0 then x.trap x.act (0x02, 0) s else
    let src := if mbit f.mod 0 then wordsOf 2 (x.uni s f.d 2) else x.regWords s f.d (min 64 (640 - f.d.num))
    let runs := (List.range 32).flatMap fun l => wordsOf 1 (if mbit f.mod 0 then 65535 else x.coveredRun s f.d l)
    x.deferWords (wordsOf 2 (x.uni s f.a 2) ++ wordsOf 1 i ++ runs ++ src) s
  .next (issueWith (.coll c f) body s)

/-- The contribution packets of a chunk (R210): words from registers, or from memory. -/
def Coll.contribute (c : Coll) (va bay chunk part : Nat) (ws : List Word) (src : Option (RangeEnt × Nat)) : List Unsent :=
  (List.range c.packets).map fun p =>
    let lo := if c.opr = 3 then 0 else 64 * p
    let n := if c.opr = 3 then c.words else min 64 (c.words - lo)
    { piece := p, goal := .router c.root, kind := .contribution c va bay chunk p part ((ws.drop lo).take n),
      src := src.map fun x => (x.1, x.2 + 4 * lo, 4 * n) }

/-- The descriptor of a `COLL` has been read: a cause, in the order of R204, or one contribution (R213). A lane whose read of
the register payload is not covered takes 0x04 (R71). -/
def decideColl (d : Deferred) (f : A3) (s : State) : State :=
  let ws := (d.words.flatMap (·.2))
  let v (i n : Nat) : Nat := (((ws.drop i).take n).zipIdx.map fun p => p.1.toNat * 2 ^ (32 * p.2)).sum
  let va := v 0 2
  let w := BitVec.ofNat 64 va
  let part := v 2 1 % 4096
  let chunk := v 2 1 / 65536
  match s.stook d.tag, s.sheaf d.tag d.sheaf with
  | some k, some h =>
    match s.readColl k.job va 64 with
    | .error t => s.deferTrap d t
    | .ok (c, ok) =>
      let mem := mbit f.mod 0
      if !ok || decide (c.npart ≤ part) || decide (c.nchunk ≤ chunk) then s.deferTrap d (0x02, w)
      else if c.opr = 3 && !s.accepts 9 then s.deferTrap d (0x01, d.instr.word)
      else if !mem && (decide (64 < c.words) || decide (639 < f.d.num + c.words - 1)) then s.deferTrap d (0x02, 0)
      else
        let src : Except Trap (Option (RangeEnt × Nat)) :=
          if mem then (s.sourceExtent k.job (v 35 2) (4 * c.words)).map some else .ok none
        match src with
        | .error t => s.deferTrap d t
        | .ok src =>
          let late := lanesWhere fun l => d.active.getLsbD l && decide (v (3 + l) 1 < c.words)
          let s := (lanesOf late).foldl (fun s l =>
            s.take d.tag d.sheaf l 0x04 (BitVec.ofNat 64 (f.d.num + v (3 + l) 1)) d.pc d.clause) s
          let act := d.active &&& ~~~late
          if act = 0 then s.opEnd d.op
          else if s.deferTagged { d with active := act } then s.deferTrap { d with active := act } (0x22, 0) else
          s.submit h.core k.job d.tag d.sheaf act d.op ⟨d.tag, d.sheaf, act, d.upto⟩ .coll
            (c.contribute va (16 * k.die + k.bay) chunk part (ws.drop 35) src) none
  | _, _ => s

end Sys2Proof.Machine
end

