-- ==== Sys2Proof/Machine/Fp.lean ====
section
/-! DEFINITION. Floating-point instructions: FP32, packed half, conversions and special functions (R295 to R300, R304,
R350 to R352). -/

namespace Sys2Proof.Machine
open Sys2Proof

/-- An FP32 operand after its abs and negate bits (R274, R295). -/
def f32Src (x : Nat) (abs neg : Bool) : Val :=
  let x := if abs then x % 2 ^ 31 else x
  let v := decodeF fp32 x
  if neg then v.neg else v

/-- The result of `FMIN` or `FMAX`, −0 below +0 (R300). -/
def minmaxF (max nan : Bool) (x y : Val) : Nat :=
  let enc (v : Val) : Nat := (encodeF fp32 v .rne).1
  let neg : Val → Bool := fun | .fin s _ _ => s | .inf s => s | .nan => false
  match x, y with
  | .nan, .nan => fp32.nan
  | .nan, v | v, .nan => if nan then fp32.nan else enc v
  | x, y =>
    let lt := match cmpV x y with
      | some .lt => true
      | some .eq => neg x && !neg y
      | _ => false
    if lt != max then enc x else enc y

/-- `FMIN`, `FMAX` and their `.nan` forms. -/
def runMinmax (i : Instr) (f : A3) (max nan : Bool) : State → Out :=
  runAlu2 i f 1 fun x y =>
    (minmaxF max nan (f32Src x (mbit f.mod 4) (mbit f.mod 2)) (f32Src y (mbit f.mod 5) (mbit f.mod 3)), 0)

/-- `FCMP` and `FCMP.u` (R296). -/
def fcmpOp (k : Nat) (un : Bool) (x y : Nat) : Bool :=
  match cmpV (decodeF fp32 x) (decodeF fp32 y) with
  | none => un
  | some o => condOf k (o == .lt) (o == .eq)

/-- A function of both halves of packed operands, flags of either half (R304). -/
def halves (g : Nat → Nat × Flags) : Nat × Flags :=
  let lo := g 0
  let hi := g 1
  (lo.1 + hi.1 * 2 ^ 16, lo.2 ||| hi.2)
/-- Half h of a register word in a format. -/
def halfV (fm : Fmt) (x h : Nat) : Val := decodeF fm (x / 2 ^ (16 * h) % 2 ^ 16)

/-- `FADD` (R295). -/
def execFadd (c : Common) (f : A3) : State → Out :=
  runAlu2 (.fadd c f) f 1 fun x y =>
    addF fp32 (rmOf f.mod.toNat) (f32Src x (mbit f.mod 4) (mbit f.mod 2)) (f32Src y (mbit f.mod 5) (mbit f.mod 3))
/-- `FMUL` (R295). -/
def execFmul (c : Common) (f : A3) : State → Out :=
  runAlu2 (.fmul c f) f 1 fun x y =>
    mulF fp32 (rmOf f.mod.toNat) (f32Src x (mbit f.mod 4) (mbit f.mod 2)) (f32Src y (mbit f.mod 5) (mbit f.mod 3))
/-- `FFMA` (R299). -/
def execFfma (c : Common) (f : A4) : State → Out :=
  runAlu3 (.ffma c f) f 1 fun x y z =>
    fmaF fp32 (rmOf f.mod.toNat) (mbit f.mod 2) (decodeF fp32 x) (decodeF fp32 y) (f32Src z false (mbit f.mod 3))
/-- `FMIN` (R300). -/
def execFmin (c : Common) (f : A3) : State → Out := runMinmax (.fmin c f) f false false
/-- `FMIN.nan` (R300). -/
def execFminNan (c : Common) (f : A3) : State → Out := runMinmax (.fminNan c f) f false true
/-- `FMAX` (R300). -/
def execFmax (c : Common) (f : A3) : State → Out := runMinmax (.fmax c f) f true false
/-- `FMAX.nan` (R300). -/
def execFmaxNan (c : Common) (f : A3) : State → Out := runMinmax (.fmaxNan c f) f true true
/-- `FCMP` (R296). -/
def execFcmp (c : Common) (f : A3) : State → Out := runCmp (.fcmp c f) f 1 (fcmpOp (mfield f.mod 0 3) false)
/-- `FCMP.u` (R296). -/
def execFcmpU (c : Common) (f : A3) : State → Out := runCmp (.fcmpU c f) f 1 (fcmpOp (mfield f.mod 0 3) true)
/-- Packed add in a format (R304). -/
def runHadd (i : Instr) (f : A3) (fm : Fmt) : State → Out :=
  runAlu2 i f 1 fun x y => halves fun h => addF fm (rmOf f.mod.toNat) (halfV fm x h) (halfV fm y h)
/-- Packed multiply in a format (R304). -/
def runHmul (i : Instr) (f : A3) (fm : Fmt) : State → Out :=
  runAlu2 i f 1 fun x y => halves fun h => mulF fm (rmOf f.mod.toNat) (halfV fm x h) (halfV fm y h)
/-- Packed fused multiply-add in a format (R304). -/
def runHfma (i : Instr) (f : A4) (fm : Fmt) : State → Out :=
  runAlu3 i f 1 fun x y z => halves fun h =>
    fmaF fm (rmOf f.mod.toNat) false (halfV fm x h) (halfV fm y h) (halfV fm z h)
/-- `HADD2` (R304). -/
def execHadd2 (c : Common) (f : A3) : State → Out := runHadd (.hadd2 c f) f fp16
/-- `HADD2.bf` (R304). -/
def execHadd2Bf (c : Common) (f : A3) : State → Out := runHadd (.hadd2Bf c f) f bf16
/-- `HMUL2` (R304). -/
def execHmul2 (c : Common) (f : A3) : State → Out := runHmul (.hmul2 c f) f fp16
/-- `HMUL2.bf` (R304). -/
def execHmul2Bf (c : Common) (f : A3) : State → Out := runHmul (.hmul2Bf c f) f bf16
/-- `HFMA2` (R304). -/
def execHfma2 (c : Common) (f : A4) : State → Out := runHfma (.hfma2 c f) f fp16
/-- `HFMA2.bf` (R304). -/
def execHfma2Bf (c : Common) (f : A4) : State → Out := runHfma (.hfma2Bf c f) f bf16

/-- A special function of an FP32 register (R350). -/
def runSfn (i : Instr) (f : A3) (fn : Sfn) (s : State) : Out :=
  .next (issueWith i (variableBody f.d fun s h l => sfn fn (decodeF fp32 (s.rd h l f.a 1))) s)
/-- `SFN.rcp` (R350). -/
def execSfnRcp (c : Common) (f : A3) : State → Out := runSfn (.sfnRcp c f) f .rcp
/-- `SFN.rsqrt` (R350). -/
def execSfnRsqrt (c : Common) (f : A3) : State → Out := runSfn (.sfnRsqrt c f) f .rsqrt
/-- `SFN.sqrt` (R350). -/
def execSfnSqrt (c : Common) (f : A3) : State → Out := runSfn (.sfnSqrt c f) f .sqrt
/-- `SFN.log2` (R350). -/
def execSfnLog2 (c : Common) (f : A3) : State → Out := runSfn (.sfnLog2 c f) f .log2
/-- `SFN.exp2` (R350). -/
def execSfnExp2 (c : Common) (f : A3) : State → Out := runSfn (.sfnExp2 c f) f .exp2
/-- `SFN.sin` (R350). -/
def execSfnSin (c : Common) (f : A3) : State → Out := runSfn (.sfnSin c f) f .sin
/-- `SFN.cos` (R350). -/
def execSfnCos (c : Common) (f : A3) : State → Out := runSfn (.sfnCos c f) f .cos

/-- The bounds and width of an integer format of R267: `.s32`, `.u32`, `.s8`, `.s4`. -/
def intFmt (k : Nat) : Int × Int × Nat :=
  match k with
  | 0 => (-2147483648, 2147483647, 32)
  | 1 => (0, 4294967295, 32)
  | 2 => (-128, 127, 8)
  | _ => (-8, 7, 4)
/-- The value of an integer source (R297). -/
def intSrc (k x : Nat) : Val := if k = 1 then intV x else intV (sgn (intFmt k).2.2 x)

/-- `FCVT`, float from float (R297). -/
def execFcvtFloatFromFloat (c : Common) (f : A3) : State → Out :=
  runAlu1 (.fcvtFloatFromFloat c f) f.d f.a 1 fun x =>
    let src := (fmtOf (mfield f.mod 9 3)).getD fp32
    let dst := (fmtOf (mfield f.mod 12 3)).getD fp32
    encodeF dst (decodeF src (x % 2 ^ src.width)) (rmOf f.mod.toNat)
/-- `FCVT`, float from integer (R297). -/
def execFcvtFloatFromInteger (c : Common) (f : A3) : State → Out :=
  runAlu1 (.fcvtFloatFromInteger c f) f.d f.a 1 fun x =>
    encodeF ((fmtOf (mfield f.mod 12 3)).getD fp32) (intSrc (mfield f.mod 9 3) x) (rmOf f.mod.toNat)
/-- `FCVT`, integer from float (R297). -/
def execFcvtIntegerFromFloat (c : Common) (f : A3) : State → Out :=
  runAlu1 (.fcvtIntegerFromFloat c f) f.d f.a 1 fun x =>
    let src := (fmtOf (mfield f.mod 9 3)).getD fp32
    let (lo, hi, w) := intFmt (mfield f.mod 12 3)
    let (y, fl) := encodeI lo hi (decodeF src (x % 2 ^ src.width)) (rmOf f.mod.toNat)
    (wrapI w y, fl)

end Sys2Proof.Machine
end

