-- ==== Sys2Proof/Machine/Messages.lean ====
section
/-! DEFINITION. Messages at their targets and their issuers, failures, collectives and peers (R198 to R202, R206 to R208,
R210 to R214, R216, R217). -/

namespace Sys2Proof.Machine
open Sys2Proof

/-- A message in flight by number. -/
def State.msgAt (s : State) (id : Nat) : Option Msg := s.msgs.find? (·.id == id)

/-- A target sends the answer to a message, on the plane of the core it goes to (R197). -/
def State.sendAnswer (s : State) (m : Msg) (k : MsgKind) : State := s.inject { m.answer k with plane := s.answerPlane m }

/-- A target answers a message and consumes it, in that order (R214). -/
def State.respond (s : State) (m : Msg) (k : MsgKind) : State := (s.sendAnswer m k).consume m

/-- A target refuses a message: it counts it lost and answers with an error (R201, R217). -/
def State.refuse (s : State) (m : Msg) (cause reason : Nat) : State :=
  (s.lostOne m.job m.dstEp).respond m (.error cause reason m.plane)

/-! ## Failures (R207) -/

/-- The detail of a deferred cause (R207). -/
def failDetail (reason pkg plane : Nat) : DWord := BitVec.ofNat 64 (reason + pkg * 2 ^ 8 + plane * 2 ^ 20)

/-- Marks the slot of an operation failed: the first failure gives cause and detail (R207). -/
def State.failSlot (s : State) (op cause reason pkg plane : Nat) : State :=
  match s.ops.find? (·.id == op) with
  | none => s
  | some o =>
    if 5 < o.slot then s else
    s.modSheaf o.tag o.sheaf fun h =>
      if h.failed.any (·.slot == o.slot) then h
      else { h with failed := h.failed ++ [⟨o.slot, cause, failDetail reason pkg plane⟩] }

/-- An engine's request is gone. -/
def State.fabDrop (s : State) (f : FabReq) : State := { s with fabReqs := s.fabReqs.filter (·.id != f.id) }

/-! ## Landing at a target (R200, R201) -/

/-- Bytes land in a scratchpad and credit its crib, or the cause of the local access; 0x31 where a stook of the job was saved
from that core (R97, R200, R236). -/
def State.landSpad (s : State) (job : Nat) (w : DestWord) (bs : List Byte) : Except Nat State :=
  match s.spadTarget job w bs.length with
  | none =>
    let gone := s.saved.any fun k => k.job == job && k.cores.contains (64 * w.die + w.core)
    .error (if (s.spadTarget job { w with toff := w.toff >>> 32 <<< 32 } 0).isSome then 0x11
      else if gone then 0x31 else 0x02)
  | some (k, share) =>
    if w.cribEn && decide (k.cribs.length ≤ w.crib) then .error 0x02 else
    let s := s.spadWrite k.tag share w.off bs
    .ok (if w.cribEn then s.credit k.tag w.crib bs.length else s)

/-- Bytes land where a destination word says, or the cause of the local access (R201). -/
def State.landWrite (s : State) (job pkg : Nat) (w : DestWord) (bs : List Byte) : Except Nat State :=
  if w.reserved then .error 0x02
  else if w.kind = 0 then
    match s.targetCheck job pkg w.range w.off bs.length 1 rightW with
    | .error e => .error e
    | .ok e => .ok (s.agentWriteN e w.off bs)
  else s.landSpad job w bs

/-- `WRITE_PACKET` (R199, R213). -/
def execWritePacket (id : Nat) (s : State) : Out :=
  .next (match s.msgAt id with
    | none => s
    | some m => match m.kind with
      | .write w bs =>
        if !s.firstOf m then s else
        match s.landWrite m.job m.srcPkg w bs with
        | .ok s => s.respond m .ack
        | .error e => s.refuse m 0x31 e
      | _ => s)

/-- `READ_REQUEST` (R199, R302). -/
def execReadRequest (id : Nat) (s : State) : Out :=
  .next (match s.msgAt id with
    | none => s
    | some m => match m.kind with
      | .readReq w n =>
        if !s.firstOf m then s else
        match s.targetCheck m.job m.srcPkg w.range w.off n 1 rightR with
        | .ok e => s.respond m (.readResp (s.homeReadN e w.off n))
        | .error e => s.refuse m 0x31 e
      | _ => s)

/-- `ATOMIC_REQUEST`: the atomic executes at the line's home, after its checks in the order of R334 (R202, R205, R333). -/
def execAtomicRequest (id : Nat) (s : State) : Out :=
  .next (match s.msgAt id with
    | none => s
    | some m => match m.kind with
      | .atomicReq w op n b cmp =>
        if !s.firstOf m then s
        else match s.targetCheck m.job m.srcPkg w.range w.off n n (rightR ||| rightW ||| rightA) with
          | .error e => s.refuse m 0x31 e
          | .ok e =>
            if !s.accepts 5 then s.refuse m 0x30 0x30 else
            let old := leNat (s.homeReadN e w.off n)
            let s := match rmwNew op n old b cmp with
              | some x => s.agentWriteN e w.off (leBytes n x)
              | none => s
            s.respond m (.atomicResp old)
      | _ => s)

/-- The range that holds entry k of a job's handler table, or the cause (R206). -/
def State.handlerEntry (s : State) (job k : Nat) : Except Nat RangeEnt :=
  match (s.job job).bind fun j => j.handlers.bind s.range with
  | none => .error 0x10
  | some e =>
    if 4096 ≤ k ∨ e.limit < 16 * k + 16 ∨ e.owner ≠ job ∨ !e.grants rightR then .error 0x10
    else match s.lineChecks e false (16 * k) 16 0 with
      | some t => .error t.1
      | none => .ok e

/-- The kernel header that entry k of a job's handler table names, or the cause (R206): 0x02 for a header that can be read
and that breaks a rule of its own (log entry 148). -/
def State.handlerHeader (s : State) (job k : Nat) : Except Nat KHdr :=
  match s.handlerEntry job k with
  | .error c => .error c
  | .ok e =>
    if (s.peerFailure e (16 * k) 8).isSome then .error 0x31 else
    let va := leNat (s.homeReadN e (16 * k) 8)
    match s.translateOut job va 128 128 rightX with
    | .error t => .error t.1
    | .ok (e, off) =>
      match s.lineChecks e false off 128 va with
      | some t => .error t.1
      | none => match s.readHeader job va with
        | none => .error 0x02
        | some h => if s.headerRefused h then .error 0x02 else .ok h

/-- The lines of peer ranges that a handler's table entry and header lie in, as far as they are known (R75). -/
def State.handlerLines (s : State) (who job k : Nat) : List (RangeEnt × Nat) :=
  match s.handlerEntry job k with
  | .error _ => []
  | .ok e =>
    let entry := e.linesOf (16 * k) 8
    entry ++ if s.hasLines who entry then s.vaLines job (leNat (s.homeReadN e (16 * k) 8)) 128 else []

/-- The number under which the launch unit reads peer ranges for a message. -/
def handlerReader (msg : Nat) : Nat := 2 ^ 66 + msg

/-- `ACTIVE_MESSAGE`: the target die accepts it, and it waits for its handler stook (R206). -/
def execActiveMessage (id : Nat) (s : State) : Out :=
  .next (match s.msgAt id with
    | none => s
    | some m => match m.kind with
      | .active _ k _ =>
        if m.accepted || !s.firstOf m then s
        else if !s.accepts 6 then s.refuse m 0x30 0x30
        else match s.gather (handlerReader id) m.job m.dstEp (s.handlerLines (handlerReader id) m.job k) with
        | (false, s) => s
        | (true, s) =>
          let h := s.handlerHeader m.job k
          let s := s.used (handlerReader id)
          match h with
          | .error e => s.refuse m 0x31 e
          | .ok _ =>
            let s := { s with msgs := modWhere (·.id == id) (fun m => { m with accepted := true }) s.msgs }
            s.sendAnswer m .ack
      | _ => s)

/-! ## Combining (R211, R212) -/

/-- One level of the tree: node 2j with node 2j + 1, a last node alone passes up. -/
def treeLevel {α : Type} (f : α → α → α) : List α → List α
  | a :: b :: r => f a b :: treeLevel f r
  | r => r

/-- The tree over the leaves: n levels. -/
def treeFold {α : Type} (f : α → α → α) : Nat → List α → List α
  | 0, l => l
  | n + 1, l => treeFold f n (treeLevel f l)

/-- FP32 operations on words, rounded to nearest even. -/
def addW (x y : Word) : Word := BitVec.ofNat 32 (addF fp32 .rne (f32V x) (f32V y)).1
/-- Product. -/
def mulW (x y : Word) : Word := BitVec.ofNat 32 (mulF fp32 .rne (f32V x) (f32V y)).1
/-- Difference. -/
def subW (x y : Word) : Word := BitVec.ofNat 32 (addF fp32 .rne (f32V x) (f32V y).neg).1
/-- Maximum; NaN if either is (R212). -/
def maxW (x y : Word) : Word := BitVec.ofNat 32 (minmaxF true true (f32V x) (f32V y))
/-- 2^x. -/
def exp2W (x : Word) : Word := BitVec.ofNat 32 (sfn .exp2 (f32V x)).1

/-- FP32 −∞. -/
def negInfW : Word := 0xFF800000
/-- The canonical NaN. -/
def nanW : Word := 0x7FC00000

/-- `rescale` on chunks of words m, s, v (R212). -/
def rescale (a b : List Word) : List Word :=
  let m1 := (a.head?).getD 0
  let m2 := (b.head?).getD 0
  let bad (m : Word) : Bool := match f32V m with | .nan => true | .inf neg => !neg | _ => false
  if m1 = negInfW ∧ m2 = negInfW then negInfW :: List.replicate (a.length - 1) 0
  else if bad m1 || bad m2 then List.replicate a.length nanW
  else
    let m := maxW m1 m2
    let f1 := exp2W (subW m1 m)
    let f2 := exp2W (subW m2 m)
    m :: (a.tail.zip b.tail).map fun p => addW (mulW p.1 f1) (mulW p.2 f2)

/-- Two nodes combined by an operator (R212). -/
def combineWords (opr : Nat) (a b : List Word) : List Word :=
  match opr with
  | 0 => (a.zip b).map fun p => addW p.1 p.2
  | 1 => (a.zip b).map fun p => maxW p.1 p.2
  | 2 => (a.zip b).map fun p => p.1 + p.2
  | _ => rescale a b

/-- How often a participant has contributed to a packet of a chunk; participant 65536 counts the uses that have landed
(R211). -/
def State.usesOf (s : State) (job : Nat) (root : DestWord) (chunk pkt part : Nat) : Nat :=
  ((s.chunkUses.find? fun u => u.job == job && u.root == root && u.chunk == chunk && u.pkt == pkt && u.part == part).map
    (·.uses)).getD 0

/-- Counts one more use. -/
def State.countUse (s : State) (job : Nat) (root : DestWord) (chunk pkt part : Nat) : State :=
  let us := upsert
    (fun u => u.job == job && u.root == root && u.chunk == chunk && u.pkt == pkt && u.part == part)
    ⟨job, root, chunk, pkt, part, 0⟩ (fun u => { u with uses := u.uses + 1 }) s.chunkUses
  { s with chunkUses := us }

/-- A contribution that a router of this package holds: its message, collective, packet, participant and words. -/
structure Held where
  msg : Msg
  coll : Coll
  pkt : Nat
  part : Nat
  words : List Word

/-- The contributions of the present use of a chunk that the routers hold. -/
def State.heldFor (s : State) (job : Nat) (root : DestWord) (chunk : Nat) : List Held :=
  s.msgs.filterMap fun m => match m.kind with
    | .contribution c _ _ ch pkt part ws =>
      if m.accepted && m.job == job && c.root == root && ch == chunk &&
          m.use == s.usesOf job root chunk 0 65536 then some ⟨m, c, pkt, part, ws⟩ else none
    | _ => none

/-- The words of the result: each packet's leaves combined in the tree. -/
def combined (c : Coll) (hs : List Held) : List Word :=
  (List.range c.packets).flatMap fun p =>
    let leaves := (List.range c.npart).filterMap fun i => (hs.find? fun h => h.pkt == p && h.part == i).map (·.words)
    ((treeFold (combineWords c.opr) 12 leaves).head?).getD []

/-- The router that completes the tree writes the result (R211). -/
def State.writeResult (s : State) (job : Nat) (c : Coll) (chunk : Nat) (ws : List Word) : State :=
  let r := c.root
  let bs := wordBytes ws
  let w := r.plus (4 * chunk * c.words)
  let cuts := cut256 w.off bs.length
  let f : FabReq := { id := s.nextId, op := 0, tag := 0, job, sheaf := 0, lanes := 0, core := 64 * r.die + r.core,
                      kind := .result r chunk, left := List.range cuts.length, unsent := [], dep := ⟨0, 0, 0, 0⟩,
                      relScope := none }
  let s := { s.bump with fabReqs := s.fabReqs ++ [f] }
  cuts.zipIdx.foldl (fun s p =>
    s.inject { id := 0, job, core := none, plane := s.planeOf (coreHash r.die r.core), port := none, srcPkg := s.pkg,
               dstPkg := s.pkg, srcEp := 8 + r.die / 2, dstEp := dieEp r.die, req := f.id, piece := p.2, use := 0, accepted := false,
               kind := .write (w.plus p.1.1) ((bs.drop p.1.1).take p.1.2) }) s

/-- Combines the present use of a chunk once every participant's packets are there (R211). -/
def State.combine (s : State) (job : Nat) (root : DestWord) (chunk : Nat) : State :=
  let hs := s.heldFor job root chunk
  match hs with
  | [] => s
  | h :: _ =>
    let c := h.coll
    let all := (List.range c.packets).all fun p =>
      (List.range c.npart).all fun i => hs.any fun h => h.pkt == p && h.part == i
    if !all then s else
    let s := s.writeResult job c chunk (combined c hs)
    hs.foldl (fun s h => s.consume h.msg) s

/-- A router of the root's package takes a contribution in: it belongs to the participant's next use (R211). -/
def State.takeIn (s : State) (m : Msg) (c : Coll) (chunk pkt part : Nat) : State :=
  let n := s.usesOf m.job c.root chunk pkt part
  let s := s.countUse m.job c.root chunk pkt part
  let s := { s with msgs := modWhere (·.id == m.id) (fun m => { m with accepted := true, use := n }) s.msgs }
  s.combine m.job c.root chunk

/-- The leaf router's second reading of the descriptor lets a contribution through (R210, R213). -/
def State.leafOk (s : State) (job : Nat) (c : Coll) (va bay part : Nat) : Bool :=
  match s.readColl job va 64 with
  | .error _ => false
  | .ok (d, ok) =>
    ok && d.inLimits && d.root.kind == 1 && !d.root.reserved && d.words == c.words &&
      (match s.translate job va (64 + 16 * d.npart) 1 rightR with
        | .error _ => false
        | .ok _ =>
          let p := s.collPart job va part
          decide (part < d.npart) && p.kind == 1 && !p.reserved && p.pkg == s.pkg && 16 * p.die + p.core / 4 == bay)

/-- A dropped contribution: consumed, and counted lost (R213). It is no use of its participant (R211; log entry 150). -/
def State.dropContribution (s : State) (m : Msg) : State := (s.lostOne m.job m.dstEp).consume m

/-- The issuer's request has been accepted, or dropped: its slot clears (R204, R207). -/
def State.leafDone (s : State) (m : Msg) : State :=
  match s.fabReqs.find? (·.id == m.req) with
  | some f => s.fabDone f m.piece
  | none => s

/-- `CONTRIBUTION` (R202, R211, R213). -/
def execContribution (id : Nat) (s : State) : Out :=
  .next (match s.msgAt id with
    | none => s
    | some m => match m.kind with
      | .contribution c va bay chunk pkt part _ =>
        if m.accepted || !s.firstOf m then s
        else if !s.accepts 8 || (c.opr == 3 && !s.accepts 9) then
          (if m.srcPkg = s.pkg then s.leafDone m else s).refuse m 0x30 0x30
        else if m.srcPkg ≠ s.pkg then
          if c.root.pkg = s.pkg then s.takeIn m c chunk pkt part else s.dropContribution m
        else
          match s.gather (handlerReader id) m.job (bay / 16) (s.collLines (handlerReader id) m.job va) with
          | (false, s) => s
          | (true, s) =>
          let ok := s.leafOk m.job c va bay part
          let s := (s.used (handlerReader id)).leafDone m
          if !ok then s.dropContribution m
          else if c.root.pkg = s.pkg then s.takeIn m c chunk pkt part
          else (s.inject { m with dstPkg := c.root.pkg, srcEp := m.dstEp, dstEp := peerEp }).consume m
      | _ => s)

/-- A result packet of a collective is done: with the last the use has landed, and the next may combine (R211). -/
def State.resultDone (s : State) (f : FabReq) (piece : Nat) (root : DestWord) (chunk : Nat) : State :=
  let s := s.fabDone f piece
  if s.fabReqs.any (·.id == f.id) then s else (s.countUse f.job root chunk 0 65536).combine f.job root chunk

/-! ## Responses at the issuer (R199, R204, R207) -/

/-- A copy's packet is done without its bytes. -/
def State.packetLost (s : State) (copy k : Nat) : State :=
  { s with copies := modWhere (·.id == copy) (fun c => { c with landed := k :: c.landed }) s.copies }

/-- A line of a peer range has come for a unit. -/
def State.fetched (s : State) (who rng line : Nat) (bs : List Byte) : State :=
  { s with peerBuf := s.peerBuf ++ [⟨who, rng, line, bs ++ List.replicate (64 - bs.length) 0, none⟩] }

/-- The fetch of a line of a peer range has failed: its bytes are not stated (R75, R207; log entry 3). -/
def State.fetchFailed (s : State) (who rng line : Nat) (why : Nat × Nat × Nat × Nat) : State :=
  { s with free := s.free + 1,
           peerBuf := s.peerBuf ++ [⟨who, rng, line, (List.range 64).map (Config.freeByte s.free), some why⟩] }

/-- A write of a packet of a `GET` in a peer range is done, or has failed; with the last of them the packet is. -/
def State.getLanded (s : State) (get piece : Nat) : State :=
  if s.fabReqs.any (·.kind == .land get piece) then s else
  match s.fabReqs.find? (·.id == get) with
  | some g => s.fabDone g piece
  | none => s

/-- A packet of a request has failed: a result or a read marks its slot, the others only clear theirs (R75, R207). -/
def State.failAsk (s : State) (f : FabReq) (piece cause reason pkg plane : Nat) : State :=
  match f.kind with
  | .get .. | .ratom .. => (s.failSlot f.op cause reason pkg plane).fabDone f piece
  | .put | .amsg | .coll | .drain _ => s.fabDone f piece
  | .wain c k => (s.fabDrop f).packetLost c k
  | .poll _ | .unit => s.fabDrop f
  | .fetch who rng line => (s.fabDrop f).fetchFailed who rng line (cause, reason, pkg, plane)
  | .land get k =>
    let s := s.fabDrop f
    match s.fabReqs.find? (·.id == get) with
    | some g => (s.failSlot g.op cause reason pkg plane).getLanded get k
    | none => s
  | .result root chunk => s.resultDone f piece root chunk
  | .peer r =>
    let s := s.fabDrop f
    match s.reqs.find? (·.id == r) with
    | none => s
    | some q =>
      if q.isRead then
        let s := s.failSlot q.op cause reason pkg plane
        ({ s with reqs := s.reqs.filter (·.id != r) }).opPart q.op
      else s.pieceDone q piece 0 []

/-- The offset in a request at which a piece lies. -/
def Req.piecePos (r : Req) (piece : Nat) : Nat :=
  match r.place with
  | .range _ off => ((linePieces off r.width)[piece]?.map fun p => p.1 - off).getD 0
  | _ => 0

/-- A `GET` whose remote and local extents meet in one range of the package still reads (R302). -/
def State.stillReads (s : State) (f : FabReq) (src dest : DestWord) (len : Nat) : Bool :=
  dest.kind == 0 && src.pkg == s.pkg && src.range == dest.range && decide (src.off < dest.off + len) &&
    decide (dest.off < src.off + len) && s.msgs.any fun x => x.req == f.id && x.srcPkg == s.pkg &&
      match x.kind with | .readReq .. => true | _ => false

/-- The peer range of this package that a local destination word names, with the peer's package and index (R75, R204). -/
def State.peerTarget (s : State) (job : Nat) (w : DestWord) : Option (Nat × Nat) :=
  if w.kind = 0 then (s.range w.range).bind fun e => if e.owner = job then e.peer else none else none

/-- The bytes of a read response that land in a peer range set out as write requests, each within one granule (R75, R197). -/
def State.landPeer (s : State) (f : FabReq) (job piece pkg x off : Nat) (bs : List Byte) : State :=
  (cut256 off bs.length).foldl (fun s p =>
    s.unitAsk job (f.core / 64) (.land f.id piece) pkg x (off + p.1)
      (.write (.memory pkg x (off + p.1)) ((bs.drop p.1).take p.2))) s

/-- `READ_RESPONSE`: its bytes land at the local destination, by write requests where that is a peer range (R75, R197 to
R199, R302). -/
def execReadResponse (id : Nat) (s : State) : Out :=
  .next (match s.msgAt id with
    | none => s
    | some m => match m.kind with
      | .readResp bs =>
        if !s.firstOf m then s else
        match s.fabReqs.find? (·.id == m.req) with
        | none => s.consume m
        | some f => match f.kind with
          | .get src dest len =>
            if s.stillReads f src dest len then s else
            let pos := ((cut256 src.off len)[m.piece]?.map (·.1)).getD 0
            let w := (dest.ownStook f.tag).plus pos
            match s.peerTarget m.job w with
            | some (pkg, x) => (s.landPeer f m.job m.piece pkg x w.off bs).consume m
            | none =>
              match s.landWrite m.job s.pkg w bs with
              | .ok s => (s.consume m).fabDone f m.piece
              | .error e =>
                ((s.lostOne m.job m.dstEp).consume m).failAsk f m.piece 0x31 e s.pkg m.plane
          | .peer r =>
            let s := (s.consume m).fabDrop f
            match s.reqs.find? (·.id == r) with
            | some q => s.pieceDone q m.piece (q.piecePos m.piece) bs
            | none => s
          | .poll h =>
            let s := (s.consume m).fabDrop f
            match s.holds.find? (·.id == h) with
            | some h => s.waitRead h (leNat bs)
            | none => s
          | .fetch who rng line =>
            ((s.consume m).fabDrop f).fetched who rng line bs
          | _ => s.consume m
      | _ => s)

/-- `ATOMIC_RESPONSE`: the old value goes to the registers; an acquire refreshes (R204, R333). -/
def execAtomicResponse (id : Nat) (s : State) : Out :=
  .next (match s.msgAt id with
    | none => s
    | some m => match m.kind with
      | .atomicResp old =>
        if !s.firstOf m then s else
        match s.fabReqs.find? (·.id == m.req) with
        | none => s.consume m
        | some f => match f.kind with
          | .ratom d n acq scope _ =>
            let s := (wordsOf n old).zipIdx.foldl
              (fun s w => s.landReg f.tag f.sheaf f.op (d + w.2, none, w.1)) (s.consume m)
            let s := if acq then s.refresh f.core f.job scope else s
            s.fabDone f m.piece
          | .peer r =>
            let s := (s.consume m).fabDrop f
            match s.reqs.find? (·.id == r) with
            | some q => s.pieceDone q m.piece (q.piecePos m.piece) (leBytes q.width old)
            | none => s
          | .unit => (s.consume m).fabDrop f
          | _ => s.consume m
      | _ => s)

/-- `ACKNOWLEDGEMENT` (R199, R204). -/
def execAcknowledgement (id : Nat) (s : State) : Out :=
  .next (match s.msgAt id with
    | none => s
    | some m => match m.kind with
      | .ack =>
        if !s.firstOf m then s else
        let s := s.consume m
        match s.fabReqs.find? (·.id == m.req) with
        | none => s
        | some f => match f.kind with
          | .put | .amsg | .coll | .drain _ => s.fabDone f m.piece
          | .result root chunk => s.resultDone f m.piece root chunk
          | .wain c k =>
            let s := s.fabDrop f
            match s.copies.find? (·.id == c) with
            | some c => s.packetLanded c k ((c.packets[k]?.map (·.len)).getD 0)
            | none => s
          | .peer r =>
            let s := s.fabDrop f
            match s.reqs.find? (·.id == r) with
            | some q => s.pieceDone q m.piece 0 []
            | none => s
          | .unit => s.fabDrop f
          | .land get k => (s.fabDrop f).getLanded get k
          | .get .. | .ratom .. | .poll _ | .fetch .. => s
      | _ => s)

/-- `ERROR_RESPONSE`: a failure told by its response (R207, R208). -/
def execErrorResponse (id : Nat) (s : State) : Out :=
  .next (match s.msgAt id with
    | none => s
    | some m => match m.kind with
      | .error cause reason plane =>
        if !s.firstOf m then s else
        let s := s.consume m
        match s.fabReqs.find? (·.id == m.req) with
        | none => s
        | some f => s.failAsk f m.piece cause reason m.srcPkg plane
      | _ => s)

/-! ## Peers, ports and planes (R202, R208, R216) -/

/-- A message that waits outside for its answer is gone from the list. -/
def State.dropOutgoing (s : State) (m : Msg) : State := { s with outgoing := s.outgoing.filter (·.id != m.id) }

/-- A message of a peer package arrives at a Dzizin port: a request for this package, or the answer to one of its own
(R197, R199, R202). Its endpoint there counted it as it was injected (R214). -/
def State.arrive (s : State) (m : Msg) : State :=
  if m.dstPkg ≠ s.pkg ∨ m.srcPkg = s.pkg ∨ ((s.portTo m.srcPkg).filter (!·.isolated)).isNone ∨
      s.deadPlanes.contains (m.plane % 4) then s else
  let put (s : State) (m : Msg) : State :=
    { s.bump with msgs := s.msgs ++
        [{ m with id := s.nextId, plane := m.plane % 4, port := none, accepted := false, use := 0 }] }
  match m.kind with
  | .write .. | .readReq .. | .atomicReq .. =>
    let ep := match m.kind.dest with
      | some w => if w.kind = 0 then ((s.range w.range).map (·.endpoint w.off)).getD 8 else dieEp w.die
      | none => 8
    put s { m with dstEp := ep }
  | .active w _ _ => put s { m with dstEp := dieEp w.die }
  | .contribution c _ _ _ _ _ _ => put s { m with dstEp := 8 + c.root.die / 2 }
  | .readResp _ | .atomicResp _ | .ack | .error .. =>
    let answered (x : Msg) : Bool := x.kind.asks || match x.kind, m.kind with
      | .contribution .., .error .. => true  -- refused as unsupported (R202)
      | _, _ => false
    match s.outgoing.find? fun x => answered x && x.req == m.req && x.piece == m.piece && x.dstPkg == m.srcPkg with
    | none => s
    | some x => put (s.dropOutgoing x) { m with job := x.job, dstEp := x.srcEp }

/-- A peer package has consumed a message that asks for no answer, and counts it there (R199, R214). -/
def State.delivered (s : State) (id : Nat) : State :=
  { s with outgoing := s.outgoing.filter fun m => m.id != id || m.kind.asks }

/-- A job's fabric feature set: the AND of the accepted words of its packages, those of linked ones as their ports have
exchanged them (R202; log entry 108). -/
def State.fabricFeatures (s : State) (j : Job) : DWord :=
  s.ports.foldl (fun w p => match p.peer with
    | some (q, word) => if j.pkgs.contains q then w &&& word else w
    | none => w) s.featAcc

/-- The fabric service gives the package its number at link-up (R200). -/
def State.number (s : State) (pkg : Nat) : State :=
  if pkg < 4096 ∧ s.ports.all (·.peer.isNone) then { s with pkg := pkg } else s

/-- `LINK_UP` (R202). -/
def execLinkUp (port peerPkg : Nat) (word : DWord) (s : State) : Out :=
  .next (
    let old := s.ports.find? (·.id == port)
    if 16 ≤ port ∨ 4096 ≤ peerPkg ∨ peerPkg = s.pkg ∨ (old.map (·.isolated)).getD false then s
    else { s with ports := upsert (·.id == port) ⟨port, none, false⟩ (fun p => { p with peer := some (peerPkg, word) })
                    s.ports })

/-- `PORT_FAILURE`: the port is isolated; the router that owns it consumes what is outstanding through it by proxy, and
answers every request (R208). -/
def execPortFailure (port : Nat) (s : State) : Out :=
  .next (
    if 16 ≤ port then s else
    let s := { s with ports := upsert (·.id == port) ⟨port, none, false⟩ (fun p => { p with isolated := true }) s.ports }
    let out := s.outgoing.filter (·.port == some port)
    let s := { s with outgoing := s.outgoing.filter (·.port != some port) }
    out.foldl (fun s m => s.proxy m (portEp port)) s)

/-- A message whose handler stook runs or is saved has left the fabric: it stays unconsumed until that stook completes (R206,
R221). -/
def State.handled (s : State) (m : Msg) : Bool :=
  m.accepted && (s.stooks.any (·.kind == .handler m.id) || s.saved.any (·.kind == .handler m.id))

/-- Slots of one pass: three in one package, and one for each level that the fabric service adds (R215). -/
def Job.passLen (j : Job) : Nat := 3 + j.depth

/-- The slot of the verdict of a wave: the one after its two passes (R215). -/
def Job.verdictSlot (j : Job) : Nat := 2 * j.passLen

/-- A counting wave as a plane dies: one whose passes are not over straddles the repair and reports not quiet (R216). -/
def Job.repairWave (j : Job) (w : Wave) : Wave :=
  if w.slot < j.verdictSlot then { w with broken := true } else w

/-- A message of a dead plane: consumed by proxy and lost at its destination's endpoint; what waited for it fails with
0x32, its reason 0x32 too (log entry 159), or clears its slot (R216). -/
def State.planeLoss (s : State) (plane : Nat) (m : Msg) : State :=
  let s := (s.consumed m.job m.dstEp).lostOne m.job m.dstEp
  let mine := match m.kind with
    | .readResp _ | .atomicResp _ | .ack | .error .. => m.dstPkg == s.pkg
    | _ => m.srcPkg == s.pkg
  let target := if m.srcPkg = s.pkg then m.dstPkg else m.srcPkg
  if !mine then s else
  match s.fabReqs.find? (·.id == m.req) with
  | none => s
  | some f => s.failAsk f m.piece 0x32 0x32 target plane

/-- `PLANE_DEATH` (R197, R216). -/
def execPlaneDeath (plane : Nat) (s : State) : Out :=
  .next (
    if 4 ≤ plane ∨ s.deadPlanes.contains plane then s else
    let lost (m : Msg) : Bool := m.plane == plane && !s.handled m
    let gone := s.msgs.filter lost
    let out := s.outgoing.filter (·.plane == plane)
    let s := { s with deadPlanes := plane :: s.deadPlanes, msgs := s.msgs.filter (!lost ·),
                      outgoing := s.outgoing.filter (·.plane != plane),
                      jobs := s.jobs.map fun j =>
                        { j with wave := j.wave.map j.repairWave, older := j.older.map j.repairWave } }
    (gone ++ out.filter (·.kind.asks)).foldl (State.planeLoss · plane) s)

end Sys2Proof.Machine
end

