-- ==== Sys2Proof/Machine/Quiet.lean ====
section
/-! DEFINITION. Quiescence: counting waves and `WAITQUIET` (R28, R214, R215, R217, R362). -/

namespace Sys2Proof.Machine
open Sys2Proof

/-- The frame a time lies in: 2,048 ns (R26). -/
def frameOf (t : Nat) : Nat := t / 8192
/-- The sub-frame of a frame: 256 ns (R26). -/
def subFrame (t : Nat) : Nat := t % 8192 / 1024
/-- The fabric cycle of a time (R24). -/
def fabricCycle (t : Nat) : Nat := t / 2
/-- The cycle of a sub-frame, in fabric cycles. -/
def subCycle (t : Nat) : Nat := t / 2 % 512
/-- The wave slot of a router: the first 16 fabric cycles of a sub-frame (R28). -/
def inWaveSlot (t : Nat) : Bool := decide (subCycle t < 16)

/-- Counts added up. -/
def Counts.plus (a b : Counts) : Counts := ⟨a.inj + b.inj, a.cons + b.cons, a.lost + b.lost⟩
/-- The sum of counts. -/
def sumCounts (l : List Counts) : Counts := l.foldl Counts.plus ⟨0, 0, 0⟩
/-- The counts of an endpoint. -/
def Job.count (j : Job) (ep : Nat) : Counts := (j.counts[ep]?).getD ⟨0, 0, 0⟩

/-- The `WAITQUIET`s of a job that are pending in this package. -/
def State.waitsQuiet (s : State) (job : Nat) : List Hold :=
  s.holds.filter fun h => (match h.kind with | .waitQuiet .. => true | _ => false) &&
    ((s.stook h.tag).map (·.job)) == some job

/-- `WAITQUIET` (R217). -/
def execWaitquiet (c : Common) (f : A3) (s : State) : Out :=
  .next (issueWith (.waitquiet c f) (fun x s => x.hold (.waitQuiet f.d.num s.now) 0 s) s)

/-- The die interfaces read their counts. -/
def Job.dieCounts (j : Job) : List Counts := (List.range 8).map j.count

/-- The memory interfaces add their own counts to those of their two dies (R215, step 2). -/
def Job.baseCounts (j : Job) (dies : List Counts) : List Counts :=
  (List.range 4).map fun b => (j.count (8 + b)).plus (sumCounts ((dies.drop (2 * b)).take 2))

/-- The packages of a job beside this one. -/
def Job.others (j : Job) (pkg : Nat) : List Nat := j.pkgs.filter (· != pkg)

/-- The root of a job's tree is in its lowest-numbered package (R215, step 2). -/
def Job.rootPkg (j : Job) (pkg : Nat) : Nat := j.pkgs.foldl min pkg

/-- The sums of other packages that have come for a pass. -/
def Wave.pass (w : Wave) (n : Nat) : List (Nat × Nat × Counts) := w.peers.filter (·.1 == n)

/-- The wave slot a time lies in, counted from the frame in which a wave started: its slots may run on into the next
frames (R28, R215). -/
def Wave.slotAt (w : Wave) (now : Nat) : Nat := 8 * (frameOf now - frameOf w.start) + subFrame now

/-- The root's totals of a pass: the sums of `BD0`, and those of every other package; one that is missing breaks the wave
(R215, step 3). -/
def Job.total (j : Job) (pkg : Nat) (w : Wave) (n : Nat) : Counts × Bool :=
  ((sumCounts w.base).plus (sumCounts ((w.pass n).map (·.2.2))),
    w.broken || !(j.others pkg).all fun q => (w.pass n).any (·.2.1 == q))

/-- One wave slot of a wave under way (R215). -/
def Job.waveSlot (j : Job) (pkg : Nat) (w : Wave) : Wave :=
  let n := j.passLen
  let w' := { w with slot := w.slot + 1 }
  if w.slot % n = 0 then { w' with die := j.dieCounts }
  else if w.slot % n = 1 then { w' with base := j.baseCounts w.die }
  else if w.slot % n + 1 = n then
    let t := j.total pkg w (w.slot / n)
    if w.slot < n then { w' with first := t.1, broken := t.2 } else { w' with second := t.1, broken := t.2 }
  else w'

/-- In the slot after its memory interfaces have summed, a package that does not hold the root sends its sums toward it
(R215, step 2). -/
def Job.waveSends (j : Job) (pkg : Nat) (w : Wave) : List (Nat × Nat × WaveMsg) :=
  let n := j.passLen
  if j.rootPkg pkg ≠ pkg ∧ w.slot % n = 2 then
    [(j.id, j.rootPkg pkg, .sums (frameOf w.start) (w.slot / n) (sumCounts w.base))]
  else []

/-- `COUNTING_WAVE_SLOT`: one slot of a pass of each wave of the job under way; at sub-frame 0 a wave starts while a
`WAITQUIET` of the job is pending, in this package or another (R215). A wave that has missed its slot is gone. -/
def execCountingWaveSlot (job : Nat) (s : State) : Out :=
  .next (match s.job job with
    | none => s
    | some j =>
      if !inWaveSlot s.now then s else
      let due (w : Wave) : Bool := w.slot == w.slotAt s.now && decide (w.slot < j.verdictSlot)
      let alive (w : Wave) : Bool := decide (w.slotAt s.now ≤ w.slot)
      let turn (w : Wave) : Wave := if due w then j.waveSlot s.pkg w else w
      let starts := subFrame s.now == 0 && (!(s.waitsQuiet job).isEmpty || j.peerWaits) &&
        (match j.wave with | some w => frameOf w.start != frameOf s.now | none => true)
      let sends := (j.older ++ j.wave.toList).flatMap fun w => if due w then j.waveSends s.pkg w else []
      let tell := if starts && !(s.waitsQuiet job).isEmpty then (j.others s.pkg).map fun q => (job, q, WaveMsg.pending) else []
      let fresh : Wave := { start := s.now, slot := 1, die := j.dieCounts, base := [], peers := [], first := ⟨0, 0, 0⟩,
                            second := ⟨0, 0, 0⟩, broken := false }
      let older := ((if starts then j.older ++ j.wave.toList else j.older).filter alive).map turn
      let s := { s with waveOut := s.waveOut ++ sends ++ tell }
      s.modJob job fun j => { j with
        wave := if starts then some fresh else j.wave.map turn, older := older,
        peerWaits := if starts then false else j.peerWaits })

/-- The next slot of each wave of a job, and the next start while a `WAITQUIET` of it is pending, with their times; true at
the slot of a verdict (R28, R215). -/
def State.waveTimes (s : State) (j : Job) : List (Nat × Bool) :=
  let slots := (j.older ++ j.wave.toList).filterMap fun w =>
    let t := 8192 * frameOf w.start + 1024 * w.slot
    if s.now < t + 32 then some (t, w.slot == j.verdictSlot) else none
  let open' := decide (s.now % 8192 < 32) && match j.wave with | some w => frameOf w.start != frameOf s.now | none => true
  let start := 8192 * (frameOf s.now + if open' then 0 else 1)
  if !(s.waitsQuiet j.id).isEmpty || j.peerWaits then (start, false) :: slots else slots

/-- Both passes agree and the first was balanced (R215). -/
def Wave.quiet (w : Wave) : Bool :=
  !w.broken && w.first.inj == w.first.cons && w.second.inj == w.first.inj && w.second.cons == w.first.cons

/-- A wait is released by a wave: the lost count since the mark, an acquire at `.sys` (R217). -/
def State.quietRelease (s : State) (h : Hold) (lost : Nat) : State :=
  match h.kind with
  | .waitQuiet dest _ =>
    let job := ((s.stook h.tag).map (·.job)).getD 0
    let s := s.modSheaf h.tag h.sheaf fun x => x.put 0 dest (BitVec.ofNat 32 (min lost 0xFFFFFFFF))
    (s.refresh h.core job 3).release h
  | _ => s

/-- The lost mark that the releases of the wave of a frame count from (R217): what that wave has set already, in this
package or another, does not count yet. -/
def Job.markBefore (j : Job) (frame : Nat) : Nat := if j.markFrame = some frame then j.markWas else j.lostMark

/-- The mark becomes the lost count of the wave of a frame, which has released waits (R217). -/
def Job.mark (j : Job) (frame lost : Nat) : Job :=
  { j with lostMark := lost, markFrame := some frame, markWas := j.markBefore frame }

/-- A wave has found its job quiet: the waits that issued before its frame are released, and with a release the mark moves,
in the job's other packages too (R217; log entry 118). A wait whose lanes still have an acquire outstanding is left to a
later wave (R127). -/
def State.quietAll (s : State) (j : Job) (frame lost : Nat) : State :=
  let counts (h : Hold) : Bool := match h.kind with
    | .waitQuiet _ t => decide (fabricCycle t < fabricCycle (frame * 8192)) && s.acquired h.tag h.sheaf h.active h.id
    | _ => false
  let hs := (s.waitsQuiet j.id).filter counts
  if hs.isEmpty then s else
  let s := { s with waveOut := s.waveOut ++ (j.others s.pkg).map fun q => (j.id, q, WaveMsg.released frame lost) }
  let s := hs.foldl (fun s h => s.quietRelease h (lost - j.markBefore frame)) s
  s.modJob j.id (·.mark frame lost)

/-- `WAVE_VERDICT`: the wave of the job whose verdict slot this is ends, in one package in sub-frame 6 of its own frame. The
root knows its outcome and tells the other packages; another package has it from the root (R215, R217). -/
def execWaveVerdict (job : Nat) (s : State) : Out :=
  .next (match s.job job with
    | none => s
    | some j =>
      let ends (w : Wave) : Bool := w.slot == j.verdictSlot && w.slot == w.slotAt s.now
      match if inWaveSlot s.now then (j.wave.toList ++ j.older).find? ends else none with
      | none => s
      | some w =>
        let frame := frameOf w.start
        let s := s.modJob job fun j => { j with wave := j.wave.filter (!ends ·), older := j.older.filter (!ends ·) }
        if j.rootPkg s.pkg = s.pkg then
          let tell := (j.others s.pkg).map fun q => (job, q, WaveMsg.verdict frame w.quiet w.second.lost)
          let s := { s with waveOut := s.waveOut ++ tell }
          if w.quiet then s.quietAll j frame w.second.lost else s
        else
          match j.verdict with
          | some (f, true, lost) => if f = frame then s.quietAll j frame lost else s
          | _ => s)

/-! ## Waves between packages (R202, R215) -/

/-- The fabric service names the packages of a job and the depth of its tree. -/
def State.span (s : State) (job : Nat) (pkgs : List Nat) (depth : Nat) : State :=
  s.modJob job fun j => { j with pkgs := pkgs, depth := if pkgs.all (· == s.pkg) then 0 else depth }

/-- Changes the wave of a frame of a job. -/
def Job.modWave (j : Job) (frame : Nat) (f : Wave → Wave) : Job :=
  let g (w : Wave) : Wave := if frameOf w.start = frame then f w else w
  { j with wave := j.wave.map g, older := j.older.map g }

/-- A word of a counting wave comes from another package of its job; a package whose accepted word lacks `QUIET` answers it
unsupported (R202). A verdict that comes after this package's slot for it still releases its waits (R217). -/
def State.waveFrom (s : State) (job pkg : Nat) (m : WaveMsg) : State :=
  match s.job job with
  | none => s
  | some j =>
    if !(j.others s.pkg).contains pkg then s else
    match m with
    | .pending =>
      if s.accepts 7 then s.modJob job fun j => { j with peerWaits := true }
      else { s with waveOut := s.waveOut ++ [(job, pkg, .unsupported (frameOf s.now))] }
    | .sums frame n c => s.modJob job (·.modWave frame fun w => { w with peers := w.peers ++ [(n, pkg, c)] })
    | .verdict frame q lost =>
      let s := s.modJob job fun j => { j with verdict := some (frame, q, lost) }
      if q && (j.wave.toList ++ j.older).all (frameOf ·.start != frame) then s.quietAll j frame lost else s
    | .unsupported frame => s.modJob job (·.modWave frame fun w => { w with broken := true })
    | .released frame lost => s.modJob job (·.mark frame lost)

end Sys2Proof.Machine
end

