-- ==== Sys2Proof/Machine/Arbor.lean ====
section
/-! DEFINITION. The arbor: `HYPOPEN`, `RESOLVE`, their service and completion, flattening and freeing (R180 to R196, R306,
R343). -/

namespace Sys2Proof.Machine
open Sys2Proof

/-! ## Slots of memory ports and routers (R27 to R29) -/

/-- The fabric cycle of the frame. -/
def frameCycle (t : Nat) : Nat := t / 2 % 4096

/-- The retraining period of the present frame, in ms (R253). -/
def State.period (s : State) : Nat := if frameOf s.now = s.retrainAt then s.retrainWas else s.retrain

/-- A channel has been retrained in this frame's period before this frame, periods counted from `%dtime` 0 (R253; log entry
126). -/
def State.retrainedBefore (s : State) (ch : Nat) : Bool :=
  let turn (f : Nat) : Nat := f * 2048 / (s.period * 1000000)
  s.retrained.any fun x => x.1 == ch && x.2 != frameOf s.now && turn x.2 == turn (frameOf s.now)

/-- This frame's retraining slot of an HBM channel is used: retraining is due in the first such frame of a period (R27,
R253; log entry 126). -/
def State.retrains (s : State) (ch : Nat) : Bool :=
  decide (ch < 256) && frameOf s.now % 32 == ch % 32 && !s.retrainedBefore ch

/-- The first frame from the present one on whose retraining slot a channel uses: the next of its own frames, or the first
of its own in the next period where this period's retraining is done (R27, R253; log entry 126). -/
def State.retrainFrame (s : State) (ch : Nat) : Nat :=
  let own (f : Nat) : Nat := f + (ch % 32 + 32 - f % 32) % 32
  let f := own (frameOf s.now)
  let ns := (if f = s.retrainAt then s.retrainWas else s.retrain) * 1000000
  if s.retrained.any fun x => x.1 == ch && x.2 * 2048 / ns == f * 2048 / ns then
    max (f + 32) (own (((f * 2048 / ns + 1) * ns + 2047) / 2048))
  else f

/-- The time at which the next retraining slot begins that a channel uses. -/
def State.retrainTime (s : State) (ch : Nat) : Nat := 8192 * s.retrainFrame ch + 6912

/-- The next time at which a channel is retrained. -/
def State.nextRetraining (s : State) : Nat :=
  (List.range 255).foldl (fun t ch => min t (s.retrainTime (ch + 1))) (s.retrainTime 0)

/-- The retraining slot of a channel is in use: the slots of other owners inside it lapse for that frame (R29). A CXL port,
numbered from 256, has no such slot. -/
def State.portLapsed (s : State) (ch : Nat) : Bool := decide (3456 ≤ frameCycle s.now) && s.retrains ch

/-- A slot of a memory port: cycles lo to hi − 1 of a sub-frame (R27). -/
def State.inPortSlot (s : State) (ch lo hi : Nat) : Bool :=
  decide (lo ≤ subCycle s.now) && decide (subCycle s.now < hi) && !s.portLapsed ch

/-- The number of the memory port of a channel of a tier. -/
def portOf (tier ch : Nat) : Nat := if tier = 1 then 256 + ch else ch

/-- The routers' slot of gleaner traffic between base dies (R28). -/
def inGleanerSlot (t : Nat) : Bool := decide (24 ≤ subCycle t) && decide (subCycle t < 32)

/-- The routers' arbor-resolve slot (R28). -/
def inResolveSlot (t : Nat) : Bool := decide (16 ≤ subCycle t) && decide (subCycle t < 24)

/-! ## `HYPOPEN` and `RESOLVE` at issue (R182 to R187, R192, R364) -/

/-- A request joins its arbor's queue; its bundle waits until it is served. -/
def Ctx.ask (c : Ctx) (a : Arbor) (kind : AskKind) (blocks : Bool) (s : State) : State :=
  let dep := c.dep s
  let op := s.nextId
  let s := if blocks then c.hold (.hypOpen false) op (c.openOp 1 s) else c.deferWords [] s
  let hold := if blocks then (s.holds.find? fun h => h.op == op && h.tag == c.tag).map (·.id) else none
  let x : Ask := { op, tag := c.tag, sheaf := c.sheaf, act := c.act, core := c.core, slot := c.slot, hold, dep, kind }
  s.modArbor a.id fun a => { a with queue := a.queue ++ [.ask x] }

/-- The path operand's checks: well-formed, with the path as the detail at a `HYPOPEN` only, an arbor of the job, and one
`%hyp` for a bundle with a tagged lane (R182, R187, R189, R192). -/
def askBody (pathReg : Reg) (kind : Word → AskKind) (isOpen : Bool) : Body := fun c s =>
  match s.stook c.tag with
  | none => s
  | some k =>
    let p := BitVec.ofNat 32 (c.uni s pathReg 1)
    if !pathOk p then c.trap c.act (0x02, if isOpen then p.zeroExtend 64 else 0) s
    else match s.arbor k.job with
      | none => c.trap c.act (0x22, p.zeroExtend 64) s
      | some a =>
        if c.mixedTagged s then c.trap c.act (0x22, 0) s
        else c.ask a (kind p) (isOpen && a.flatten && !a.freeing) s

/-- A destination register, 1023 for `z`. -/
def destNum (r : Reg) : Nat := if r.isZ then 1023 else r.num

/-- `HYPOPEN` (R187). -/
def execHypopen (c : Common) (f : A3) (s : State) : Out :=
  .next (issueWith (.hypopen c f) (askBody f.a (fun p => .hypOpen f.d.num f.b.num p (mfield f.mod 0 4)) true) s)
/-- `RESOLVE.confirm` (R192). -/
def execResolveConfirm (c : Common) (f : A3) (s : State) : Out :=
  .next (issueWith (.resolveConfirm c f) (askBody f.a (fun p => .resolve true (destNum f.d) p) false) s)
/-- `RESOLVE.refute` (R192). -/
def execResolveRefute (c : Common) (f : A3) (s : State) : Out :=
  .next (issueWith (.resolveRefute c f) (askBody f.a (fun p => .resolve false (destNum f.d) p) false) s)

/-! ## Service (R187, R192, R193) -/

/-- An arbor by number. -/
def State.arborAt (s : State) (id : Nat) : Option Arbor := s.arbors.find? (·.id == id)

/-- A request whose held instruction has been withdrawn meanwhile. -/
def State.withdrawn (s : State) (r : ArborReq) : Bool :=
  match r with
  | .ask x => (match x.hold with | some id => !s.holds.any (·.id == id) | none => false)
  | .free => false

/-- The queue without withdrawn requests. -/
def State.arborQueue (s : State) (a : Arbor) : List ArborReq := a.queue.filter (!s.withdrawn ·)

/-- A request asks to open a node. -/
def ArborReq.opens (r : ArborReq) : Bool :=
  match r with
  | .ask x => (match x.kind with | .hypOpen .. => true | .resolve .. => false)
  | .free => false

/-- The request an arbor serves next: the first, and during a flatten the first that does not open a node (R187, R195). -/
def State.arborHead (s : State) (a : Arbor) : Option ArborReq :=
  (s.arborQueue a).find? fun r => !(a.flatten && r.opens)

/-- Takes a request out of the queue. -/
def State.dequeue (s : State) (a : Arbor) (r : ArborReq) : State :=
  s.modArbor a.id fun x => { x with queue := (s.arborQueue x).erase r }

/-- Gives an operation's result to its slot. -/
def State.deliverOp (s : State) (op : Nat) (ws : List (Nat × Option Nat × Word)) : State :=
  match s.ops.find? (·.id == op) with
  | none => s
  | some o =>
    let r : Result := { id := s.nextId, op, tag := o.tag, sheaf := o.sheaf, writes := ws }
    { s.bump with results := s.results ++ [r] }

/-- A status result. -/
def statusWrites (dest status : Nat) : List (Nat × Option Nat × Word) :=
  if dest = 1023 then [] else [(dest, none, BitVec.ofNat 32 status)]

/-- The child that a `HYPOPEN` creates, if the conditions of R187 hold. -/
def Arbor.newChild (a : Arbor) (parent : Word) (c : Nat) : Option Word :=
  let child := pathChild parent c
  let live := a.state parent == .isOpen || parent == a.prefixP
  if live && decide (pathDepth parent < 7) && !a.nodes.any (·.path == child) && decide (a.nodes.length < 1023) then
    some child
  else none

/-- `HYPOPEN_SERVICE` (R187). -/
def execHypopenService (arbor : Nat) (s : State) : Out :=
  .next (match s.arborAt arbor with
    | none => s
    | some a =>
      if a.flatten || a.freeing then s else
      match s.arborHead a with
      | some (.ask x) => match x.kind with
        | .hypOpen dest pred parent c =>
          let s := s.dequeue a (.ask x)
          let child := a.newChild parent c
          let s := match child with
            | some p => s.modArbor arbor fun a => { a with nodes := a.nodes ++ [Node.mk p .isOpen] }
            | none => s
          let ok : Word := if child.isSome then 1 else 0
          let ws := (dest, none, child.getD 0) ::
            (if pred = 647 then [] else (lanesOf x.act).map fun l => (pred, some l, ok))
          let s := s.deliverOp x.op ws
          match x.hold.bind fun id => s.holds.find? (·.id == id) with
          | some h => s.release h
          | none => s
        | .resolve .. => s
      | _ => s)

/-- The nodes a resolve of h commits and refutes (R192): the open nodes of the chain down to h, and the open nodes off the
chain that do not descend from h; or h's open subtree. -/
def Arbor.effect (a : Arbor) (confirm : Bool) (h : Word) : List Word × List Word :=
  let open' := (a.nodes.filter (·.state == .isOpen)).map (·.path)
  if confirm then
    (open'.filter fun g => isAncestor g h, open'.filter fun g => !isAncestor g h && !isAncestor h g)
  else ([], open'.filter (isAncestor h ·))

/-- The status of a resolve by the state of its node (R192). -/
def resolveStatus (confirm : Bool) (st : NodeState) : Nat :=
  match st, confirm with
  | .isOpen, _ => 1
  | .committed, true => 2
  | .refuted, true => 3
  | .refuted, false => 2
  | .committed, false => 3

/-- Nodes change state in the table. -/
def Arbor.apply (a : Arbor) (commits refutes : List Word) : Arbor :=
  { a with nodes := a.nodes.map fun n =>
      if commits.contains n.path then { n with state := .committed }
      else if refutes.contains n.path then { n with state := .refuted } else n }

/-- The arbor starts a flatten when no open node is left and no resolve is on its way (R195). -/
def Arbor.startFlatten (a : Arbor) : Arbor :=
  if a.nodes.any (·.state == .isOpen) || !a.inflight.isEmpty then a else { a with flatten := true }

/-- Every `HYPOPEN` that a flatten holds at an arbor waits for the answer of a free that it serves (R183, R364). -/
def State.holdForFree (s : State) (a : Arbor) : State :=
  let ids := a.queue.filterMap fun r => match r with | .ask x => x.hold | .free => none
  { s with holds := modWhere (fun h => ids.contains h.id) (fun h => { h with kind := .hypOpen true }) s.holds }

/-- The arbor serves a free: every open node is refuted (R183, step 1), and what waits there waits for its answer. -/
def State.serveFree (s : State) (a : Arbor) : State :=
  let s := (s.holdForFree a).dequeue a .free
  s.modArbor a.id fun a =>
    let ns := (a.nodes.filter (·.state == .isOpen)).map (·.path)
    let a := { a.apply [] ns with freeing := true, nextSeq := a.nextSeq + 1 }
    if ns.isEmpty then a.startFlatten
    else
      let r : Resolve := { seq := a.nextSeq - 1, commits := [], refutes := ns, applied := [], op := 0, status := 0,
                           dest := 1023, freeing := true }
      { a with inflight := a.inflight ++ [r] }

/-- `RESOLVE_SERVICE`: the outcome from the state of the node; one with effect sets out for the slices, a release at `.dev`
(R192, R193). A free of the arbor is served in the same order (R183). -/
def execResolveService (arbor : Nat) (s : State) : Out :=
  .next (match s.arborAt arbor with
    | none => s
    | some a =>
      if a.freeing then s else
      match s.arborHead a with
      | some .free => s.serveFree a
      | some (.ask x) => match x.kind with
        | .hypOpen .. => s
        | .resolve confirm dest h =>
          let st := a.state h
          let core := ((s.sheaf x.tag x.sheaf).map (·.core)).getD 0
          let early := st == .isOpen && (!s.met x.dep || s.undrained core a.job x.dep.upto ||
            s.fabPending x.tag x.sheaf x.act x.dep.upto)
          if early then s else
          let s := s.dequeue a (.ask x)
          let status := resolveStatus confirm st
          if st != .isOpen then s.deliverOp x.op (statusWrites dest status) else
          let s := s.publish core a.job 2
          let (cs, rs) := a.effect confirm h
          s.modArbor arbor fun a =>
            let r : Resolve := { seq := a.nextSeq, commits := cs, refutes := rs, applied := [], op := x.op, status,
                                 dest, freeing := false }
            { a.apply cs rs with prefixP := if confirm then h else a.prefixP, nextSeq := a.nextSeq + 1,
                                 inflight := a.inflight ++ [r] }
      | none => s)

/-- `RESOLVE_APPLY`: a slice applies a resolve in an arbor-resolve slot, in service order (R28, R192). -/
def execResolveApply (arbor seq slice : Nat) (s : State) : Out :=
  .next (if !inResolveSlot s.now || decide (256 ≤ slice) then s else
    s.modArbor arbor fun a =>
      let ready := a.inflight.all fun r => decide (seq ≤ r.seq) || r.applied.contains slice
      if !ready then a else
      let add (r : Resolve) : Resolve := { r with applied := slice :: r.applied }
      { a with inflight := modWhere (fun r => r.seq == seq && !r.applied.contains slice) add a.inflight })

/-- Threads of a job whose `%hyp` names a refuted node are orphaned, and cause 0x23 is posted to them (R185, R194). -/
def State.orphanThreads (s : State) (job : Nat) (refutes : List Word) : State :=
  let mine := s.sheaves.filter fun h => ((s.stook h.tag).map (·.job)) == some job
  mine.foldl (fun s h =>
    (List.range 32).foldl (fun s l =>
      match s.thread h.tag h.index l with
      | some t =>
        if !t.exited && refutes.contains t.hyp then
          (s.modThread h.tag h.index l fun t => { t with orphan := true }).post h.tag h.index l 0x23 (t.hyp.zeroExtend 64)
        else s
      | none => s) s) s

/-- A `HYPOPEN` that waits in its slot as a flatten starts becomes a blocking instruction: it leaves its clause and holds
its bundle (R57, R66, R187). -/
def State.blockAsk (s : State) (x : Ask) : State :=
  match s.deferred.find? (·.op == x.op) with
  | none => s
  | some d =>
    match s.slot d.core d.slot with
    | none => s
    | some b =>
      let lanes := ((b.parts.find? (·.sheaf == d.sheaf)).map (·.lanes)).getD 0
      let h : Hold := { id := s.nextId, tag := d.tag, sheaf := d.sheaf, lanes := lanes, active := d.active, core := d.core,
                        pc := d.pc, clause := d.clause, op := d.op, seq := s.now, kind := .hypOpen false }
      let mine (r : ArborReq) : ArborReq := match r with
        | .ask y => if y.op = x.op then .ask { y with hold := some h.id } else r
        | .free => r
      let arbors := s.arbors.map fun a => { a with queue := a.queue.map mine }
      let s := { s.bump with holds := s.holds ++ [h], deferred := s.deferred.filter (·.op != x.op), arbors := arbors }
      let s := s.modThreads d.tag d.sheaf lanes fun t => { t with held := some h.id }
      let s := s.setSlot d.core d.slot (some { b with deferred := false, hold := true })
      finishIssue d.instr.common { s with cur := (d.core, d.slot) }

/-- Every `HYPOPEN` that waits at an arbor in its slot becomes a blocking instruction, once a flatten has started. -/
def State.blockOpens (s : State) (arbor : Nat) : State :=
  match s.arborAt arbor with
  | none => s
  | some a =>
    if !a.flatten || a.freeing then s else
    (a.queue.filterMap fun r => match r with
      | .ask x => if r.opens && x.hold.isNone then some x else none
      | .free => none).foldl State.blockAsk s

/-- `RESOLVE_COMPLETE`: every slice has acknowledged (R192, R194, R195). -/
def execResolveComplete (arbor seq : Nat) (s : State) : Out :=
  .next (match s.arborAt arbor with
    | none => s
    | some a =>
      match a.inflight.find? (·.seq == seq) with
      | none => s
      | some r =>
        if !((List.range 256).all r.applied.contains) then s else
        let s := if r.freeing then s else s.deliverOp r.op (statusWrites r.dest r.status)
        let s := s.modArbor arbor fun a => ({ a with inflight := a.inflight.filter (·.seq != seq) }).startFlatten
        (s.blockOpens arbor).orphanThreads a.job r.refutes)

/-! ## Merging, flattening and freeing (R183, R193, R195) -/

/-- `ARBOR_MERGE_RECLAIM`: a slice frees refuted versions in an arbor merge slot (R27, R193). -/
def execArborMergeReclaim (slice : Nat) (s : State) : Out :=
  .next (if !s.inPortSlot slice 16 24 then s else
    let dead (v : Version) : Bool := match s.arborAt v.arbor, s.entAt v.rng v.line with
      | some a, some e => e.home v.line == slice && a.stateAt slice v.path == .refuted
      | _, _ => false
    { s with versions := s.versions.filter (!dead ·) })

/-- Folds the versions of a line under a key: base takes the committed data, and every version is freed (R195). -/
def State.foldLine (s : State) (a : Arbor) (e : RangeEnt) (line : Nat) : State :=
  let vs := s.versionsOf a e line
  let s := if vs.any fun v => a.state v.path == .committed then s.setBase e line (s.viewLine e line .untagged) else s
  { s with versions := s.versions.filter fun v =>
      !(v.arbor == a.id && v.rng == e.idx && v.line == line && v.key == e.key) }

/-- `FLATTEN_FOLD`: one line in an arbor merge slot (R195, step 2). -/
def execFlattenFold (arbor rng line : Nat) (s : State) : Out :=
  .next (match s.arborAt arbor, s.entAt rng line with
    | some a, some e =>
      if !a.flatten || !a.inflight.isEmpty || !s.inPortSlot (e.home line % 256) 16 24 then s else
      let keys := ((s.versions.filter fun v => v.arbor == arbor && v.rng == rng && v.line == line).map (·.key)).eraseDups
      keys.foldl (fun s k => s.foldLine a { e with key := k } line) s
    | _, _ => s)

/-- How an access that set out under a path goes once the table is empty: under a node that was committed it is untagged, as
its thread is; under a refuted one it is an orphan's (R191, R195). -/
def Arbor.settleWho (a : Arbor) : Who → Who
  | .tagged h => if a.state h = .committed then .untagged else .orphan h
  | w => w

/-- `FLATTEN_END`: the table is emptied, P is the root, and threads under committed nodes are untagged, with the accesses
they have on their way (R195, step 3). -/
def execFlattenEnd (arbor : Nat) (s : State) : Out :=
  .next (match s.arborAt arbor with
    | none => s
    | some a =>
      if !a.flatten || !a.inflight.isEmpty || s.versions.any (·.arbor == arbor) then s else
      let clear (t : Thread) : Thread :=
        if !t.orphan && t.hyp != 0 && a.state t.hyp == .committed then { t with hyp := 0 } else t
      let mine (h : Sheaf) : Bool := ((s.stook h.tag).map (·.job)) == some a.job
      let s := { s with sheaves := modWhere mine (fun h => { h with threads := h.threads.map clear }) s.sheaves }
      let ask (r : Req) : Req := { r with who := a.settleWho r.who }
      let asks (d : Deferred) : Deferred := { d with reqs := modWhere (·.job == a.job) ask d.reqs }
      let s := { s with reqs := modWhere (·.job == a.job) ask s.reqs, deferred := s.deferred.map asks,
                        copies := modWhere (·.job == a.job) (fun c => { c with who := a.settleWho c.who }) s.copies }
      s.modArbor arbor fun a => { a with nodes := [], prefixP := 0, flatten := false })

/-- The path that a request's cause shows. -/
def AskKind.path : AskKind → Word
  | .hypOpen _ _ p _ => p
  | .resolve _ _ p => p

/-- A request that a free answers raises 0x22 in every active lane (R183). -/
def State.refuseAsk (s : State) (x : Ask) : State :=
  let t : Trap := (0x22, x.kind.path.zeroExtend 64)
  match x.hold with
  | some id => (match s.holds.find? (·.id == id) with
    | some h => s.holdTrap h t
    | none => s)
  | none => (match s.deferred.find? (·.op == x.op) with
    | some d => s.deferTrap d t
    | none => s)

/-- The arbor is gone: its number and its versions are free (R183, step 3). -/
def State.dropArbor (s : State) (id : Nat) : State :=
  { s with arbors := s.arbors.filter (·.id != id), versions := s.versions.filter (·.arbor != id) }

/-- `ARBOR_FREE_COMPLETE`: the flatten of a free has ended; what waits is answered (R183, R364). -/
def execArborFreeComplete (arbor : Nat) (s : State) : Out :=
  .next (match s.arborAt arbor with
    | none => s
    | some a =>
      if !a.freeing || a.flatten || !a.inflight.isEmpty then s else
      let asks := (s.arborQueue a).filterMap fun r => match r with | .ask x => some x | .free => none
      let s := s.dropArbor arbor
      let s := asks.foldl State.refuseAsk s
      match a.freeFn with
      | some fn => s.modFunc fn fun f => if f.busy == .freeing a.job then { f with busy := .idle, status := 0 } else f
      | none => s)

end Sys2Proof.Machine
end

