-- ==== Sys2Proof/Machine/Blocks.lean ====
section
/-! DEFINITION. Described blocks as values: formats, elements, digit counts, bit planes, encoding (R152 to R156). -/

namespace Sys2Proof.Machine
open Sys2Proof

/-- A block format (R153): code, elements, bits per element, floating-point format (none for integers), E_f (R147) and
whether the payload lies in bit planes (R156). -/
structure BFmt where
  code : Nat
  count : Nat
  width : Nat
  flt : Option Fmt
  ef : Int
  planar : Bool
  deriving DecidableEq, Repr

/-- INT8. -/
def bInt8 : BFmt := ⟨0x10, 60, 8, none, 6, false⟩
/-- INT4. -/
def bInt4 : BFmt := ⟨0x11, 120, 4, none, 2, false⟩
/-- E4M3. -/
def bE4m3 : BFmt := ⟨0x20, 60, 8, some e4m3, 8, false⟩
/-- E5M2. -/
def bE5m2 : BFmt := ⟨0x21, 60, 8, some e5m2, 15, false⟩
/-- E2M1. -/
def bE2m1 : BFmt := ⟨0x22, 120, 4, some e2m1, 2, false⟩
/-- BP8. -/
def bBp8 : BFmt := ⟨0x38, 60, 8, none, 6, true⟩
/-- BF16. -/
def bBf16 : BFmt := ⟨0x40, 30, 16, some bf16, 127, false⟩
/-- FP16. -/
def bFp16 : BFmt := ⟨0x41, 30, 16, some fp16, 15, false⟩
/-- Every format but the empty one. -/
def blockFormats : List BFmt := [bInt8, bInt4, bE4m3, bE5m2, bE2m1, bBp8, bBf16, bFp16]

/-- The feature a format needs: `FP4` for E2M1, `BP8` for BP8, none otherwise (R154). -/
def BFmt.feature (f : BFmt) : Nat := if f.code = 0x22 then 10 else if f.code = 0x38 then 11 else 0

/-- Byte j of a block. -/
def byteAt (blk : List Byte) (j : Nat) : Nat := ((blk[j]?).map (·.toNat)).getD 0
/-- Payload bit n of a block: bit n mod 8 of byte 2 + ⌊n/8⌋ (R156). -/
def payloadBit (blk : List Byte) (n : Nat) : Nat := byteAt blk (2 + n / 8) / 2 ^ (n % 8) % 2

/-- The bytes a read of k planes touches, 64 for all (R156). -/
def planeBytes (k : Nat) : Nat := if k = 0 then 64 else 2 + (60 * k + 7) / 8

/-- A block as a read of k planes sees it: payload bits from 60k on read zero (R156). -/
def keepPlanes (k : Nat) (blk : List Byte) : List Byte :=
  if k = 0 then blk else
  blk.mapIdx fun i b =>
    if i < 2 then b else b &&& BitVec.ofNat 8 (2 ^ (min 8 (60 * k - 8 * (i - 2))) - 1)

/-- The bits of element i (R153, R156). -/
def BFmt.raw (f : BFmt) (blk : List Byte) (i : Nat) : Nat :=
  if f.planar then (List.range 8).foldl (fun x p => x + payloadBit blk (60 * p + i) * 2 ^ (7 - p)) 0
  else if f.width = 4 then byteAt blk (2 + i / 2) / 2 ^ (4 * (i % 2)) % 16
  else if f.width = 8 then byteAt blk (2 + i)
  else byteAt blk (2 + 2 * i) + 256 * byteAt blk (3 + 2 * i)

/-- The value of an element's bits, before the scale (R147). -/
def BFmt.value (f : BFmt) (x : Nat) : Val :=
  match f.flt with
  | some g => decodeF g x
  | none => intV (sgn f.width x)

/-- A value times 2^k. -/
def Val.scale (v : Val) (k : Int) : Val :=
  match v with
  | .fin n m e => .fin n m (e + k)
  | v => v

/-- The value of element i of a block (R154). -/
def BFmt.elem (f : BFmt) (blk : List Byte) (i : Nat) : Val :=
  if byteAt blk 1 = 255 then .nan else (f.value (f.raw blk i)).scale (byteAt blk 1 - 127 : Int)

/-- Digits of the non-adjacent form that are not zero, of a number below 2^n (R155). -/
def nafDigits : Nat → Nat → Nat
  | 0, _ => 0
  | n + 1, m =>
    if m = 0 then 0
    else if m % 2 = 0 then nafDigits n (m / 2)
    else if m % 4 = 1 then 1 + nafDigits n (m / 2)
    else 1 + nafDigits n (m / 2 + 1)

/-- The integer whose digits an element counts, with its sign and the exponent of its last bit (R155). -/
def BFmt.integer (f : BFmt) (x : Nat) : Bool × Nat × Int :=
  match f.value x with
  | .fin neg m e => (neg, m, e)
  | _ => (false, 0, 0)

/-- The digit count of an element (R155). -/
def BFmt.digits (f : BFmt) (x : Nat) : Nat := nafDigits 40 (f.integer x).2.1

/-- An exact value rounded into a block format: its bits and flags (R148, R150, R151). -/
def BFmt.encode (f : BFmt) (v : Val) (rm : Rm) : Nat × Flags :=
  match f.flt with
  | some g => encodeF g v rm
  | none =>
    let h : Int := 2 ^ (f.width - 1)
    let r := encodeI (-h) (h - 1) v rm
    (wrapI f.width r.1, r.2)

/-- The payload of element bits (R153, R156). -/
def BFmt.payload (f : BFmt) (xs : List Nat) : List Byte :=
  let at' (i : Nat) : Nat := (xs[i]?).getD 0
  if f.planar then
    (List.range 60).map fun j => BitVec.ofNat 8 ((List.range 8).foldl (fun b k =>
      let n := 8 * j + k
      b + at' (n % 60) / 2 ^ (7 - n / 60) % 2 * 2 ^ k) 0)
  else if f.width = 4 then (List.range 60).map fun j => BitVec.ofNat 8 (at' (2 * j) % 16 + at' (2 * j + 1) % 16 * 16)
  else if f.width = 8 then (List.range 60).map fun j => BitVec.ofNat 8 (at' j)
  else (List.range 60).map fun j => BitVec.ofNat 8 (at' (j / 2) / 2 ^ (8 * (j % 2)))

/-- The plane-occupancy mask of a BP8 block: bit p for plane p (R156); zero for other formats (R152). -/
def BFmt.planes (f : BFmt) (xs : List Nat) : Nat :=
  if f.planar then (List.range 8).foldl (fun m p => m + if xs.any fun x => x / 2 ^ (7 - p) % 2 == 1 then 2 ^ p else 0) 0
  else 0

/-- A block from its scale and element bits (R152, R155). -/
def BFmt.build (f : BFmt) (scale : Nat) (xs : List Nat) : List Byte :=
  let census := xs.foldl (fun m x => max m (f.digits x)) 0
  [BitVec.ofNat 8 f.code, BitVec.ofNat 8 scale] ++ f.payload xs ++
    [BitVec.ofNat 8 census, BitVec.ofNat 8 (f.planes xs)]

/-- What the format byte of a block names: `none` for an unknown or unaccepted code, `some none` for the empty block
(R153, R154). -/
def State.blockFmt (s : State) (blk : List Byte) : Option (Option BFmt) :=
  if byteAt blk 0 = 0xFF then some none
  else match blockFormats.find? (·.code == byteAt blk 0) with
    | some f => if s.accepts f.feature then some (some f) else none
    | none => none

end Sys2Proof.Machine
end

