-- ==== Sys2Proof/Machine/Block.lean ====
section
/-! DEFINITION. `LDBLK`, `STBLK` and `REQNT` (R157 to R161, R319, R342, R358). -/

namespace Sys2Proof.Machine
open Sys2Proof

/-! ## `LDBLK` (R157, R158) -/

/-- `LDBLK`: the checks of the address at issue, then a read whose bytes the format checks wait for (R158, R364). -/
def execLdblk (c : Common) (f : MF) (s : State) : Out :=
  let q : AccSpec :=
    { addr := f.addr, off := f.off.toInt, width := planeBytes (mfield f.mod 5 3), align := 64, once := true,
      rights := rightR, shOnly := false, kind := fun _ _ => .block, data := none, dest := none, acq := false, rel := false,
      scope := 0, ff := none }
  let body : Body := fun x s =>
    match x.sh s, s.stook x.tag with
    | some h, some k =>
      match (x.groups true).map fun g => q.request x s h k g.1 g.2 with
      | [.ok r] =>
        let op := s.nextId
        let s := x.openOp 1 s
        let r := { r with id := s.nextId, op }
        let s := x.enqueue op [] [r] s
        let d : Deferred := { core := x.core, slot := x.slot, tag := x.tag, sheaf := x.sheaf, active := x.act, pc := x.pc,
                              clause := x.clause, instr := x.i, upto := s.nextId, op := op, words := [], reqs := [r],
                              gone := [] }
        x.modBundle (fun b => { b with deferred := true }) { s with deferred := s.deferred ++ [d] }
      | [.error t] => x.trap x.act t s
      | _ => s
    | _, _ => s
  .next (issueWith (.ldblk c f) body s)

/-- The element that register j of lane l receives (R157). -/
def blockElem (f : MF) (l j : Nat) : Nat := 2 * l + j + if mbit f.mod 8 then 60 else 0

/-- The value of element i with k planes (R156, R157): an empty block and a missing element read +0. -/
def blockValue (b : Option BFmt) (blk : List Byte) (i : Nat) : Val :=
  match b with
  | none => .fin false 0 0
  | some f => if f.count ≤ i then .fin false 0 0 else f.elem blk i

/-- A block has been read: 0x40, or its values under the slot, lanes 0 to 29 (R157, R158). A register that a `SHRINK` has
returned meanwhile takes nothing (R353). The flags are set here (R151; log entry 157). -/
def decideLdblk (d : Deferred) (f : MF) (s : State) : State :=
  match d.words with
  | [] => s
  | w :: _ =>
    let pl := mfield f.mod 5 3
    let x := w.2.zipIdx.foldl (fun x p => x + p.1.toNat * 2 ^ (32 * p.2)) 0
    let blk := keepPlanes pl (leBytes 64 x)
    let va := ((d.reqs.head?).map (·.va)).getD 0
    let bad (b : Option BFmt) : Bool := match b with
      | none => false
      | some g => (mbit f.mod 8 && g.width != 4) || (pl != 0 && !g.planar)
    let trap (s : State) : State :=
      (lanesOf d.active).foldl (fun s l => s.take d.tag d.sheaf l 0x40 va d.pc d.clause) (s.opEnd d.op)
    match s.blockFmt blk with
    | none => trap s
    | some b =>
      if bad b then trap s else
      let lanes := (lanesOf d.active).filter fun l => decide (l ≤ 29)
      let out := lanes.map fun l =>
        (l, (List.range 2).map fun j => encodeF fp32 (blockValue b blk (blockElem f l j)) .rne)
      let s := out.foldl (fun s o => s.orFlags d.tag d.sheaf (1#32 <<< o.1) (o.2.foldl (fun m r => m ||| r.2) 0)) s
      let r : Result :=
        { id := s.nextId, op := d.op, tag := d.tag, sheaf := d.sheaf,
          writes := out.flatMap fun o =>
            (o.2.zipIdx.filter fun r => !d.gone.contains (f.d.num + r.2)).map fun r =>
              (f.d.num + r.2, some o.1, BitVec.ofNat 32 r.1.1) }
      { s.bump with results := s.results ++ [r] }

/-! ## `STBLK` (R159, R160) -/

/-- The format a selector names (R159). -/
def stblkFmt (sel : Nat) : BFmt :=
  match sel with
  | 0 => bInt8 | 1 => bInt4 | 2 => bE4m3 | 3 => bE5m2 | 4 => bE2m1 | 5 => bBp8 | 6 => bBf16 | _ => bFp16

/-- ⌊log2⌋ of the largest magnitude among finite values; none where all are zero. -/
def topExp (xs : List Val) : Option Int :=
  xs.foldl (fun b x => match x with
    | .fin _ m e => if m = 0 then b else
        let t := (m.log2 : Int) + e
        match b with | none => some t | some y => some (max y t)
    | _ => b) none

/-- The block of a list of values, with the flags of each element (R159). -/
def BFmt.pack (f : BFmt) (xs : List Val) (rm : Rm) : List Byte × List Flags :=
  let special (v : Val) : Bool := match v with | .fin .. => false | _ => true
  if xs.any special then
    ([BitVec.ofNat 8 f.code, 0xFF] ++ List.replicate 62 0, xs.map fun v => match v with | .inf _ => flagNV | _ => 0)
  else
    let s : Int := match topExp xs with | none => 127 | some t => min (max (t - f.ef + 127) 0) 254
    let es := xs.map fun v => f.encode (v.scale (127 - s)) rm
    (f.build s.toNat (es.map (·.1)), es.map (·.2))

/-- The lane that element i comes from, and the register after the first (R159). -/
def stblkSource (i : Nat) : Nat × Nat := (i % 60 / 2, i % 60 % 2 + if i ≥ 60 then 2 else 0)

/-- `STBLK`: one write of a whole line (R159, R160). -/
def execStblk (c : Common) (f : MF) (s : State) : Out :=
  let g := stblkFmt (mfield f.mod 6 3)
  let q : AccSpec :=
    { addr := f.addr, off := f.off.toInt, width := 64, align := 64, once := true, rights := rightW, shOnly := false,
      kind := fun _ _ => .store, data := none, dest := none, acq := false, rel := false, scope := 0, ff := none }
  let body : Body := fun x s =>
    match x.sh s, s.stook x.tag with
    | some h, some k =>
      match (x.groups true).map fun p => q.request x s h k p.1 p.2 with
      | [.ok r] =>
        let xs := (List.range g.count).map fun i =>
          let (l, j) := stblkSource i
          if x.act.getLsbD l then decodeF fp32 (s.readReg h l (f.d.num + j)).toNat else .fin false 0 0
        let (blk, fl) := g.pack xs (rmOf (mfield f.mod 4 2))
        let per := (lanesOf x.act).map fun l =>
          (l, (fl.zipIdx.filter fun p => (stblkSource p.2).1 == l).foldl (fun m p => m ||| p.1) 0)
        let op := s.nextId
        let s := x.openOp 1 s
        if r.who.isTagged then
          x.enqueue op (per.map fun p => (p.1, [p.2.zeroExtend 32])) [{ r with data := blk }] s
        else
          let s := per.foldl (fun s p => s.orFlags x.tag x.sheaf (1#32 <<< p.1) p.2) s
          x.enqueue op [] [{ r with data := blk }] s
      | [.error t] => x.trap x.act t s
      | _ => s
    | _, _ => s
  .next (issueWith (.stblk c f) body s)

/-! ## `REQNT` (R161) -/

/-- A block re-quantised to scale t, with its flags (R161). -/
def BFmt.requant (f : BFmt) (blk : List Byte) (t : Nat) (rm : Rm) : List Byte × Flags :=
  let s := byteAt blk 1
  let es := (List.range f.count).map fun i =>
    let x := f.raw blk i
    match f.value x with
    | .nan => ((match f.flt with | some g => g.nan | none => 0), (0 : Flags))
    | .inf _ => (x, 0)
    | v => f.encode (v.scale ((s : Int) - t)) rm
  (f.build t (es.map (·.1)), es.foldl (fun m e => m ||| e.2) 0)

/-- `REQNT` (R161). -/
def execReqnt (c : Common) (f : A3) (s : State) : Out :=
  let body : Body := fun x s =>
    let blk := leBytes 64 (x.uni s f.a 16)
    let t := x.uni s f.b 1
    if t ≥ 255 then x.trap x.act (0x02, 0) s
    else match s.blockFmt blk with
      | none => x.trap x.act (0x40, BitVec.ofNat 64 f.a.num) s
      | some b =>
        let (out, fl) := match b with
          | none => (blk, 0)
          | some g => if byteAt blk 1 = 255 then (blk, 0) else g.requant blk t (rmOf (mfield f.mod 0 2))
        let op := s.nextId
        let s := x.openOp 1 s
        let s := x.deliver op (regWrites f.d 0 16 (leNat out)) s
        s.orFlags x.tag x.sheaf x.act fl
  .next (issueWith (.reqnt c f) body s)

end Sys2Proof.Machine
end

