-- ==== Sys2Proof/Machine/Collective.lean ====
section
/-! DEFINITION. Sheaf collectives, the tile width, and the bit window (R67 to R70, R287, R327, R336 to R339). -/

namespace Sys2Proof.Machine
open Sys2Proof

/-- The active lanes of a lane's tile (R68). -/
def Ctx.tile (c : Ctx) (h : Sheaf) (l : Nat) : List Nat := (lanesOf c.act).filter fun j => j / h.part == l / h.part

/-- A collective: the result of each active lane from its tile, or one for the sheaf (R336, R338). -/
def runCollective (i : Instr) (d : Reg) (op : Ctx → State → Sheaf → Nat → Nat) (s : State) : Out :=
  .next (issueWith i (fun c s => variableBody d (fun s h l => (op c s h l, 0)) c s) s)

/-- `SHFL`: the source lane from base, lane and operand, if the operand names one (R69, R338). -/
def runShfl (i : Instr) (f : A3) (pick : Nat → Nat → Nat → Option Nat) : State → Out :=
  runCollective i f.d fun c s h l =>
    let b := if mbit f.mod 14 then mfield f.mod 0 5 else s.rd h l f.b 1
    let base := l / h.part * h.part
    let j := (pick base l b).filter fun j => decide (base ≤ j) && decide (j < base + h.part) && c.act.getLsbD j
    s.rd h (j.getD l) f.a 1

/-- `VOTE`: whether the predicate, negated or not, holds in a lane. -/
def votes (f : A3) (s : State) (h : Sheaf) (j : Nat) : Bool := s.rdP h j f.a != mbit f.mod 0

/-- `REDUX`: a fold of the values of the tile's active lanes. -/
def runRedux (i : Instr) (f : A3) (op : Nat → Nat → Nat) : State → Out :=
  runCollective i f.d fun c s h l =>
    match (c.tile h l).map fun j => s.rd h j f.a 1 with
    | [] => 0
    | x :: xs => xs.foldl op x

/-- `SHFL.idx` (R338). -/
def execShflIdx (c : Common) (f : A3) : State → Out := runShfl (.shflIdx c f) f fun base _ b => some (base + b)
/-- `SHFL.up` (R338). -/
def execShflUp (c : Common) (f : A3) : State → Out :=
  runShfl (.shflUp c f) f fun _ l b => if b ≤ l then some (l - b) else none
/-- `SHFL.down` (R338). -/
def execShflDown (c : Common) (f : A3) : State → Out := runShfl (.shflDown c f) f fun _ l b => some (l + b)
/-- `SHFL.xor` (R338). -/
def execShflXor (c : Common) (f : A3) : State → Out := runShfl (.shflXor c f) f fun _ l b => some (l ^^^ b)
/-- `VOTE.all` (R338). -/
def execVoteAll (c : Common) (f : A3) : State → Out :=
  runCollective (.voteAll c f) f.d fun c s h l => if (c.tile h l).all (votes f s h) then 1 else 0
/-- `VOTE.any` (R338). -/
def execVoteAny (c : Common) (f : A3) : State → Out :=
  runCollective (.voteAny c f) f.d fun c s h l => if (c.tile h l).any (votes f s h) then 1 else 0
/-- `VOTE.ballot` (R338). -/
def execVoteBallot (c : Common) (f : A3) : State → Out :=
  runCollective (.voteBallot c f) f.d fun c s h l =>
    ((c.tile h l).filter (votes f s h)).foldl (fun x j => x + 2 ^ j) 0
/-- `REDUX.add` (R338). -/
def execReduxAdd (c : Common) (f : A3) : State → Out := runRedux (.reduxAdd c f) f fun x y => (x + y) % 2 ^ 32
/-- `REDUX.min` (R338). -/
def execReduxMin (c : Common) (f : A3) : State → Out :=
  runRedux (.reduxMin c f) f fun x y => if below true 32 x y then x else y
/-- `REDUX.minu` (R338). -/
def execReduxMinu (c : Common) (f : A3) : State → Out :=
  runRedux (.reduxMinu c f) f fun x y => if below false 32 x y then x else y
/-- `REDUX.max` (R338). -/
def execReduxMax (c : Common) (f : A3) : State → Out :=
  runRedux (.reduxMax c f) f fun x y => if below true 32 x y then y else x
/-- `REDUX.maxu` (R338). -/
def execReduxMaxu (c : Common) (f : A3) : State → Out :=
  runRedux (.reduxMaxu c f) f fun x y => if below false 32 x y then y else x
/-- `RDFIRST` (R338). -/
def execRdfirst (c : Common) (f : A3) : State → Out :=
  runCollective (.rdfirst c f) f.d fun c s h l => s.rd h (((c.tile h l).head?).getD l) f.a 1

/-- `PARTN` (R67, R327). -/
def execPartn (c : Common) (f : A3) (s : State) : Out :=
  let body : Body := fun x s => s.modSheaf x.tag x.sheaf fun h => { h with part := 2 ^ (mfield f.mod 0 3 + 1) }
  .next (issueWith (.partn c f) body s)

/-- Sets window and cursor of a thread, with their latency of 4 (R287). -/
def Thread.setWindow (t : Thread) (w : DWord) (cur : Nat) : Thread :=
  let old := t.window.toNat + t.bcur * 2 ^ 64
  { t with window := w, bcur := cur }.mark 1024 old (.stalls (t.cnt + 4))

/-- `BSINIT` (R287). -/
def execBsinit (c : Common) (f : A3) (s : State) : Out :=
  let body : Body := fun x s =>
    match x.sh s with
    | none => s
    | some h =>
      let s := if c.sbw = 7#3 then s else x.deliver s.nextId [] (x.openOp 1 s)
      (lanesOf x.act).foldl (fun s' l =>
        let cur := s.rd h l f.b 1
        if cur > 64 then x.trap (1#32 <<< l) (0x02, 0) s'
        else s'.modThread x.tag x.sheaf l fun t => t.setWindow (BitVec.ofNat 64 (s.rd h l f.a 2)) cur) s
  .next (issueWith (.bsinit c f) body s)

/-- The window and cursor a `BSRD` reads: where the read is not covered, the old or the new ones (R71, R287). -/
def State.readWindow (s : State) (t : Thread) (l : Nat) : Nat × Nat :=
  match t.pending? 1024 with
  | some p =>
    if !t.covers s.ops 1024 && Config.freePick (s.free * 65536 + l * 2048 + 1024) then (p.old % 2 ^ 64, p.old / 2 ^ 64)
    else (t.window.toNat, t.bcur)
  | none => (t.window.toNat, t.bcur)

/-- `BSRD` (R287). -/
def execBsrd (c : Common) (f : A3) (s : State) : Out :=
  let body : Body := fun x s =>
    match x.sh s with
    | none => s
    | some h =>
      (lanesOf x.act).foldl (fun s' l =>
        let n := if mbit f.mod 14 then mfield f.mod 0 6 else s.rd h l f.b 1
        match h.threads[l]? with
        | none => s'
        | some t =>
          if n < 1 ∨ n > 32 then x.trap (1#32 <<< l) (0x02, 0) s'
          else
            let (w, cur) := s.readWindow t l
            let s' := s'.modThread x.tag x.sheaf l fun t => t.setWindow (BitVec.ofNat 64 w) (min (cur + n) 64)
            s'.modSheaf x.tag x.sheaf fun h => h.wr l f.d 1 (w / 2 ^ cur % 2 ^ n)) s
  .next (issueWith (.bsrd c f) body s)

end Sys2Proof.Machine
end

