-- ==== Sys2Proof/Machine/Control.lean ====
section
/-! DEFINITION. Control transfers, `EXIT`, `YIELD`, `NOP`, `TRAP` and reserved opcodes (R229, R264, R269, R285, R288,
R294, R310, R326, R344, R360, R363). -/

namespace Sys2Proof.Machine
open Sys2Proof

/-- The target of a branch: OFF24 counts words from the instruction itself (R15, R269). -/
def Ctx.target (c : Ctx) (off : BitVec 24) : DWord := c.pc + 8 * off.signExtend 64

/-- `NOP` (R326). -/
def execNop (c : Common) (f : A3) (s : State) : Out := .next (issueWith (.nop c f) (fun _ s => s) s)

/-- `YIELD`: ends the bundle as any clause end does (R363). -/
def execYield (c : Common) (f : A3) (s : State) : Out := .next (issueWith (.yield c f) (fun _ s => s) s)

/-- `EXIT` (R294). -/
def execExit (c : Common) (f : A3) (s : State) : Out :=
  let body : Body := fun x s => (lanesOf x.act).foldl (fun s l => s.exitThread x.tag x.sheaf l) s
  .next (issueWith (.exit c f) body s)

/-- `TRAP` (R229, R360). -/
def execTrap (c : Common) (f : MI) (s : State) : Out :=
  let body : Body := fun x s => (lanesOf x.act).foldl
    (fun s l => x.takeLane l 0x60 (f.imm.zeroExtend 64) (x.pc + 8) (x.pc + 8) s) s
  .next (issueWith (.trap c f) body s)

/-- A word with a reserved opcode, or of a feature not accepted: 0x01 in every lane of the bundle (R264). -/
def execReservedOpcode (w : DWord) (s : State) : Out :=
  let body : Body := fun x s => x.trap x.lanes (0x01, w) s
  match s.slot s.cur.1 s.cur.2 with
  | none => .next s
  | some b =>
    if b.deferred || b.hold || decide (b.count ≤ b.pos) then .next s else
    let part (s : State) (p : Part) : State :=
      body { core := s.cur.1, slot := s.cur.2, tag := b.tag, sheaf := p.sheaf,
             pc := b.base + 8 + 8 * BitVec.ofNat 64 b.pos, clause := b.base, last := decide (b.pos + 1 = b.count),
             lanes := p.lanes, act := p.lanes, i := .reservedOpcode w } s
    .next (finishIssue { stall := 0, sbw := 7, gneg := 0, gp := 7 } (b.parts.foldl part s))

/-- `BRA` (R285). -/
def execBra (c : Common) (f : BF) (s : State) : Out :=
  let body : Body := fun x s =>
    match x.sh s with
    | none => s
    | some h => ((lanesOf x.act).filter fun l => s.rdP h l f.cond != mbit f.mod 0).foldl
        (fun s l => x.jump l (x.target f.off) s) s
  .next (issueWith (.bra c f) body s)

/-- `BRAU`: one uniform value per sheaf (R65, R285). -/
def execBrau (c : Common) (f : BF) (s : State) : Out :=
  let body : Body := fun x s =>
    match x.sh s, lanesOf x.act with
    | some h, l0 :: _ =>
      if (s.rd h l0 f.cond 1 != 0) != mbit f.mod 0 then
        (lanesOf x.act).foldl (fun s l => x.jump l (x.target f.off) s) s
      else s
    | _, _ => s
  .next (issueWith (.brau c f) body s)

/-- Writes the link, the next clause header, for the lanes given: once with a uniform link (R288). -/
def Ctx.writeLink (c : Ctx) (d : Reg) (ls : List Nat) (s : State) : State :=
  let ls := if d.isU then ls.take 1 else ls
  s.modSheaf c.tag c.sheaf fun h =>
    (ls.foldl (fun h l => h.wr l d 2 (c.pc + 8).toNat) h).credit c.lanes d 2 c.i.common.stall.toNat

/-- Jumps through a register pair: 0x13 in the lanes whose target is not a multiple of 8, the link in the others, then
their targets (R269, R288, R310). -/
def jumpBody (link : Option Reg) (t : Reg) : Body := fun x s =>
  match x.sh s with
  | none => s
  | some h =>
    let ts := (lanesOf x.act).map fun l => (l, s.rd h l t 2)
    let good := ts.filter (·.2 % 8 == 0)
    let s := (ts.filter (·.2 % 8 != 0)).foldl (fun s p => x.trap (1#32 <<< p.1) (0x13, BitVec.ofNat 64 p.2) s) s
    let s := match link with | some d => x.writeLink d (good.map (·.1)) s | none => s
    good.foldl (fun s p => x.jump p.1 (BitVec.ofNat 64 p.2) s) s

/-- `JMPI` (R310). -/
def execJmpi (c : Common) (f : A3) (s : State) : Out := .next (issueWith (.jmpi c f) (jumpBody none f.a) s)
/-- `RET` (R344). -/
def execRet (c : Common) (f : A3) (s : State) : Out := .next (issueWith (.ret c f) (jumpBody none f.a) s)
/-- `CALL` to a register pair (R288). -/
def execCallRegister (c : Common) (f : A3) (s : State) : Out :=
  .next (issueWith (.callRegister c f) (jumpBody (some f.d) f.a) s)
/-- `CALL` to a label (R288). -/
def execCallLabel (c : Common) (f : BF) (s : State) : Out :=
  let body : Body := fun x s =>
    let s := x.writeLink f.cond (lanesOf x.act) s
    (lanesOf x.act).foldl (fun s l => x.jump l (x.target f.off) s) s
  .next (issueWith (.callLabel c f) body s)

end Sys2Proof.Machine
end

