-- ==== Sys2Proof/Machine/Issue.lean ====
section
/-! DEFINITION. Code fetch, clause headers, ready threads and bundle starts (R13, R14, R53 to R57, R62, R64, R207, R227,
R234, R255, R272). -/

namespace Sys2Proof.Machine
open Sys2Proof

/-! ## Code (R60, R272) -/

/-- The key of the range that a VA of a job lies in. -/
def State.keyAt (s : State) (job : Nat) (va : DWord) : Nat := ((s.findRange job va.toNat).map (·.key)).getD 0

/-- Keeps a fetched word in the instruction cache. -/
def State.keepCode (s : State) (core job : Nat) (va word : DWord) : State :=
  { s with code := ⟨core, job, va.toNat, s.keyAt job va, word⟩ ::
      s.code.filter fun w => !(w.core == core && w.job == job && w.va == va.toNat) }

/-- The word of a core's instruction cache at a VA of a job: a line under another key is another line (R104). -/
def State.cachedWord (s : State) (core job : Nat) (va : DWord) : Option DWord :=
  (s.code.find? fun w => w.core == core && w.job == job && w.va == va.toNat && w.key == s.keyAt job va).map (·.word)

/-- A word of code as a core fetches it for a job: from memory with X, or from the core's instruction cache. Where the
two differ the word is the old or the new one (R272). The wain aperture accepts no fetch (R111); a word of a peer range is
the one that its fetch has brought (R75). -/
def State.codeWord (s : State) (core job : Nat) (va : DWord) : Except Trap DWord :=
  match s.translateOut job va.toNat 8 8 rightX with
  | .error t => .error t
  | .ok (e, off) =>
    match s.lineChecks e false off 8 va.toNat with
    | some t => .error t
    | none =>
      match e.peer, s.cachedWord core job va with
      | some _, w => .ok (w.getD 0)
      | none, none => .ok (BitVec.ofNat 64 (leNat (s.homeReadN e off 8)))
      | none, some w =>
        let now := BitVec.ofNat 64 (leNat (s.homeReadN e off 8))
        .ok (if w = now ∨ Config.freePick (s.free * 65536 + 65535) then now else w)

/-- The lines of peer ranges that hold these words of code and that the core's instruction cache does not hold (R75). -/
def State.codeLines (s : State) (core job : Nat) (vas : List DWord) : List (RangeEnt × Nat) :=
  ((vas.filter fun va => (s.cachedWord core job va).isNone).filterMap fun va =>
    match s.translateOut job va.toNat 8 8 rightX with
    | .ok (e, off) => if e.peer.isSome then some (e, off / 64 * 64) else none
    | .error _ => none).eraseDups

/-- Words of peer ranges are fetched into an issue slot's instruction cache: true where all of them stand there, else read
requests are on their way (R75). -/
def State.fetchPeer (s : State) (core slot job : Nat) (vas : List DWord) : Bool × State :=
  let need := s.codeLines core job vas
  if need.isEmpty then (true, s) else
  match s.gather (codeReader core slot) job (core / 64) need with
  | (false, s) => (false, s)
  | (true, s) =>
    let words (n : RangeEnt × Nat) : List (Nat × DWord) := (List.range 8).map fun i =>
      (n.1.base + n.2 + 8 * i, BitVec.ofNat 64 (leNat (((s.peerLine n.1 n.2).drop (8 * i)).take 8)))
    let s := (need.flatMap words).foldl (fun s w => s.keepCode core job (BitVec.ofNat 64 w.1) w.2) s
    (true, s.used (codeReader core slot))

/-- A core reads a word of code ahead of any counter into its instruction cache; no fault is raised (R60, R272). -/
def State.readAhead (s : State) (core job : Nat) (va : DWord) : State :=
  match s.translateOut job va.toNat 8 8 rightX with
  | .error _ => s
  | .ok (e, _) =>
    if e.peer.isSome then s else
    match s.codeWord core job va with
    | .ok w => s.keepCode core job va w
    | .error _ => s

/-- The fields of a clause header (R13). -/
structure Header where
  word : DWord
  deriving DecidableEq, Repr

/-- `CLASS`. -/
def Header.cls (h : Header) : Nat := natBits h.word.toNat 60 4
/-- Instructions in the clause. -/
def Header.count (h : Header) : Nat := natBits h.word.toNat 56 4 + 1
/-- `WAIT` names slot k. -/
def Header.waits (h : Header) (k : Nat) : Bool := h.word.getLsbD (50 + k)
/-- `M`. -/
def Header.merge (h : Header) : Bool := h.word.getLsbD 49
/-- `S`. -/
def Header.safe (h : Header) : Bool := h.word.getLsbD 48
/-- `SPIDX`. -/
def Header.spidx (h : Header) : Nat := natBits h.word.toNat 40 8

/-- The header at a VA; where it cannot be read, one that waits for nothing. -/
def State.header (s : State) (core job : Nat) (va : DWord) : Header :=
  match s.codeWord core job va with
  | .ok w => ⟨w⟩
  | .error _ => ⟨0⟩

/-- The words of a clause that can be fetched, with their positions. -/
def State.clauseWords (s : State) (core job : Nat) (va : DWord) (h : Header) : List (Nat × DWord) :=
  (List.range h.count).filterMap fun i =>
    match s.codeWord core job (va + 8 + 8 * BitVec.ofNat 64 i) with
    | .ok w => some (i, w)
    | .error _ => none

/-- An instruction word breaks its clause (R14, R255): tested only for assigned opcodes of accepted features. -/
def State.breaksClause (s : State) (h : Header) (i : Nat) (w : DWord) : Bool :=
  let op := w.toNat / 2 ^ 56
  let g := op / 16
  match decode w with
  | .reservedOpcode _ => false
  | ins =>
    if op = 0 ∨ !s.accepts ins.shape.feat then false
    else if (g = 0 ∨ op = 0xC2) ∧ i + 1 ≠ h.count then true
    else if g = 0 then false
    else match h.cls with
      | 0 => !((1 ≤ g && g ≤ 5) || g == 12)
      | 1 => !(6 ≤ g && g ≤ 11)
      | 2 => false
      | _ => true

/-- The header check of R255. -/
def State.badHeader (s : State) (core job : Nat) (va : DWord) (h : Header) : Bool :=
  decide (4 ≤ h.cls) || natBits h.word.toNat 0 40 != 0 || (!h.safe && h.spidx != 0) ||
    (s.clauseWords core job va h).any fun w => s.breaksClause h w.1 w.2

/-- A sheaf collective (R64, R157). -/
def collective (i : Instr) : Bool :=
  let op := i.word.toNat / 2 ^ 56
  (0x50 ≤ op && op ≤ 0x5D) || match i with | .ldblk _ _ => true | _ => false

/-- Two sheaves may merge on the clause (R64): `M` is set, and no collective, no uniform destination and no instruction
that executes once per bundle stands in it. -/
def State.mayMerge (s : State) (core job : Nat) (va : DWord) (h : Header) : Bool :=
  h.merge && (s.clauseWords core job va h).all fun w => !collective (decode w.2) && !(decode w.2).perBundle

/-! ## Ready threads (R53) -/

/-- A thread that is parked, or whose save is done, is not ready. -/
def SaveStage.rests : SaveStage → Bool
  | .parked | .saved | .stookSaved | .restored => true
  | _ => false

/-- A thread of a sheaf is ready (R53). -/
def State.threadReady (s : State) (k : Stook) (h : Sheaf) (t : Thread) : Bool :=
  !t.exited && !t.stage.rests && t.held.isNone && !t.inBundle && decide (t.readyAt ≤ s.cycles k.die) &&
    (let hd := s.header h.core k.job t.clause
     (List.range 6).all fun i => !hd.waits i || s.slotCount k.tag h.index i == 0)

/-- The ready lanes of a sheaf, in order. -/
def State.readyLanes (s : State) (tag i : Nat) : List (Nat × Thread) :=
  match s.stook tag, s.sheaf tag i with
  | some k, some h => (h.threads.zipIdx.filter fun p => s.threadReady k h p.1).map fun p => (p.2, p.1)
  | _, _ => []

/-! ## Asynchronous causes (R227, R228) -/

/-- One ready thread takes its first pending asynchronous cause, if it can: 0x23, then 0x51, then 0x50. The detail of
0x23 is its `%hyp` (R194). -/
def State.takeAsync (s : State) (k : Stook) (i l : Nat) (t : Thread) : State :=
  if t.hact || t.rmode then s else
  match (asyncCodes.filterMap fun c => t.pending.find? (·.1 == c)).head? with
  | none => s
  | some (code, detail) =>
    let s := s.modThread k.tag i l fun t => { t with pending := t.pending.filter (·.1 != code) }
    if k.kh.handler = 0 then (if code = 0x51 then s.exitThread k.tag i l else s)
    else
      let detail := if code = 0x23 then t.hyp.zeroExtend 64 else detail
      let s := s.enter k i l code detail t.pc t.clause true
      s.modThread k.tag i l fun u => { u with readyAt := t.readyAt }

/-! ## Parking (R234) -/

/-- A thread parks at a safe point: not in its handler, nor in a stook routine of a restore, which goes on to its end first
(R234, R238; log entry 122). -/
def Thread.parks (t : Thread) : Bool := !t.hact && t.stage == .none

/-- A thread parks: not ready until the save goes on or the request lapses. -/
def Thread.park (t : Thread) (spidx : Nat) : Thread := { t with stage := .parked, spidx := spidx, held := none }

/-- The pre-emption request of a stook still waits for threads to park. -/
def Stook.parking (k : Stook) : Bool := match k.pre with | some p => p.stage == .parking | none => false

/-- Threads held by a blocking instruction in a clause with `S` park there, withdrawn (R234). -/
def State.parkHeld (s : State) (tag i : Nat) : State :=
  match s.stook tag, s.sheaf tag i with
  | some k, some h =>
    if !k.parking then s else
    h.threads.zipIdx.foldl (fun s p =>
      match p.1.held.bind fun id => s.holds.find? (·.id == id) with
      | some hd =>
        let c := s.header h.core k.job hd.clause
        if c.safe && hd.kind.parks && p.1.parks && !p.1.exited then
          (s.withdraw hd p.2).modThread tag i p.2 (·.park c.spidx)
        else s
      | none => s) s
  | _, _ => s

/-- Every thread of a stook has parked or exited before the deadline: the drain begins (R234 to R236). -/
def State.parkedAll (s : State) (tag : Nat) : State :=
  let all := (s.sheaves.filter (·.tag == tag)).all fun h => h.threads.all fun t => t.exited || t.stage == .parked
  s.modStook tag fun k =>
    match k.pre with
    | some p =>
      if p.stage == .parking && all && decide (s.now < p.deadline) then
        { k with pre := some { p with stage := .draining } }
      else k
    | none => k

/-! ## Bundle starts (R54, R55) -/

/-- The lead thread: of the ready ones with age 63 the lowest lane, else the lowest counter (R55, R62). -/
def leadOf (rs : List (Nat × Thread)) : Option Thread :=
  match rs.find? (·.2.age == 63) with
  | some p => some p.2
  | none => rs.foldl (fun b p => match b with
      | none => some p.2
      | some t => if p.2.pc < t.pc then some p.2 else some t) none

/-- A bundle start ages a sheaf's ready threads: those that join start afresh (R55). -/
def State.ageThreads (s : State) (tag i : Nat) (rs : List (Nat × Thread)) (join : Lanes) : State :=
  rs.foldl (fun s p => s.modThread tag i p.1 fun t =>
    { t with age := if join.getLsbD p.1 then 0 else min (t.age + 1) 63 }) s

/-- The mark of the first failed slot that a header waits on (R207). -/
def Sheaf.failure (h : Sheaf) (hd : Header) : Option SlotFail :=
  ((List.range 6).filter hd.waits).findSome? fun i => h.failed.find? (·.slot == i)

/-- What stands between the joining threads of one sheaf and their bundle: a failed slot's cause (R207), then parking
(R234), then a fault on the header (R60, R255). The lanes left. -/
def State.joining (s : State) (k : Stook) (h : Sheaf) (pc clause : DWord) (join : Lanes) : Lanes × State :=
  let hd := s.header h.core k.job clause
  let each (f : State → Nat → State) : Lanes × State := (0, (lanesOf join).foldl f s)
  match h.failure hd with
  | some x => each fun s l => s.take k.tag h.index l x.cause x.detail pc clause
  | none =>
    let parks := if pc = clause ∧ hd.safe ∧ k.parking then
        join &&& lanesWhere fun l => match h.threads[l]? with | some t => t.parks | none => false
      else 0
    let s := s.modThreads k.tag h.index parks fun t => t.park hd.spidx
    let join := join &&& ~~~parks
    let trap (t : Trap) : Lanes × State :=
      (0, (lanesOf join).foldl (fun s l => s.take k.tag h.index l t.1 t.2 pc clause) s)
    match s.codeWord h.core k.job clause with
    | .error t => trap t
    | .ok w => if pc = clause && s.badHeader h.core k.job clause hd then trap (0x03, w) else (join, s)

/-- The sheaves that a core's slots have chosen in a core cycle, with the slots (R54). -/
def Core.picks (x : Core) (now : Nat) : List (Nat × Nat × Nat) := if x.pickedAt = now then x.picked else []

/-- A slot may choose a sheaf in this core cycle (R54): it has neither chosen nor issued yet, no slot has chosen the sheaf,
and slot 0 chooses before slot 1. -/
def Core.mayPick (x : Core) (slot tag i now : Nat) : Bool :=
  (x.picks now).all (fun p => p.1 != slot && p.2 != (tag, i)) && decide (x.slot1At ≤ now) &&
    (slot != 0 || decide (x.slot0At ≤ now))

/-- A slot has chosen sheaves in this core cycle. -/
def Core.pick (x : Core) (slot tag now : Nat) (is : List Nat) : Core :=
  { x with pickedAt := now, picked := x.picks now ++ is.map fun i => (slot, tag, i),
           slot1At := if slot = 0 then x.slot1At else now + 1 }

/-- A slot issues in this core cycle (R54). -/
def Core.acted (x : Core) (slot now : Nat) : Core :=
  if slot = 0 then { x with slot0At := now + 1 } else { x with slot1At := now + 1 }

/-- The header of the clause that holds a thread's counter. Where the clause has been rewritten and ends before the
counter, the counter is a header itself (log entry 105). -/
def State.clauseOf (s : State) (core job : Nat) (t : Thread) : DWord :=
  match s.codeWord core job t.clause with
  | .ok w => if t.pc = t.clause ∨ (t.pc - t.clause).toNat / 8 ≤ (Header.mk w).count then t.clause else t.pc
  | .error _ => t.clause

/-- The words of the clause at a VA: its header and what the header counts. -/
def State.clauseVas (s : State) (core job : Nat) (va : DWord) : List DWord :=
  (List.range ((s.header core job va).count + 1)).map fun i => va + 8 * BitVec.ofNat 64 i

/-- An issue slot forms a bundle (R54, R55), with the threads of a second sheaf where R64 allows it: threads that stand at
the second sheaf's own lead counter, so that R62 holds for it too. They run under the lead thread's clause (log entry
128). -/
def bundleStart (core slot tag i : Nat) (merge : Option Nat) (s : State) : State :=
  let s := (s.parkHeld tag i).parkedAll tag
  match s.stook tag, s.sheaf tag i with
  | some k, some h =>
    let now := s.cycles k.die
    if (s.slot core slot).isSome || decide (1 < slot) || h.core != core || k.frozen ||
        !(s.core core).mayPick slot tag i now then s else
    let sheaves := i :: merge.toList
    let heads := sheaves.flatMap fun j => ((s.sheaf tag j).map (·.threads)).getD [] |>.map (·.clause)
    let (there, s) := s.fetchPeer core slot k.job heads
    if !there then s else
    let s := (s.readyLanes tag i).foldl (fun s p => s.takeAsync k i p.1 p.2) { s with free := s.free + 1 }
    let rs := s.readyLanes tag i
    match leadOf rs with
    | none => s
    | some lead =>
      let clause := s.clauseOf core k.job lead
      let (there, s) := s.fetchPeer core slot k.job (s.clauseVas core k.job clause)
      if !there then s else
      let joinOf (rs : List (Nat × Thread)) : Lanes :=
        lanesWhere fun l => rs.any fun p => p.1 == l && p.2.pc == lead.pc
      let join := joinOf rs
      let hd := s.header core k.job clause
      let second : Option (Nat × List (Nat × Thread)) := merge.bind fun j =>
        let rs' := s.readyLanes tag j
        let ok := j != i && ((s.sheaf tag j).map (·.core == core)).getD false &&
          (leadOf rs').map (·.pc) == some lead.pc && (s.core core).mayPick slot tag j now &&
          joinOf rs' &&& join == 0 && s.mayMerge core k.job clause hd && rs'.all (fun p => p.2.pending.isEmpty)
        if ok then some (j, rs') else none
      let s := s.modCore core (·.pick slot tag now (i :: (second.map (·.1)).toList))
      let s := s.ageThreads tag i rs join
      let (m, s) := s.joining k h lead.pc clause join
      let (parts, s) := match second with
        | some (j, rs') =>
          let s := s.ageThreads tag j rs' (joinOf rs')
          match s.sheaf tag j with
          | some h' =>
            let (m', s) := s.joining k h' lead.pc clause (joinOf rs')
            ([Part.mk i m, Part.mk j m'], s)
          | none => ([Part.mk i m], s)
        | none => ([Part.mk i m], s)
      let parts := parts.filter (·.lanes != 0)
      let s := s.parkedAll tag
      if parts.isEmpty then s else
      let s := match s.codeWord core k.job clause with
        | .ok w => s.keepCode core k.job clause w
        | .error _ => s
      let b : Bundle :=
        { start := now, tag, parts, base := clause, cls := hd.cls, count := hd.count,
          pos := if lead.pc = clause then 0 else (lead.pc - clause).toNat / 8 - 1, nextAt := now, jumps := [],
          hold := false, deferred := false }
      let s := s.setSlot core slot (some b)
      parts.foldl (fun s p => s.modThreads tag p.sheaf p.lanes fun t => { t with inBundle := true }) s
  | _, _ => s

/-- `BUNDLE_START` (R55). -/
def execBundleStart (core slot tag sheaf : Nat) (merge : Option Nat) (s : State) : Out :=
  .next (bundleStart core slot tag sheaf merge s)

/-! ## The next word of a bundle (R56, R60) -/

/-- The address of the next word of a bundle. -/
def Bundle.next (b : Bundle) : DWord := b.base + 8 + 8 * BitVec.ofNat 64 b.pos

/-- The core cycle from which the bundle of a slot may issue next: after what slot 1 issued in an earlier cycle, for slot
0 (R16, R54). -/
def State.issueCycle (s : State) (core slot : Nat) (b : Bundle) : Nat :=
  if slot = 0 then max b.nextAt (s.core core).slot1At else b.nextAt

/-- The core clock of a bundle's die reaches the cycle in which the bundle issues next (R16, R56). -/
def State.awaitIssue (s : State) (core slot : Nat) (b : Bundle) : State :=
  { s with now := s.timeOf (core / 64) (s.issueCycle core slot b) }

/-- The word before which a bundle stands cannot issue yet, because its scoreboard slot is full (R258). -/
def State.wordWaits (s : State) (core : Nat) (b : Bundle) : Bool :=
  match s.codeWord core (((s.stook b.tag).map (·.job)).getD 0) b.next with
  | .ok w => slotFull (decode w) b s
  | .error _ => false

/-- Slot 0 has an instruction to issue in the cycle in which slot 1 would issue its own, or before: it goes first (R54). -/
def State.slot0First (s : State) (core : Nat) (b : Bundle) : Bool :=
  match s.slot core 0 with
  | none => false
  | some x =>
    let now := s.cycles (core / 64)
    !x.deferred && !x.hold && decide (x.pos < x.count) && decide (max (s.issueCycle core 0 x) now ≤ max b.nextAt now) &&
      !s.wordWaits core x

/-- The bundle of a slot reaches its next word: the instruction, or none where the slot has nothing to issue or the word
cannot be fetched, which every thread of the bundle takes as its cause (R60). -/
def fetchIssue (core slot : Nat) (s : State) : Option Instr × State :=
  match s.slot core slot with
  | none => (none, s)
  | some b =>
    if b.deferred || b.hold || decide (b.count ≤ b.pos) || (slot == 1 && s.slot0First core b) then (none, s) else
    let job := ((s.stook b.tag).map (·.job)).getD 0
    let (there, s) := s.fetchPeer core slot job [b.next]
    if !there then (none, s) else
    let s := { s.awaitIssue core slot b with cur := (core, slot) }
    let s := s.modCore core (·.acted slot (s.cycles (core / 64)))
    match s.codeWord core job b.next with
    | .ok w => (some (decode w), s.keepCode core job b.next w)
    | .error t =>
      let s := b.parts.foldl (fun s p =>
        (lanesOf p.lanes).foldl (fun s l => s.take b.tag p.sheaf l t.1 t.2 b.next b.base) s) s
      (none, finishIssue { stall := 0, sbw := 7, gneg := 0, gp := 7 } s)

/-- The bundle of a slot can issue its next word: nothing holds it, its scoreboard slot has room, and no fetch of the word
is on its way. -/
def State.canIssue (s : State) (core slot : Nat) (b : Bundle) : Bool :=
  !b.deferred && !b.hold && !s.wordWaits core b && !s.fabReqs.any fun f =>
    match f.kind with | .fetch who _ _ => who == codeReader core slot | _ => false

/-- The first slot with a bundle that can issue. -/
def State.issuable (s : State) : Option (Nat × Nat) :=
  s.cores.findSome? fun c =>
    let may (slot : Nat) (b : Option Bundle) : Bool := match b with | some b => s.canIssue c.id slot b | none => false
    if may 0 c.slot0 then some (c.id, 0) else if may 1 c.slot1 then some (c.id, 1) else none

/-! ## A program set before the machine -/

/-- The bytes of a clause that holds one word: its header (`mix`, one instruction) and the word. -/
def clauseBytes (w : Nat) : List Byte := leBytes 8 0x2000000000000000 ++ leBytes 8 w

/-- The range a placed clause lies in: 4,096 bytes at VA 0 with R, W and X on channel 255. -/
def placedRange : RangeEnt :=
  { idx := 0xFFFFF, base := 0, limit := 4096, owner := 0xFFFF, key := 0, rights := rightR ||| rightW ||| rightX,
    cls := .sh, hyp := false, par := false, peer := none,
    place := { tier := 0, gcode := 0, table := 0, shares := [⟨255, 0x7FFFF000, false, 0, 0⟩] }, move := .none, front := 0,
    transit := 0, lossVa := 0, losses := [], lossCount := 0, lostCh := [] }

/-- The kernel header of a placed clause. -/
def placedHeader : KHdr :=
  { entry := 0, handler := 0, sptab := 0, ssave := 0, srest := 0, feat := 0, spad := 0, ncrib := 0, vregs := 8, ssz := 0,
    tsz := 0, nsp := 0 }

/-- A thread as a stook's start leaves it, at a counter, with no arrival at a barrier (R46); a restored thread starts so
too (R238; log entry 160). -/
def Thread.fresh (pc : DWord) (vregs : Nat) : Thread :=
  { pc, clause := pc, v := List.replicate vregs 0, p := 0, age := 0, exited := false, held := none, readyAt := 0,
    inBundle := false, cnt := 0, issued := 0, fflags := 0, hyp := 0, orphan := false, window := 0, bcur := 0, epc := 0, fault := 0,
    svarea := 0, code := 0, cloff := 0, async := false, hact := false, rmode := false, pending := [],
    arrivals := List.replicate 16 0, pend := [], stage := .none, spidx := 0 }

/-- A sheaf as a stook's start leaves it (R46). -/
def Sheaf.fresh (tag index core vregs : Nat) (pc : DWord) : Sheaf :=
  { tag, index, core, s := List.replicate 384 0, part := 32, failed := [],
    threads := List.replicate 32 (Thread.fresh pc vregs) }

/-- A job as command 0x01 makes it (R245). -/
def Job.fresh (id fn : Nat) : Job :=
  { id, fn, started := false, ended := false, destroying := false, block := 0, counters := ⟨0, 0, 0⟩, rootVa := 0, rootKh := none,
    root := .absent, aperture := 0, nextLaunch := 1, launches := [], graphs := [], phaseNo := 1, phaseCancelled := false,
    replay := 0, tmpl := none, handlers := none, mxRange := none,
    period := 40000000, lastRetire := 0, fired := none, lostMark := 0, markFrame := none, markWas := 0, counts := List.replicate 12 ⟨0, 0, 0⟩,
    pkgs := [], depth := 0, peerWaits := false, wave := none, older := [], verdict := none }

/-- The stook of a placed clause, on core 508. -/
def placedStook : Stook :=
  { tag := 0xFFFFFFFF, job := 0xFFFF, kind := .root, launch := 0, index := 0, nstook := 1, nsheaf := 1, prio := 0,
    die := 7, bay := 15, cores := [508], share := 0, spad := [], cribs := [], cribUps := [], kh := placedHeader,
    lparams := List.replicate 8 0, tiles := 0, mxErr := none, bars := List.replicate 16 0, pre := none, restore := none,
    frozen := false, placedAt := 0, olds := [] }

/-- A clause with one word placed in memory and a one-sheaf stook whose bundle stands before that word in slot 0 of core
508: the next step issues it. -/
def State.placeWord (s : State) (w : Nat) : State :=
  let h := Sheaf.fresh 0xFFFFFFFF 0 508 8 0
  let h := { h with threads := h.threads.map fun t => { t with inBundle := true } }
  let b : Bundle := { start := 0, tag := 0xFFFFFFFF, parts := [⟨0, BitVec.allOnes 32⟩], base := 0, cls := 2, count := 1,
                      pos := 0, nextAt := 0, jumps := [], hold := false, deferred := false }
  let s := { s with
    ranges := placedRange :: s.ranges.filter fun e => e.idx != 0xFFFFF && e.owner != 0xFFFF
    mem := Memory.setN s.mem (255 * 2 ^ 48 + 0x7FFFF000) (clauseBytes w)
    l3 := s.l3.filter (·.rng != 0xFFFFF)
    leaving := s.leaving.filter (·.idx != 0xFFFFF)
    seals := lineSeal none 0xFFFFF 0 (255 * 2 ^ 48 + 0x7FFFF000) :: s.seals
    code := s.code.filter (·.job != 0xFFFF)
    keys := Key.mk 0 (some (.fresh 0)) :: s.keys.filter (·.id != 0)
    jobs := { Job.fresh 0xFFFF 0 with lastRetire := s.now } :: s.jobs.filter (·.id != 0xFFFF)
    stooks := placedStook :: s.stooks.filter (·.tag != 0xFFFFFFFF)
    sheaves := h :: s.sheaves.filter (·.tag != 0xFFFFFFFF)
    ops := s.ops.filter (·.tag != 0xFFFFFFFF)
    agenda := [.issue 508 0] }
  s.setSlot 508 0 (some b)

end Sys2Proof.Machine
end

