-- ==== Sys2Proof/Machine/Matrix.lean ====
section
/-! DEFINITION. The matrix engine: commands, drains, passes, tiles and the error record (R48, R49, R162 to R176, R213,
R275, R325, R341). -/

namespace Sys2Proof.Machine
open Sys2Proof

/-! ## Commands and drain descriptors (R165, R175) -/

/-- A command from its 64 bytes. -/
def MxCmd.ofNat (x : Nat) : MxCmd :=
  let f (byte lo n : Nat) : Nat := natBits x (8 * byte + lo) n
  let b (i : Nat) : Bool := f 0x20 i 1 == 1
  { aaddr := BitVec.ofNat 64 (f 0 0 64), baddr := BitVec.ofNat 64 (f 8 0 64), astr := f 0x10 0 32, bstr := f 0x10 32 32,
    cntr := f 0x18 0 64, incr := f 0x20 48 16, nblk := f 0x20 32 16, crib := f 0x20 24 8, cribEn := b 23,
    prio := f 0x20 20 3, load := b 19, zero := b 18, iacc := b 17, reca := b 16, asp := b 15, bsp := b 14,
    ea := f 0x20 12 2, eb := f 0x20 10 2, apl := f 0x20 6 4, bpl := f 0x20 2 4, tile := f 0x28 0 3,
    reserved := f 0x20 0 2 != 0 || f 0x28 3 61 != 0 || f 0x30 0 128 != 0 || (b 15 && f 0 34 30 != 0) ||
      (b 14 && !b 19 && f 8 34 30 != 0) }

/-- A drain descriptor from its 16 bytes. -/
def MxDesc.ofNat (x : Nat) : MxDesc :=
  let f (lo n : Nat) : Nat := natBits x (64 + lo) n
  { dest := BitVec.ofNat 64 (natBits x 0 64), cribEn := f 48 1 == 1, crib := f 40 8, clr := f 39 1 == 1,
    conv := f 37 2, mode := f 35 2, tile := f 32 3, rstr := f 0 32, reserved := f 49 15 != 0 }

/-- Where a side's lines lie: address of line 0, stride, whether in a scratchpad share, and the planes read. -/
structure MxSide where
  addr : Nat
  stride : Nat
  spad : Bool
  share : Nat
  pl : Nat
  deriving DecidableEq, Repr

/-- A location field as a side: a VA, or a scratchpad offset and core. -/
def mxSide (addr : DWord) (stride : Nat) (spad : Bool) (pl : Nat) : MxSide :=
  { addr := if spad then addr.toNat % 2 ^ 32 else addr.toNat, stride, spad, share := addr.toNat / 2 ^ 32 % 4, pl }

/-- The A side: rows. -/
def MxCmd.sideA (c : MxCmd) : MxSide := mxSide c.aaddr c.astr c.asp c.apl
/-- The B side: columns. -/
def MxCmd.sideB (c : MxCmd) : MxSide := mxSide c.baddr c.bstr c.bsp c.bpl

/-- Line m of a side: a VA wraps, while a scratchpad offset past the share lies outside it (R167). -/
def MxSide.at (d : MxSide) (m : Nat) : Nat :=
  if d.spad then d.addr + m * d.stride else (d.addr + m * d.stride) % 2 ^ 64

/-- Blocks of a column of B. -/
def MxCmd.blocksB (c : MxCmd) : Nat := c.nblk * 2 ^ c.ea / 2 ^ c.eb
/-- Elements of a block, by its code. -/
def mxCount (e : Nat) : Nat := 30 * 2 ^ e
/-- Elements of a segment: L (R172). -/
def MxCmd.segLen (c : MxCmd) : Nat := mxCount (min c.ea c.eb)
/-- Segments of a command; rows of a `LOAD`. -/
def MxCmd.segments (c : MxCmd) : Nat := if c.load then 128 else c.nblk * mxCount c.ea / c.segLen

/-- The extent of a line of n blocks: every block but the last whole, the last as its planes are read (R167). -/
def lineExtent (n pl : Nat) : Nat := 64 * (n - 1) + planeBytes pl

/-! ## Checks (R167, R176) -/

/-- Line m of a side, len bytes, passes R78 and R79 with the rights, outside the wain aperture (R111), or lies inside the
share. A line is one extent, which one range holds whole (log entry 132). -/
def State.mxLine (s : State) (k : Stook) (d : MxSide) (rights : BitVec 7) (len m : Nat) : Option Trap :=
  let a := d.at m
  if d.spad then
    if k.share < a + len then some (0x11, BitVec.ofNat 64 (max a k.share)) else none
  else match s.translateOut k.job a len 1 rights with
    | .error t => some t
    | .ok (e, _) => if rights &&& rightW != 0 && e.cls == .ro then some (0x12, BitVec.ofNat 64 a) else none

/-- The 128 lines of a side pass. -/
def State.mxLines (s : State) (k : Stook) (d : MxSide) (rights : BitVec 7) (len : Nat) : Option Trap :=
  (List.range 128).findSome? (s.mxLine k d rights len)

/-- The first value, address or stride, that is not a multiple of 64, which is the detail (log entry 109). -/
def misaligned64 (l : List Nat) : Option Trap := (l.find? (· % 64 != 0)).map fun a => (0x13, BitVec.ofNat 64 a)

/-- A plane field is legal (R165). -/
def planesOk (n : Nat) : Bool := n == 0 || (decide (2 ≤ n) && decide (n ≤ 8))

/-- A scratchpad core beyond the stook's (R167, step 5). -/
def Stook.badShare (k : Stook) (d : MxSide) : Option Trap :=
  if d.spad ∧ k.cores.length ≤ d.share then some (0x02, BitVec.ofNat 64 d.share) else none

/-- Steps 3 to 8 of R167; with `LOAD` the A side only (R174). -/
def State.mxCheck (s : State) (k : Stook) (c : MxCmd) : Option Trap :=
  let a := c.sideA
  let b := c.sideB
  let badFields := !c.load && (c.ea == 3 || c.eb == 3 || !planesOk c.apl || !planesOk c.bpl || c.nblk == 0 ||
    c.nblk * 2 ^ c.ea % 2 ^ c.eb != 0)
  if c.reserved || badFields then some (0x02, 0)
  else if k.tiles ≤ c.tile then some (0x41, BitVec.ofNat 64 c.tile)
  else
    [k.badShare a, if c.load then none else k.badShare b, if c.cribEn then k.badCrib c.crib else none,
     misaligned64 (if c.load then [a.addr, a.stride] else [a.addr, b.addr, a.stride, b.stride]),
     if c.cntr % 8 ≠ 0 then some (0x13, BitVec.ofNat 64 c.cntr) else none,
     s.mxLines k a rightR (if c.load then 512 else lineExtent c.nblk c.apl),
     if c.load then none else s.mxLines k b rightR (lineExtent c.blocksB c.bpl),
     if c.cntr = 0 then none else (s.checkCounter k.job c.cntr).map fun t => (t.1, BitVec.ofNat 64 c.cntr)].findSome? id

/-- A drain's destination rows as a side. -/
def MxDesc.side (d : MxDesc) : MxSide := mxSide d.dest d.rstr (d.mode == 1) 0
/-- Bytes of a drained row. -/
def MxDesc.rowBytes (d : MxDesc) : Nat := if d.conv = 0 then 512 else 256

/-- The checks of `MXDRAIN` after the error record, in the order of R167 (R176). A package that does not accept
collectives raises 0x01 at one, after the fields and before 0x41 (R202; log entry 142). -/
def State.mxDrainCheck (s : State) (k : Stook) (word : DWord) (d : MxDesc) : Option Trap :=
  let x := d.side
  if d.reserved || d.mode == 3 || d.conv == 3 || (d.mode == 2 && d.conv != 0) || (d.cribEn && d.mode != 1) then
    some (0x02, 0)
  else if d.mode == 2 && !s.accepts 8 then some (0x01, word)
  else if k.tiles ≤ d.tile then some (0x41, BitVec.ofNat 64 d.tile)
  else
    [k.badShare x, if d.cribEn then k.badCrib d.crib else none,
     misaligned64 (if d.mode = 2 then [x.addr] else [x.addr, x.stride]),
     if d.mode = 2 then
       match s.translateOut k.job x.addr 64 1 rightR with | .error t => some t | .ok _ => none
     else s.mxLines k x rightW d.rowBytes].findSome? id

/-! ## The reservation table (R162, R163) -/

/-- The entries of a bay. -/
def State.mxEntries (s : State) (die bay : Nat) : List MxEntry := s.mxTable.filter fun e => e.die == die && e.bay == bay

/-- The free entry numbers of a bay's table of 32. -/
def State.mxFree (s : State) (die bay : Nat) : List Nat :=
  (List.range 32).filter fun i => !(s.mxEntries die bay).any (·.slot == i)

/-- The tile an entry names. -/
def MxEntry.tile (e : MxEntry) : Nat := match e.work with | .command c => c.tile | .drain d _ _ => d.tile

/-- Posts work for a stook in a free entry; which one is not architected (log entry 12). The entry number. -/
def State.mxPost (s : State) (k : Stook) (sheaf op prio : Nat) (work : MxWork) (dep : Dep) : Option (Nat × State) :=
  let free := s.mxFree k.die k.bay
  match free[Config.planTime s.free % free.length]? with
  | none => none
  | some n =>
    let e : MxEntry := { die := k.die, bay := k.bay, slot := n, seq := s.nextId, tag := k.tag, job := k.job, sheaf, op,
                         prio, work, next := 0, stopped := false, status := 0, dep, endsAt := 0 }
    some (n, { s.bump with mxTable := s.mxTable ++ [e], free := s.free + 1 })

/-- Enters the first error of a stook in its matrix error record (R173). -/
def State.mxRecord (s : State) (tag : Nat) (t : Trap) : State :=
  s.modStook tag fun k => { k with mxErr := some (k.mxErr.getD t) }

/-- The recorded cause of a stook, which an instruction raises in place of its effect (R173). -/
def Ctx.mxRaise (c : Ctx) (t : Trap) (s : State) : State :=
  c.trap c.act t (s.modStook c.tag fun k => { k with mxErr := none })

/-- `MXQ` (R166, R325); a bundle with a tagged lane needs one `%hyp` (R189), after every check of its own (log entry 28). -/
def execMxq (c : Common) (f : A3) (s : State) : Out :=
  let body : Body := fun x s =>
    match s.stook x.tag with
    | none => s
    | some k =>
      match k.mxErr with
      | some t => x.mxRaise t s
      | none =>
        let cmd := MxCmd.ofNat (x.uni s f.a 16)
        match s.mxCheck k cmd with
        | some t => x.trap x.act t s
        | none =>
          if x.mixedTagged s then x.trap x.act (0x22, 0) s else
          let dep := x.dep s
          let op := s.nextId
          let s := x.openOp 1 s
          match s.mxPost k x.sheaf 0 cmd.prio (.command cmd) dep with
          | none => x.deliver op [(f.d.num, none, 0)] s
          | some (n, s) => x.deliver op [(f.d.num, none, BitVec.ofNat 32 (n + 1))] s
  .next (issueWith (.mxq c f) body s)

/-- `MXDRAIN`: posts a drain, or waits for a free entry (R175, R325); a bundle with a tagged lane needs one `%hyp`
(R189), after every check of its own (log entry 28). -/
def execMxdrain (c : Common) (f : A3) (s : State) : Out :=
  let body : Body := fun x s =>
    match s.stook x.tag, x.sh s with
    | some k, some h =>
      match k.mxErr with
      | some t => x.mxRaise t s
      | none =>
        let ws := wordsOf 4 (x.uni s f.a 4)
        let d := MxDesc.ofNat (x.uni s f.a 4)
        let dest := if f.d.isZ then 1023 else f.d.num
        match s.mxDrainCheck k x.i.word d with
        | some t => x.trap x.act t s
        | none =>
          if x.mixedTagged s then x.trap x.act (0x22, 0) s else
          let dep := x.dep s
          let op := s.nextId
          let s := x.openOp 1 s
          match s.mxPost k x.sheaf op 0 (.drain d dest h.core) dep with
          | some (_, s) => s
          | none => x.hold (.mxDrain dest ws) op s
    | _, _ => s
  .next (issueWith (.mxdrain c f) body s)

/-- `MXDRAIN_ENTRY_GRANT`: the oldest waiting drain of a bay is posted (log entry 145), checked again (R175, R176). An error
recorded while it waited is left to the next instruction that raises it (R173; log entry 133). -/
def execMxdrainEntryGrant (id : Nat) (s : State) : Out :=
  .next (match s.holds.find? (·.id == id) with
    | none => s
    | some h => match h.kind, s.stook h.tag with
      | .mxDrain dest ws, some k =>
        let bayOf (g : Hold) : Option (Nat × Nat) := (s.stook g.tag).map fun k => (k.die, k.bay)
        let older := s.holds.any fun g => decide (g.id < h.id) && bayOf g == some (k.die, k.bay) && match g.kind with
          | .mxDrain .. => true
          | _ => false
        if older then s else
        let d := MxDesc.ofNat (leNat (wordBytes ws))
        match s.mxDrainCheck k 0 d with
        | some t => s.holdTrap h t
        | none =>
          match s.mxPost k h.sheaf h.op 0 (.drain d dest h.core) ⟨h.tag, h.sheaf, h.active, h.id⟩ with
          | none => s
          | some (_, s) => s.release h
      | _, _ => s)

/-- `FOLLOW_ON_POST`: once an entry is free the wain reads the command, checks it and posts it for the stook (R168; log
entry 110). -/
def execFollowOnPost (id : Nat) (s : State) : Out :=
  .next (match s.followOns.find? (·.id == id) with
    | none => s
    | some w =>
      match s.stookNow w.tag with
      | none => s
      | some k =>
        if (s.mxFree k.die k.bay).isEmpty then s else
        let table := s.registered w.job ((s.job w.job).bind (·.mxRange)) w.mxidx
        match s.gather w.id w.job k.die (match table with | some e => e.linesOf (64 * w.mxidx) 64 | none => []) with
        | (false, s) => s
        | (true, s) =>
          let s := { s with followOns := s.followOns.filter (·.id != id) }
          match table with
          | none => s.mxRecord k.tag (0x02, 0)
          | some e =>
            match s.lineChecks e false (64 * w.mxidx) 64 (e.base + 64 * w.mxidx) with
            | some t => s.mxRecord k.tag t
            | none =>
              let cmd := MxCmd.ofNat (leNat (s.homeReadN e (64 * w.mxidx) 64))
              let s := s.used w.id
              match s.mxCheck k cmd with
              | some t => s.mxRecord k.tag t
              | none => ((s.mxPost k 0 0 cmd.prio (.command cmd) ⟨k.tag, 0, 0, 0⟩).map (·.2)).getD s)

/-! ## Tiles (R172) -/

/-- A tile of a stook; one nothing has written reads zero (R48). -/
def State.tile (s : State) (tag name : Nat) : Tile :=
  (s.tiles.find? fun t => t.tag == tag && t.name == name).getD ⟨tag, name, [], 0⟩

/-- Changes a tile. -/
def State.modTile (s : State) (tag name : Nat) (f : Tile → Tile) : State :=
  { s with tiles := upsert (fun t => t.tag == tag && t.name == name) ⟨tag, name, [], 0⟩ f s.tiles }

/-- n words from a sorted list of those that are not zero, from position i on. -/
def denseFrom : List (Nat × Word) → Nat → Nat → List Word
  | _, _, 0 => []
  | [], i, n + 1 => 0 :: denseFrom [] (i + 1) n
  | (k, w) :: r, i, n + 1 => if k = i then w :: denseFrom r (i + 1) n else 0 :: denseFrom ((k, w) :: r) (i + 1) n

/-- The words of a tile, row after row. -/
def Tile.dense (t : Tile) : List Word := denseFrom t.words 0 16384

/-- A list of words as a tile keeps it. -/
def sparse (ws : List Word) : List (Nat × Word) := ws.zipIdx.filterMap fun p => if p.1 = 0 then none else some (p.2, p.1)

/-- Row m of a tile. -/
def Tile.row (t : Tile) (m : Nat) : List Word :=
  denseFrom (t.words.filter fun p => p.1 / 128 == m) (128 * m) 128

/-! ## Operands (R165, R173) -/

/-- Bytes of a side as the engine reads them, as committed data, or a cause: one of R173, or that of a range which has
changed since the command was posted (R166; log entry 111). -/
def State.mxBytes (s : State) (k : Stook) (d : MxSide) (a n : Nat) : Except Trap (List Byte) :=
  if d.spad then .ok (Memory.getN k.spad (d.share * 2 ^ 32 + a) n)
  else match s.translateOut k.job a n 1 rightR with
    | .error t => .error t
    | .ok (e, off) =>
      match s.lineChecks e false off n a with
      | some t => .error t
      | none => .ok (s.engineRead e off n .untagged)

/-- A block of an operand: its format, none for the empty block, and its bytes. -/
abbrev MxBlock := Option BFmt × List Byte

/-- Reads a block at an address; `short` where R167 counted it as its planes are read. The errors of R173, 0x11 before a
wrong element count (log entry 112); 0x14 and 0x15 with the block's VA. -/
def State.mxBlock (s : State) (k : Stook) (c : MxCmd) (d : MxSide) (count a : Nat) (short : Bool) : Except Trap MxBlock :=
  let n := if short then planeBytes d.pl else 64
  match s.mxBytes k d a n with
  | .error t => .error (if t.1 = 0x14 ∨ t.1 = 0x15 then (t.1, BitVec.ofNat 64 a) else t)
  | .ok bs =>
    match s.blockFmt bs with
    | none => .error (0x40, BitVec.ofNat 64 a)
    | some none => .ok (none, bs)
    | some (some f) =>
      if short && !f.planar then .error (0x11, BitVec.ofNat 64 (a + n))
      else if f.count != count || (c.iacc && (f.flt.isSome || byteAt bs 1 != 127)) then .error (0x40, BitVec.ofNat 64 a)
      else .ok (some f, if f.planar then keepPlanes d.pl bs else bs)

/-- Every result, or the first error. -/
def allOk {α : Type} : List (Except Trap α) → Except Trap (List α)
  | [] => .ok []
  | .error t :: _ => .error t
  | .ok x :: r => match allOk r with
    | .error t => .error t
    | .ok xs => .ok (x :: xs)

/-- Block j, of n, of each of a side's 128 lines. -/
def State.mxSideBlocks (s : State) (k : Stook) (c : MxCmd) (d : MxSide) (count n j : Nat) : Except Trap (List MxBlock) :=
  allOk ((List.range 128).map fun m =>
    s.mxBlock k c d count (d.at m + 64 * j) (d.pl != 0 && j + 1 == n))

/-- The values of L elements of a block, without its scale. -/
def MxBlock.values (b : MxBlock) (lo n : Nat) : List Val :=
  match b.1 with
  | none => List.replicate n (.fin false 0 0)
  | some f => (List.range n).map fun i => if byteAt b.2 1 = 255 then .nan else f.value (f.raw b.2 (lo + i))

/-- Their digit counts (R155, R169). -/
def MxBlock.digits (b : MxBlock) (lo n : Nat) : List Nat :=
  match b.1 with
  | none => List.replicate n 0
  | some f => (List.range n).map fun i => if byteAt b.2 1 = 255 then 0 else f.digits (f.raw b.2 (lo + i))

/-- The scale of a block. -/
def MxBlock.scale (b : MxBlock) : Int := byteAt b.2 1

/-! ## Exact accumulation (R172) -/

/-- The exact sum of products: −0 only where every product is −0; NaN, infinities and their flag as IEEE has them. -/
def exactSum (ps : List (Val × Flags)) : Val × Flags :=
  let has (v : Val) : Bool := ps.any (·.1 == v)
  if ps.any fun p => p.1 == .nan then (.nan, ps.foldl (fun m p => m ||| p.2) 0)
  else if has (.inf true) && has (.inf false) then (.nan, flagNV)
  else (ps.foldl (fun x p => (addV .rne x p.1).1) (.fin true 0 0), 0)

/-- One word of a tile after one segment, with its status bits. -/
def mxWord (iacc : Bool) (c : Word) (as bs : List Val) (e : Int) : Word × Word :=
  let (p, nv) := exactSum ((as.zip bs).map fun x => mulV x.1 x.2)
  if iacc then
    let add : Int := match p with | .fin neg m x => signedAt neg m x 0 | _ => 0
    let y := sgn 32 c.toNat + add
    let z := min (max y (-2147483648)) 2147483647
    (BitVec.ofInt 32 z, if z = y then 0 else 256)
  else
    let (t, f) := encodeF fp32 (p.scale e) .rne
    let (r, g) := addF fp32 .rne (decodeF fp32 c.toNat) (decodeF fp32 t)
    (BitVec.ofNat 32 r, (nv ||| f ||| g).zeroExtend 32)

/-! ## Timing (R170) -/

/-- What one group of eight lines adds in a segment: cycles, steps, skips and terms. -/
structure Cost where
  time : Nat
  steps : Nat
  skips : Nat
  terms : Nat
  deriving DecidableEq, Repr

/-- The cost of one group over the steps of a segment. -/
def groupCost (n : Nat) (lines : List (List Nat)) (anyBlock : Bool) : Cost :=
  (List.range n).foldl (fun c k =>
    let ds := lines.map fun l => (l[k]?).getD 0
    let m := ds.foldl max 0
    if m = 0 then { c with skips := c.skips + 1 }
    else { time := c.time + m, steps := c.steps + 1, skips := c.skips, terms := c.terms + ds.sum })
    ⟨if anyBlock then 1 else 0, 0, 0, 0⟩

/-- Where a pass stands: the tile's words and status, the cycles of each group, and the counters. -/
structure Pass where
  words : List Word
  status : Word
  time : List Nat
  steps : Nat
  skips : Nat
  terms : Nat
  err : Option Trap

/-- Segment q of a command, unless the pass has stopped (R170, R172, R173). -/
def State.mxSegment (s : State) (k : Stook) (c : MxCmd) (p : Pass) (q : Nat) : Pass :=
  if p.err.isSome then p else
  let L := c.segLen
  let ea := mxCount c.ea
  let eb := mxCount c.eb
  match s.mxSideBlocks k c c.sideA ea c.nblk (q * L / ea), s.mxSideBlocks k c c.sideB eb c.blocksB (q * L / eb) with
  | .error t, _ => { p with err := some t }
  | .ok _, .error t => { p with err := some t }
  | .ok as, .ok bs =>
    let la := q * L % ea
    let lb := q * L % eb
    let av := as.map fun b => (MxBlock.values b la L, MxBlock.scale b)
    let bv := bs.map fun b => (MxBlock.values b lb L, MxBlock.scale b)
    let pairs := av.flatMap fun a => bv.map fun b => (a, b)
    let out := (p.words.zip pairs).map fun x => mxWord c.iacc x.1 x.2.1.1 x.2.2.1 (x.2.1.2 + x.2.2.2 - 254)
    let rec' := if c.reca then as else bs
    let lo := if c.reca then la else lb
    let costs := (List.range 16).map fun g =>
      let grp := (rec'.drop (8 * g)).take 8
      groupCost L (grp.map fun b => MxBlock.digits b lo L) (grp.any (·.1.isSome))
    { words := out.map (·.1), status := out.foldl (fun m x => m ||| x.2) p.status,
      time := (p.time.zip costs).map fun x => x.1 + x.2.time, steps := p.steps + (costs.map (·.steps)).sum,
      skips := p.skips + (costs.map (·.skips)).sum, terms := p.terms + (costs.map (·.terms)).sum, err := none }

/-! ## Passes (R163, R170, R174, R175) -/

/-- An entry has passes left. -/
def MxEntry.left (e : MxEntry) : Bool :=
  !e.stopped && decide (e.next < match e.work with | .command c => c.segments | .drain .. => 128)

/-- An entry is eligible: no earlier entry of its stook names its tile, and the accesses it follows are done (R127,
R163). -/
def State.eligible (s : State) (e : MxEntry) : Bool :=
  s.met e.dep && s.mxTable.all fun x => !(x.tag == e.tag && x.tile == e.tile && decide (x.seq < e.seq))

/-- The entry that the arbiter of a bay serves next: highest priority, then first posted (R163). -/
def State.arbiter (s : State) (die bay : Nat) : Option MxEntry :=
  ((s.mxEntries die bay).filter fun e => e.left && s.eligible e).foldl (fun b e => match b with
    | none => some e
    | some x => if x.prio < e.prio ∨ (x.prio = e.prio ∧ e.seq < x.seq) then some e else some x) none

/-- Changes an entry. -/
def State.modEntry (s : State) (seq : Nat) (f : MxEntry → MxEntry) : State :=
  { s with mxTable := modWhere (·.seq == seq) f s.mxTable }

/-- A bay's counters advance (R171). -/
def State.addBay (s : State) (die bay : Nat) (terms steps skips cyc : Nat) : State :=
  s.modBayCtr die bay fun x =>
    { x with terms := x.terms + BitVec.ofNat 64 terms, ksteps := x.ksteps + BitVec.ofNat 64 steps,
             kskips := x.kskips + BitVec.ofNat 64 skips, mxcyc := x.mxcyc + BitVec.ofNat 64 cyc }

/-- A pass of a multiplication: up to 16 segments. It takes the time of its slowest group, before whose end the engine
begins no other pass (R170). -/
def State.multiplyPass (s : State) (k : Stook) (e : MxEntry) (c : MxCmd) : State :=
  let hi := min (e.next + 16) c.segments
  let t := s.tile e.tag c.tile
  let fresh := c.zero && e.next == 0
  let p0 : Pass := { words := if fresh then List.replicate 16384 0 else t.dense, status := if fresh then 0 else t.status,
                     time := List.replicate 16 0, steps := 0, skips := 0, terms := 0, err := none }
  let p := (List.range (hi - e.next)).foldl (fun p i => s.mxSegment k c p (e.next + i)) p0
  let s := s.modTile e.tag c.tile fun t => { t with words := sparse p.words, status := p.status }
  let s := match p.err with | some t => s.mxRecord e.tag t | none => s
  let time := p.time.foldl max 0
  let ends := s.cycles e.die + time
  let s := (s.addBay e.die e.bay p.terms p.steps p.skips (time + Config.planTime s.free)).modBayCtr e.die e.bay fun x =>
    { x with busyTo := ends }
  { s with free := s.free + 1 }.modEntry e.seq fun e => { e with next := hi, stopped := p.err.isSome, endsAt := ends }

/-- A pass of a `LOAD`: up to 16 rows of 512 bytes; it clears the status word (R174). A row that cannot be read stops it
after the rows before, with the detail of that row's read (R173; log entry 146). -/
def State.loadPass (s : State) (k : Stook) (e : MxEntry) (c : MxCmd) : State :=
  let rows := (List.range 16).map fun i => s.mxBytes k c.sideA (c.sideA.at (e.next + i)) 512
  let good := rows.takeWhile fun r => match r with | .ok _ => true | .error _ => false
  let ws := good.flatMap fun r => match r with | .ok bs => wordsOf 128 (leNat bs) | .error _ => []
  let s := s.modTile e.tag c.tile fun t =>
    { t with words := sparse (overlayW t.dense (128 * e.next) ws), status := if e.next = 0 then 0 else t.status }
  let s := match rows[good.length]? with
    | some (.error t) => s.mxRecord e.tag t
    | _ => s
  let s := s.addBay e.die e.bay 0 0 0 (Config.planTime s.free)
  { s with free := s.free + 1 }.modEntry e.seq fun e =>
    { e with next := e.next + 16, stopped := decide (good.length < 16) }
where
  /-- Replaces words of a list from a position on. -/
  overlayW (ws : List Word) (pos : Nat) (new : List Word) : List Word :=
    ws.take pos ++ new ++ ws.drop (pos + new.length)

/-- The participant of a drain: the one entry that names the package, die and lowest core of the stook, with the checks
of R213: every entry is a destination word of `KIND` 1 without reserved bits (R210). -/
def State.drainPart (s : State) (k : Stook) (va : Nat) : Except Trap (Coll × Nat) :=
  match s.readColl k.job va 64 with
  | .error t => .error t
  | .ok (c, ok) =>
    let bad : Trap := (0x02, BitVec.ofNat 64 va)
    if !ok || !c.inLimits || c.opr == 3 || c.elems != 128 || c.nchunk != 128 || c.root.kind != 1 || c.root.reserved then
      .error bad
    else match s.translateOut k.job va (64 + 16 * c.npart) 1 rightR with
      | .error t => .error t
      | .ok _ =>
        let low := (k.cores.head?).getD 0
        let parts := (List.range c.npart).map (s.collPart k.job va)
        if parts.any fun p => p.kind != 1 || p.reserved then .error bad else
        let mine := (parts.zipIdx.filter fun p => p.1.pkg == s.pkg && p.1.die == k.die && p.1.core == low % 64).map (·.2)
        match mine with
        | [i] => .ok (c, i)
        | _ => .error bad

/-- A row's words converted, with the flags (R175). -/
def drainRow (conv : Nat) (ws : List Word) : List Byte × Flags :=
  if conv = 0 then (wordBytes ws, 0)
  else
    let rs := ws.map fun w => encodeF (if conv = 1 then bf16 else fp16) (f32V w) .rne
    (rs.flatMap fun r => leBytes 2 r.1, rs.foldl (fun m r => m ||| r.2) 0)

/-- A drained row goes to memory or scratchpad (R175); a lost line that it does not cover, or a retired key,
keeps it out and enters the record (R173, R251). -/
def State.drainTo (s : State) (k : Stook) (e : MxEntry) (d : MxDesc) (core m : Nat) (bs : List Byte) : State :=
  let a := d.side.at m
  if d.mode = 1 then
    let s := s.spadWrite e.tag d.side.share a bs
    if d.cribEn then s.credit e.tag d.crib bs.length else s
  else match s.translateOut k.job a bs.length 1 rightW with
    | .error t => s.mxRecord e.tag t
    | .ok (r, off) =>
      match r.peer with
      | some (pkg, x) =>
        (cut256 off bs.length).foldl (fun s p =>
          s.peerWrite (.drain e.seq) e.tag e.job core pkg x (off + p.1) ((bs.drop p.1).take p.2)) s
      | none => match s.lineChecks r true off bs.length a with
        | some t => s.mxRecord e.tag t
        | none => s.engineWrite e.tag (.range r off) bs .untagged

/-- A drained row goes to the collective as chunk m (R213). -/
def State.drainColl (s : State) (k : Stook) (e : MxEntry) (d : MxDesc) (c : Coll) (part core m : Nat) (ws : List Word) :
    State :=
  let us := c.contribute d.dest.toNat (16 * k.die + k.bay) m part ws none
  let f : FabReq := { id := s.nextId, op := 0, tag := e.tag, job := e.job, sheaf := e.sheaf, lanes := 0, core,
                      kind := .drain e.seq, left := us.map (·.piece), unsent := us, dep := ⟨e.tag, e.sheaf, 0, 0⟩,
                      relScope := none }
  ({ s.bump with fabReqs := s.fabReqs ++ [f] }).sendReq f

/-- A pass of a drain: up to 16 rows. -/
def State.drainPass (s : State) (k : Stook) (e : MxEntry) (d : MxDesc) (core : Nat) : State :=
  let t := s.tile e.tag d.tile
  let s := s.addBay e.die e.bay 0 0 0 (Config.planTime s.free)
  let s := { s with free := s.free + 1 }
  let rows := (List.range 16).map fun i => (e.next + i, t.row (e.next + i))
  let done (s : State) : State := s.modEntry e.seq fun e => { e with next := e.next + 16 }
  if d.mode = 2 then
    match s.drainPart k d.dest.toNat with
    | .error t => (s.mxRecord e.tag t).modEntry e.seq fun e => { e with stopped := true }
    | .ok (c, i) => done (rows.foldl (fun s r => s.drainColl k e d c i core r.1 r.2) s)
  else
    let s := rows.foldl (fun s r =>
      let (bs, f) := drainRow d.conv r.2
      let s := if f = 0 then s else s.modTile e.tag d.tile fun t => { t with status := t.status ||| f.zeroExtend 32 }
      s.drainTo k e d core r.1 bs) s
    done s

/-- Lines of a side from block j on, in peer ranges (R75). -/
def State.sideLines (s : State) (job : Nat) (d : MxSide) (j n : Nat) : List (RangeEnt × Nat) :=
  if d.spad then [] else (List.range 128).flatMap fun m => s.vaLines job (d.at m + 64 * j) n

/-- The lines of peer ranges that the next pass of an entry reads (R75). -/
def State.passLines (s : State) (k : Stook) (e : MxEntry) : List (RangeEnt × Nat) :=
  if !s.ranges.any fun r => r.owner == k.job && r.peer.isSome then [] else
  match e.work with
  | .command c =>
    if c.load then (List.range 16).flatMap fun i =>
      if c.asp then [] else s.vaLines k.job (c.sideA.at (e.next + i)) 512
    else (List.range (min 16 (c.segments - e.next))).flatMap fun i =>
      let at' := (e.next + i) * c.segLen
      s.sideLines k.job c.sideA (at' / mxCount c.ea) 64 ++ s.sideLines k.job c.sideB (at' / mxCount c.eb) 64
  | .drain d _ _ =>
    if d.mode = 2 then
      let head := s.vaLines k.job d.dest.toNat 64
      let there := head.all fun n => n.1.peer.isNone ||
        s.peerBuf.any fun p => p.who == e.seq && p.rng == n.1.idx && p.line == n.2
      let npart := match s.readColl k.job d.dest.toNat 64 with | .ok (c, _) => c.npart | .error _ => 0
      head ++ if there then s.vaLines k.job d.dest.toNat (64 + 16 * npart) else []
    else []

/-- `ENGINE_PASS`: once the pass before has run its time; operands in peer ranges are fetched first (R75, R163, R170; log
entry 23). -/
def execEnginePass (die bay : Nat) (s : State) : Out :=
  .next (if s.cycles die < (s.bayCtr die bay).busyTo then s else match s.arbiter die bay with
    | none => s
    | some e => match s.stook e.tag with
      | none => s
      | some k =>
        match s.gather e.seq e.job die (s.passLines k e) with
        | (false, s) => s
        | (true, s) =>
          let s := match e.work with
            | .command c => if c.load then s.loadPass k e c else s.multiplyPass k e c
            | .drain d _ core => s.drainPass k e d core
          s.used e.seq)

/-! ## Completion (R165, R170, R173, R175) -/

/-- The earliest entry of a bay that the test picks. -/
def State.mxFirst (s : State) (die bay : Nat) (p : MxEntry → Bool) : Option MxEntry :=
  ((s.mxEntries die bay).filter p).foldl (fun b e => match b with
    | none => some e
    | some x => if e.seq < x.seq then some e else some x) none

/-- An entry leaves the table. -/
def State.mxLeave (s : State) (e : MxEntry) : State := { s with mxTable := s.mxTable.filter (·.seq != e.seq) }

/-- A command has no pass left, and the time of its last one and the accumulation drain of 16 core cycles have passed
(R170); R170 gives a `LOAD` no time. -/
def State.commandEnds (s : State) (e : MxEntry) : Bool :=
  !e.left && match e.work with
    | .command c => c.load || decide (e.endsAt + 16 ≤ s.cycles e.die)
    | .drain .. => false

/-- `MATRIX_COMMAND_COMPLETE`: after the accumulation drain the counter and the crib advance (R165, R170). -/
def execMatrixCommandComplete (die bay : Nat) (s : State) : Out :=
  .next (match s.mxFirst die bay s.commandEnds with
    | none => s
    | some e => match e.work with
      | .drain .. => s
      | .command c =>
        let s := s.mxLeave e
        let s := if c.load then s else s.addBay die bay 0 0 0 16
        let s := s.addCounter e.job c.cntr c.incr
        if c.cribEn then s.cribUp e.tag c.crib (.arrive 1) else s)

/-- `DRAIN_COMPLETE`: every byte has been taken, and the status word sets out for `S[d]`; `CLR` clears the tile (R175), also
where a collective contributed nothing (R213; log entry 134). -/
def execDrainComplete (die bay : Nat) (s : State) : Out :=
  let ready (e : MxEntry) : Bool := !e.left && !(s.fabReqs.any (·.kind == .drain e.seq)) && match e.work with
    | .command _ => false
    | .drain .. => true
  .next (match s.mxFirst die bay ready with
    | none => s
    | some e => match e.work with
      | .command _ => s
      | .drain d dest _ =>
        let st := (s.tile e.tag d.tile).status
        let s := s.mxLeave e
        let r : Result := { id := s.nextId, op := e.op, tag := e.tag, sheaf := e.sheaf,
                            writes := if dest = 1023 then [] else [(dest, none, st)] }
        let s := { s.bump with results := s.results ++ [r] }
        if d.clr then s.modTile e.tag d.tile fun t => { t with words := [], status := 0 } else s)

/-! ## `ACQACC` and `RELACC` (R48, R49, R275, R341) -/

/-- An `ACQACC` of the stook waits. -/
def State.acqPending (s : State) (tag : Nat) : Bool :=
  s.holds.any fun h => h.tag == tag && match h.kind with | .acqAcc _ => true | _ => false

/-- `ACQACC` (R48). -/
def execAcqacc (c : Common) (f : A3) (s : State) : Out :=
  let body : Body := fun x s =>
    match s.stook x.tag with
    | none => s
    | some k =>
      if k.tiles ≠ 0 || s.acqPending x.tag then x.trap x.act (0x02, 0) s
      else x.hold (.acqAcc (mfield f.mod 0 4)) 0 s
  .next (issueWith (.acqacc c f) body s)

/-- The grant order of R48: priority, issue time, launch number, stook index. -/
def grantBefore (a b : Stook × Hold) : Bool :=
  let x := a.1
  let y := b.1
  if x.prio ≠ y.prio then decide (y.prio < x.prio)
  else if a.2.seq ≠ b.2.seq then decide (a.2.seq < b.2.seq)
  else if x.launch ≠ y.launch then decide (x.launch < y.launch)
  else if x.index ≠ y.index then decide (x.index < y.index)
  else decide (a.2.id < b.2.id)

/-- `ACQACC_GRANT`: all tiles or none, first in grant order (R48). -/
def execAcqaccGrant (id : Nat) (s : State) : Out :=
  .next (match s.holds.find? (·.id == id) with
    | none => s
    | some h => match h.kind, s.stook h.tag with
      | .acqAcc n, some k =>
        let here := s.stooks.filter fun x => x.die == k.die && x.bay == k.bay
        let rivals := s.holds.filterMap fun g => match g.kind with
          | .acqAcc _ => (here.find? (·.tag == g.tag)).map fun x => (x, g)
          | _ => none
        let first := rivals.all fun r => r.2.id == id || grantBefore (k, h) r
        let used := (here.map (·.tiles)).sum
        if !first || decide (8 < used + n) then s else
        let s := { s with tiles := s.tiles.filter (·.tag != h.tag) }
        (s.modStook h.tag fun k => { k with tiles := n }).release h
      | _, _ => s)

/-- `RELACC` (R49). -/
def execRelacc (c : Common) (f : A3) (s : State) : Out :=
  let body : Body := fun x s =>
    match s.stook x.tag with
    | none => s
    | some k =>
      match k.mxErr with
      | some t => x.mxRaise t s
      | none => if k.tiles = 0 then s else x.hold .relAcc 0 s
  .next (issueWith (.relacc c f) body s)

/-- `RELACC_COMPLETE`: no entry of the stook is left; the tiles go back, or the recorded cause is raised (R49, R341). -/
def execRelaccComplete (id : Nat) (s : State) : Out :=
  .next (match s.holds.find? (·.id == id) with
    | none => s
    | some h => match h.kind, s.stook h.tag with
      | .relAcc, some k =>
        if s.mxTable.any (·.tag == h.tag) then s else
        match k.mxErr with
        | some t => (s.modStook h.tag fun k => { k with mxErr := none }).holdTrap h t
        | none =>
          let s := { s with tiles := s.tiles.filter (·.tag != h.tag) }
          (s.modStook h.tag fun k => { k with tiles := 0 }).release h
      | _, _ => s)

end Sys2Proof.Machine
end

