-- ==== Sys2Proof/Machine/Special.lean ====
section
/-! DEFINITION. Special registers, `%ctl` and its way conversions, `RQRY` and `HYPSET` (R89, R90, R95, R96, R185, R186,
R219, R224, R270, R322 to R324). -/

namespace Sys2Proof.Machine
open Sys2Proof

/-! ## `MOVS` (R270, R322) -/

/-- `%cause` (R224). -/
def Thread.cause (t : Thread) : Nat :=
  let b (x : Bool) (i : Nat) : Nat := if x then 2 ^ i else 0
  b t.async 31 + b t.hact 30 + b t.rmode 29 + t.cloff.toNat * 256 + t.code.toNat

/-- `%ctl` of a core (R323). -/
def Core.ctl (c : Core) : Nat := c.spw * 16 + if c.chk then 1 else 0

/-- A special register of a lane of a sheaf (R270). -/
def State.special (s : State) (k : Stook) (h : Sheaf) (l : Nat) (t : Thread) (n : Nat) : Nat :=
  let die := h.core / 64
  let ctr := s.bayCtr k.die k.bay
  match n with
  | 0x000 => 32 * h.index + l
  | 0x001 => l
  | 0x002 => h.index
  | 0x003 => k.index
  | 0x004 => k.launch
  | 0x005 => k.nstook
  | 0x006 => 32 * k.nsheaf
  | 0x007 => die * 2 ^ 25 + h.core % 64 * 2 ^ 19
  | 0x008 => k.tag
  | 0x020 => s.cycles die
  | 0x021 => s.dtime
  | 0x030 => t.hyp.toNat
  | 0x031 => h.part
  | 0x032 => t.fflags.toNat
  | 0x033 => t.bcur
  | 0x034 => (s.core h.core).ctl
  | 0x035 => ((s.job k.job).map (·.replay.toNat)).getD 0
  | 0x040 => t.epc.toNat
  | 0x041 => t.cause
  | 0x042 => t.fault.toNat
  | 0x043 => t.svarea.toNat
  | 0x050 => ctr.terms.toNat
  | 0x051 => ctr.ksteps.toNat
  | 0x052 => ctr.kskips.toNat
  | 0x053 => ctr.mxcyc.toNat
  | n => if 0x010 ≤ n ∧ n ≤ 0x017 then ((k.lparams[n - 0x010]?).map (·.toNat)).getD 0 else 0

/-- `MOVS` (R322). -/
def execMovs (c : Common) (f : SF) (s : State) : Out :=
  let w := ((specInfo f.spec.toNat).map (·.1)).getD 1
  .next (issueWith (.movs c f) (fun x s =>
    fixedBody f.d w (fun s h l =>
      match s.stook x.tag, h.threads[l]? with
      | some k, some t => (s.special k h l t f.spec.toNat, 0)
      | _, _ => (0, 0)) x s) s)

/-! ## `%ctl` and way conversions (R95, R96, R324) -/

/-- Scratchpad bytes of a core that resident stooks hold: their shares, and the cribs on a stook's lowest core (R44). -/
def State.spadBytes (s : State) (core : Nat) : Nat :=
  ((s.stooks.filter (·.cores.contains core)).map fun k =>
    k.share + if k.cores.head? == some core then 16 * k.cribs.length else 0).sum

/-- The ways of a core that resident stooks hold scratchpad in. -/
def State.spadWays (s : State) (core : Nat) : Nat := (s.spadBytes core + 65535) / 65536

/-- The `spw` that the conversions under way on a core leave (R324). -/
def Core.wanted (c : Core) : Nat := ((c.convs.getLast?).map (·.spw)).getD c.spw

/-- A stook waits for a core to convert ways for it: its placement or a raise of it is queued there, anything but a lowering
of what the entry before it leaves (R96, R324). -/
def Core.converts (c : Core) (tag : Nat) : Bool :=
  ((c.spw :: c.convs.map (·.spw)).zip c.convs).any fun p => p.2.tag == tag && decide (p.1 ≤ p.2.spw)

/-- `MOVSW %ctl`: both fields at once, or 0x02 and neither; a larger `spw` holds the bundle in its slot,
at the `MOVSW`, and the stook (R57, R66, R96, R324). -/
def ctlBody (f : SF) : Body := fun c s =>
  match c.sh s with
  | none => s
  | some h =>
    let v := c.uni s f.a 1
    let spw := natBits v 4 4
    let want := (s.core h.core).wanted
    if spw > 11 ∨ (spw < want ∧ spw < s.spadWays h.core) then c.trap c.act (0x02, 0) s
    else
      let s := s.modCore h.core fun x =>
        { x with chkOld := s.checking h.core, chkAt := s.cycles (h.core / 64), chk := v % 2 == 1 }
      if spw = want then s
      else if spw < want then
        s.modCore h.core fun x =>
          if x.convs.isEmpty then { x with spw := spw } else { x with convs := x.convs ++ [⟨spw, none, c.tag⟩] }
      else
        let s := c.modBundle (fun b => { b with deferred := true }) s
        let s := s.modStook c.tag fun k => { k with frozen := true }
        s.modCore h.core fun x => { x with convs := x.convs ++ [⟨spw, some (c.slot, c.i.common), c.tag⟩] }

/-- The core's oldest conversion has emptied its ways: the lines they held have gone as replacement takes them (R102),
the new ways read zero as scratchpad, and the bundle and its stook go on (R96). Which lines lay in the ways is not
architected. -/
def execSpwConversionComplete (core : Nat) (lines : List (Nat × Nat)) (s : State) : Out :=
  .next (match (s.core core).convs with
    | [] => s
    | v :: rest =>
      let hit (x : CacheLine) : Bool := x.unit == core && lines.contains (x.rng, x.line)
      let grow := decide ((s.core core).spw < v.spw)
      let s := if grow then (s.l1.filter hit).foldl State.mergeL2 s else s
      let s := if grow then { s with l1 := s.l1.filter (!hit ·) } else s
      let ok := grow || decide (s.spadWays core ≤ v.spw)
      let s := s.modCore core fun x => { x with spw := if ok then v.spw else x.spw, convs := rest }
      let s := if s.cores.any (·.converts v.tag) then s else s.modStook v.tag fun k => { k with frozen := false }
      match v.hold, v.hold.bind fun x => s.slot core x.1 with
      | some (slot, com), some b =>
        let s := { s.setSlot core slot (some { b with deferred := false }) with cur := (core, slot) }
        finishIssue com (match s.stook v.tag with | some k => s.retire k.job | none => s)
      | _, _ => s)

/-! ## `MOVSW` (R224, R322) -/

/-- `MOVSW` to a register of the thread: `%fflags`, or `%epc` under R224. -/
def threadBody (f : SF) : Body := fun c s =>
  match c.sh s with
  | none => s
  | some h =>
    (lanesOf c.act).foldl (fun s l =>
      match h.threads[l]? with
      | none => s
      | some t =>
        if f.spec = 0x032 then
          s.modThread c.tag c.sheaf l fun t => { t with fflags := BitVec.ofNat 5 (s.rd h l f.a 1) }
        else
          let v := s.rd h l f.a 2
          if !(t.hact || t.rmode) || v % 8 != 0 then c.trap (1#32 <<< l) (0x02, 0) s
          else s.modThread c.tag c.sheaf l fun t => { t with epc := BitVec.ofNat 64 v, cloff := 0 }) s

/-- `MOVSW` (R322). -/
def execMovsw (c : Common) (f : SF) (s : State) : Out :=
  .next (issueWith (.movsw c f) (if f.spec = 0x034 then ctlBody f else threadBody f) s)

/-! ## `RQRY` (R89, R90) -/

/-- The info word of a range (R89). -/
def State.rangeInfo (e : RangeEnt) : Nat :=
  let b (x : Bool) (i : Nat) : Nat := if x then 2 ^ i else 0
  let cls := match e.cls with | .sh => 0 | .ph => 1 | .ro => 2
  2 ^ 31 + b (e.move != .none) 30 + b e.anyLost 29 + b (e.place.tier == 1) 28 + cls * 2 ^ 26 + b e.hyp 25 + b e.par 24 +
    e.rights.toNat

/-- One item of the range of a job that contains a VA, zero where there is none (R89). -/
def State.rangeItem (s : State) (job va item : Nat) : Nat :=
  match s.findRange job va with
  | none => 0
  | some e => match item with | 0 => e.base | 1 => e.limit | 2 => State.rangeInfo e | _ => e.idx

/-- `RQRY` (R89, R90). -/
def execRqry (c : Common) (f : SF) (s : State) : Out :=
  let item := f.spec.toNat
  let body : Body := fun x s =>
    match x.sh s, s.stook x.tag with
    | some h, some k =>
      let n := if item ≤ 1 then 2 else 1
      let rs := (x.runs f.d).flatMap fun l => regWrites f.d l n (s.rangeItem k.job (s.rd h l f.a 2) item)
      let op := s.nextId
      x.deliver op rs (x.openOp 1 s)
    | _, _ => s
  .next (issueWith (.rqry c f) body s)

/-! ## `HYPSET` (R186) -/

/-- `HYPSET`. -/
def execHypset (c : Common) (f : A3) (s : State) : Out :=
  let body : Body := fun x s =>
    match x.sh s, s.stook x.tag with
    | some h, some k =>
      (lanesOf x.act).foldl (fun s l =>
        let p := BitVec.ofNat 32 (s.rd h l f.a 1)
        let a := s.arbor k.job
        if !pathOk p then x.trap (1#32 <<< l) (0x02, p.zeroExtend 64) s
        else if p != 0 && a.isNone then x.trap (1#32 <<< l) (0x22, p.zeroExtend 64) s
        else
          let dead := match a with | some a => a.state p == .refuted | none => false
          let s := s.modThread x.tag x.sheaf l fun t => { t with hyp := p, orphan := dead }
          if dead then s.post x.tag x.sheaf l 0x23 (p.zeroExtend 64) else s) s
    | _, _ => s
  .next (issueWith (.hypset c f) body s)

end Sys2Proof.Machine
end

