-- ==== Sys2Proof/Machine/Launch.lean ====
section
/-! DEFINITION. `LAUNCH` and `CANCEL`, the launch unit's order, placement and completion, and handler stooks (R33 to R46,
R50, R206, R289, R311, R312). -/

namespace Sys2Proof.Machine
open Sys2Proof

/-! ## Launch records (R36) -/

/-- A launch record. `reserved` where a reserved bit is set; intervals as their first and last granule (R40). -/
structure LaunchRec where
  kh : Nat
  nstook : Nat
  pend : Bool
  gend : Bool
  prio : Nat
  nsheaf : Nat
  scnt : Nat
  lcnt : Nat
  lparams : List Word
  deps : List Nat
  reads : List (Nat × Nat)
  writes : List (Nat × Nat)
  reserved : Bool
  deriving DecidableEq, Repr

/-- A record from its 384 bytes. -/
def LaunchRec.ofBytes (bs : List Byte) : LaunchRec :=
  let x := leNat bs
  let f (byte lo n : Nat) : Nat := natBits x (8 * byte + lo) n
  let eight := List.range 8
  let iv (base : Nat) : List (Nat × Nat) := eight.filterMap fun i =>
    let va := f (base + 16 * i) 0 64
    let len := f (base + 16 * i + 8) 0 48
    if len = 0 then none else some (va / 256, (va + len - 1) / 256)
  { kh := f 0 0 64, nstook := f 8 0 32, pend := f 0xC 17 1 == 1, gend := f 0xC 16 1 == 1, prio := f 0xC 8 3,
    nsheaf := f 0xC 0 7, scnt := f 0x10 0 64, lcnt := f 0x18 0 64,
    lparams := eight.map fun i => BitVec.ofNat 32 (f (0x20 + 4 * i) 0 32),
    deps := (List.range 4).map fun i => f (0x40 + 2 * i) 0 12, reads := iv 0x80, writes := iv 0x100,
    reserved := f 0xC 18 14 != 0 || f 0xC 11 5 != 0 || f 0xC 7 1 != 0 ||
      (List.range 4).any (fun i => f (0x40 + 2 * i) 12 4 != 0) || f 0x48 0 448 != 0 ||
      eight.any (fun i => f (0x88 + 16 * i) 48 16 != 0 || f (0x108 + 16 * i) 48 16 != 0) }

/-- Step 2 of R37: the record breaks a rule. -/
def LaunchRec.bad (r : LaunchRec) (root : Bool) : Bool :=
  r.reserved || r.nstook == 0 || decide (r.nstook > 16777216) || r.nsheaf == 0 || decide (r.nsheaf > 64) ||
    (r.pend && !r.gend) || (r.gend && !root) || r.kh % 128 != 0

/-- Steps 2 and 3 of R37. -/
def State.recordCheck (s : State) (job : Nat) (r : LaunchRec) (root : Bool) : Option Trap :=
  if r.bad root then some (0x02, 0)
  else
    let chk (va : Nat) : Option Trap := if va = 0 then none else s.checkCounter job va
    match chk r.scnt with
    | some t => some t
    | none => chk r.lcnt

/-! ## Completion (R43, R35) -/

/-- Changes a launch of a job. -/
def State.modLaunch (s : State) (job no : Nat) (f : Launch → Launch) : State :=
  s.modJob job fun j => { j with launches := modWhere (·.no == no) f j.launches }

/-- Every stook of a launch has completed or been removed. -/
def Launch.allDone (l : Launch) : Bool :=
  l.finished == l.started.length && (l.removedAll || l.started.length + l.removed.length == l.nstook)

/-- Step 2 of R43 for each launch that is ready for it. -/
def State.completeLaunches (s : State) (job : Nat) : State :=
  match s.job job with
  | none => s
  | some j => (j.launches.filter fun l => !l.complete && l.allDone).foldl (fun s l =>
      (s.modLaunch job l.no fun l => { l with complete := true }).addCounter job l.lcnt 1) s

/-- The cores that hold something of a job. -/
def State.coresOfJob (s : State) (job : Nat) : List Nat :=
  ((s.l1.filter (·.job == job)).map (·.unit) ++ (s.l2.filter (·.job == job)).flatMap (fun c => 64 * c.unit :: c.writers) ++
    (s.code.filter (·.job == job)).map (·.core)).eraseDups

/-- Step 4 of R43: job-wide `PUBLISH.sys` and `REFRESH.sys`, `GRAPHMARK` := `GRAPHCNT`, `PHASECNT` + 1; with the counts of
the launch unit. -/
def State.endPhase (s : State) (j : Job) (c : JobCounters) : JobCounters × State :=
  let cores := s.coresOfJob j.id
  let s := cores.foldl (fun s c => s.publish c j.id 3) s
  let s := cores.foldl (fun s c => s.refresh c j.id 3) s
  let mark := s.blockWord j.id (j.block + 0x10) c.graph
  ({ c with mark := mark, phase := c.phase + 1 },
    (s.writeVa j.id (j.block + 0x18) (leBytes 8 mark)).addCounter j.id (j.block + 8) 1)

/-- Steps 3 and 4 of R43, in the order of the graphs. -/
def State.completeGraphs (s : State) (job : Nat) : Nat → State
  | 0 => s
  | n + 1 =>
    match s.job job with
    | none => s
    | some j => match j.graphs with
      | [] => s
      | g :: rest =>
        let mine := j.launches.filter (·.graph == g.no)
        if !g.closed || mine.any (!·.complete) then s else
        let s := s.addCounter job (j.block + 0x10) 1
        let c := { j.counters with graph := j.counters.graph + 1 }
        let (c, s) := if g.pend then s.endPhase j c else (c, s)
        let s := s.modJob job fun j =>
          { j with counters := c, graphs := rest, launches := j.launches.filter (·.graph != g.no) }
        s.completeGraphs job n

/-- The job ends: its root stook has exited and nothing of it remains (R35). -/
def State.endJob (s : State) (job : Nat) : State :=
  match s.job job with
  | none => s
  | some j =>
    let active (m : Msg) : Bool := m.job == job && m.accepted && match m.kind with | .active .. => true | _ => false
    let busy := j.launches.any (!·.complete) || s.stooks.any (·.job == job) || s.saved.any (·.job == job) ||
      s.msgs.any active
    if j.ended || j.root != .exited || busy then s
    else (s.modJob job fun j => { j with ended := true }).addCounter job j.block 1

/-- The launch unit completes what can complete. -/
def State.progress (s : State) (job : Nat) : State :=
  let n := ((s.job job).map (·.graphs.length)).getD 0
  ((s.completeLaunches job).completeGraphs job n).endJob job

/-! ## `CANCEL` (R50, R289) -/

/-- Cause 0x51 to every thread of the stooks that the test picks. -/
def State.postCancel (s : State) (level : Nat) (p : Stook → Bool) : State :=
  (s.stooks.filter p).foldl (fun s k =>
    (s.sheaves.filter (·.tag == k.tag)).foldl (fun s h =>
      (List.range 32).foldl (fun s l => s.post k.tag h.index l 0x51 (BitVec.ofNat 64 level)) s) s) s

/-- Saved stooks that the test picks are removed, as stooks that have not started (R236). How many. -/
def State.dropSaved (s : State) (p : SavedStook → Bool) : Nat × State :=
  ((s.saved.filter p).length, { s with saved := s.saved.filter (!p ·) })

/-- Cancels one launch: its unstarted and saved stooks are removed and counted, 0x51 is posted, and it is marked (R50). -/
def State.cancelLaunch (s : State) (job level no : Nat) : State :=
  match (s.job job).bind fun j => (j.launches.find? (·.no == no)).map fun l => (j, l) with
  | none => s
  | some (j, l) =>
    if l.complete then s else
    let fresh := if l.removedAll then 0 else l.nstook - l.started.length - l.removed.length
    let (n, s) := s.dropSaved fun k => k.job == job && k.launch == no && k.kind == .launch
    let s := s.addCounter job l.scnt (fresh + n)
    let s := if l.cancelled then s else s.addCounter job (j.block + 0x20) 1
    let s := s.modLaunch job no fun l => { l with removedAll := true, cancelled := true, finished := l.finished + n }
    s.postCancel level fun k => k.job == job && k.launch == no && k.kind == .launch

/-- Cancels one stook of a launch (R50). -/
def State.cancelStook (s : State) (job no i : Nat) : State :=
  match (s.job job).bind fun j => j.launches.find? (·.no == no) with
  | none => s
  | some l =>
    if no = 0 ∨ l.complete ∨ l.nstook ≤ i ∨ l.removedAll ∧ !l.started.contains i ∨ l.removed.contains i then s
    else if !l.started.contains i then
      (s.modLaunch job no fun l => { l with removed := i :: l.removed }).addCounter job l.scnt 1
    else
      let (n, s) := s.dropSaved fun k => k.job == job && k.launch == no && k.index == i && k.kind == .launch
      let s := (s.modLaunch job no fun l => { l with finished := l.finished + n }).addCounter job l.scnt n
      s.postCancel 0 fun k => k.job == job && k.launch == no && k.index == i && k.kind == .launch

/-- Cancels every launch of a graph. -/
def State.cancelGraph (s : State) (job level : Nat) (g : Graph) : State :=
  let s := s.modJob job fun j =>
    { j with graphs := modWhere (·.no == g.no) (fun g => { g with cancelled := true }) j.graphs }
  match s.job job with
  | none => s
  | some j => ((j.launches.filter (·.graph == g.no)).map (·.no)).foldl (fun s n => s.cancelLaunch job level n) s

/-- Saved root and handler stooks of a cancelled job are removed with it. -/
def State.cancelSavedOthers (s : State) (job : Nat) : State :=
  let mine := s.saved.filter fun k => k.job == job && k.kind != .launch
  let s := { s with saved := s.saved.filter fun k => !(k.job == job && k.kind != .launch) }
  mine.foldl (fun s k => match k.kind with
    | .root => s.modJob job fun j => { j with root := .exited }
    | .handler m => (match s.msgs.find? (·.id == m) with | some m => s.consume m | none => s)
    | .launch => s) s

/-- The root stook of a cancelled job and the handler stooks of its accepted messages that have not started never do. -/
def State.cancelUnstarted (s : State) (job : Nat) : State :=
  let s := s.modJob job fun j => if j.root = .waiting then { j with root := .exited } else j
  let idle (m : Msg) : Bool := m.job == job && m.accepted && (match m.kind with | .active .. => true | _ => false) &&
    !s.stooks.any (·.kind == .handler m.id)
  (s.msgs.filter idle).foldl State.consume s

/-- Cancels one unit of a job (R50). A graph or phase goes by its number in the order of R43, so that `GRAPHCNT` + 1 names
the oldest graph that has not completed (log entry 66). -/
def State.cancel (s : State) (job level x y : Nat) : State :=
  match s.job job with
  | none => s
  | some j =>
    let marked : State := match level with
      | 0 => s.cancelStook job y x
      | 1 => s.cancelLaunch job 1 x
      | 2 => (j.graphs.filter fun (g : Graph) => g.no == x).foldl (fun (s : State) g => s.cancelGraph job 2 g) s
      | 3 =>
        let s := (j.graphs.filter fun (g : Graph) => g.phase == x).foldl (fun (s : State) g => s.cancelGraph job 3 g) s
        if x = j.phaseNo then s.modJob job fun (j : Job) => { j with phaseCancelled := true } else s
      | _ =>
        let s := (j.launches.map Launch.no).foldl (fun (s : State) n => s.cancelLaunch job 4 n) s
        let s := (s.cancelSavedOthers job).cancelUnstarted job
        s.postCancel 4 fun (k : Stook) => k.job == job && k.kind != StookKind.launch
    marked.progress job

/-- `CANCEL` (R50). -/
def execCancel (c : Common) (f : A3) (s : State) : Out :=
  let body : Body := fun x s =>
    match s.stook x.tag with
    | none => s
    | some k =>
      let v := x.uni s f.a 2
      s.cancel k.job (mfield f.mod 0 3) (v % 2 ^ 32) (v / 2 ^ 32)
  .next (issueWith (.cancel c f) body s)

/-! ## `LAUNCH` (R37, R39, R311) -/

/-- Launches of a job that hold a queue entry (R37, step 4). -/
def Job.queued (j : Job) : Nat := (j.launches.filter (!·.complete)).length

/-- The graph that a launch of a stook joins (R39). -/
def Job.graphOf (j : Job) (k : Stook) : Graph :=
  let open' := (j.graphs.getLast?).getD ⟨0, false, false, false, 0⟩
  match k.kind with
  | .launch => ((j.launches.find? (·.no == k.launch)).bind fun l => j.graphs.find? (·.no == l.graph)).getD open'
  | _ => open'

/-- `GEND` closes the open graph, `PEND` its phase; the marks of a `CANCEL` end there (R39, R50). -/
def Job.closeGraph (j : Job) (pend : Bool) : Job :=
  match j.graphs.getLast? with
  | none => j
  | some g =>
    let closed := { g with closed := true, pend := pend, cancelled := false }
    let mark := if pend then false else j.phaseCancelled
    let phase := if pend then j.phaseNo + 1 else j.phaseNo
    { j with graphs := j.graphs.dropLast ++ [closed, ⟨g.no + 1, false, false, mark, phase⟩], phaseNo := phase,
             phaseCancelled := mark }

/-- Step 6 of R37: the launch is queued under the next number. -/
def State.acceptLaunch (s : State) (k : Stook) (r : LaunchRec) (kh : KHdr) : Nat × State :=
  match s.job k.job with
  | none => (0, s)
  | some j =>
    let n := j.nextLaunch
    let g := j.graphOf k
    let l : Launch := { no := n, accepted := s.nextId, graph := g.no, kh, nstook := r.nstook, nsheaf := r.nsheaf,
                        prio := r.prio, scnt := r.scnt, lcnt := r.lcnt, lparams := r.lparams, deps := r.deps,
                        reads := r.reads, writes := r.writes, issuer := k.launch, started := [], removed := [],
                        removedAll := false, finished := 0, cancelled := false, complete := false,
                        afterPhase := j.graphs.any fun x => x.closed && x.pend && decide (x.no < g.no) }
    let s := s.bump.modJob j.id fun j =>
      { j with nextLaunch := if n + 1 = 2 ^ 32 then 1 else n + 1, launches := j.launches ++ [l] }
    let s := if g.cancelled then s.cancelLaunch j.id 2 n else s
    let s := if r.gend then s.modJob j.id fun j => j.closeGraph r.pend else s
    (n, s.progress j.id)

/-- Steps 5 and 6 of R37: a launch number, or 0 and one more `REFUSED`; a refused record's `GEND` and `PEND` close nothing
(log entry 113). -/
def State.launchOutcome (s : State) (k : Stook) (dest op : Nat) (r : LaunchRec) : State :=
  let accepted := (s.readHeader k.job r.kh).bind fun h => if s.headerRefused h then none else some h
  match accepted with
  | some kh =>
    let (n, s) := s.acceptLaunch k r kh
    s.deliverOp op [(dest, none, BitVec.ofNat 32 n)]
  | none =>
    let s := match s.job k.job with | some j => s.addCounter j.id (j.block + 0x28) 1 | none => s
    s.deliverOp op [(dest, none, 0)]

/-- `LAUNCH`: the bundle is held until steps 1 to 3 are decided (R37, R364). -/
def execLaunch (c : Common) (f : MF) (s : State) : Out :=
  let body : Body := fun x s =>
    x.deferWords (wordsOf 2 (vaPlus (BitVec.ofNat 64 (x.uni s f.addr 2)) f.off.toInt)) s
  .next (issueWith (.launch c f) body s)

/-- The issue of a deferred instruction, as its bundle stands. -/
def Deferred.ctx (d : Deferred) (s : State) : Ctx :=
  let lanes := ((s.slot d.core d.slot).bind fun b => (b.parts.find? (·.sheaf == d.sheaf)).map (·.lanes)).getD d.active
  { core := d.core, slot := d.slot, tag := d.tag, sheaf := d.sheaf, pc := d.pc, clause := d.clause, last := false, lanes,
    act := d.active, i := d.instr }

/-- The address of a deferred `LAUNCH`'s record. -/
def Deferred.recordVa (d : Deferred) : Nat := leNat (wordBytes (d.words.flatMap (·.2)))

/-- The lines of peer ranges that a launch record and its kernel header lie in, as far as they are known (R75). -/
def State.launchLines (s : State) (d : Deferred) : List (RangeEnt × Nat) :=
  match s.stook d.tag with
  | none => []
  | some k =>
    let va := d.recordVa
    let rec' := s.vaLines k.job va 384
    match s.translate k.job va 384 64 rightR with
    | .ok (e, off) =>
      if s.hasLines d.op rec' then rec' ++ s.vaLines k.job (LaunchRec.ofBytes (s.homeReadN e off 384)).kh 128 else rec'
    | .error _ => []

/-- Steps 1 to 4 of R37: `PUBLISH.dev`, the record and its checks; a record that cannot be read at its home gives the cause
of that read (R104, R251); a full queue holds the bundle (R312). -/
def decideLaunch (d : Deferred) (f : MF) (s : State) : State :=
  match s.stook d.tag, s.sheaf d.tag d.sheaf with
  | some k, some h =>
    let va := d.recordVa
    let s := s.publish h.core k.job 2
    let x := d.ctx s
    let w := BitVec.ofNat 64 va
    match s.translateOut k.job va 384 64 rightR with
    | .error t => s.deferTrap d t
    | .ok (e, off) =>
      match s.lineChecks e false off 384 va with
      | some t => s.deferTrap d t
      | none =>
      let bs := s.homeReadN e off 384
      let r := LaunchRec.ofBytes bs
      match s.recordCheck k.job r (k.kind == .root) with
      | some t => s.deferTrap d t
      | none =>
        if x.mixed s then s.deferTrap d (0x22, w)
        else if ((s.job k.job).map (·.queued)).getD 0 ≥ 4096 then x.hold (.launchQ f.d.num bs) d.op s
        else s.launchOutcome k f.d.num d.op r
  | _, _ => s

/-- `LAUNCH_QUEUE_ENTRY_GRANT`: the job's oldest waiting `LAUNCH` goes on (R37, step 4). -/
def execLaunchQueueEntryGrant (id : Nat) (s : State) : Out :=
  .next (match s.holdJob id with
    | none => s
    | some (h, job) => match h.kind, s.stook h.tag with
      | .launchQ dest bs, some k =>
        let older := s.holds.any fun g => decide (g.id < h.id) && ((s.stook g.tag).map (·.job)) == some job &&
          match g.kind with | .launchQ .. => true | _ => false
        if older || decide (((s.job job).map (·.queued)).getD 0 ≥ 4096) then s
        else
          let r := LaunchRec.ofBytes bs
          match s.gather h.op job (h.core / 64) (s.vaLines job r.kh 128) with
          | (false, s) => s
          | (true, s) => ((s.launchOutcome k dest h.op r).used h.op).release h
      | _, _ => s)

/-! ## Order (R40, R41) -/

/-- Two granule intervals meet. -/
def meets (a b : Nat × Nat) : Bool := decide (a.1 ≤ b.2) && decide (b.1 ≤ a.2)

/-- A later launch conflicts with an earlier one (R40). -/
def Launch.conflicts (l e : Launch) : Bool :=
  let any (xs ys : List (Nat × Nat)) : Bool := xs.any fun x => ys.any (meets x)
  any e.writes l.reads || any e.reads l.writes || any e.writes l.writes

/-- A launch may start stooks (R41). -/
def Job.mayStart (j : Job) (l : Launch) : Bool :=
  let graph := j.launches.filter (·.graph == l.graph)
  let before := graph.takeWhile (·.no != l.no)
  let n := before.length
  before.all (fun e => e.complete || e.no == l.issuer || !l.conflicts e) &&
    l.deps.all (fun d => d == 0 || decide (n < d) || ((before[n - d]?).map (·.complete)).getD true) &&
    (j.graphs.head?).map (·.no) == some l.graph

/-! ## Placement (R44, R45) -/

/-- Room on a core: its number, free sheaf slots and free register bytes. -/
structure Room where
  core : Nat
  slots : Nat
  bytes : Nat

/-- The room of a core: 64 sheaves, 512 KiB of vector registers (R32, R45). -/
def State.room (s : State) (core : Nat) : Room :=
  ⟨core, 64 - (s.sheaves.filter (·.core == core)).length, 524288 - s.regBytes core⟩

/-- Fills cores in order with sheaves of the given allotments, sheaf 0 first: the core of each (R44). -/
def fillCores (rooms : List Room) (vregs : List Nat) : Option (List Nat) :=
  (vregs.foldl (fun acc v => acc.bind fun (rs, homes) =>
    match rs.dropWhile fun r => r.slots == 0 || decide (r.bytes < 128 * v) with
    | [] => none
    | r :: rest => some ({ r with slots := r.slots - 1, bytes := r.bytes - 128 * v } :: rest, homes ++ [r.core]))
    (some (rooms, []))).map (·.2)

/-- The sets of c of a bay's four cores. -/
def coreSets (die bay c : Nat) : List (List Nat) :=
  ((List.range 16).map fun m => (List.range 4).filter fun i => m / 2 ^ i % 2 == 1).filterMap fun l =>
    if l.length = c then some (l.map fun i => 64 * die + 4 * bay + i) else none

/-- A set of cores can take a stook: its shares and cribs, and its sheaves, by core. -/
def State.fitsOn (s : State) (cores : List Nat) (kh : KHdr) (vregs : List Nat) : Option (List Nat × List Nat) :=
  let share := shareOf kh.spad cores.length
  let spad := cores.zipIdx.all fun p =>
    decide (s.spadBytes p.1 + share + (if p.2 = 0 then 16 * kh.ncrib else 0) ≤ 11 * 65536)
  if spad then (fillCores (cores.map s.room) vregs).map fun h => (cores, h) else none

/-- The cores a stook takes on a bay: the fewest that hold it; among equals the launch unit is free (R44, R45). -/
def State.placeOn (s : State) (die bay : Nat) (kh : KHdr) (vregs : List Nat) : Option (List Nat × List Nat) :=
  if 8 ≤ die ∨ 16 ≤ bay then none else
  let sets := (List.range 4).map fun i => (coreSets die bay (i + 1)).filterMap fun cs => s.fitsOn cs kh vregs
  match sets.find? (!·.isEmpty) with
  | none => none
  | some l => l[Config.planTime s.free % l.length]?

/-- A residence tag that no resident stook has, nor what a saved one has left running (R200). -/
def State.tagFree (s : State) (tag : Nat) : Bool :=
  decide (1 ≤ tag) && decide (tag < 2 ^ 32) && !s.stooks.any (fun k => k.tag == tag || k.olds.contains tag) &&
    !s.saved.any (fun k => k.tag == tag || k.olds.contains tag) && !s.copies.any (·.tag == tag) &&
    !s.followOns.any (·.tag == tag)

/-- A stook as the launch unit places it: cleared (R46, R108). A restored one has no matrix error record either (log entry
116). -/
def State.newStook (s : State) (tag job : Nat) (kind : StookKind) (launch index nstook nsheaf prio die bay : Nat)
    (cores : List Nat) (kh : KHdr) (lparams : List Word) : Stook :=
  { tag, job, kind, launch, index, nstook, nsheaf, prio, die, bay, cores, share := shareOf kh.spad cores.length, spad := [],
    cribs := List.replicate kh.ncrib ⟨s.cycles die, 0, 0, 0, 0, 0⟩, cribUps := [], kh, lparams, tiles := 0, mxErr := none,
    bars := List.replicate 16 0, pre := none, restore := none, frozen := false, placedAt := s.nextId, olds := [] }

/-- Puts a stook on its cores: sheaves, way conversions it waits for (R44, R96), and the refresh of each core (R42). -/
def State.putStook (s : State) (k : Stook) (vregs homes : List Nat) (scope : Nat) : State :=
  let hs := (vregs.zip homes).zipIdx.map fun p => Sheaf.fresh k.tag p.2 p.1.2 p.1.1 k.kh.entry
  let s : State := { s.bump with stooks := s.stooks ++ [k], sheaves := s.sheaves ++ hs, free := s.free + 1 }
  let short := k.cores.filter fun (c : Nat) => decide ((s.core c).spw < s.spadWays c)
  let s := short.foldl (fun (s : State) (c : Nat) =>
    let need := max (s.spadWays c) (s.core c).wanted
    s.modCore c fun x => { x with convs := x.convs ++ [⟨need, none, k.tag⟩] }) s
  let s := s.modStook k.tag fun k => { k with frozen := !short.isEmpty }
  k.cores.foldl (fun s c => s.refresh c k.job scope) s

/-- Starts a job's root stook, of one sheaf, with launch number 0 and launch parameters of zeroes (R35, R38; log entry
127). -/
def State.startRoot (s : State) (j : Job) (die bay tag : Nat) : State :=
  match j.rootKh with
  | none => s
  | some kh =>
    let vregs := [kh.vregs]
    if j.root != .waiting || !j.started || j.ended || !s.tagFree tag then s else
    match s.placeOn die bay kh vregs with
    | none => s
    | some (cores, homes) =>
      let k := s.newStook tag j.id .root 0 0 1 1 0 die bay cores kh (List.replicate 8 0)
      (s.putStook k vregs homes 2).modJob j.id fun j => { j with root := .running, lastRetire := s.now }

/-- A launch has a stook to start, and may start it now (R41). -/
def Job.startable (j : Job) (l : Launch) : Bool :=
  !l.removedAll && decide (l.started.length + l.removed.length < l.nstook) && j.mayStart l

/-- Some bay can take a stook of a launch now (R44). -/
def State.bayFor (s : State) (l : Launch) : Bool :=
  (List.range 128).any fun b => (s.placeOn (b / 16) (b % 16) l.kh (List.replicate l.nsheaf l.kh.vregs)).isSome

/-- A launch comes before another in the order of R45: by `PRIO`, then by acceptance. -/
def Launch.ahead (e l : Launch) : Bool :=
  decide (l.prio < e.prio) || (e.prio == l.prio && decide (e.accepted < l.accepted))

/-- The launch is first in the order of R45 among those that may start a stook and find a bay. -/
def State.firstReady (s : State) (l : Launch) : Bool :=
  !s.jobs.any fun i => i.launches.any fun e => e.ahead l && i.startable e && s.bayFor e

/-- `STOOK_START`: one stook of a launch that may start and is first in the order, or the root stook of launch 0, on a bay
(R41, R42, R44, R45). -/
def execStookStart (job launch stook die bay tag : Nat) (s : State) : Out :=
  .next (match s.job job with
    | none => s
    | some j =>
      if launch = 0 then s.startRoot j die bay tag else
      match j.launches.find? (·.no == launch) with
      | none => s
      | some l =>
        if l.removedAll || l.removed.contains stook || l.started.contains stook || decide (l.nstook ≤ stook) ||
            !j.mayStart l || !s.tagFree tag || !s.firstReady l then s else
        let vregs := List.replicate l.nsheaf l.kh.vregs
        match s.placeOn die bay l.kh vregs with
        | none => s
        | some (cores, homes) =>
          let k := s.newStook tag job .launch launch stook l.nstook l.nsheaf l.prio die bay cores l.kh l.lparams
          (s.putStook k vregs homes (if l.afterPhase then 3 else 2)).modLaunch job launch fun l =>
            { l with started := stook :: l.started })

/-- `HANDLER_STOOK_START`: the one-sheaf stook of an accepted active message (R206). Where its table entry or its header
does not read any more, the message is consumed and counted lost (log entry 149). -/
def execHandlerStookStart (id bay tag : Nat) (s : State) : Out :=
  .next (match s.msgAt id with
    | none => s
    | some m => match m.kind with
      | .active w n args =>
        let running := s.stooks.any (·.kind == .handler id) || s.saved.any (·.kind == .handler id)
        if !m.accepted || running || !s.tagFree tag then s else
        match s.gather (handlerReader id) m.job w.die (s.handlerLines (handlerReader id) m.job n) with
        | (false, s) => s
        | (true, s) =>
        let header := s.handlerHeader m.job n
        let s := s.used (handlerReader id)
        match header with
        | .error _ => ((s.lostOne m.job m.dstEp).consume m).progress m.job
        | .ok kh =>
          match s.placeOn w.die bay kh [kh.vregs] with
          | none => s
          | some (cores, homes) =>
            let k := s.newStook tag m.job (.handler id) 0 0 1 1 0 w.die bay cores kh (List.replicate 8 0)
            (s.putStook k [kh.vregs] homes 2).modSheaf tag 0 fun h => { h with s := (args ++ h.s.drop args.length).take 384 }
      | _ => s)

/-! ## `STOOK_COMPLETE` (R43) -/

/-- Something a stook started, before a save or since, has not finished. -/
def State.stookBusy (s : State) (k : Stook) : Bool :=
  let mine (tag : Nat) : Bool := tag == k.tag || k.olds.contains tag
  s.reqs.any (mine ·.tag) || s.results.any (mine ·.tag) || s.ops.any (mine ·.tag) || s.holds.any (mine ·.tag) ||
    s.deferred.any (mine ·.tag) || s.copies.any (mine ·.tag) || s.followOns.any (mine ·.tag) ||
    s.tierOps.any (mine ·.tag) || s.mxTable.any (mine ·.tag) || s.fabReqs.any (mine ·.tag)

/-- What a completed stook counts for: its launch, the job's root, or its message (R35, R43, R206). -/
def State.creditStook (s : State) (k : Stook) : State :=
  match k.kind with
  | .root => s.modJob k.job fun j => { j with root := .exited }
  | .handler m => (match s.msgs.find? (·.id == m) with | some m => s.consume m | none => s)
  | .launch =>
    let scnt := (((s.job k.job).bind fun j => j.launches.find? (·.no == k.launch)).map (·.scnt)).getD 0
    (s.modLaunch k.job k.launch fun l => { l with finished := l.finished + 1 }).addCounter k.job scnt 1

/-- `STOOK_COMPLETE` (R43): publish on its cores, free, count. A pre-emption request that was still parking ends refused. -/
def execStookComplete (tag : Nat) (s : State) : Out :=
  .next (match s.stook tag with
    | none => s
    | some k =>
      let exited := (s.sheaves.filter (·.tag == tag)).all fun h => h.threads.all (·.exited)
      let saving := match k.pre with | some p => p.stage != .parking | none => false
      if !exited || saving || s.stookBusy k then s else
      let s := k.cores.foldl (fun s c => s.publish c k.job 2) s
      let s := s.dropStook tag
      let ends (f : Func) : Func := if f.busy == .preempt tag then { f with busy := .idle, status := 2 } else f
      let s := { s with funcs := s.funcs.map ends }
      (s.creditStook k).progress k.job)

end Sys2Proof.Machine
end

