-- ==== Sys2Proof/Machine/Preempt.lean ====
section
/-! DEFINITION. `RETT` and `SAVED`, pre-emption of a stook to memory, and its restore (R141, R229, R234 to R239, R345,
R348). -/

namespace Sys2Proof.Machine
open Sys2Proof

/-! ## The save region (R234, R237) -/

/-- U: the bytes of one thread slot. -/
def KHdr.slotBytes (h : KHdr) : Nat := (16 + h.tsz + 63) / 64 * 64

/-- The thread slot of a lane of a sheaf. -/
def KHdr.slotVa (h : KHdr) (region i l : Nat) : Nat := region + h.ssz + (32 * i + l) * h.slotBytes

/-- `SAVE` and `REST` of a safe point; both 0 at an index that the table does not hold (R232, R236). -/
def State.safePoint (s : State) (job : Nat) (h : KHdr) (spidx : Nat) : Nat × Nat :=
  if h.nsp ≤ spidx then (0, 0)
  else (s.readWord job (h.sptab.toNat + 32 * spidx), s.readWord job (h.sptab.toNat + 32 * spidx + 8))

/-- The lines of peer ranges that a kernel's safe-point table lies in (R75). -/
def State.safePointLines (s : State) (job : Nat) (h : KHdr) : List (RangeEnt × Nat) :=
  (List.range h.nsp).flatMap fun i => s.vaLines job (h.sptab.toNat + 32 * i) 16

/-- A thread record as its 128 bits (R237). -/
structure Record where
  epc : DWord
  cloff : Nat
  phyp : Bool
  pcan : Bool
  pnot : Bool
  exited : Bool
  spidx : Nat
  vregs : Nat
  deriving DecidableEq, Repr

/-- The bytes of a record. -/
def Record.bytes (r : Record) : List Byte :=
  let b (x : Bool) (i : Nat) : Nat := if x then 2 ^ i else 0
  leBytes 16 (r.epc.toNat + 2 ^ 64 *
    (r.cloff * 2 ^ 32 + b r.phyp 27 + b r.pcan 26 + b r.pnot 25 + b r.exited 24 + r.spidx * 2 ^ 16 + r.vregs))

/-- A record from its bytes. -/
def Record.ofBytes (bs : List Byte) : Record :=
  let x := leNat bs
  let f (lo n : Nat) : Nat := natBits x (64 + lo) n
  { epc := BitVec.ofNat 64 (natBits x 0 64), cloff := f 32 5, phyp := f 27 1 == 1, pcan := f 26 1 == 1,
    pnot := f 25 1 == 1, exited := f 24 1 == 1, spidx := f 16 8, vregs := f 0 9 }

/-- What a thread's record holds. -/
def Thread.record (t : Thread) (vregs : Nat) : Record :=
  let due (c : Nat) : Bool := t.pending.any (·.1 == c)
  { epc := t.epc, cloff := t.cloff.toNat, phyp := due 0x23, pcan := due 0x51, pnot := due 0x50, exited := t.exited,
    spidx := t.spidx, vregs }

/-- Writes the record of a thread at its slot, and its part of the save is done (R236, step 3). -/
def State.saveThread (s : State) (k : Stook) (region i l : Nat) (t : Thread) (vregs : Nat) : State :=
  (s.writeVa k.job (k.kh.slotVa region i l) (t.record vregs).bytes).modThread k.tag i l fun t =>
    { t with stage := .saved }

/-- Every lane of every sheaf of a stook, with its thread. -/
def State.threadsOf (s : State) (tag : Nat) : List (Sheaf × Nat × Thread) :=
  (s.sheaves.filter (·.tag == tag)).flatMap fun h => h.threads.zipIdx.map fun p => (h, p.2, p.1)

/-! ## The end of a save (R236, steps 4 and 5) -/

/-- Ends a management command of a function that waits for something. -/
def State.finishFunc (s : State) (p : Busy → Bool) (status : Nat) : State :=
  let f (x : Func) : Func := if p x.busy then { x with busy := .idle, status := status } else x
  { s with funcs := s.funcs.map f }

/-- Takes a stook out of the machine; its copies and what it sends to other endpoints go on without it (R236). -/
def State.freeStook (s : State) (tag : Nat) : State :=
  let goesOn (f : FabReq) : Bool := match f.kind with | .wain .. | .put | .amsg | .coll => true | _ => false
  { s.dropStook tag with copies := s.copies, followOns := s.followOns,
                         fabReqs := s.fabReqs.filter fun f => f.tag != tag || goesOn f }

/-- The stook is saved: published as at a completion, freed without a counter, and the command is done. Its die's L2 goes
home, since its threads may go on at another die and must find there what they have read here (R133, R141; log entry 163). -/
def State.releaseSaved (s : State) (k : Stook) (region : Nat) : State :=
  let s := (k.cores.foldl (fun s c => s.publish c k.job 2) s).drainL2 k.die k.job
  let x : SavedStook :=
    { job := k.job, kind := k.kind, launch := k.launch, index := k.index, nstook := k.nstook, nsheaf := k.nsheaf,
      prio := k.prio, kh := k.kh, lparams := k.lparams, region, tag := k.tag, die := k.die, cores := k.cores,
      olds := k.olds }
  let s := s.freeStook k.tag
  { s with saved := s.saved ++ [x] }.finishFunc (· == Busy.preempt k.tag) 0

/-- A thread starts a save or restore routine. -/
def Thread.routine (t : Thread) (pc sva cycle : Nat) (st : SaveStage) : Thread :=
  { t with pc := BitVec.ofNat 64 pc, clause := BitVec.ofNat 64 pc, svarea := BitVec.ofNat 64 sva, rmode := true,
           stage := st, held := none, readyAt := max t.readyAt (cycle + 1) }

/-- Goes on with a save: when every thread record stands, the 32 threads of sheaf 0 run `SSAVE`; when each of them has
issued its `SAVED`, the stook is released. -/
def State.saveProgress (s : State) (tag : Nat) : State :=
  match s.stook tag with
  | none => s
  | some k => match k.pre with
    | none => s
    | some p =>
      let ts := s.threadsOf tag
      if p.stage == .threads then
        if !(ts.all fun x => x.2.2.exited || x.2.2.stage == .saved) then s else
        let s := (ts.filter (·.2.2.stage != .saved)).foldl (fun (s : State) x =>
          s.saveThread k p.region x.1.index x.2.1 x.2.2 x.1.allot) s
        if k.kh.ssave = 0 then s.releaseSaved k p.region else
        let s := s.modStook tag fun k => { k with pre := some { p with stage := .stook } }
        s.modThreads tag 0 (BitVec.allOnes 32) fun t =>
          { t.routine k.kh.ssave.toNat p.region (s.cycles k.die) .stookSaving with exited := false }
      else if p.stage == .stook then
        if (ts.filter (·.1.index == 0)).all fun x => x.2.2.stage == .stookSaved then s.releaseSaved k p.region else s
      else s

/-! ## `SAVED` (R229, R236, R348) -/

/-- `SAVED`: holds the bundle until the publish of R141 can run; outside a save routine 0x02. -/
def execSaved (c : Common) (f : A3) (s : State) : Out :=
  let body : Body := fun x s =>
    match x.sh s with
    | none => s
    | some h =>
      let stage (l : Nat) : SaveStage := ((h.threads[l]?).map fun t => if t.rmode then t.stage else .none).getD .none
      let good := lanesWhere fun l => x.act.getLsbD l && (stage l == .saving || stage l == .stookSaving)
      let bad := x.act &&& ~~~good
      let stk := (lanesOf good).any fun l => stage l == .stookSaving
      let s := x.trap bad (0x02, 0) s
      if good = 0 then s else
      { x with lanes := x.lanes &&& ~~~bad, act := good }.hold (.saved stk) 0 s
  .next (issueWith (.saved c f) body s)

/-- Stores, read-modify-writes, `CLEAN`s, `DISCARD`s or `CRIBSET`s that lanes of a sheaf issued before a point are not done
(R123, R141). -/
def State.writing (s : State) (tag i : Nat) (m : Lanes) (upto : Nat) : Bool :=
  s.reqs.any (fun q => q.tag == tag && q.sheaf == i && q.lanes &&& m != 0 && decide (q.id < upto) &&
    (q.isWrite || match q.kind with | .clean | .discard | .cribSet .. => true | _ => false)) ||
    s.fabReqs.any (·.openRatom tag i m upto)

/-- `SAVED_COMPLETE`: stores acknowledged and fabric slots clear, the record is written and the context published (R141,
R209, R236). -/
def execSavedComplete (id : Nat) (s : State) : Out :=
  .next (match s.holdJob id with
    | none => s
    | some (h, job) => match h.kind, s.stook h.tag with
      | .saved stk, some k =>
        match k.pre with
        | none => s
        | some p =>
          if !s.publishReady h job 3 || s.fabPending h.tag h.sheaf h.active h.id ||
              s.writing h.tag h.sheaf h.active h.id then s else
          let s := if stk then s.modThreads h.tag h.sheaf h.active fun t => { t with stage := .stookSaved }
            else (lanesOf h.active).foldl (fun (s : State) l =>
              match s.sheaf h.tag h.sheaf with
              | none => s
              | some sh => match sh.threads[l]? with
                | none => s
                | some t => s.saveThread k p.region h.sheaf l t sh.allot) s
          ((s.publish h.core job 3).release h).saveProgress h.tag
      | _, _ => s)

/-! ## The request, its deadline, and the drain (R234 to R236) -/

/-- A save region that R234 allows. -/
def State.regionOk (s : State) (k : Stook) (region : Nat) : Bool :=
  match s.translate k.job region (k.kh.ssz + 32 * k.nsheaf * k.kh.slotBytes) 64 (rightR ||| rightW) with
  | .ok (e, _) => e.cls != .ro
  | .error _ => false

/-- A request is made; from now on threads park. The deadline is in microseconds, 0 for the default of 200 (R235). -/
def State.startPreempt (s : State) (k : Stook) (region us fn : Nat) : State :=
  let us := if us = 0 then 200 else us
  s.modStook k.tag fun k => { k with pre := some ⟨region, s.now + 4000 * us, fn, .parking⟩ }

/-- Threads held at a safe point of a stook with a request are parked there, in every sheaf. -/
def State.parkNow (s : State) (tag : Nat) : State :=
  (((s.sheaves.filter (·.tag == tag)).map (·.index)).foldl (fun s i => s.parkHeld tag i) s).parkedAll tag

/-- Parking at the first point that a thread reaches, in every stook with a request (R234, R239). -/
def State.parkAll (s : State) : State :=
  ((s.stooks.filter (·.parking)).map (·.tag)).foldl State.parkNow s

/-- `PREEMPT_DEADLINE_EXPIRY`: with a thread unparked, the request lapses (R235). -/
def execPreemptDeadlineExpiry (tag : Nat) (s : State) : Out :=
  let s := s.parkAll
  .next (match s.stook tag with
    | none => s
    | some k => match k.pre with
      | none => s
      | some p =>
        if p.stage != .parking || decide (s.now < p.deadline) then s else
        let s := s.modStook tag fun k => { k with pre := none }
        let ready (t : Thread) : Thread := if t.stage == .parked then { t with stage := .none } else t
        let s := { s with sheaves := modWhere (·.tag == tag) (fun h => { h with threads := h.threads.map ready }) s.sheaves }
        s.finishFunc (· == Busy.preempt tag) 2)

/-- The drain of R236, step 1. -/
def State.drained (s : State) (tag : Nat) : Bool :=
  !(s.results.any (·.tag == tag) || s.ops.any (fun o => o.tag == tag && o.slot != 7) || s.mxTable.any (·.tag == tag) ||
    s.tierOps.any (·.tag == tag) ||
    s.copies.any (fun c => c.tag == tag && (c.template.dspad || c.template.cribEn)) ||
    s.fabReqs.any (fun f => f.tag == tag && match f.kind with | .get _ d _ => d.kind != 0 | _ => false))

/-- `PREEMPT_DRAIN_COMPLETE`: each thread enters its save routine, or has its record written without one (R236, steps 2
and 3); exited threads have theirs written. A thread without a routine waits as its `SAVED` would (R141), and the stores of
an exited one go first. -/
def execPreemptDrainComplete (tag : Nat) (s : State) : Out :=
  let s := s.parkAll
  .next (match s.stook tag with
    | none => s
    | some k => match k.pre with
      | none => s
      | some p =>
        if p.stage != .draining then s else
        match s.gather (stookReader tag) k.job k.die (s.safePointLines k.job k.kh) with
        | (false, s) => s
        | (true, s) =>
        let ts := s.threadsOf tag
        let still := ts.filter fun x => x.2.2.exited || (s.safePoint k.job k.kh x.2.2.spidx).1 == 0
        let bare := (still.filter fun x => !x.2.2.exited).map (·.1.core)
        let stored := bare.all (fun c => !s.undrained c k.job s.nextId && !s.peerWrites c k.job s.nextId) &&
          still.all fun x => !s.writing tag x.1.index (1#32 <<< x.2.1) s.nextId
        if !s.drained tag || !stored then s else
        let s := s.modStook tag fun k => { k with pre := some { p with stage := .threads } }
        let s := ts.foldl (fun (s : State) x =>
          let i := x.1.index
          let l := x.2.1
          let t := x.2.2
          if t.exited then s.saveThread k p.region i l t x.1.allot else
          let t := { t with epc := t.pc, cloff := BitVec.ofNat 5 ((t.pc - t.clause).toNat / 8) }
          let save := (s.safePoint k.job k.kh t.spidx).1
          let t' := t.routine save (k.kh.slotVa p.region i l + 16) (s.cycles k.die) .saving
          let s := s.modThread tag i l fun _ => t'
          if save = 0 then s.saveThread k p.region i l t' x.1.allot else s) s
        let s := bare.eraseDups.foldl (fun (s : State) c => s.publish c k.job 3) s
        (s.used (stookReader tag)).saveProgress tag)

/-! ## Restore (R238) -/

/-- A word that the architecture does not state (log entry 3). -/
def State.freeWord (s : State) (n : Nat) : DWord :=
  BitVec.ofNat 64 (leNat ((List.range 8).map fun i => Config.freeByte s.free (8 * n + i)))

/-- A thread of a restored stook as its record leaves it: at its restore routine, or at its counter (R238, step 3). The
details of pending causes are not in the record. -/
def State.restoreThread (s : State) (k : Stook) (region i l : Nat) (t : Thread) : Thread :=
  let va := k.kh.slotVa region i l
  let r := Record.ofBytes ((s.readVa k.job va 16 0).getD [])
  if r.exited then { t with exited := true, stage := .none, rmode := false, svarea := 0 } else
  let (save, rest) := s.safePoint k.job k.kh r.spidx
  let due (b : Bool) (c n : Nat) : List (Nat × DWord) := if b then [(c, s.freeWord n)] else []
  let t := { t with epc := r.epc, cloff := BitVec.ofNat 5 r.cloff, spidx := r.spidx,
                    pending := due r.phyp 0x23 0 ++ due r.pcan 0x51 1 ++ due r.pnot 0x50 2 ++
                      t.pending.filter fun (p : Nat × DWord) =>
                        !((r.phyp && p.1 == 0x23) || (r.pcan && p.1 == 0x51) || (r.pnot && p.1 == 0x50)) }
  if rest = 0 ∨ save = 0 then { t.rett with stage := .none, readyAt := max t.readyAt (s.cycles k.die + 1) }
  else t.routine rest (va + 16) (s.cycles k.die) .none

/-- The thread records of a saved stook can all be read; a restore is refused otherwise (log entry 124). -/
def State.recordsReadable (s : State) (x : SavedStook) : Bool :=
  (List.range (32 * x.nsheaf)).all fun i => (s.readVa x.job (x.kh.slotVa x.region (i / 32) (i % 32)) 16 0).isSome

/-- The lines of peer ranges that a restore reads: the thread records and the safe-point table (R75). -/
def State.recordLines (s : State) (x : SavedStook) : List (RangeEnt × Nat) :=
  ((List.range (32 * x.nsheaf)).flatMap fun i => s.vaLines x.job (x.kh.slotVa x.region (i / 32) (i % 32)) 16) ++
    s.safePointLines x.job x.kh

/-- The stook routine has ended: every thread starts from its record, and the restore is done. What of the records lies in a
peer range was read when the stook was placed (log entry 124). -/
def State.finishRestore (s : State) (k : Stook) (region : Nat) : State :=
  let s := (s.peerFirst (stookReader k.tag)).modStook k.tag fun k => { k with restore := none }
  let fix (h : Sheaf) : Sheaf := { h with threads := h.threads.mapIdx fun l t => s.restoreThread k region h.index l t }
  let s := { s with sheaves := modWhere (·.tag == k.tag) fix s.sheaves, free := s.free + 1 }
  (s.used (stookReader k.tag)).finishFunc (· == Busy.restore k.tag) 0

/-- A saved stook is placed on a bay, refreshed at `.sys`, and its stook routine starts (R238, steps 1 and 2); none where
the bay has no room. -/
def State.startRestore (s : State) (x : SavedStook) (die bay tag : Nat) : Option State :=
  let vregs := (List.range x.nsheaf).map fun i =>
    (Record.ofBytes ((s.readVa x.job (x.kh.slotVa x.region i 0) 16 0).getD [])).vregs
  if !s.tagFree tag then none else
  (s.placeOn die bay x.kh vregs).map fun (cores, homes) =>
    let k := s.newStook tag x.job x.kind x.launch x.index x.nstook x.nsheaf x.prio die bay cores x.kh x.lparams
    let k := { k with restore := some x.region, olds := x.tag :: x.olds }
    let s := { s with saved := s.saved.filter (· != x) }.putStook k vregs homes 3
    let start (h : Sheaf) : Sheaf :=
      { h with threads := h.threads.map fun t =>
          if x.kh.srest != 0 && h.index == 0 then t.routine x.kh.srest.toNat x.region (s.cycles die) .restoring
          else { t with stage := .restored } }
    let s := { s with sheaves := modWhere (·.tag == tag) start s.sheaves }
    if x.kh.srest = 0 then s.finishRestore k x.region else s

/-! ## `RETT` (R229, R256, R345) -/

/-- `RETT`: clears `HACT` and `RMODE` and resumes at `%epc`; with neither set 0x02. The end of a stook restore routine
leaves the thread resting until all of sheaf 0 have ended it (R238). -/
def execRett (c : Common) (f : A3) (s : State) : Out :=
  let body : Body := fun x s =>
    match x.sh s, s.stook x.tag with
    | some h, some k =>
      let may (l : Nat) : Bool := match h.threads[l]? with | some t => t.hact || t.rmode | none => false
      let good := lanesWhere fun l => x.act.getLsbD l && may l
      let s := x.trap (x.act &&& ~~~good) (0x02, 0) s
      let stall := c.stall.toNat
      let at' := s.cycles k.die + max 1 stall
      let back (t : Thread) : Thread :=
        { t.rett with cnt := t.cnt + stall, readyAt := max t.readyAt at', issued := s.free,
                      stage := if t.rmode && t.stage == .restoring then .restored else t.stage }
      let s := (lanesOf good).foldl (fun s l => (s.leave x.tag x.sheaf l).modThread x.tag x.sheaf l back) s
      match k.restore, s.sheaf x.tag 0 with
      | some region, some h0 =>
        if h0.threads.all (·.stage == .restored) then s.finishRestore k region else s
      | _, _ => s
    | _, _ => s
  .next (issueWith (.rett c f) body s)

end Sys2Proof.Machine
end

