-- ==== Sys2Proof/Machine/Ranges.lean ====
section
/-! DEFINITION. The range table as management and the gleaner change it: entries and channel tables, creation, change and
deletion, slides, re-places and rebuilds, loss lists and channel retirement, and the memory ports' own slots (R27, R72 to
R77, R82 to R86, R251 to R253). -/

namespace Sys2Proof.Machine
open Sys2Proof

/-! ## Placements from channel tables (R74, R83) -/

/-- The bytes of memory behind a channel, or CXL port, of a tier: 2 GiB, or what is attached, of at most 16 TiB (R30, R74).
-/
def State.capacity (s : State) (tier ch : Nat) : Nat :=
  if tier = 1 then min ((s.cxlCap[ch]?).getD 0) (2 ^ 44) else 2 ^ 31

/-- Entry j of a channel table in memory, no slide in progress; none where a field breaks R74. -/
def State.tableEntry (s : State) (tier table j : Nat) : Option Share :=
  let x := leNat (Memory.getN s.devMem (table + 32 * j) 32)
  let f (lo n : Nat) : Nat := natBits x lo n
  if f 56 8 ≠ 0 ∨ f 64 64 ≠ 0 ∨ f 128 6 ≠ 0 ∨ f 176 16 ≠ 0 ∨ f 192 64 ≠ 0 ∨ f 0 8 ≠ 0 ∨ (tier = 1 ∧ 3 < f 48 8) then none
  else some ⟨f 48 8, f 0 48, false, 0, f 128 48⟩

/-- A channel table entry as its 32 bytes (R74). -/
def Share.bytes (h : Share) : List Byte :=
  leBytes 32 (h.ch * 2 ^ 48 + h.pbase +
    2 ^ 64 * ((if h.sliding then 2 ^ 63 else 0) + h.nbase + 2 ^ 64 * h.sfront))

/-- The gleaner writes the channel table of a placement (R73, R83). -/
def State.writeTable (s : State) (p : Placement) : State :=
  { s with devMem := Memory.setN s.devMem p.table (p.shares.flatMap Share.bytes) }

/-- A placement for n bytes, with or without parity, from its parts and its channel table; none where it breaks R73, R74 or
R145. -/
def State.readPlacement (s : State) (tier gcode count table n : Nat) (par : Bool) : Option Placement :=
  let shares := (List.range count).filterMap fun j => s.tableEntry tier table j
  let p : Placement := ⟨tier, gcode, table, shares⟩
  let fits := shares.zipIdx.all fun x => decide (x.1.pbase + p.extent par x.2 (toLines n) ≤ s.capacity tier x.1.ch)
  if shares.length = count ∧ gcode ≤ 8 ∧ table % 64 = 0 ∧ (tier = 1 → count ≤ 4 ∧ s.accepts 3) ∧
      (shares.map (·.ch)).eraseDups.length = count ∧ fits then some p else none

/-! ## Entry images (R73, R75) -/

/-- An entry image from its words 0x00, 0x08, 0x10, 0x18, 0x20 and 0x38: the range at an index, or none where it breaks a
rule of its own. Without the feature `PARITY` the bit `PAR` is reserved (R3); `HYP` needs no
feature (log entry 125). -/
def State.image (s : State) (idx : Nat) (ws : List DWord) : Option RangeEnt :=
  let w (i : Nat) : Nat := ((ws[i]?).map (·.toNat)).getD 0
  let base := w 0
  let limit := natBits (w 1) 0 49
  let tier := natBits (w 3) 12 1
  let gcode := natBits (w 3) 8 4
  let peer := natBits (w 3) 13 1 == 1
  let chtab := w 4
  let cls := match natBits (w 2) 26 2 with | 0 => some Class.sh | 1 => some Class.ph | 2 => some Class.ro | _ => none
  let plain := natBits (w 1) 49 15 == 0 && natBits (w 2) 35 1 == 0 && natBits (w 2) 1 23 == 0 && natBits (w 2) 0 1 == 1 &&
    natBits (w 3) 14 50 == 0 && decide (1 ≤ limit) && decide (limit ≤ 2 ^ 48) && decide (base < 2 ^ 57) &&
    decide (base + limit ≤ 2 ^ 57) && (natBits (w 2) 24 1 == 0 || s.accepts 2)
  let place : Option Placement :=
    if peer then
      if natBits (w 3) 0 13 = 0 ∧ natBits chtab 60 4 = 0 ∧ natBits chtab 20 28 = 0 ∧ w 5 = 0 then some ⟨0, 0, 0, []⟩ else none
    else s.readPlacement tier gcode (natBits (w 3) 0 8 + 1) chtab limit (natBits (w 2) 24 1 == 1)
  match plain, cls, place with
  | true, some c, some p =>
    some { idx, base, limit, owner := natBits (w 2) 48 16, key := natBits (w 2) 36 12,
           rights := BitVec.ofNat 7 (natBits (w 2) 28 7), cls := c, hyp := natBits (w 2) 25 1 == 1,
           par := natBits (w 2) 24 1 == 1,
           peer := if peer then some (natBits chtab 48 12, natBits chtab 0 20) else none,
           place := p, move := .none, front := 0, transit := 0, lossVa := w 5, losses := [], lossCount := 0, lostCh := [] }
  | _, _, _ => none

/-- Two extents of VAs meet. -/
def overlaps (a n b m : Nat) : Bool := decide (a < b + m) && decide (b < a + n)

/-- A range meets another range of its job, or the job's aperture (R72, R111). -/
def State.clashes (s : State) (e : RangeEnt) : Bool :=
  (s.ranges.any fun x => x.owner == e.owner && x.idx != e.idx && overlaps e.base e.limit x.base x.limit) ||
    (match s.job e.owner with
      | some j => j.started && overlaps e.base e.limit j.aperture 32768
      | none => true)

/-! ## Zeroing (R77) -/

/-- The instruction caches and the fetch buffers hold nothing of a range from an offset on (R77, R272). -/
def State.dropCode (s : State) (e : RangeEnt) (lo : Nat) : State :=
  let gone (c : CodeWord) : Bool :=
    c.job == e.owner && decide (e.base + lo < c.va + 8) && decide (c.va < e.base + e.limit)
  { s with code := s.code.filter (!gone ·), peerBuf := s.peerBuf.filter (·.rng != e.idx) }

/-- The extents of memory that the bytes of a range from a line on take under its placement, sealed under its key (R80,
R247). -/
def RangeEnt.sealsFrom (e : RangeEnt) (mat : Option KeyMat) (lo hi : Nat) : List Seal :=
  e.place.shares.zipIdx.map fun x =>
    let a := e.place.start x.1
    { lo := a + e.place.shareUsed x.2 lo, hi := a + e.place.shareUsed x.2 hi, mat, rng := e.idx, base := a,
      granule := e.place.granule, count := e.place.shares.length, pos := x.2 }

/-- Writes zero to the bytes from an offset up to the limit of an entry, and drops every copy and version of them; a line
that is zeroed whole is lost no more (R251). Of a peer range nothing is zeroed: its bytes are those of the peer's range (R75;
log entry 138). -/
def State.zeroFrom (s : State) (e : RangeEnt) (lo : Nat) : State :=
  let s := s.dropCode e lo
  if e.peer.isSome then s else
  let lo' := toLines lo
  let hi := toLines e.limit
  let gone (line : Nat) : Bool := decide (lo' ≤ line) && decide (line < hi)
  -- the bytes of the line that lo stands in
  let edge := lo' - 64
  let keep := BitVec.ofNat 64 (2 ^ (lo % 64) - 1)
  let cut (l : List CacheLine) : List CacheLine :=
    ((l.filter fun c => !(c.rng == e.idx && gone c.line)).map fun c =>
      if lo % 64 != 0 && c.rng == e.idx && c.line == edge then { c with valid := c.valid &&& keep, dirty := c.dirty &&& keep }
      else c).filter fun c => c.valid != 0
  let vs := (s.versions.filter fun v => !(v.rng == e.idx && gone v.line)).map fun v =>
    if lo % 64 != 0 && v.rng == e.idx && v.line == edge then { v with mask := v.mask &&& keep } else v
  let l3 := (s.l3.filter fun l => !(l.rng == e.idx && gone l.line)).map fun l =>
    if lo % 64 != 0 && l.rng == e.idx && l.line == edge then
      { l with bytes := maskBytes (List.replicate 64 0) l.bytes keep } else l
  let s := { s with l1 := cut s.l1, l2 := cut s.l2, l3 := l3, versions := vs.filter (·.mask != 0) }
  let s := if lo % 64 = 0 then s else s.homeWriteN e lo (List.replicate (min lo' e.limit - lo) 0)
  let zs := e.sealsFrom (s.keyMat e.key) lo' hi
  let s := zs.foldl State.sealed { s with mem := zs.foldl (fun (m : Memory) z => Memory.zero m z.lo (z.hi - z.lo)) s.mem }
  if e.losses.any (gone ·.line) then (s.modRange e.idx fun x =>
      { x with losses := x.losses.filter (!gone ·.line),
               lossCount := x.lossCount - (x.losses.filter (gone ·.line)).length }).writeLosses e.idx
  else s

/-! ## Creation, change, deletion (R73, R77) -/

/-- A change or deletion of a range is not complete: accesses under the old entry are on their way (R77). -/
def State.rangeDrains (s : State) (x : Nat) : Bool :=
  s.funcs.any fun f => match f.busy with | .draining y _ => y == x | _ => false

/-- The lowest range index that no range has, nor a deleted one whose accesses are still on their way (R73, R77). -/
def State.freeIndex (s : State) : Nat :=
  ((List.range (s.ranges.length + s.funcs.length + 1)).find? fun i =>
    !s.ranges.any (·.idx == i) && !s.rangeDrains i).getD 0

/-- Creates a range, all zero: its index, or none where it is refused (R72, R73). -/
def State.createRange (s : State) (ws : List DWord) : Option (Nat × State) :=
  (s.image s.freeIndex ws).bind fun e =>
    let mine := (s.ranges.filter (·.owner == e.owner)).length
    if s.clashes e || decide (65536 ≤ mine) || decide (1048576 ≤ e.idx) then none
    else some (e.idx, State.zeroFrom { s with ranges := s.ranges ++ [e] } e 0)

/-- Shares without their slides: what a channel table says. -/
def Placement.same (p q : Placement) : Bool :=
  p.tier == q.tier && p.gcode == q.gcode && p.shares.map (fun h => (h.ch, h.pbase)) == q.shares.map (fun h => (h.ch, h.pbase))

/-- No L1 or L2 holds a line of a range any more: the dirty bytes have gone home, the older ones first (R100 to R103,
R188). -/
def State.flushRange (s : State) (x : Nat) : State :=
  let mine (c : CacheLine) : Bool := c.rng == x
  let s := (s.l2.filter mine ++ s.l1.filter mine).foldl State.mergeHome s
  { s with l1 := s.l1.filter (!mine ·), l2 := s.l2.filter (!mine ·) }

/-- What L1s, L2s and home slices hold dirty of a range from an offset on has gone to memory; the copies stay, clean, for the
accesses on their way (R77). -/
def State.settleRange (s : State) (x lo : Nat) : State :=
  let mine (c : CacheLine) : Bool := c.rng == x && decide (lo ≤ c.line)
  let s := (s.l2.filter mine).foldl State.mergeHome s
  let s := { s with l2 := modWhere mine (fun c => { c with dirty := 0, writers := [] }) s.l2 }
  let s := (s.l1.filter mine).foldl State.mergeThrough s
  let s := { s with l1 := modWhere mine (fun c => { c with dirty := 0 }) s.l1 }
  (s.l3.filter fun l => l.rng == x && decide (lo ≤ l.line)).foldl (fun s l =>
    match s.lineRange l with
    | some e => s.cleanHome { e with key := l.key } l.line
    | none => s) s

/-- Copies and versions of lines that the range of an index does not take in any more are gone (R77). -/
def State.forgetRange (s : State) (x : Nat) : State :=
  let stays (line : Nat) : Bool := match s.range x with | some e => decide (line < toLines e.limit) | none => false
  let keep (rng line : Nat) : Bool := rng != x || stays line
  { s with l1 := s.l1.filter fun c => keep c.rng c.line, l2 := s.l2.filter fun c => keep c.rng c.line,
           l3 := s.l3.filter fun l => keep l.rng l.line, versions := s.versions.filter fun v => keep v.rng v.line,
           leaving := s.leaving.filter (·.idx != x) }

/-- Changes a range at one instant: a new limit, rights, class, key or flags. A base, owner or placement other than the
range's own is refused. -/
def State.changeRange (s : State) (old : RangeEnt) (ws : List DWord) : Option State :=
  (s.image old.idx ws).bind fun e =>
    if s.clashes e || e.base != old.base || e.owner != old.owner || e.peer != old.peer || !e.place.same old.place then none
    else
      let new := { old with limit := e.limit, key := e.key, rights := e.rights, cls := e.cls, hyp := e.hyp, par := e.par,
                            place := { old.place with table := e.place.table }, lossVa := e.lossVa }
      let s := if new.hyp != old.hyp || new.cls != old.cls then s.flushRange old.idx else s
      let s := if e.limit < old.limit then s.settleRange old.idx (toLines e.limit) else s
      let s := if e.limit < old.limit then { s with leaving := s.leaving ++ [old] } else s
      let s := s.modRange old.idx fun x => { new with losses := x.losses, lossCount := x.lossCount }
      some (if old.limit < e.limit then s.zeroFrom new old.limit else s)

/-- Deletes a range. Accesses translated before go on at the old entry, so this and the copies of its lines stay until these
are done, and `forgetRange` drops them. -/
def State.deleteRange (s : State) (x : Nat) : State :=
  let s := match s.range x with
    | some e => let s := (s.dropCode e 0).settleRange x 0; { s with leaving := s.leaving ++ [e] }
    | none => s
  let clear (o : Option Nat) : Option Nat := if o == some x then none else o
  { s with ranges := s.ranges.filter (·.idx != x),
           jobs := s.jobs.map fun j => { j with tmpl := clear j.tmpl, handlers := clear j.handlers, mxRange := clear j.mxRange } }

/-- Something numbered below a point goes on under an entry that the test picks: a request, one that its bundle still holds,
a copy's packet that has not landed, a packet that has not read its source. -/
def State.inFlight (s : State) (p : RangeEnt → Bool) (upto : Nat) : Bool :=
  let on (q : Place) : Bool := match q with | .range e _ => p e | _ => false
  s.reqs.any (fun r => decide (r.id < upto) && on r.place) ||
    s.deferred.any (fun d => d.reqs.any fun r => decide (r.id < upto) && on r.place) ||
    s.copies.any (fun c => decide (c.id < upto) && c.packets.zipIdx.any fun q =>
      !c.landed.contains q.2 && (p q.1.src || on q.1.dst)) ||
    s.fabReqs.any fun f => decide (f.id < upto) && f.sourceLines.any (p ·.1)

/-- An access translated under an earlier entry of a range is still on its way home (R77). -/
def State.drainsRange (s : State) (x upto : Nat) : Bool := s.inFlight (·.idx == x) upto

/-! ## Moves (R82 to R85) -/

/-- Starts a slide: word j of the list at a device physical address is the `NBASE` of share j, or 0 (R83). None where a
word breaks a rule. -/
def State.startSlide (s : State) (e : RangeEnt) (list : Nat) : Option State :=
  if e.peer.isSome then none else
  let nb (j : Nat) : Nat := leNat (Memory.getN s.devMem (list + 8 * j) 8)
  let ok := e.place.shares.zipIdx.all fun x => nb x.2 == 0 || (nb x.2 % 256 == 0 && decide (nb x.2 < x.1.pbase))
  let shares := e.place.shares.zipIdx.map fun x =>
    if nb x.2 = 0 then x.1 else { x.1 with sliding := true, nbase := nb x.2, sfront := 0 }
  let move := if shares.any (·.sliding) then Move.slide else .none
  let place := { e.place with shares := shares }
  if ok then some ((s.modRange e.idx fun x => { x with place := place, move := move }).writeTable place) else none

/-- Starts a re-place or a rebuild to a target placement (R84, R85). -/
def State.startReplace (s : State) (x : Nat) (m : Move) : State :=
  s.modRange x fun e => { e with move := m, front := 0, transit := 0 }

/-- The target's channel list is that of a rebuild: the old list less a retired channel (R85). -/
def RangeEnt.rebuilds (e : RangeEnt) (t : Placement) : Bool :=
  e.par && e.lostCh.any fun c =>
    e.place.shares.any (·.ch == c) && t.shares.map (·.ch) == (e.place.shares.map (·.ch)).filter (· != c)

/-- The extents of an HBM channel that a placement of a range takes: first byte and the byte after the last. -/
def RangeEnt.takes (e : RangeEnt) (p : Placement) (c : Nat) : List (Nat × Nat) :=
  (p.shares.zipIdx.filter fun x => p.tier == 0 && x.1.ch == c).flatMap fun x =>
    let n := p.extent e.par x.2 (toLines e.limit)
    (x.1.pbase, x.1.pbase + n) :: if x.1.sliding then [(x.1.nbase, x.1.nbase + n)] else []

/-- The extents of an HBM channel that ranges take, targets of moves among them. -/
def State.takenOn (s : State) (c : Nat) : List (Nat × Nat) :=
  s.ranges.flatMap fun e => e.takes e.place c ++ match e.move with
    | .replace t | .rebuild t => e.takes t c
    | _ => []

/-- The lowest place on an HBM channel where n bytes are free (R74). -/
def State.roomOn (s : State) (c n : Nat) : Option Nat :=
  let taken := s.takenOn c
  let free (a : Nat) : Bool :=
    decide (a + n ≤ s.capacity 0 c) && taken.all fun x => decide (a + n ≤ x.1) || decide (x.2 ≤ a)
  ((0 :: taken.map fun x => (x.2 + 255) / 256 * 256).filter free).min?

/-- The placement that a retirement moves a range to: the old channel list less the channel, each share at the lowest place
of its channel that is free; none where a channel has no such place (R74, R85, R252; log entry 13). -/
def State.lessChannel (s : State) (e : RangeEnt) (ch : Nat) : Option Placement :=
  let bare : Placement := { e.place with shares := e.place.shares.filter (·.ch != ch) }
  let shares := bare.shares.zipIdx.filterMap fun x =>
    (s.roomOn x.1.ch (bare.extent e.par x.2 (toLines e.limit))).map fun a => (⟨x.1.ch, a, false, 0, 0⟩ : Share)
  if bare.shares.isEmpty || shares.length != bare.shares.length then none else some { bare with shares := shares }

/-- A range with a share on a retired channel and no move in progress starts its rebuild or re-place (R252). -/
def State.startRecovery (s : State) (x : Nat) : State :=
  match s.range x with
  | none => s
  | some e =>
    if e.move != .none || e.place.tier != 0 then s else
    match (e.lostCh.find? fun c => e.place.shares.any (·.ch == c)).bind (s.lessChannel e) with
    | none => s
    | some t => s.startReplace x (if e.par then .rebuild t else .replace t)

/-- `SLIDE_LINE`: in a gleaner slot of its port, the next line of a sliding share moves, and the channel table follows; a
range that lost a channel meanwhile recovers it once the slide has ended (R27, R82, R83, R252; log entry 153). -/
def execSlideLine (rng share : Nat) (s : State) : Out :=
  .next (match s.range rng with
    | none => s
    | some e => match e.place.shares[share]? with
      | none => s
      | some h =>
        if !h.sliding || !s.inPortSlot (portOf e.place.tier h.ch) 0 16 then s else
        let size := e.place.shareSize share (toLines e.limit)
        let c := portOf e.place.tier h.ch * 2 ^ 48
        let s := if h.sfront < size then s.copyLine (c + h.pbase + h.sfront) (c + h.nbase + h.sfront) else s
        let h' := if size ≤ h.sfront + 64 then { h with pbase := h.nbase, sliding := false, nbase := 0, sfront := toLines size }
          else { h with sfront := h.sfront + 64 }
        let shares := e.place.shares.set share h'
        let goesOn := shares.any (·.sliding)
        let place := { e.place with shares := shares }
        let s := s.modRange rng fun e =>
          { e with place := place, move := if goesOn then e.move else .none }
        let s := s.writeTable place
        if goesOn then s else s.startRecovery rng)

/-- The base die that holds a channel or CXL port (R23). -/
def Placement.baseDie (p : Placement) (line : Nat) : Nat := if p.tier = 1 then p.channel line else p.channel line / 64

/-- The ports that a move reads a line through: its own, or, where its channel is lost, those of the positions that parity
recovers it from (R29, R85). -/
def RangeEnt.sourcePorts (e : RangeEnt) (line : Nat) : List Nat :=
  let ch := e.place.channel line
  if e.place.tier == 0 && e.lostCh.contains ch && !e.lost line then e.place.groupChannels line
  else [portOf e.place.tier ch]

/-- Two slices of an arbor's range see the same resolves (R135, R192). -/
def State.slicesAgree (s : State) (e : RangeEnt) (x y : Nat) : Bool :=
  !e.hyp || match s.arbor e.owner with
    | some a => a.inflight.all fun r => r.applied.contains x == r.applied.contains y
    | none => true

/-- A move reads the line at its frontier through ports of the base die of its new port alone: nothing passes the routers
(R28, R85). -/
def RangeEnt.near (e : RangeEnt) (t : Placement) (line : Nat) : Bool :=
  (e.sourcePorts line).all fun port => (if 256 ≤ port then port - 256 else port / 64) == t.baseDie line

/-- The line at the frontier stands under the target from now on: with its copies and versions, its bytes where they have
moved; on a retired channel that nothing recovers it is lost (R84, R85). -/
def State.lineMoved (s : State) (rng line : Nat) : State :=
  let s := s.modRange rng fun e => { e with front := line + 64, transit := 0 }
  if ((s.range rng).map (·.deadAt line)).getD false then s.addLoss rng line 2 else s

/-- `REPLACE_LINE`: the line at the frontier goes a stage further. It is taken in a gleaner slot of its old port, passes the
routers in theirs where it, or what parity recovers it from, comes from another base die, and is written in a gleaner slot
of its new port; of a line that is lost only the versions move, and it stays listed (R27 to R29, R82, R84, R85). The old and
the new slice have the same resolves before them (R135). A line's versions move with it, and wait until the sets of the new
slice have ways for them (R190, R196; log entry 136). -/
def execReplaceLine (rng : Nat) (s : State) : Out :=
  .next (match s.range rng with
    | none => s
    | some e => match e.move.target with
      | none => s
      | some t =>
        let line := e.front
        let source := (e.sourcePorts line).all (s.inPortSlot · 0 16)
        let target := s.inPortSlot (portOf t.tier (t.channel line)) 0 16
        let near := e.near t line
        let room := s.roomIn e t line
        let stage (n : Nat) : State := s.modRange rng fun e => { e with transit := n }
        let places := ((s.versions.filter fun v => v.rng == rng && v.line == line).map fun v => l3PlaceIn t e line v.key).eraseDups
        let bytes : State := if e.lost line then s else s.copyLine (e.place.address line) (t.address line)
        let move : State := if !room || !s.slicesAgree e (e.place.home line) (t.home line) then s else
          places.foldl State.fitWays (bytes.lineMoved rng line)
        if toLines e.limit ≤ line then s
        else if e.lost line && places.isEmpty then (if source then s.lineMoved rng line else s)
        else match e.transit with
          | 0 => if !source || !room then s else if !near then stage 1 else if target then move else s
          | 1 => if inGleanerSlot s.now then stage 2 else s
          | _ => if target then move else s)

/-- `MOVE_END`: the target is installed once the frontier has reached the limit, and the move is cleared when no request
translated under the old placement remains (R84). A channel table of the gleaner's own choice takes the old one's place (log
entry 13); a recovery that is due starts before a command that waits (log entry 153). -/
def execMoveEnd (rng : Nat) (s : State) : Out :=
  .next (match s.range rng with
    | none => s
    | some e => match e.move.target with
      | none => s
      | some t =>
        if e.front < toLines e.limit then s else
        let s := s.modRange rng fun e => { e with place := t }
        if s.inFlight (fun x => x.idx == rng && x.place != t) s.nextId then s else
        let s := (s.modRange rng fun e =>
          { e with move := .none, front := 0, transit := 0,
                   lostCh := e.lostCh.filter fun c => t.shares.any (·.ch == c) }).writeTable t
        s.startRecovery rng)

/-! ## Loss and retirement (R251, R252) -/

/-- The line offsets of a range, in order. -/
def RangeEnt.lines (e : RangeEnt) : List Nat := (List.range (toLines e.limit / 64)).map (64 * ·)

/-- A range has a share on an HBM channel, under its placement or its move's target. -/
def RangeEnt.on (e : RangeEnt) (ch : Nat) : Bool :=
  (e.place :: e.move.target.toList).any fun p => p.tier == 0 && p.shares.any (·.ch == ch)

/-- A range loses a channel: the lines on it, under the placement that holds each, that parity does not recover are listed,
and its recovery starts, after a move in progress (R85, R252). -/
def State.loseChannel (s : State) (ch : Nat) (e : RangeEnt) : State :=
  if !e.on ch then s else
  let e' := { e with lostCh := ch :: e.lostCh.filter (· != ch) }
  let gone := e'.lines.filter fun l => e'.deadAt l && !e.deadAt l && !e.lost l
  let s := s.modRange e.idx fun _ =>
    { e' with losses := e.losses ++ gone.map (⟨2, ·⟩), lossCount := e.lossCount + gone.length }
  (s.writeLosses e.idx).startRecovery e.idx

/-- A channel is retired (R252). -/
def State.retireCh (s : State) (ch : Nat) : State :=
  if s.retired.contains ch then s
  else s.ranges.foldl (fun s e => s.loseChannel ch e) { s with retired := ch :: s.retired }

/-- `CHANNEL_RETIRE_BY_PORT`: an HBM channel (R252). -/
def execChannelRetireByPort (ch : Nat) (s : State) : Out := .next (if ch < 256 then s.retireCh ch else s)

/-! ## The ports' own slots (R27, R251, R253) -/

/-- `SCRUBBING`: in its slot a port corrects a line, whose value stays, or lists it (R27, R251). -/
def execScrubbing (rng line : Nat) (ue : Bool) (s : State) : Out :=
  .next (match s.range rng with
    | none => s
    | some e =>
      if !s.inPortSlot (portOf (e.tierOf line) ((e.placeOf line).channel line)) 24 28 || line % 64 != 0 ||
          decide (toLines e.limit ≤ line) || e.peer.isSome then s
      else if ue then s.addLoss rng line 1 else s)

/-- `HBM_RETRAINING`: a channel in its own slot, once in every period (R27, R253). -/
def execHbmRetraining (ch : Nat) (s : State) : Out :=
  let f := frameOf s.now
  .next (if decide (frameCycle s.now < 3456) || !s.retrains ch then s
    else { s with retrained := (ch, f) :: s.retrained.filter (·.1 != ch) })

/-- Every channel is retrained whose time it is (R253). -/
def State.retrainDue (s : State) : State :=
  let now := (List.range 256).filter fun ch => decide (s.retrainTime ch ≤ s.now)
  { s with retrained := now.foldl (fun l ch => (ch, frameOf s.now) :: l.filter (·.1 != ch)) s.retrained }

/-- `TELEMETRY`: the slots of R27 and R28 pass; nothing of the state changes. -/
def execTelemetry (s : State) : Out := .next s

/-- A line of a home slice leaves it by replacement, under every key it is held under (R102, R104). -/
def State.writebackL3 (s : State) (rng line : Nat) : State :=
  match s.range rng with
  | none => s
  | some e => (s.l3.filter fun l => l.job == e.owner && l.rng == rng && l.line == line).foldl State.evictL3 s

end Sys2Proof.Machine
end

