-- ==== Sys2Proof/Machine/Management.lean ====
section
/-! DEFINITION. The management interface: commands of a function, jobs, ranges, keys, tables, arbors, pre-emption,
watchdog periods, channels and attestation (R77, R183, R206, R234, R238, R240, R243 to R249, R252). -/

namespace Sys2Proof.Machine
open Sys2Proof

/-! ## Commands (R243, R244) -/

/-- The value of an argument register. -/
def argOf (args : List DWord) (i : Nat) : Nat := ((args[i]?).map (·.toNat)).getD 0

/-- A command of a function has ended with a status and a result. -/
def State.answer (s : State) (fn status result : Nat) : State :=
  s.modFunc fn fun f => { f with busy := .idle, status := status, result := result % 2 ^ 32 }

/-- A command of a function goes on. -/
def State.goesOn (s : State) (fn : Nat) (b : Busy) : State := s.modFunc fn fun f => { f with busy := b, status := 1 }

/-- One failed host request or ignored command; the count wraps (R242; log entry 162). -/
def State.hostError (s : State) (fn : Nat) : State :=
  s.modFunc fn fun f => { f with herrcnt := (f.herrcnt + 1) % 2 ^ 32 }

/-- A write to `MOP` (R243, R244): ignored while the function is busy; a command marked PF answers 3 elsewhere than at
function 0. -/
def State.mopWrite (s : State) (fn op : Nat) (pf : Bool) (body : List DWord → State → State) : State :=
  if 64 < fn then s
  else if (s.func fn).busy != .idle then s.hostError fn
  else
    let s := s.modFunc fn fun f => { f with mop := BitVec.ofNat 64 op, status := 0, result := 0 }
    if pf && fn != 0 then s.answer fn 3 0 else body (s.func fn).margs s

/-- The number under which a function's command reads peer ranges. -/
def commandReader (fn : Nat) : Nat := 2 ^ 67 + fn

/-- The range of a VA of a job, if it lies in one. -/
def State.rangeAt (s : State) (job va : Nat) : List Nat := ((s.vaLines job va 1).map (·.1.idx))

/-- The ranges that a command touches: those it names, and those of the addresses it names (R243, R244). -/
def State.touches (s : State) (op : Nat) (a : List DWord) : List Nat :=
  match op with
  | 0x02 => (s.ranges.filter (·.owner == argOf a 0)).map (·.idx)
  | 0x03 => s.rangeAt (argOf a 0) (argOf a 1) ++ s.rangeAt (argOf a 0) (argOf a 2)
  | 0x10 => [natBits (argOf a 6) 0 20]
  | 0x11 | 0x12 => [natBits (argOf a 1) 0 20]
  | 0x20 => s.rangeAt (argOf a 1) (argOf a 2)
  | 0x30 => [argOf a 2]
  | 0x40 => s.rangeAt (argOf a 0) (argOf a 3)
  | 0x41 => s.rangeAt (argOf a 0) (argOf a 1)
  | 0x50 => (s.ranges.filter fun e => e.on (argOf a 0)).map (·.idx)
  | 0x60 => s.rangeAt (argOf a 0) (argOf a 1) ++ s.rangeAt (argOf a 0) (argOf a 2)
  | _ => []

/-- A command of another function that came before a point waits on a range; a Destroy job waits on all of its job's
(R244). -/
def State.rangeAwaited (s : State) (fn x seq : Nat) : Bool :=
  s.funcs.any fun f => f.id != fn && match f.busy with
    | .waiting op n a => decide (n < seq) && (s.touches op.toNat a).contains x
    | .destroying job n => decide (n < seq) && ((s.range x).map (·.owner)) == some job
    | _ => false

/-- A command waits: for the end of a move or of an earlier change of a range it touches, or behind an earlier command on
one (R77, R244; log entry 154). -/
def State.mustWait (s : State) (fn op seq : Nat) (a : List DWord) : Bool :=
  (s.touches op a).any fun x =>
    s.rangeAwaited fn x seq || s.rangeDrains x || ((s.range x).map (·.move != .none)).getD false

/-- A command of a function waits; `seq` is its place among those that do. -/
def State.waitCommand (s : State) (fn op seq : Nat) (a : List DWord) : State :=
  s.goesOn fn (.waiting (BitVec.ofNat 64 op) seq a)

/-- A command waits its turn on the ranges it touches, and what it reads of peer ranges is fetched; until then the function
is busy with it (R75, R77, R244). -/
def State.fetchFor (s : State) (fn op job seq : Nat) (a : List DWord) (need : List (RangeEnt × Nat))
    (body : State → State) : State :=
  if s.mustWait fn op seq a then s.waitCommand fn op seq a else
  match s.gather (commandReader fn) job 0 need with
  | (true, s) => (body s).used (commandReader fn)
  | (false, s) => s.waitCommand fn op seq a

/-- A write to `MOP` of a command that may have to wait. -/
def State.mopStep (s : State) (fn op : Nat) (pf : Bool) (body : Nat → List DWord → State → State) : State :=
  s.mopWrite fn op pf fun a s => body s.nextId a s.bump

/-- A command that names a job: 2 where there is none, 3 where it is another function's (R243). -/
def State.onJob (s : State) (fn job : Nat) (body : Job → State → State) : State :=
  match s.job job with
  | none => s.answer fn 2 0
  | some j => if fn != 0 && j.fn != fn then s.answer fn 3 0 else body j s

/-- The commands of R243. -/
def commandOps : List Nat :=
  [0x01, 0x02, 0x03, 0x10, 0x11, 0x12, 0x20, 0x21, 0x30, 0x31, 0x40, 0x41, 0x42, 0x50, 0x60]

/-- `MOP_UNKNOWN` (R243). -/
def execMopUnknown (fn : Nat) (op : DWord) (s : State) : Out :=
  .next (if commandOps.contains op.toNat then s else s.mopWrite fn op.toNat false fun _ s => s.answer fn 2 0)

/-! ## Jobs (R245) -/

/-- `CREATE_JOB`: refused without an accepted `BASE` bit or after a failed firmware check (R2, R245, R248). -/
def execCreateJob (fn : Nat) (s : State) : Out :=
  .next (s.mopWrite fn 0x01 true fun a s =>
    let owner := argOf a 0
    if 64 < owner ∨ s.featDev = 0 ∨ !s.featAcc.getLsbD 0 ∨ 65535 < s.nextJob then s.answer fn 2 0
    else
      let n := s.nextJob
      State.answer { s with jobs := s.jobs ++ [{ Job.fresh n owner with lastRetire := s.now }], nextJob := n + 1 } fn 0 n)

/-- Start job: the checks of R245; the job block is cleared, and the root stook may start. -/
def State.startStep (s : State) (fn seq : Nat) (a : List DWord) : State :=
  s.onJob fn (argOf a 0) fun j s => s.fetchFor fn 0x03 j.id seq a (s.vaLines j.id (argOf a 2) 128) fun s =>
    let block := argOf a 1
    let ap := argOf a 3
    let blockOk := match s.translate j.id block 64 8 (rightW ||| rightA) with
      | .ok (e, off) => e.cls == .sh && (s.lineChecks e true off 64 block).isNone
      | .error _ => false
    let header := (s.readHeader j.id (argOf a 2)).bind fun h => if s.headerRefused h then none else some h
    let apOk := ap % 32768 == 0 && decide (ap + 32768 ≤ 2 ^ 57) &&
      !s.ranges.any fun x => x.owner == j.id && overlaps x.base x.limit ap 32768
    match header with
    | some kh =>
      if j.started || j.destroying || !blockOk || !apOk then s.answer fn 2 0 else
      let s := s.writeVa j.id block (List.replicate 64 0)
      let s := s.modJob j.id fun j =>
        { j with started := true, block := block, counters := ⟨0, 0, 0⟩, rootVa := argOf a 2, rootKh := some kh, root := .waiting, aperture := ap,
                 graphs := [⟨1, false, false, false, 1⟩], phaseNo := 1, lastRetire := s.now }
      s.answer fn 0 0
    | none => s.answer fn 2 0

/-- `START_JOB`: the command, and the root stook on the bay named where that has room (R35, R245). -/
def execStartJob (fn tag bay die : Nat) (s : State) : Out :=
  .next (s.mopStep fn 0x03 false fun seq a s =>
    let s' := s.startStep fn seq a
    match s'.job (argOf a 0) with
    | some j => if (s'.func fn).busy == .idle && (s'.func fn).status == 0 then s'.startRoot j die bay tag else s'
    | none => s')

/-- A free of a job's arbor joins the arbor's queue (R183). -/
def State.askFree (s : State) (a : Arbor) (fn : Option Nat) : State :=
  s.modArbor a.id fun a => { a with queue := a.queue ++ [.free], freeFn := fn }

/-- A free of an arbor has been asked for or is under way. -/
def Arbor.freed (a : Arbor) : Bool := a.freeing || a.queue.contains .free

/-- The steps of Destroy job that can be taken now (R245). -/
def State.destroyStep (s : State) (fn job : Nat) : State :=
  let here := s.stooks.any (·.job == job) || s.saved.any (·.job == job) || s.copies.any (·.job == job) ||
    s.reqs.any (·.job == job) || s.fabReqs.any (·.job == job)
  if here then s else
  match s.arbor job with
  | some a => if a.freed then s else s.askFree a none
  | none =>
    let mine := s.ranges.filter (·.owner == job)
    if mine.any fun e => e.move != .none || s.rangeDrains e.idx then s else
    let s := mine.foldl (fun s e => (s.deleteRange e.idx).forgetRange e.idx) s
    State.answer { s with jobs := s.jobs.filter (·.id != job), code := s.code.filter (·.job != job),
                          chunkUses := s.chunkUses.filter (·.job != job) } fn 0 0

/-- Destroy job: cancels the job, behind earlier commands on its ranges; its number is retired once nothing of it remains
(R50, R244, R245). -/
def State.destroyCommand (s : State) (fn seq : Nat) (a : List DWord) : State :=
  s.onJob fn (argOf a 0) fun j s =>
    if j.destroying then s.answer fn 2 0
    else if (s.touches 0x02 a).any (s.rangeAwaited fn · seq) then s.waitCommand fn 0x02 seq a
    else
      let s := (s.modJob j.id fun j => { j with destroying := true }).cancel j.id 4 0 0
      (s.goesOn fn (.destroying j.id seq)).destroyStep fn j.id

/-- `DESTROY_JOB` (R245). -/
def execDestroyJob (fn : Nat) (s : State) : Out :=
  .next (s.mopStep fn 0x02 false fun seq a s => s.destroyCommand fn seq a)

/-! ## Ranges (R73, R77, R82 to R85) -/

/-- The command is done, or busy until the accesses under the old entry have reached their homes (R77). -/
def State.answerDrain (s : State) (fn x result : Nat) : State :=
  if s.drainsRange x s.nextId then (s.answer fn 1 result).goesOn fn (.draining x s.nextId)
  else (s.forgetRange x).answer fn 0 result

/-- Command 0x12 on a range that is not moving (R83 to R85). -/
def State.startMove (s : State) (fn : Nat) (e : RangeEnt) (a : List DWord) : State :=
  let w := argOf a 2
  let m := natBits w 62 2
  let clean := natBits w 0 32 == 0 && natBits w 45 17 == 0 && (m != 1 || natBits w 32 13 == 0)
  let target := s.readPlacement (natBits w 44 1) (natBits w 40 4) (natBits w 32 8 + 1) (argOf a 3) e.limit e.par
  if !clean || e.peer.isSome then s.answer fn 2 0
  else if m = 1 then (match s.startSlide e (argOf a 3) with
    | some s => s.answer fn 0 0
    | none => s.answer fn 2 0)
  else match m, target with
    | 2, some t => (s.startReplace e.idx (.replace t)).answer fn 0 0
    | 3, some t => if e.rebuilds t then (s.startReplace e.idx (.rebuild t)).answer fn 0 0 else s.answer fn 2 0
    | _, _ => s.answer fn 2 0

/-- A command on a named range of a job (R77, R244). -/
def State.rangeCommand (s : State) (fn op seq : Nat) (a : List DWord) : State :=
  let job := if op = 0x10 then natBits (argOf a 2) 48 16 else argOf a 0
  let x := if op = 0x10 then natBits (argOf a 6) 0 20 else natBits (argOf a 1) 0 20
  let clean := if op = 0x10 then natBits (argOf a 6) 20 43 == 0 else argOf a 1 / 2 ^ 20 == 0
  s.onJob fn job fun j s =>
    match s.range x with
    | none => s.answer fn 2 0
    | some e =>
      if e.owner ≠ j.id ∨ !clean then s.answer fn 2 0
      else if s.mustWait fn op seq a then s.waitCommand fn op seq a
      else match op with
        | 0x10 => (match s.changeRange e (a.take 6) with
          | some s => s.answerDrain fn x x
          | none => s.answer fn 2 0)
        | 0x11 => (s.deleteRange x).answerDrain fn x 0
        | _ => s.startMove fn e a

/-- A write to `MOP` of a command on a named range. -/
def State.rangeMop (s : State) (fn op : Nat) : State :=
  s.mopStep fn op false fun seq a s => s.rangeCommand fn op seq a

/-- `CREATE_RANGE`: command 0x10 with `MARG6`[63] clear; any other bit of it refuses (R73, R243). -/
def execCreateRange (fn : Nat) (s : State) : Out :=
  let m6 := argOf (s.func fn).margs 6
  .next (if 2 ^ 63 ≤ m6 then s else s.mopWrite fn 0x10 false fun a s =>
    s.onJob fn (natBits (argOf a 2) 48 16) fun _ s =>
      match if m6 = 0 then s.createRange (a.take 6) else none with
      | some (x, s) => s.answer fn 0 x
      | none => s.answer fn 2 0)

/-- `CHANGE_RANGE`: command 0x10 with `MARG6`[63] set (R73, R77). -/
def execChangeRange (fn : Nat) (s : State) : Out :=
  .next (if argOf (s.func fn).margs 6 < 2 ^ 63 then s else s.rangeMop fn 0x10)

/-- `DELETE_RANGE` (R73, R77). -/
def execDeleteRange (fn : Nat) (s : State) : Out := .next (s.rangeMop fn 0x11)

/-- `MOVE` of `MARG2` of a function. -/
def State.moveArg (s : State) (fn : Nat) : Nat := natBits (argOf (s.func fn).margs 2) 62 2

/-- `START_SLIDE`: command 0x12 with `MOVE` 1; with `MOVE` 0 it is refused (R83). -/
def execStartSlide (fn : Nat) (s : State) : Out := .next (if s.moveArg fn ≤ 1 then s.rangeMop fn 0x12 else s)
/-- `START_REPLACE`: command 0x12 with `MOVE` 2 (R84). -/
def execStartReplace (fn : Nat) (s : State) : Out := .next (if s.moveArg fn = 2 then s.rangeMop fn 0x12 else s)
/-- `START_REBUILD`: command 0x12 with `MOVE` 3 (R85). -/
def execStartRebuild (fn : Nat) (s : State) : Out := .next (if s.moveArg fn = 3 then s.rangeMop fn 0x12 else s)

/-! ## Keys (R104, R243, R247) -/

/-- Load key: the material read, or none where an armed alarm has erased the keys in this fabric cycle (R247, R250). -/
def State.loadKeyStep (s : State) (fn seq : Nat) (a : List DWord) : State :=
  s.onJob fn (argOf a 1) fun j s => s.fetchFor fn 0x20 j.id seq a (s.vaLines j.id (argOf a 2) 96) fun s =>
    let k := argOf a 0
    let va := argOf a 2
    match s.translate j.id va 96 1 rightR with
    | .ok (e, off) =>
      if k = 0 ∨ 4095 < k ∨ (s.lineChecks e false off 96 va).isSome then s.answer fn 2 0
      else
        let erased := match s.erasedAt with | some t => t / 2 == s.now / 2 | none => false
        let mat := if erased then none else some (KeyMat.wrapped (s.homeReadN e off 96))
        State.answer { s with keys := upsert (·.id == k) ⟨k, none⟩ (fun x => { x with mat := mat }) s.keys } fn 0 0
    | .error _ => s.answer fn 2 0

/-- `LOAD_KEY` (R243, R247, R250). -/
def execLoadKey (fn : Nat) (s : State) : Out := .next (s.mopStep fn 0x20 true fun seq a s => s.loadKeyStep fn seq a)

/-- A store to an L1 under a key that has not left the store buffer (R101, R104). -/
def Req.stores (r : Req) (k : Nat) : Bool :=
  r.isWrite && !r.home && match r.place with | .range e _ => e.key == k | _ => false

/-- Stores under a key leave the store buffers, with what the job's threads issued before them, as far as their order lets
them (R101, R127). -/
def State.driveStores (s : State) (k : Nat) : State :=
  let stored := s.reqs.filter (·.stores k)
  s.drive fun r => stored.any fun q => r.job == q.job && decide (r.id ≤ q.id)

/-- Retires a key: copies under it are written back, then dropped, then the key is erased (R104, R196). -/
def State.retireKeyId (s : State) (k : Nat) : State :=
  let s := (s.l2.filter (·.key == k) ++ s.l1.filter (·.key == k)).foldl State.mergeHome s
  let s := (s.l3.filter (·.key == k)).foldl State.evictL3 s
  { s with l1 := s.l1.filter (·.key != k), l2 := s.l2.filter (·.key != k), l3 := s.l3.filter (·.key != k),
           versions := s.versions.filter (·.key != k), code := s.code.filter (·.key != k),
           keys := modWhere (·.id == k) (fun x => { x with mat := none }) s.keys }

/-- Retire key: it waits until no store buffer holds bytes written under the key, which are dirty copies too (R101, R104;
log entry 155). -/
def State.retireKeyStep (s : State) (fn seq : Nat) (a : List DWord) : State :=
  let k := argOf a 0
  if 4095 < k then s.answer fn 2 0 else
  let s := s.driveStores k
  if s.reqs.any (·.stores k) then s.waitCommand fn 0x21 seq a else (s.retireKeyId k).answer fn 0 0

/-- `RETIRE_KEY` (R104, R243). -/
def execRetireKey (fn : Nat) (s : State) : Out := .next (s.mopStep fn 0x21 true fun seq a s => s.retireKeyStep fn seq a)

/-! ## Tables of a job (R112, R168, R206) -/

/-- The job's table of a kind is a range. -/
def Job.setTable (j : Job) (kind x : Nat) : Job :=
  match kind with
  | 0 => { j with tmpl := some x }
  | 1 => { j with handlers := some x }
  | _ => { j with mxRange := some x }

/-- Command 0x30: the range has R and holds at most 4,096 entries of the kind's size, 16 bytes for a handler and 64 else;
it waits its turn on the range (R77, R112, R168, R206, R244). -/
def State.registerStep (s : State) (fn seq : Nat) (a : List DWord) : State :=
  s.onJob fn (argOf a 0) fun j s =>
    let kind := argOf a 1
    match s.range (argOf a 2) with
    | some e =>
      if s.mustWait fn 0x30 seq a then s.waitCommand fn 0x30 seq a
      else if 2 < kind ∨ e.owner ≠ j.id ∨ !e.grants rightR ∨ 4096 * (if kind = 1 then 16 else 64) < e.limit then
        s.answer fn 2 0
      else (s.modJob j.id (·.setTable kind e.idx)).answer fn 0 0
    | none => s.answer fn 2 0

/-- A write to `MOP` of command 0x30. -/
def State.registerTable (s : State) (fn : Nat) : State :=
  s.mopStep fn 0x30 false fun seq a s => s.registerStep fn seq a

/-- The kind that a command 0x30 of a function names. -/
def State.kindArg (s : State) (fn : Nat) : Nat := natBits (argOf (s.func fn).margs 1) 0 2

/-- `REGISTER_TEMPLATE_RANGE` (R112). -/
def execRegisterTemplateRange (fn : Nat) (s : State) : Out :=
  .next (if s.kindArg fn = 0 then s.registerTable fn else s)
/-- `REGISTER_HANDLER_TABLE` (R206). -/
def execRegisterHandlerTable (fn : Nat) (s : State) : Out :=
  .next (if s.kindArg fn = 1 then s.registerTable fn else s)
/-- `REGISTER_MATRIX_COMMAND_RANGE`; kind 3 is refused with it (R168). -/
def execRegisterMatrixCommandRange (fn : Nat) (s : State) : Out :=
  .next (if 2 ≤ s.kindArg fn then s.registerTable fn else s)

/-! ## Arbors (R183) -/

/-- The lowest arbor number that no job holds. -/
def State.freeArbor (s : State) : Nat :=
  ((List.range 256).find? fun i => !s.arbors.any (·.id == i)).getD 256

/-- `GIVE_ARBOR`: only the root, and P is the root (R183), whatever feature word is accepted (log entry 125). -/
def execGiveArbor (fn : Nat) (s : State) : Out :=
  .next (if argOf (s.func fn).margs 1 % 2 ≠ 0 then s else s.mopWrite fn 0x31 false fun a s =>
    s.onJob fn (argOf a 0) fun j s =>
      let n := s.freeArbor
      if argOf a 1 ≠ 0 ∨ (s.arbor j.id).isSome ∨ n = 256 then s.answer fn 2 0
      else
        let x : Arbor := { id := n, job := j.id, nodes := [], prefixP := 0, nextSeq := 0, inflight := [], queue := [],
                           flatten := false, freeing := false, freeFn := none }
        State.answer { s with arbors := s.arbors ++ [x] } fn 0 n)

/-- `FREE_ARBOR`: the free joins the arbor's one service order (R183, R187). A second one answers 2 at once (log entry
135). -/
def execFreeArbor (fn : Nat) (s : State) : Out :=
  .next (if argOf (s.func fn).margs 1 % 2 = 0 then s else s.mopWrite fn 0x31 false fun a s =>
    s.onJob fn (argOf a 0) fun j s =>
      match s.arbor j.id with
      | some x => if argOf a 1 ≠ 1 ∨ x.freed then s.answer fn 2 0 else (s.askFree x (some fn)).goesOn fn (.freeing j.id)
      | none => s.answer fn 2 0)

/-! ## Pre-emption and restore (R234, R238) -/

/-- Command 0x40, after earlier commands on the range of its save region and after that range's move (R234, R235, R244). -/
def State.preemptStep (s : State) (fn seq : Nat) (a : List DWord) : State :=
  s.onJob fn (argOf a 0) fun j s =>
    if s.mustWait fn 0x40 seq a then s.waitCommand fn 0x40 seq a else
    let launch := argOf a 1
    let us := argOf a 4
    let named (k : Stook) : Bool := k.job == j.id && k.launch == launch && k.index == argOf a 2 &&
      (match k.kind with | .handler _ => false | _ => true)
    match s.stooks.find? named with
    | some k =>
      let badTime := us != 0 && (decide (us < 10) || decide (10000 < us))
      if k.pre.isSome || !s.regionOk k (argOf a 3) || badTime then s.answer fn 2 0
      else ((s.startPreempt k (argOf a 3) us fn).goesOn fn (.preempt k.tag)).parkAll
    | none => s.answer fn 2 0

/-- `PRE_EMPT_STOOK` (R234, R235). -/
def execPreEmptStook (fn : Nat) (s : State) : Out :=
  .next (s.mopStep fn 0x40 false fun seq a s => s.preemptStep fn seq a)

/-- The stook that a command 0x41 names. -/
def State.savedAt (s : State) (a : List DWord) : Option SavedStook :=
  s.saved.find? fun x => x.job == argOf a 0 && x.region == argOf a 1

/-- The residence tag wished for, or the lowest that is free. -/
def State.freeTag (s : State) (tag : Nat) : Nat :=
  let taken := s.stooks.length + s.saved.length + (s.stooks.map (·.olds.length)).sum +
    (s.saved.map (·.olds.length)).sum + s.copies.length + s.followOns.length
  if s.tagFree tag then tag else (((List.range (taken + 1)).map (· + 1)).find? s.tagFree).getD tag

/-- The restore of a saved stook on one of the bays given, once its records are there; where none has room it waits and is
placed as soon as a bay has it: among those that do the launch unit is free (R45, R238). Records that cannot be read refuse
it (log entry 124). -/
def State.restoreStep (s : State) (fn seq : Nat) (a : List DWord) (bays : List (Nat × Nat)) : State :=
  s.onJob fn (argOf a 0) fun _ s =>
    match s.savedAt a with
    | none => s.answer fn 2 0
    | some x =>
      if s.mustWait fn 0x41 seq a then s.waitCommand fn 0x41 seq a else
      match s.gather (commandReader fn) x.job 0 (s.recordLines x) with
      | (false, s) => s.waitCommand fn 0x41 seq a
      | (true, s) =>
        if !s.recordsReadable x then (s.answer fn 2 0).used (commandReader fn) else
        let tag := s.freeTag (argOf a 8)
        let s' := (s.goesOn fn (.restore tag)).handOver (commandReader fn) (stookReader tag)
        let found := bays.filterMap fun b => s'.startRestore x b.1 b.2 tag
        (found[Config.planTime s.free % found.length]?).getD (s.waitCommand fn 0x41 seq a)

/-- `RESTORE_STOOK` (R238): on the bay named, if that has room. -/
def execRestoreStook (fn die bay tag : Nat) (s : State) : Out :=
  .next (s.mopStep fn 0x41 false fun seq a s => s.restoreStep fn seq (a ++ [BitVec.ofNat 64 tag]) [(die, bay)])

/-! ## Watchdog, channels, attestation (R240, R249, R252) -/

/-- `SET_WATCHDOG_PERIOD` (R240, R243). -/
def execSetWatchdogPeriod (fn : Nat) (s : State) : Out :=
  .next (s.mopWrite fn 0x42 false fun a s => s.onJob fn (argOf a 0) fun j s =>
    let ms := argOf a 1
    if ms = 0 ∨ 1024 < ms then s.answer fn 2 0
    else (s.modJob j.id fun j => { j with period := 4000000 * ms }).answer fn 0 0)

/-- The watchdog period runs on for a thread: one that is ready (R53), in a bundle, or held by a blocking instruction, unless
it is a root-stook thread held in `WAITGE` or `DOZE` (R221, R240; log entry 84). -/
def State.watched (s : State) (k : Stook) (h : Sheaf) (t : Thread) : Bool :=
  match t.held.bind fun id => s.holds.find? (·.id == id) with
  | some x => k.kind != .root || (match x.kind with | .waitGe .. | .doze .. => false | _ => true)
  | none => t.inBundle || s.threadReady k h t

/-- The watchdog period of a job does not run: it has no such thread, or all its stooks but the root stook are saved
(R240). -/
def State.watchdogRests (s : State) (j : Job) : Bool :=
  let mine := s.stooks.filter (·.job == j.id)
  let others := mine.filter (·.kind != .root)
  let idle := mine.all fun k => (s.threadsOf k.tag).all fun x => !s.watched k x.1 x.2.2
  idle || (others.isEmpty && s.saved.any fun x => x.job == j.id && x.kind != .root)

/-- Periods that do not run start afresh when they run again (R240). -/
def State.restWatchdogs (s : State) : State :=
  let rest (j : Job) : Job := if s.watchdogRests j then { j with lastRetire := s.now } else j
  { s with jobs := s.jobs.map rest }

/-- `WATCHDOG_EXPIRY` (R240, R241). -/
def execWatchdogExpiry (job : Nat) (s : State) : Out :=
  .next (match s.job job with
    | none => s
    | some j =>
      if !j.started || j.ended || s.watchdogRests j || decide (s.now < j.lastRetire + j.period) then s
      else s.fire job 0 0)

/-- Command 0x50, after earlier commands on the ranges of the channel and after their moves (R244, R252). -/
def State.retireStep (s : State) (fn seq : Nat) (a : List DWord) : State :=
  if 255 < argOf a 0 then s.answer fn 2 0
  else if s.mustWait fn 0x50 seq a then s.waitCommand fn 0x50 seq a
  else (s.retireCh (argOf a 0)).answer fn 0 0

/-- `RETIRE_CHANNEL` (R243, R252). -/
def execRetireChannel (fn : Nat) (s : State) : Out :=
  .next (s.mopStep fn 0x50 true fun seq a s => s.retireStep fn seq a)

/-- The report over the firmware digests, the alarm policy, `FEATACC` and a nonce (R248, R249). -/
def State.reportOf (s : State) (nonce : List Byte) : List Byte :=
  Config.attestReport (s.firmware.map (·.digest)) s.arming s.featAcc nonce

/-- Attest: the report over the nonce is written. Nonce and report lie in ranges of the job, no line of them that is read or
written in part is lost, and their keys live (R104, R249, R251). -/
def State.attestStep (s : State) (fn seq : Nat) (a : List DWord) : State :=
  s.onJob fn (argOf a 0) fun j s => s.fetchFor fn 0x60 j.id seq a (s.vaLines j.id (argOf a 1) 64) fun s =>
    match s.readVa j.id (argOf a 1) 64 0 with
    | none => s.answer fn 2 0
    | some nonce =>
      let report := s.reportOf nonce
      match s.translate j.id (argOf a 2) report.length 1 0 with
      | .error _ => s.answer fn 2 0
      | .ok (e, off) =>
        if e.peer.isNone && (s.lineChecks e true off report.length 0).isSome then s.answer fn 2 0
        else State.answer { s.writeVa j.id (argOf a 2) report with report := report } fn 0 0

/-- `ATTEST`. In the degraded state no job can exist: the report stands ready without one, over a nonce that is not stated
(R248, R249; log entry 114). -/
def execAttest (fn : Nat) (s : State) : Out :=
  .next (s.mopStep fn 0x60 false fun seq a s =>
    if s.featDev = 0 then
      State.answer { s with report := s.reportOf ((List.range 64).map (Config.freeByte s.free)), free := s.free + 1 } fn 0 0
    else s.attestStep fn seq a)

/-! ## What commands wait for -/

/-- A busy function goes on where it can. -/
def State.commandStep (s : State) (fn : Nat) : State :=
  match (s.func fn).busy with
  | .draining x upto =>
    if s.drainsRange x upto then s else (s.forgetRange x).modFunc fn fun f => { f with busy := .idle, status := 0 }
  | .destroying job _ => s.destroyStep fn job
  | .waiting op seq a => match op.toNat with
    | 0x02 => s.destroyCommand fn seq a
    | 0x03 => s.startStep fn seq a
    | 0x20 => s.loadKeyStep fn seq a
    | 0x21 => s.retireKeyStep fn seq a
    | 0x30 => s.registerStep fn seq a
    | 0x40 => s.preemptStep fn seq a
    | 0x41 => s.restoreStep fn seq a ((List.range 128).map fun b => (b / 16, b % 16))
    | 0x50 => s.retireStep fn seq a
    | 0x60 => s.attestStep fn seq a
    | n => s.rangeCommand fn n seq a
  | _ => s

/-- The place of a function's command among those that wait. -/
def Func.seq (f : Func) : Nat := match f.busy with | .waiting _ n _ | .destroying _ n => n | _ => 0

/-- Puts a function before the first that came later. -/
def insertFunc (f : Func) : List Func → List Func
  | [] => [f]
  | g :: r => if f.seq ≤ g.seq then f :: g :: r else g :: insertFunc f r

/-- Commands that wait go on, those for a range in the order in which they came (R77, R244). -/
def State.commandSteps (s : State) : State :=
  ((s.funcs.filter (·.busy != .idle)).foldr insertFunc []).foldl (fun s f => s.commandStep f.id) s

/-- What of the jobs can complete completes (R35, R43). -/
def State.progressAll (s : State) : State := (s.jobs.map (·.id)).foldl State.progress s

/-- Ranges with a share on a retired channel start their recovery as soon as there is room for it (R252). -/
def State.recoverAll (s : State) : State :=
  (s.ranges.filter fun e => !e.lostCh.isEmpty).foldl (fun s e => s.startRecovery e.idx) s

/-- What follows every act at once: fabric requests that may be sent are sent, threads park, commands that waited go on, lost
channels' ranges recover, jobs complete what they can, watchdog periods that do not run stand still, and caches keep to their
sizes. -/
def State.follow (s : State) : State := s.settle.parkAll.commandSteps.recoverAll.progressAll.restWatchdogs.trim

end Sys2Proof.Machine
end

