-- ==== Sys2Proof/Machine/Host.lean ====
section
/-! DEFINITION. The host's side: windows, BAR0 registers, device reset, the alarm and the power controller (R1, R2, R24,
R31, R87, R88, R99, R242, R246 to R250, R253). -/

namespace Sys2Proof.Machine
open Sys2Proof

/-! ## Windows (R87, R88) -/

/-- A window of a function; one never written holds zeros (R242). -/
def Func.window (f : Func) (w : Nat) : Window := (f.windows.find? (·.idx == w)).getD ⟨w, 0, 0⟩

/-- The range and offset that n bytes at a BAR2 offset reach, where the request passes every check of R88. -/
def State.windowAccess (s : State) (fn off n : Nat) (write : Bool) : Option (RangeEnt × Nat) :=
  let f := s.func fn
  let size := 2 ^ f.winsize
  let w := off / size
  let x := off % size
  let win := f.window w
  let job := natBits win.w1.toNat 20 16
  match s.range (natBits win.w1.toNat 0 20), s.job job with
  | some e, some j =>
    let o := natBits win.w0.toNat 0 48 + x
    let need := rightH ||| if write then rightW else rightR
    if 64 < fn ∨ 255 < w ∨ !win.w1.getLsbD 63 ∨ e.owner ≠ job ∨ !e.grants need ∨ e.limit < o + n ∨ j.fn ≠ fn ∨
        size < x + n ∨ e.peer.isSome ∨ (s.lineChecks e write o n 0).isSome then none
    else some (e, o)
  | _, _ => none

/-- `HOST_WINDOW_READ`: data read at home as committed, or Unsupported Request and one host error (R88). -/
def execHostWindowRead (fn off len : Nat) (s : State) : Out :=
  .next (match s.windowAccess fn off len false with
    | some (e, o) => { s with hostReads := s.hostReads ++ [⟨fn, off, some (s.homeReadN e o len)⟩] }
    | none => State.hostError { s with hostReads := s.hostReads ++ [⟨fn, off, none⟩] } fn)

/-- `HOST_WINDOW_WRITE`: written at home line by line, or dropped with one host error (R88). -/
def execHostWindowWrite (fn off : Nat) (bytes : List Byte) (s : State) : Out :=
  .next (match s.windowAccess fn off bytes.length true with
    | some (e, o) => s.homeWriteN e o bytes
    | none => s.hostError fn)

/-! ## BAR0 (R242) -/

/-- `FEATACC_WRITE`: once per reset, through function 0; the device word masks it (R2, R242). -/
def execFeataccWrite (fn : Nat) (value : DWord) (s : State) : Out :=
  .next (if fn ≠ 0 ∨ s.featWritten then s else { s with featAcc := value &&& s.featDev, featWritten := true })

/-- `HERRCNT_WRITE` (R242). -/
def execHerrcntWrite (fn : Nat) (s : State) : Out :=
  .next (if 64 < fn then s else s.modFunc fn fun f => { f with herrcnt := 0 })

/-- Word i of a window table entry takes a value; reserved fields stay zero (R5, R87). -/
def Func.setWindow (f : Func) (i : Nat) (v : DWord) : Func :=
  let set (w : Window) : Window :=
    if i % 2 = 0 then { w with w0 := v &&& 0x0000FFFFFFFFFFFF } else { w with w1 := v &&& 0x8000000FFFFFFFFF }
  { f with windows := upsert (·.idx == i / 2) ⟨i / 2, 0, 0⟩ set f.windows }

/-- `REGISTER_WRITE`: the BAR0 registers without behaviour of their own (R99, R242, R253). -/
def execRegisterWrite (fn off : Nat) (value : DWord) (s : State) : Out :=
  let v := value.toNat
  .next (if 64 < fn ∨ off % 8 ≠ 0 then s
    else if off = 0x010 then
      let k := v % 32
      if 20 ≤ k ∧ k ≤ 30 then s.modFunc fn fun f => { f with winsize := k } else s
    else if 0x080 ≤ off ∧ off < 0x0C0 then s.modFunc fn fun f => { f with margs := f.margs.set ((off - 0x080) / 8) value }
    else if 0x100 ≤ off ∧ off < 0x1100 then s.modFunc fn fun f => f.setWindow ((off - 0x100) / 8) value
    else if fn ≠ 0 then s
    else if 0x2000 ≤ off ∧ off ≤ 0x2200 then
      s.modFunc ((off - 0x2000) / 8) fun f => { f with l2mask := BitVec.ofNat 16 v }
    else if off = 0x2408 ∧ 1 ≤ v % 2048 ∧ v % 2048 ≤ 1024 then
      { s with retrain := v % 2048, retrainWas := s.period, retrainAt := frameOf s.now }
    else s)

/-- What a read of a BAR0 register of a function gives (R242): the registers of the physical function read zero in a virtual
one, but for `FEATACC`; so does whatever is no register (R5). -/
def State.registerRead (s : State) (fn off : Nat) : DWord :=
  let f := s.func fn
  let pf (v : DWord) : DWord := if fn = 0 then v else 0
  let word (w : Nat) : DWord := BitVec.ofNat 64 w
  if off = 0x000 then s.featDev
  else if off = 0x008 then s.featAcc
  else if off = 0x010 then word f.winsize
  else if off = 0x018 then word f.herrcnt
  else if off = 0x040 then f.mop
  else if off = 0x048 then word (f.status % 4 + f.result % 2 ^ 32 * 2 ^ 32)
  else if 0x080 ≤ off ∧ off < 0x0C0 ∧ off % 8 = 0 then (f.margs[(off - 0x080) / 8]?).getD 0
  else if 0x100 ≤ off ∧ off < 0x1100 ∧ off % 8 = 0 then
    let w := f.window ((off - 0x100) / 16)
    if off % 16 = 0 then w.w0 else w.w1
  else if 0x2000 ≤ off ∧ off ≤ 0x2200 ∧ off % 8 = 0 then pf ((s.func ((off - 0x2000) / 8)).l2mask.zeroExtend 64)
  else if off = 0x2400 then pf s.alarm
  else if off = 0x2408 then pf (word s.retrain)
  else 0

/-- The host reads a register (R242). -/
def State.hostRegister (s : State) (fn off : Nat) : State :=
  if 64 < fn then s else { s with regReads := s.regReads ++ [(fn, off, s.registerRead fn off)] }

/-- A memory port finds a line uncorrectable: the line is listed, unless its home slice holds its value (R251). -/
def State.uncorrectable (s : State) (rng line : Nat) : State :=
  match s.range rng with
  | none => s
  | some e =>
    if line % 64 != 0 || decide (toLines e.limit ≤ line) || e.peer.isSome || e.tierOf line == 1 ||
        s.l3.any (·.names e line) then s
    else s.addLoss rng line 1

/-! ## Device reset, alarm, power (R1, R24, R31, R246 to R250) -/

/-- The firmware images as device reset n finds them (R246): all pass, or some fail, and those that pass are started (log
entry 106). -/
def firmwareAt (n : Nat) (fwOk : Bool) : List Firmware :=
  let images := List.range (Config.fwImages + 1)
  let pass (i : Nat) : Bool := fwOk || (Config.fwPass n i && !(i == 0 && images.all (Config.fwPass n)))
  images.map fun i => ⟨Config.fwDigest n i, pass i, pass i⟩

/-- `DEVICE_RESET`: everything stands as after reset but what lies outside the machine's logic: memory contents, the
CXL memory attached, the package number, and what the outside world has seen. Key 0 is drawn afresh; after a failed
firmware check `FEATDEV` reads 0 (R246 to R248). -/
def execDeviceReset (fwOk arming : Bool) (s : State) : Out :=
  let n := s.resets + 1
  .next { State.reset with
    agenda := s.agenda, free := s.free, mem := s.mem, devMem := s.devMem, seals := s.seals, cxlCap := s.cxlCap, pkg := s.pkg,
    outgoing := s.outgoing, hostReads := s.hostReads, regReads := s.regReads, waveOut := s.waveOut,
    firmware := firmwareAt n fwOk, featDev := if fwOk then featWord else 0, arming := some arming,
    keys := [Key.mk 0 (some (.fresh n))], resets := n }

/-- `ALARM`: latches its bit; under an arming policy every key is erased (R250). -/
def execAlarm (kind : Nat) (s : State) : Out :=
  .next (if 3 < kind then s else
    let s := { s with alarm := s.alarm ||| (1#64 <<< kind) }
    let armed := match s.arming with | some b => b | none => Config.armingPolicy kind
    if armed then
      { s with alarm := s.alarm ||| 0x100, erasedAt := some s.now, keys := s.keys.map fun k => { k with mat := none } }
    else s)

/-- The core clock of a die takes a rate of at most 4 GHz from now on (R24). -/
def State.setClock (s : State) (die num den : Nat) : State :=
  if 8 ≤ die ∨ num = 0 ∨ den < num then s else
  let c : Clock := ⟨die, num, den, s.cycles die, s.now⟩
  { s with clocks := upsert (·.die == die) c (fun _ => c) s.clocks }

/-- `POWER_CAP_EXCEEDED`: the core clock of a die takes a lower rate than it has (R31). -/
def execPowerCapExceeded (die num den : Nat) (s : State) : Out :=
  let c := s.clock die
  .next (if num * c.den < c.num * den then s.setClock die num den else s)

end Sys2Proof.Machine
end

