-- ==== Sys2Proof/Machine/LoadStore.lean ====
section
/-! DEFINITION. Loads, stores and atomics on memory and scratchpad (R230, R277 to R281, R313 to R318, R354 to R357). -/

namespace Sys2Proof.Machine
open Sys2Proof

/-- The access of a global load (R313, R314). -/
def loadSpec (f : MF) (sx once : Bool) : AccSpec :=
  let w := mfield f.mod 6 3
  { addr := f.addr, off := f.off.toInt, width := 2 ^ w, align := 2 ^ w, once, rights := rightR, shOnly := false,
    kind := fun _ _ => .load sx, data := none, dest := some (f.d, widRegs w), acq := mfield f.mod 4 2 == 1, rel := false,
    scope := mfield f.mod 2 2, ff := none, oneHyp := true }

/-- The access of a global store (R354, R355). -/
def storeSpec (f : MF) (once : Bool) : AccSpec :=
  let w := mfield f.mod 6 3
  { addr := f.addr, off := f.off.toInt, width := 2 ^ w, align := 2 ^ w, once, rights := rightW, shOnly := false,
    kind := fun _ _ => .store, data := some (f.d, widRegs w), dest := none, acq := false, rel := mfield f.mod 4 2 == 2,
    scope := mfield f.mod 2 2, ff := none, oneHyp := true }

/-- Operand and compare value of a read-modify-write from its B registers (R277). -/
def rmwKind (op : Rmw) (w : Nat) (v _n : Nat) : ReqKind := .rmw op (v % 2 ^ (32 * w)) (v / 2 ^ (32 * w))

/-- The access of an `ATOM` (R277, R278). -/
def atomSpec (f : MA) (op : Rmw) : AccSpec :=
  let w := if mbit f.mod 4 then 2 else 1
  { addr := f.addr, off := f.off.toInt, width := 4 * w, align := 4 * w, once := f.d.isU, rights := rightR ||| rightW ||| rightA,
    shOnly := true, kind := rmwKind op w, data := some (f.b, if op = .cas then 2 * w else w), dest := some (f.d, w),
    acq := mbit f.mod 2, rel := mbit f.mod 3, scope := mfield f.mod 0 2, ff := none }

/-- `LD` (R314). -/
def execLd (c : Common) (f : MF) (s : State) : Out :=
  .next (issueWith (.ld c f) (globalBody (loadSpec f false false)) s)
/-- `LD.sx` (R314). -/
def execLdSx (c : Common) (f : MF) (s : State) : Out :=
  .next (issueWith (.ldSx c f) (globalBody (loadSpec f true false)) s)
/-- `LDU` (R314, R316). -/
def execLdu (c : Common) (f : MF) (s : State) : Out :=
  .next (issueWith (.ldu c f) (globalBody (loadSpec f false true)) s)
/-- `LDU.sx` (R314). -/
def execLduSx (c : Common) (f : MF) (s : State) : Out :=
  .next (issueWith (.lduSx c f) (globalBody (loadSpec f true true)) s)

/-- `LDFF`: the lowest active lane takes its cause, another lane that would fail clears its predicate (R230, R317). An
uncorrectable line found later clears it too, but for the lowest lane. -/
def execLdff (c : Common) (f : MF) (s : State) : Out :=
  let p := 640 + mfield f.mod 3 3
  let q : AccSpec := { loadSpec { f with mod := f.mod &&& 0x1C0 } false false with ff := some p }
  let body : Body := fun x s =>
    match x.sh s, s.stook x.tag with
    | some h, some k =>
      let l0 := ((lanesOf x.act).head?).getD 0
      let ts := (x.groups false).map fun g =>
        (g.1, g.2, (q.request x s h k g.1 g.2).map fun r => if g.1 = l0 then { r with ff := none } else r)
      x.issueReqs (some p) [] ts s
    | _, _ => s
  .next (issueWith (.ldff c f) body s)

/-- `ST` (R355). -/
def execSt (c : Common) (f : MF) (s : State) : Out := .next (issueWith (.st c f) (globalBody (storeSpec f false)) s)
/-- `STU` (R355, R357). -/
def execStu (c : Common) (f : MF) (s : State) : Out := .next (issueWith (.stu c f) (globalBody (storeSpec f true)) s)

/-- `LDS` and `LDS.sx` (R314, R318). -/
def ldsBody (f : MF) (sx : Bool) : Body :=
  let w := mfield f.mod 7 2
  spadBody f.addr f.off.toInt (2 ^ w) (mbit f.mod 2) (mfield f.mod 0 2) false (fun _ _ => .load sx) none
    (some (f.d, widRegs w)) (mfield f.mod 5 2 == 1) false (mfield f.mod 3 2)
/-- `LDS` (R314). -/
def execLds (c : Common) (f : MF) (s : State) : Out := .next (issueWith (.lds c f) (ldsBody f false) s)
/-- `LDS.sx` (R314). -/
def execLdsSx (c : Common) (f : MF) (s : State) : Out := .next (issueWith (.ldsSx c f) (ldsBody f true) s)
/-- `STS` (R355). -/
def execSts (c : Common) (f : MF) (s : State) : Out :=
  let w := mfield f.mod 7 2
  .next (issueWith (.sts c f)
    (spadBody f.addr f.off.toInt (2 ^ w) (mbit f.mod 2) (mfield f.mod 0 2) false (fun _ _ => .store)
      (some (f.d, widRegs w)) none false (mfield f.mod 5 2 == 2) (mfield f.mod 3 2)) s)
/-- `ATOMS` (R281). -/
def execAtoms (c : Common) (f : A3) (s : State) : Out :=
  let w := if mbit f.mod 10 then 2 else 1
  .next (issueWith (.atoms c f)
    (spadBody f.a 0 (4 * w) (mbit f.mod 5) (mfield f.mod 3 2) true (rmwKind (rmwOf (mfield f.mod 11 4)) w)
      (some (f.b, rmwOperands f.mod)) (some (f.d, w)) (mbit f.mod 8) (mbit f.mod 9) (mfield f.mod 6 2)) s)

/-- `ATOM.add` (R278). -/
def execAtomAdd (c : Common) (f : MA) (s : State) : Out :=
  .next (issueWith (.atomAdd c f) (globalBody (atomSpec f .add)) s)
/-- `ATOM.and` (R278). -/
def execAtomAnd (c : Common) (f : MA) (s : State) : Out :=
  .next (issueWith (.atomAnd c f) (globalBody (atomSpec f .and)) s)
/-- `ATOM.or` (R278). -/
def execAtomOr (c : Common) (f : MA) (s : State) : Out :=
  .next (issueWith (.atomOr c f) (globalBody (atomSpec f .or)) s)
/-- `ATOM.xor` (R278). -/
def execAtomXor (c : Common) (f : MA) (s : State) : Out :=
  .next (issueWith (.atomXor c f) (globalBody (atomSpec f .xor)) s)
/-- `ATOM.mins` (R278). -/
def execAtomMins (c : Common) (f : MA) (s : State) : Out :=
  .next (issueWith (.atomMins c f) (globalBody (atomSpec f .mins)) s)
/-- `ATOM.minu` (R278). -/
def execAtomMinu (c : Common) (f : MA) (s : State) : Out :=
  .next (issueWith (.atomMinu c f) (globalBody (atomSpec f .minu)) s)
/-- `ATOM.maxs` (R278). -/
def execAtomMaxs (c : Common) (f : MA) (s : State) : Out :=
  .next (issueWith (.atomMaxs c f) (globalBody (atomSpec f .maxs)) s)
/-- `ATOM.maxu` (R278). -/
def execAtomMaxu (c : Common) (f : MA) (s : State) : Out :=
  .next (issueWith (.atomMaxu c f) (globalBody (atomSpec f .maxu)) s)
/-- `ATOM.cas` (R278, R280). -/
def execAtomCas (c : Common) (f : MA) (s : State) : Out :=
  .next (issueWith (.atomCas c f) (globalBody (atomSpec f .cas)) s)
/-- `ATOM.fadd` (R278). -/
def execAtomFadd (c : Common) (f : MA) (s : State) : Out :=
  .next (issueWith (.atomFadd c f) (globalBody (atomSpec f .fadd)) s)

/-- `ATOM.xchg`; with `.b64` a lane in the wain aperture at an offset with bits [5:0] zero makes a copy request, whose
checks the wain decides (R111, R112, R278, R364), the one `%hyp` of a bundle with a tagged lane after them (R189, R279). -/
def execAtomXchg (c : Common) (f : MA) (s : State) : Out :=
  let q := atomSpec f .xchg
  let body : Body := fun x s =>
    match x.sh s, s.stook x.tag with
    | some h, some k =>
      let gs := x.groups q.once
      let va (l : Nat) : Nat := vaPlus (BitVec.ofNat 64 (s.rd h l f.addr 2)) q.off
      let apt (l : Nat) : Bool := mbit f.mod 4 && s.inAperture k.job (va l)
      let off (l : Nat) : Nat := va l - ((s.job k.job).map (·.aperture)).getD 0
      let asks (l : Nat) : Bool := apt l && off l % 64 == 0
      let more := (gs.filter fun g => asks g.1).map fun g => (g.1, wordsOf 1 (off g.1) ++ wordsOf 2 (s.rd h g.1 f.b 2))
      let ts := (gs.filter fun g => !asks g.1).map fun g =>
        (g.1, g.2, if apt g.1 then .error (0x13, BitVec.ofNat 64 (va g.1))
          else q.request x s h k g.1 g.2)
      x.issueReqs none more ts s
    | _, _ => s
  .next (issueWith (.atomXchg c f) body s)

end Sys2Proof.Machine
end

