-- ==== Sys2Proof/Machine/Events.lean ====
section
/-! DEFINITION. Checks that an instruction could not decide at issue (R364), and the times at which the hardware acts by
itself (R6). -/

namespace Sys2Proof.Machine
open Sys2Proof

/-- The request of a deferred instruction stands at an arbor. -/
def State.atArbor (s : State) (op : Nat) : Bool :=
  s.arbors.any fun a => a.queue.any fun r => match r with | .ask x => x.op == op | .free => false

/-- The job of a stook. -/
def State.jobOf (s : State) (tag : Nat) : Nat := ((s.stook tag).map (·.job)).getD 0

/-- The lines of peer ranges that a deferred instruction's checks read, as far as they are known (R75). -/
def State.deferLines (s : State) (d : Deferred) : List (RangeEnt × Nat) :=
  let va (ws : List Word) : Nat := leNat (wordBytes (ws.take 2))
  let words := d.words.flatMap (·.2)
  match d.instr with
  | .launch _ _ => s.launchLines d
  | .put _ _ | .coll _ _ => s.collLines d.op (s.jobOf d.tag) (va words)
  | .atomXchg _ _ => d.words.flatMap (s.templateLines (s.jobOf d.tag))
  | _ => []

/-- What decides a deferred instruction's checks is known: the accesses it follows are done, its own read has come back,
its arbor has answered; one that executes once per bundle follows those of its sheaf (R59, R364). -/
def State.deferReady (s : State) (d : Deferred) : Bool :=
  let turn := !(d.instr.perBundle && s.onceBefore d.tag d.sheaf d.op)
  s.met ⟨d.tag, d.sheaf, d.active, d.upto⟩ &&
    match d.instr with
    | .ldblk _ _ => !s.reqs.any (·.op == d.op)
    | .launch _ _ => turn && !s.undrained d.core (s.jobOf d.tag) d.upto
    | .hypopen _ _ | .resolveConfirm _ _ | .resolveRefute _ _ => !s.atArbor d.op
    | .atomXchg _ f =>
      let q := atomSpec f .xchg
      turn && d.reqs.all s.canRun && (d.words.isEmpty || !q.rel || (!s.unpublished d.core (s.jobOf d.tag) q.scope d.upto &&
        !s.fabPending d.tag d.sheaf d.active d.upto))
    | _ => turn && d.reqs.all s.canRun

/-- A lane took a cause at an instruction between two states. -/
def trapped (s s' : State) (tag i l : Nat) (pc : DWord) : Bool :=
  match s.thread tag i l, s'.thread tag i l with
  | some t, some t' => !t.hact && t'.hact && t'.epc == pc
  | _, _ => true

/-- The lanes of a deferred instruction that did not take a cause at it. -/
def Deferred.done (d : Deferred) (s s' : State) : List Nat :=
  (lanesOf d.active).filter fun l => !trapped s s' d.tag d.sheaf l d.pc

/-- The copy requests of an `ATOM.xchg` are decided, a release publishing before them and an acquire refreshing after (R105,
R112, R125). -/
def State.decideRequests (s : State) (d : Deferred) (f : MA) : State :=
  if d.words.isEmpty then s else
  let q := atomSpec f .xchg
  let s := if q.rel then s.publish d.core (s.jobOf d.tag) q.scope else s
  let s := d.words.foldl (decideWain d f) s
  if q.acq then s.refresh d.core (s.jobOf d.tag) q.scope else s

/-- How a deferred instruction's read of a record or descriptor from a peer range failed (R75, R207); a kernel header is not
among them: a launch without it is refused (R37). -/
def State.failedRead (s : State) (d : Deferred) : Option (Nat × Nat × Nat × Nat) :=
  let lines := match d.instr with
    | .launch _ _ => s.vaLines (s.jobOf d.tag) d.recordVa 384
    | .put _ _ | .coll _ _ => s.deferLines d
    | _ => []
  lines.findSome? fun n => s.peerFailure n.1 n.2 1

/-- The checks of one deferred instruction are decided: it goes on, or takes its cause; where its own read failed in a peer
package, its slot is marked failed, and nothing else of it happens (R75, R207). -/
def State.decideOne (s : State) (d : Deferred) : State :=
  match s.failedRead d with
  | some (cause, reason, pkg, plane) => (s.failSlot d.op cause reason pkg plane).deliverOp d.op []
  | none =>
  match d.instr with
  | .ldblk _ f => decideLdblk d f s
  | .launch _ f => decideLaunch d f s
  | .put _ f => decidePut d f s
  | .coll _ f => decideColl d f s
  | .hypopen _ _ | .resolveConfirm _ _ | .resolveRefute _ _ => s
  | .atomXchg _ f => (d.reqs.foldl State.decideWrite s).decideRequests d f
  | .stblk _ _ =>
    let s' := d.reqs.foldl State.decideWrite s
    let lanes := d.done s s'
    (d.words.filter fun x => lanes.contains x.1).foldl (fun s x =>
      s.orFlags d.tag d.sheaf (1#32 <<< x.1) (((x.2.head?).getD 0).setWidth 5)) s'
  | _ => d.reqs.foldl State.decideWrite s

/-- One deferred instruction, with what it retires (R240); where it fires the watchdog nothing of it stays (R241). -/
def State.decideStep (s : State) (d : Deferred) : State :=
  let s' := s.decideOne d
  match s'.stook d.tag with
  | none => s'.dropStook d.tag
  | some k =>
    let left := (lanesOf d.active).filter fun l => trapped s s' d.tag d.sheaf l d.pc
    let s' := left.foldl (fun s' l => s'.stalled d.tag d.sheaf l d.instr.common.stall.toNat) s'
    let held := match s'.slot d.core d.slot with | some b => b.hold | none => false
    if held || (d.done s s').isEmpty then s' else s'.retire k.job

/-- Every deferred instruction of a slot has what it reads of peer ranges; else the reads set out (R75). -/
def State.deferGather (s : State) (ds : List Deferred) : Bool × State :=
  ds.foldl (fun (r : Bool × State) d =>
    let (there, s) := r.2.gather d.op (r.2.jobOf d.tag) (d.core / 64) (r.2.deferLines d)
    (r.1 && there, s)) (true, s)

/-- `PRECISE_CHECKS_DECIDED`: the bundle that waits in a slot goes on (R364). -/
def execPreciseChecksDecided (core slot : Nat) (s : State) : Out :=
  let ds := s.deferred.filter fun d => d.core == core && d.slot == slot
  .next (match ds with
    | [] => s
    | d :: _ =>
      if !ds.all s.deferReady then s else
      match s.deferGather ds with
      | (false, s) => s
      | (true, s) =>
      let s := { s with deferred := s.deferred.filter fun d => !(d.core == core && d.slot == slot), free := s.free + 1,
                        cur := (core, slot) }
      let s := ds.foldl (fun s d => (s.decideStep d).used d.op) s
      let s := match s.slot core slot with
        | some b => s.setSlot core slot (some { b with deferred := false })
        | none => s
      finishIssue d.instr.common s)

/-! ## What the hardware has bound itself to (R6) -/

/-- An act that falls due at a time: a pre-emption request lapses (R235), a watchdog fires (R240), a copy's promise is met
(R115), a slot of a counting wave has begun (R28, R215), a channel is retrained (R27, R253). -/
inductive Expiry where
  | deadline (tag : Nat)
  | watchdog (job : Nat)
  | promise (copy : Nat)
  | waveSlot (job : Nat)
  | waveVerdict (job : Nat)
  | retraining
  deriving DecidableEq, Repr

/-- What falls due, with its time. -/
def State.expiries (s : State) : List (Nat × Expiry) :=
  (s.stooks.filterMap fun k => k.pre.bind fun p => if p.stage = .parking then some (p.deadline, .deadline k.tag) else none) ++
    ((s.jobs.filter fun j => j.started && !j.ended && !s.watchdogRests j).map fun j => (j.lastRetire + j.period, .watchdog j.id)) ++
    ((s.copies.filter (!·.late)).map fun c => (4 * c.promise.toNat, .promise c.id)) ++
    (s.jobs.flatMap fun j => (s.waveTimes j).map fun x => (x.1, if x.2 then .waveVerdict j.id else .waveSlot j.id)) ++
    [(s.nextRetraining, .retraining)]

/-- A copy's promise that has come and cannot be met yet. -/
def State.stands (s : State) : Expiry → Bool
  | .promise id => s.promiseStands id
  | .deadline _ | .watchdog _ | .waveSlot _ | .waveVerdict _ | .retraining => false

/-- The first act that is due now. -/
def State.due (s : State) : Option Expiry :=
  (s.expiries.find? fun x => decide (x.1 ≤ s.now) && !s.stands x.2).map (·.2)

/-- A time from now on, or the earlier one at which something falls due first. -/
def State.before (s : State) (t : Nat) : Nat := max s.now (s.expiries.foldl (fun b x => min b x.1) t)

/-- Acts of other agents that are no rows of the operation table: of the peers, the fabric service, the ports and the host.
-/
def outsideAct (a : Agendum) (s : State) : State :=
  match a with
  | .event _ | .issue _ _ => s
  | .advance n => { s with now := s.before (s.now + n) }
  | .l3Writeback rng line => s.writebackL3 rng line
  | .arrive m => s.arrive m
  | .number pkg => s.number pkg
  | .delivered id => s.delivered id
  | .span job pkgs depth => s.span job pkgs depth
  | .wave job pkg m => s.waveFrom job pkg m
  | .readAhead core job va => s.readAhead core job va
  | .uncorrectable rng line => s.uncorrectable rng line
  | .clockStep die num den => s.setClock die num den
  | .registerRead fn off => s.hostRegister fn off
  | .software addr bytes => { s with devMem := Memory.setN s.devMem addr bytes }

/-- An act that is due. -/
def State.expire (s : State) : Expiry → Out
  | .deadline tag => execPreemptDeadlineExpiry tag s
  | .watchdog job => execWatchdogExpiry job s
  | .promise id => .next (s.meetPromise id)
  | .waveSlot job => execCountingWaveSlot job s
  | .waveVerdict job => execWaveVerdict job s
  | .retraining => .next s.retrainDue

/-- The time at which the bundle of a slot issues next; now where none does. -/
def State.issueTime (s : State) (core slot : Nat) : Nat :=
  match s.slot core slot with
  | some b => (s.awaitIssue core slot b).now
  | none => s.now

/-- Something falls due before the bundle of a slot issues: time passes up to it. -/
def State.dueFirst (s : State) (core slot : Nat) : Option Nat :=
  let t := s.issueTime core slot
  if s.now < t ∧ s.before (t + 1) ≤ t then some (s.before t) else none

end Sys2Proof.Machine
end

