-- ==== Sys2Proof/Machine/Dispatch.lean ====
section
/-! DEFINITION. What each instruction and event does: one arm per constructor. -/

namespace Sys2Proof.Machine
open Sys2Proof

/-- Executes one instruction or event. -/
def exec (i : Instr) (s : State) : Host.Outcome State Fault Refusal :=
  match i with
  | .nop c f => Sys2Proof.Machine.execNop c f s
  | .bra c f => Sys2Proof.Machine.execBra c f s
  | .brau c f => Sys2Proof.Machine.execBrau c f s
  | .jmpi c f => Sys2Proof.Machine.execJmpi c f s
  | .callLabel c f => Sys2Proof.Machine.execCallLabel c f s
  | .callRegister c f => Sys2Proof.Machine.execCallRegister c f s
  | .ret c f => Sys2Proof.Machine.execRet c f s
  | .exit c f => Sys2Proof.Machine.execExit c f s
  | .trap c f => Sys2Proof.Machine.execTrap c f s
  | .yield c f => Sys2Proof.Machine.execYield c f s
  | .iadd c f => Sys2Proof.Machine.execIadd c f s
  | .isub c f => Sys2Proof.Machine.execIsub c f s
  | .imul c f => Sys2Proof.Machine.execImul c f s
  | .imulhi c f => Sys2Proof.Machine.execImulhi c f s
  | .imulhiU c f => Sys2Proof.Machine.execImulhiU c f s
  | .imad c f => Sys2Proof.Machine.execImad c f s
  | .imin c f => Sys2Proof.Machine.execImin c f s
  | .iminU c f => Sys2Proof.Machine.execIminU c f s
  | .imax c f => Sys2Proof.Machine.execImax c f s
  | .imaxU c f => Sys2Proof.Machine.execImaxU c f s
  | .iabs c f => Sys2Proof.Machine.execIabs c f s
  | .shl c f => Sys2Proof.Machine.execShl c f s
  | .shr c f => Sys2Proof.Machine.execShr c f s
  | .sar c f => Sys2Proof.Machine.execSar c f s
  | .lopAnd c f => Sys2Proof.Machine.execLopAnd c f s
  | .lopOr c f => Sys2Proof.Machine.execLopOr c f s
  | .lopXor c f => Sys2Proof.Machine.execLopXor c f s
  | .lopAndn c f => Sys2Proof.Machine.execLopAndn c f s
  | .bfx c f => Sys2Proof.Machine.execBfx c f s
  | .bfxU c f => Sys2Proof.Machine.execBfxU c f s
  | .bfi c f => Sys2Proof.Machine.execBfi c f s
  | .popc c f => Sys2Proof.Machine.execPopc c f s
  | .clz c f => Sys2Proof.Machine.execClz c f s
  | .brev c f => Sys2Proof.Machine.execBrev c f s
  | .icmp c f => Sys2Proof.Machine.execIcmp c f s
  | .icmpU c f => Sys2Proof.Machine.execIcmpU c f s
  | .sel c f => Sys2Proof.Machine.execSel c f s
  | .mov c f => Sys2Proof.Machine.execMov c f s
  | .movi c f => Sys2Proof.Machine.execMovi c f s
  | .psetAnd c f => Sys2Proof.Machine.execPsetAnd c f s
  | .psetOr c f => Sys2Proof.Machine.execPsetOr c f s
  | .psetXor c f => Sys2Proof.Machine.execPsetXor c f s
  | .fadd c f => Sys2Proof.Machine.execFadd c f s
  | .fmul c f => Sys2Proof.Machine.execFmul c f s
  | .ffma c f => Sys2Proof.Machine.execFfma c f s
  | .fmin c f => Sys2Proof.Machine.execFmin c f s
  | .fminNan c f => Sys2Proof.Machine.execFminNan c f s
  | .fmax c f => Sys2Proof.Machine.execFmax c f s
  | .fmaxNan c f => Sys2Proof.Machine.execFmaxNan c f s
  | .fcmp c f => Sys2Proof.Machine.execFcmp c f s
  | .fcmpU c f => Sys2Proof.Machine.execFcmpU c f s
  | .hadd2 c f => Sys2Proof.Machine.execHadd2 c f s
  | .hadd2Bf c f => Sys2Proof.Machine.execHadd2Bf c f s
  | .hmul2 c f => Sys2Proof.Machine.execHmul2 c f s
  | .hmul2Bf c f => Sys2Proof.Machine.execHmul2Bf c f s
  | .hfma2 c f => Sys2Proof.Machine.execHfma2 c f s
  | .hfma2Bf c f => Sys2Proof.Machine.execHfma2Bf c f s
  | .sfnRcp c f => Sys2Proof.Machine.execSfnRcp c f s
  | .sfnRsqrt c f => Sys2Proof.Machine.execSfnRsqrt c f s
  | .sfnSqrt c f => Sys2Proof.Machine.execSfnSqrt c f s
  | .sfnLog2 c f => Sys2Proof.Machine.execSfnLog2 c f s
  | .sfnExp2 c f => Sys2Proof.Machine.execSfnExp2 c f s
  | .sfnSin c f => Sys2Proof.Machine.execSfnSin c f s
  | .sfnCos c f => Sys2Proof.Machine.execSfnCos c f s
  | .fcvtFloatFromFloat c f => Sys2Proof.Machine.execFcvtFloatFromFloat c f s
  | .fcvtFloatFromInteger c f => Sys2Proof.Machine.execFcvtFloatFromInteger c f s
  | .fcvtIntegerFromFloat c f => Sys2Proof.Machine.execFcvtIntegerFromFloat c f s
  | .shflIdx c f => Sys2Proof.Machine.execShflIdx c f s
  | .shflUp c f => Sys2Proof.Machine.execShflUp c f s
  | .shflDown c f => Sys2Proof.Machine.execShflDown c f s
  | .shflXor c f => Sys2Proof.Machine.execShflXor c f s
  | .voteAll c f => Sys2Proof.Machine.execVoteAll c f s
  | .voteAny c f => Sys2Proof.Machine.execVoteAny c f s
  | .voteBallot c f => Sys2Proof.Machine.execVoteBallot c f s
  | .reduxAdd c f => Sys2Proof.Machine.execReduxAdd c f s
  | .reduxMin c f => Sys2Proof.Machine.execReduxMin c f s
  | .reduxMinu c f => Sys2Proof.Machine.execReduxMinu c f s
  | .reduxMax c f => Sys2Proof.Machine.execReduxMax c f s
  | .reduxMaxu c f => Sys2Proof.Machine.execReduxMaxu c f s
  | .rdfirst c f => Sys2Proof.Machine.execRdfirst c f s
  | .partn c f => Sys2Proof.Machine.execPartn c f s
  | .bsinit c f => Sys2Proof.Machine.execBsinit c f s
  | .bsrd c f => Sys2Proof.Machine.execBsrd c f s
  | .ld c f => Sys2Proof.Machine.execLd c f s
  | .ldSx c f => Sys2Proof.Machine.execLdSx c f s
  | .ldff c f => Sys2Proof.Machine.execLdff c f s
  | .ldu c f => Sys2Proof.Machine.execLdu c f s
  | .lduSx c f => Sys2Proof.Machine.execLduSx c f s
  | .lds c f => Sys2Proof.Machine.execLds c f s
  | .ldsSx c f => Sys2Proof.Machine.execLdsSx c f s
  | .st c f => Sys2Proof.Machine.execSt c f s
  | .stu c f => Sys2Proof.Machine.execStu c f s
  | .sts c f => Sys2Proof.Machine.execSts c f s
  | .atoms c f => Sys2Proof.Machine.execAtoms c f s
  | .atomAdd c f => Sys2Proof.Machine.execAtomAdd c f s
  | .atomAnd c f => Sys2Proof.Machine.execAtomAnd c f s
  | .atomOr c f => Sys2Proof.Machine.execAtomOr c f s
  | .atomXor c f => Sys2Proof.Machine.execAtomXor c f s
  | .atomMins c f => Sys2Proof.Machine.execAtomMins c f s
  | .atomMinu c f => Sys2Proof.Machine.execAtomMinu c f s
  | .atomMaxs c f => Sys2Proof.Machine.execAtomMaxs c f s
  | .atomMaxu c f => Sys2Proof.Machine.execAtomMaxu c f s
  | .atomXchg c f => Sys2Proof.Machine.execAtomXchg c f s
  | .publish c f => Sys2Proof.Machine.execPublish c f s
  | .refresh c f => Sys2Proof.Machine.execRefresh c f s
  | .clean c f => Sys2Proof.Machine.execClean c f s
  | .discard c f => Sys2Proof.Machine.execDiscard c f s
  | .tierpf c f => Sys2Proof.Machine.execTierpf c f s
  | .fence c f => Sys2Proof.Machine.execFence c f s
  | .ldblk c f => Sys2Proof.Machine.execLdblk c f s
  | .stblk c f => Sys2Proof.Machine.execStblk c f s
  | .rqry c f => Sys2Proof.Machine.execRqry c f s
  | .reqnt c f => Sys2Proof.Machine.execReqnt c f s
  | .atomCas c f => Sys2Proof.Machine.execAtomCas c f s
  | .atomFadd c f => Sys2Proof.Machine.execAtomFadd c f s
  | .bar c f => Sys2Proof.Machine.execBar c f s
  | .cribset c f => Sys2Proof.Machine.execCribset c f s
  | .cribarr c f => Sys2Proof.Machine.execCribarr c f s
  | .cribwait c f => Sys2Proof.Machine.execCribwait c f s
  | .waitge c f => Sys2Proof.Machine.execWaitge c f s
  | .doze c f => Sys2Proof.Machine.execDoze c f s
  | .waitquiet c f => Sys2Proof.Machine.execWaitquiet c f s
  | .barArrive c f => Sys2Proof.Machine.execBarArrive c f s
  | .mxq c f => Sys2Proof.Machine.execMxq c f s
  | .mxdrain c f => Sys2Proof.Machine.execMxdrain c f s
  | .acqacc c f => Sys2Proof.Machine.execAcqacc c f s
  | .relacc c f => Sys2Proof.Machine.execRelacc c f s
  | .grow c f => Sys2Proof.Machine.execGrow c f s
  | .shrink c f => Sys2Proof.Machine.execShrink c f s
  | .put c f => Sys2Proof.Machine.execPut c f s
  | .get c f => Sys2Proof.Machine.execGet c f s
  | .ratom c f => Sys2Proof.Machine.execRatom c f s
  | .amsg c f => Sys2Proof.Machine.execAmsg c f s
  | .coll c f => Sys2Proof.Machine.execColl c f s
  | .launch c f => Sys2Proof.Machine.execLaunch c f s
  | .cancel c f => Sys2Proof.Machine.execCancel c f s
  | .hypopen c f => Sys2Proof.Machine.execHypopen c f s
  | .hypset c f => Sys2Proof.Machine.execHypset c f s
  | .resolveConfirm c f => Sys2Proof.Machine.execResolveConfirm c f s
  | .resolveRefute c f => Sys2Proof.Machine.execResolveRefute c f s
  | .movs c f => Sys2Proof.Machine.execMovs c f s
  | .movsw c f => Sys2Proof.Machine.execMovsw c f s
  | .rett c f => Sys2Proof.Machine.execRett c f s
  | .saved c f => Sys2Proof.Machine.execSaved c f s
  | .bundleStart core slot tag sheaf merge => Sys2Proof.Machine.execBundleStart core slot tag sheaf merge s
  | .resultWriteback id => Sys2Proof.Machine.execResultWriteback id s
  | .wainPacketLand id k => Sys2Proof.Machine.execWainPacketLand id k s
  | .wainCopyComplete id => Sys2Proof.Machine.execWainCopyComplete id s
  | .followOnPost id => Sys2Proof.Machine.execFollowOnPost id s
  | .cribUnitCycle tag crib => Sys2Proof.Machine.execCribUnitCycle tag crib s
  | .tierpfLineArrive id line => Sys2Proof.Machine.execTierpfLineArrive id line s
  | .publishComplete hold => Sys2Proof.Machine.execPublishComplete hold s
  | .refreshComplete hold => Sys2Proof.Machine.execRefreshComplete hold s
  | .fenceComplete hold => Sys2Proof.Machine.execFenceComplete hold s
  | .cleanDiscardComplete id => Sys2Proof.Machine.execCleanDiscardComplete id s
  | .barInstanceComplete tag bar => Sys2Proof.Machine.execBarInstanceComplete tag bar s
  | .cribwaitRelease hold => Sys2Proof.Machine.execCribwaitRelease hold s
  | .waitgeRelease hold => Sys2Proof.Machine.execWaitgeRelease hold s
  | .dozeTimeReached hold => Sys2Proof.Machine.execDozeTimeReached hold s
  | .growGrant hold => Sys2Proof.Machine.execGrowGrant hold s
  | .acqaccGrant hold => Sys2Proof.Machine.execAcqaccGrant hold s
  | .relaccComplete hold => Sys2Proof.Machine.execRelaccComplete hold s
  | .savedComplete hold => Sys2Proof.Machine.execSavedComplete hold s
  | .spwConversionComplete core lines => Sys2Proof.Machine.execSpwConversionComplete core lines s
  | .launchQueueEntryGrant hold => Sys2Proof.Machine.execLaunchQueueEntryGrant hold s
  | .stookStart job launch stook die bay tag => Sys2Proof.Machine.execStookStart job launch stook die bay tag s
  | .stookComplete tag => Sys2Proof.Machine.execStookComplete tag s
  | .enginePass die bay => Sys2Proof.Machine.execEnginePass die bay s
  | .matrixCommandComplete die bay => Sys2Proof.Machine.execMatrixCommandComplete die bay s
  | .mxdrainEntryGrant hold => Sys2Proof.Machine.execMxdrainEntryGrant hold s
  | .drainComplete die bay => Sys2Proof.Machine.execDrainComplete die bay s
  | .homeAccess id piece ue => Sys2Proof.Machine.execHomeAccess id piece ue s
  | .phReplacementWriteback l2 unit rng line => Sys2Proof.Machine.execPhReplacementWriteback l2 unit rng line s
  | .slideLine rng share => Sys2Proof.Machine.execSlideLine rng share s
  | .replaceLine rng => Sys2Proof.Machine.execReplaceLine rng s
  | .moveEnd rng => Sys2Proof.Machine.execMoveEnd rng s
  | .scrubbing rng line ue => Sys2Proof.Machine.execScrubbing rng line ue s
  | .hbmRetraining ch => Sys2Proof.Machine.execHbmRetraining ch s
  | .telemetry => Sys2Proof.Machine.execTelemetry s
  | .arborMergeReclaim slice => Sys2Proof.Machine.execArborMergeReclaim slice s
  | .hypopenService arbor => Sys2Proof.Machine.execHypopenService arbor s
  | .resolveService arbor => Sys2Proof.Machine.execResolveService arbor s
  | .resolveApply arbor seq slice => Sys2Proof.Machine.execResolveApply arbor seq slice s
  | .resolveComplete arbor seq => Sys2Proof.Machine.execResolveComplete arbor seq s
  | .flattenFold arbor rng line => Sys2Proof.Machine.execFlattenFold arbor rng line s
  | .flattenEnd arbor => Sys2Proof.Machine.execFlattenEnd arbor s
  | .arborFreeComplete arbor => Sys2Proof.Machine.execArborFreeComplete arbor s
  | .writePacket msg => Sys2Proof.Machine.execWritePacket msg s
  | .readRequest msg => Sys2Proof.Machine.execReadRequest msg s
  | .readResponse msg => Sys2Proof.Machine.execReadResponse msg s
  | .atomicRequest msg => Sys2Proof.Machine.execAtomicRequest msg s
  | .atomicResponse msg => Sys2Proof.Machine.execAtomicResponse msg s
  | .acknowledgement msg => Sys2Proof.Machine.execAcknowledgement msg s
  | .errorResponse msg => Sys2Proof.Machine.execErrorResponse msg s
  | .activeMessage msg => Sys2Proof.Machine.execActiveMessage msg s
  | .handlerStookStart msg bay tag => Sys2Proof.Machine.execHandlerStookStart msg bay tag s
  | .contribution msg => Sys2Proof.Machine.execContribution msg s
  | .countingWaveSlot job => Sys2Proof.Machine.execCountingWaveSlot job s
  | .waveVerdict job => Sys2Proof.Machine.execWaveVerdict job s
  | .linkUp port peerPkg word => Sys2Proof.Machine.execLinkUp port peerPkg word s
  | .portFailure port => Sys2Proof.Machine.execPortFailure port s
  | .planeDeath plane => Sys2Proof.Machine.execPlaneDeath plane s
  | .hostWindowRead fn off len => Sys2Proof.Machine.execHostWindowRead fn off len s
  | .hostWindowWrite fn off bytes => Sys2Proof.Machine.execHostWindowWrite fn off bytes s
  | .feataccWrite fn value => Sys2Proof.Machine.execFeataccWrite fn value s
  | .herrcntWrite fn => Sys2Proof.Machine.execHerrcntWrite fn s
  | .registerWrite fn off value => Sys2Proof.Machine.execRegisterWrite fn off value s
  | .mopUnknown fn op => Sys2Proof.Machine.execMopUnknown fn op s
  | .createJob fn => Sys2Proof.Machine.execCreateJob fn s
  | .destroyJob fn => Sys2Proof.Machine.execDestroyJob fn s
  | .startJob fn tag bay die => Sys2Proof.Machine.execStartJob fn tag bay die s
  | .createRange fn => Sys2Proof.Machine.execCreateRange fn s
  | .changeRange fn => Sys2Proof.Machine.execChangeRange fn s
  | .deleteRange fn => Sys2Proof.Machine.execDeleteRange fn s
  | .startSlide fn => Sys2Proof.Machine.execStartSlide fn s
  | .startReplace fn => Sys2Proof.Machine.execStartReplace fn s
  | .startRebuild fn => Sys2Proof.Machine.execStartRebuild fn s
  | .loadKey fn => Sys2Proof.Machine.execLoadKey fn s
  | .retireKey fn => Sys2Proof.Machine.execRetireKey fn s
  | .registerTemplateRange fn => Sys2Proof.Machine.execRegisterTemplateRange fn s
  | .registerHandlerTable fn => Sys2Proof.Machine.execRegisterHandlerTable fn s
  | .registerMatrixCommandRange fn => Sys2Proof.Machine.execRegisterMatrixCommandRange fn s
  | .giveArbor fn => Sys2Proof.Machine.execGiveArbor fn s
  | .freeArbor fn => Sys2Proof.Machine.execFreeArbor fn s
  | .preEmptStook fn => Sys2Proof.Machine.execPreEmptStook fn s
  | .preemptDeadlineExpiry tag => Sys2Proof.Machine.execPreemptDeadlineExpiry tag s
  | .preemptDrainComplete tag => Sys2Proof.Machine.execPreemptDrainComplete tag s
  | .restoreStook fn die bay tag => Sys2Proof.Machine.execRestoreStook fn die bay tag s
  | .setWatchdogPeriod fn => Sys2Proof.Machine.execSetWatchdogPeriod fn s
  | .retireChannel fn => Sys2Proof.Machine.execRetireChannel fn s
  | .channelRetireByPort ch => Sys2Proof.Machine.execChannelRetireByPort ch s
  | .attest fn => Sys2Proof.Machine.execAttest fn s
  | .watchdogExpiry job => Sys2Proof.Machine.execWatchdogExpiry job s
  | .deviceReset fwOk arming => Sys2Proof.Machine.execDeviceReset fwOk arming s
  | .alarm kind => Sys2Proof.Machine.execAlarm kind s
  | .powerCapExceeded die num den => Sys2Proof.Machine.execPowerCapExceeded die num den s
  | .preciseChecksDecided core slot => Sys2Proof.Machine.execPreciseChecksDecided core slot s
  | .reservedOpcode w => Sys2Proof.Machine.execReservedOpcode w s

end Sys2Proof.Machine
end

