-- ==== Sys2Proof/Machine/Step.lean ====
section
/-! DEFINITION. One step of the package: what has fallen due; else the act that heads the agenda (log entry 8); with an empty
agenda, the next instruction of the first bundle that can issue, or one quarter of a nanosecond. What an act leaves to be
done at once follows it. -/

namespace Sys2Proof.Machine
open Sys2Proof

/-- A state with what follows it at once. -/
def followed (o : Out) : Out :=
  match o with
  | .next s => .next s.follow
  | .fault f => .fault f
  | .refused r => .refused r

/-- The bundle of a slot issues its next word: that instruction's meaning (R56). -/
def issueStep (core slot : Nat) (s : State) : Out :=
  match fetchIssue core slot s with
  | (some i, s) => exec i s
  | (none, s) => .next s

/-- An agenda entry acts. An instruction is no act of another agent. -/
def agendumStep (a : Agendum) (s : State) : Out :=
  match a with
  | .event i => if i.isInstruction then .refused (.notAnEvent i) else exec i s
  | .issue core slot => issueStep core slot s
  | _ => .next (outsideAct a s)

/-- Time stops where something falls due before the next word of the chosen slot issues. -/
def Agendum.waits (a : Agendum) (s : State) : Option Nat :=
  match a with
  | .issue core slot => s.dueFirst core slot
  | _ => none

/-- The act that comes next where nothing is due. -/
def nextAct (s : State) : Out :=
  match s.agenda with
  | a :: rest => match a.waits s with
    | some t => .next { s with now := t }
    | none => agendumStep a { s with agenda := rest }
  | [] =>
    match s.issuable with
    | some (core, slot) => match s.dueFirst core slot with
      | some t => .next { s with now := t }
      | none => issueStep core slot s
    | none => .next { s with now := s.before (s.now + 1) }

/-- The act that comes next: what has fallen due comes first (R6). -/
def act (s : State) : Out :=
  match s.due with
  | some x => s.expire x
  | none => nextAct s

/-- One step. -/
def step (s : State) : Host.Outcome State Fault Refusal := followed (act s)

/-- The state with an instruction placed where the next step issues it (log entry 11). -/
def State.withFetchWord (s : State) (nbits w : Nat) : State := s.placeWord (w % 2 ^ nbits)

end Sys2Proof.Machine
end

