-- ==== Sys2Proof/WellFormed.lean ====
section
/-! DEFINITION. Which terms of `Instr` are well-formed: an instruction whose fields obey the field rules (R262, R265), a
reserved word that the opcode map does not assign (R264), and every act of another agent. -/

namespace Sys2Proof

/-- Well-formedness. An ill-formed instruction is still decoded, and raises fault 0x02 when it issues (R262). -/
def WellFormed (i : Instr) : Bool :=
  match i with
  | .reservedOpcode w => decide (decode w = .reservedOpcode w)
  | i => !i.isInstruction || i.shape.ok

end Sys2Proof
end

