-- ==== Sys2Proof/Safety.lean ====
section
/-! DEFINITION. The terms in which claims about the package are stated: what a register group holds, when an instruction
issues and passes the checks that every instruction has, what an issue may change besides its own effect, and the shape
that every state keeps. -/

namespace Sys2Proof.Machine
open Sys2Proof

/-! ## What registers hold -/

/-- The value of n registers of a lane, the first lowest (R4); `z` is zero (R266). -/
def Sheaf.val (h : Sheaf) (l : Nat) (r : Reg) (n : Nat) : Nat :=
  if r.isZ then 0
  else (List.range n).foldl (fun x i => x + (h.raw l (r.num + i)).toNat * 2 ^ (32 * i)) 0

/-- What a predicate register of a lane holds; `p7` is true (R17). -/
def Sheaf.pred (h : Sheaf) (l : Nat) (r : Reg) : Bool := h.raw l r.num != 0

/-- The guard of a lane, by what its predicate holds (R17). -/
def Sheaf.guard (h : Sheaf) (c : Common) (l : Nat) : Bool :=
  (if c.gp = 7#3 then true else h.raw l (640 + c.gp.toNat) != 0) != (c.gneg == 1#1)

/-- A sheaf has 32 threads, 384 uniform registers, and as many vector registers in every thread as in the first (R32,
R47). -/
def Sheaf.shaped (h : Sheaf) : Bool :=
  h.threads.length == 32 && h.s.length == 384 && h.threads.all fun t => t.v.length == h.allot

/-! ## Issue without a fault of the common checks -/

/-- An instruction is reached by a bundle of one sheaf: the slot holds a bundle before a word of its clause, the
instruction's own slot is not full (R258), and the sheaf has its shape. -/
structure Reaches (i : Instr) (s : State) (b : Bundle) (p : Part) (k : Stook) (h : Sheaf) : Prop where
  slot : s.slot s.cur.1 s.cur.2 = some b
  open' : (b.deferred || b.hold || decide (b.count ≤ b.pos)) = false
  parts : b.parts = [p]
  room : slotFull i b s = false
  stook : s.stook b.tag = some k
  sheaf : s.sheaf b.tag p.sheaf = some h
  shaped : h.shaped = true

/-- An instruction that is reached passes the checks that every instruction has: its feature is accepted (R264), its
fields are legal (R262), its vector registers lie within the allotment (R47), every read is covered (R71), and where it acts
once for its bundle tagged lanes do not differ in `%hyp` (R189). `m` is the set of active lanes (R17), not empty. -/
structure Issues (i : Instr) (s : State) (b : Bundle) (p : Part) (k : Stook) (h : Sheaf) (m : Lanes) : Prop
    extends Reaches i s b p k h where
  feat : s.accepts i.shape.feat = true
  fields : i.shape.ok = true
  whole : (i.wholeSheaf && h.part != 32) = false
  mods : i.shape.modFeats.all s.accepts = true
  regs : (regNums i.shape.regs).all (fun r => decide (256 ≤ r ∨ r < h.allot)) = true
  covered : (lanesOf p.lanes).all (fun l => (s.uncovered h i l).isNone) = true
  active : m = lanesWhere fun l => p.lanes.getLsbD l && h.guard i.common l
  some' : m ≠ 0
  path : (actsOnce i && s.mixedTagged b.tag p.sheaf m) = false

/-! ## Frames -/

/-- A thread after the issue of a register instruction: only its registers, what covers them, its flags and where it
stands may differ (R16, R56). -/
def Thread.sameButRegs (t u : Thread) : Prop :=
  u = { t with v := u.v, p := u.p, pend := u.pend, fflags := u.fflags, pc := u.pc, clause := u.clause,
               readyAt := u.readyAt, inBundle := u.inBundle, cnt := u.cnt, issued := u.issued }

/-- Nothing of the package differs but sheaves, the current issue slot, the watchdog time of a job, which has retired an
instruction (R240), and the model's count of free values: memory, copies, ranges, stooks, requests, messages and every
other register are as before. -/
def State.sameButSheaves (s t : State) (job : Nat) : Prop :=
  t = { s with sheaves := t.sheaves, cores := (s.setSlot s.cur.1 s.cur.2 (t.slot s.cur.1 s.cur.2)).cores,
               jobs := (s.retire job).jobs, free := t.free }

/-- What a register instruction leaves unchanged: every other sheaf, the registers of its sheaf outside the destination
for the lanes it writes, and everything outside the sheaf. -/
structure RegFrame (s t : State) (b : Bundle) (p : Part) (k : Stook) (h h' : Sheaf) (m : Lanes) (d : Reg) (n : Nat) :
    Prop where
  package : s.sameButSheaves t k.job
  others : ∀ tag i, ¬ (tag = b.tag ∧ i = p.sheaf) → t.sheaf tag i = s.sheaf tag i
  home : h' = { h with s := h'.s, threads := h'.threads, failed := h'.failed }
  threads : ∀ (l : Nat) (x : Thread), h.threads[l]? = some x → ∃ y, h'.threads[l]? = some y ∧ Thread.sameButRegs x y
  regs : ∀ l r, (d.isZ = true ∨ r < d.num ∨ d.num + n ≤ r ∨ (¬ d.isU = true ∧ m.getLsbD l = false)) →
    h'.raw l r = h.raw l r

/-- An instruction of fixed latency with destination d of n registers completes: it answers a next state in which every
active lane's destination holds the value given, its flags have gained the flags given, and nothing else has changed
(R16 to R18, R56, R273). `f` gives value and flags from the registers before. -/
def Computes (i : Instr) (d : Reg) (n : Nat) (f : Sheaf → Nat → Nat × Flags) : Prop :=
  ∀ s b p k h m, Issues i s b p k h m →
    ∃ t h', exec i s = .next t ∧ t.sheaf b.tag p.sheaf = some h' ∧
      (d.isZ = false → d ≠ .p 7 → ∀ l, l < 32 → m.getLsbD l = true → h'.val l d n = (f h l).1 % 2 ^ (32 * n)) ∧
      (∀ (l : Nat) (x y : Thread), h.threads[l]? = some x → h'.threads[l]? = some y →
        y.fflags = if m.getLsbD l then x.fflags ||| (f h l).2 else x.fflags) ∧
      RegFrame s t b p k h h' m d n

/-- The register writes of a result: once for a uniform destination, from the lowest active lane, and otherwise one for
each active lane (R258, R260, R336). -/
def deliveries (d : Reg) (m : Lanes) (f : Nat → Nat) : List (Nat × Option Nat × Word) :=
  if d.isZ then []
  else if d.isU then ((lanesOf m).take 1).map fun l => (d.num, none, BitVec.ofNat 32 (f l))
  else (lanesOf m).map fun l => (d.num, some l, BitVec.ofNat 32 (f l))

/-- An instruction of variable latency with a one-register destination computed at issue completes its issue: a result
with the values given is on its way to the registers, under an operation of the instruction's slot; each active lane's
flags have gained the flags given; no register has changed yet, and nothing else has (R258). `f` gives value and flags
from the registers before. -/
def Delivers (i : Instr) (d : Reg) (f : Lanes → Sheaf → Nat → Nat × Flags) : Prop :=
  ∀ s b p k h m, Issues i s b p k h m →
    ∃ t h', exec i s = .next t ∧ t.sheaf b.tag p.sheaf = some h' ∧
      t.results = s.results ++ [⟨s.nextId + 1, s.nextId, b.tag, p.sheaf, deliveries d m fun l => (f m h l).1⟩] ∧
      t.ops = s.ops ++ [⟨s.nextId, b.tag, p.sheaf, i.common.sbw.toNat, 1, m, regNums i.shape.dsts, []⟩] ∧
      (∀ l r, h'.raw l r = h.raw l r) ∧
      (∀ (l : Nat) (x y : Thread), h.threads[l]? = some x → h'.threads[l]? = some y →
        y.fflags = if m.getLsbD l then x.fflags ||| (f m h (if d.isU then (lanesOf m).headD l else l)).2
          else x.fflags) ∧
      (∀ (l : Nat) (x : Thread), h.threads[l]? = some x → ∃ y, h'.threads[l]? = some y ∧ Thread.sameButRegs x y) ∧
      (∀ tag j, ¬ (tag = b.tag ∧ j = p.sheaf) → t.sheaf tag j = s.sheaf tag j) ∧
      t = { s with sheaves := t.sheaves, cores := t.cores, jobs := (s.retire k.job).jobs, free := t.free,
                   nextId := s.nextId + 2, ops := t.ops, results := t.results }

/-! ## Where threads go -/

/-- The address of the word an issue slot stands before. -/
def Bundle.here (b : Bundle) : DWord := b.base + 8 + 8 * BitVec.ofNat 64 b.pos

/-- Where a thread of a bundle goes at the end of its clause: where an instruction of the clause has sent it, or to the
next clause header (R56, R254). -/
def Bundle.goal (b : Bundle) (i l : Nat) : DWord :=
  ((b.jumps.find? fun j => j.1 == i && j.2.1 == l).map (·.2.2)).getD (b.here + 8)

/-- An instruction that ends its clause completes: it answers a next state in which the bundle has left the issue slot
and every thread of it stands at the header given; d, n registers of the active lanes, holds the value given, and nothing
else has changed. -/
def Moves (i : Instr) (d : Reg) (n : Nat) (pre : Sheaf → Lanes → Prop) (dest : Bundle → Sheaf → Lanes → Nat → Nat → DWord)
    (value : Bundle → Nat) : Prop :=
  ∀ s b p k h m, Issues i s b p k h m → b.pos + 1 = b.count → pre h m →
    ∃ t h', exec i s = .next t ∧ t.slot s.cur.1 s.cur.2 = none ∧ t.sheaf b.tag p.sheaf = some h' ∧
      (∀ (l : Nat) (y : Thread), l < 32 → p.lanes.getLsbD l = true → h'.threads[l]? = some y →
        y.pc = dest b h m p.sheaf l ∧ y.clause = dest b h m p.sheaf l ∧ y.inBundle = false) ∧
      (d.isZ = false → ∀ l, m.getLsbD l = true → h'.val l d n = value b % 2 ^ (32 * n)) ∧
      (∀ (l : Nat) (x y : Thread), h.threads[l]? = some x → h'.threads[l]? = some y → y.fflags = x.fflags) ∧
      RegFrame s t b p k h h' m d n

/-- A thread that takes a cause and can enter its handler: it does not handle one, does not save or restore, and has not
exited (R226, R228). -/
def Thread.canEnter (x : Thread) : Prop := x.hact = false ∧ x.rmode = false ∧ x.exited = false

/-- Handler entry (R226): `%epc`, `%fault` and `%cause` are written, `HACT` is set, the counter moves to the handler;
registers, predicates, `%hyp`, `%fflags` and everything else of the thread are unchanged, but for its stall count (R16). -/
def Entered (k : Stook) (x y : Thread) (code : Nat) (detail epc clause : DWord) : Prop :=
  y = { x with epc := epc, fault := detail, code := BitVec.ofNat 8 code,
               cloff := BitVec.ofNat 5 ((epc - clause).toNat / 8), async := false, hact := true, pc := k.kh.handler,
               clause := k.kh.handler, held := none, readyAt := y.readyAt, inBundle := false, cnt := y.cnt,
               issued := y.issued }

/-- What an instruction that takes a cause in the lanes of m leaves: those threads have entered their handlers, every
other thread differs only in where it stands, uniform registers and everything outside the sheaf are as before (R226). -/
structure Trapped (s t : State) (b : Bundle) (p : Part) (k : Stook) (h : Sheaf) (m : Lanes) (code : Nat)
    (detail : Nat → DWord) (epc clause : DWord) : Prop where
  rest : t = { s with sheaves := t.sheaves, cores := t.cores, jobs := t.jobs, free := t.free }
  jobs : t.jobs = s.jobs ∨ t.jobs = (s.retire k.job).jobs
  others : ∀ tag i, ¬ (tag = b.tag ∧ i = p.sheaf) → t.sheaf tag i = s.sheaf tag i
  sheaf : ∃ h', t.sheaf b.tag p.sheaf = some h' ∧
    h' = { h with threads := h'.threads, failed := h'.failed } ∧ h'.threads.length = h.threads.length ∧
    ∀ (l : Nat) (x y : Thread), h.threads[l]? = some x → h'.threads[l]? = some y →
      if m.getLsbD l then Entered k x y code (detail l) epc clause
      else y = { x with pc := y.pc, clause := y.clause, readyAt := y.readyAt, inBundle := y.inBundle, cnt := y.cnt,
                        issued := y.issued }

/-- No issue slot but the current one holds a thread of this part of a bundle: a thread is in one bundle at most (R53). -/
def State.noneElsewhere (s : State) (b : Bundle) (p : Part) : Prop :=
  ∀ core slot x, ¬ (core = s.cur.1 ∧ (slot = 0 ↔ s.cur.2 = 0)) → s.slot core slot = some x → x.tag = b.tag →
    ∀ q ∈ x.parts, q.sheaf = p.sheaf → q.lanes &&& p.lanes = 0

/-- Every core is as before, but for the bundle of the current issue slot. -/
def State.sameSlots (s t : State) : Prop :=
  (∀ core slot, ¬ (core = s.cur.1 ∧ (slot = 0 ↔ s.cur.2 = 0)) → t.slot core slot = s.slot core slot) ∧
    ∀ core, { t.core core with slot0 := none, slot1 := none } = { s.core core with slot0 := none, slot1 := none }

/-! ## Operands of an instruction that executes once per bundle -/

/-- What the lowest active lane reads from n registers (R59). -/
def Sheaf.uval (h : Sheaf) (m : Lanes) (r : Reg) (n : Nat) : Nat := h.val ((lanesOf m).headD 0) r n

/-! ## What an issue sets going -/

/-- A thread that writes no register: only where it stands and what covers its registers may differ. -/
def Thread.sameButPlace (x y : Thread) : Prop :=
  y = { x with pend := y.pend, pc := y.pc, clause := y.clause, readyAt := y.readyAt, inBundle := y.inBundle, cnt := y.cnt,
               issued := y.issued }

/-- Registers, flags and everything else of all threads are as before, but for where the threads of the bundle stand and
what covers their registers; other sheaves, and other issue slots, are as before. -/
structure Still (s t : State) (b : Bundle) (p : Part) (h : Sheaf) : Prop where
  sheaf : ∃ h', t.sheaf b.tag p.sheaf = some h' ∧ h' = { h with threads := h'.threads, failed := h'.failed } ∧
    h'.threads.length = h.threads.length ∧
    ∀ (l : Nat) (x y : Thread), h.threads[l]? = some x → h'.threads[l]? = some y → x.sameButPlace y
  others : ∀ tag j, ¬ (tag = b.tag ∧ j = p.sheaf) → t.sheaf tag j = s.sheaf tag j
  slots : t.cores = (s.setSlot s.cur.1 s.cur.2 (t.slot s.cur.1 s.cur.2)).cores

/-- The operation that an issue opens under its slot, with its outstanding parts (R258). -/
def State.newOp (s : State) (i : Instr) (b : Bundle) (p : Part) (m : Lanes) (left : Nat) : Op :=
  ⟨s.nextId, b.tag, p.sheaf, i.common.sbw.toNat, left, m, regNums i.shape.dsts, []⟩

/-- The issue queues these memory requests, in order, under one operation of its slot, and does nothing else: memory,
copies and registers are as before (R123, R258). -/
structure Queues (i : Instr) (s t : State) (b : Bundle) (p : Part) (k : Stook) (h : Sheaf) (m : Lanes) (rs : List Req) :
    Prop where
  still : Still s t b p h
  reqs : t.reqs = s.reqs ++ rs.mapIdx fun j r =>
    { r with id := s.nextId + 1 + j, op := s.nextId, issued := s.free + 1 }
  ops : t.ops = s.ops ++ [s.newOp i b p m rs.length]
  rest : t = { s with sheaves := t.sheaves, cores := t.cores, jobs := (s.retire k.job).jobs, free := t.free,
                      nextId := s.nextId + 1 + rs.length, reqs := t.reqs, ops := t.ops }

/-- The issue sends a result with these register writes on its way under its slot, and does nothing else (R258). -/
structure Answers (i : Instr) (s t : State) (b : Bundle) (p : Part) (k : Stook) (h : Sheaf) (m : Lanes)
    (ws : List (Nat × Option Nat × Word)) : Prop where
  still : Still s t b p h
  results : t.results = s.results ++ [⟨s.nextId + 1, s.nextId, b.tag, p.sheaf, ws⟩]
  ops : t.ops = s.ops ++ [s.newOp i b p m 1]
  rest : t = { s with sheaves := t.sheaves, cores := t.cores, jobs := (s.retire k.job).jobs, free := t.free,
                      nextId := s.nextId + 2, results := t.results, ops := t.ops }

/-- The bundle waits at the instruction, with the words it read, until its checks are decided (R364); of the rest only
arbor queues may differ. -/
structure Defers (i : Instr) (s t : State) (b : Bundle) (p : Part) (h : Sheaf) (m : Lanes) (ws : List Word) : Prop where
  still : Still s t b p h
  slot : t.slot s.cur.1 s.cur.2 = some { b with deferred := true }
  deferred : t.deferred = s.deferred ++
    [{ core := s.cur.1, slot := s.cur.2, tag := b.tag, sheaf := p.sheaf, active := m, pc := b.here, clause := b.base,
       instr := i, upto := s.nextId, op := s.nextId, words := [(0, ws)], reqs := [], gone := [] }]
  ops : t.ops = s.ops ++ [s.newOp i b p m 1]
  rest : t = { s with sheaves := t.sheaves, cores := t.cores, free := t.free, nextId := s.nextId + 1,
                      deferred := t.deferred, ops := t.ops, arbors := t.arbors }

/-- The instruction holds its bundle: every thread of it is held and stands at the next word, the slot is free again, a
hold of the kind given stands for the active lanes, and nothing else has changed (R57, R66). -/
structure Blocks (i : Instr) (s t : State) (b : Bundle) (p : Part) (h : Sheaf) (m : Lanes) (kind : HoldKind) : Prop where
  slot : t.slot s.cur.1 s.cur.2 = none
  holds : t.holds = s.holds ++
    [{ id := s.nextId, tag := b.tag, sheaf := p.sheaf, lanes := p.lanes, active := m, core := s.cur.1, pc := b.here,
       clause := b.base, op := 0, seq := s.now, kind := kind }]
  sheaf : ∃ h', t.sheaf b.tag p.sheaf = some h' ∧ h' = { h with threads := h'.threads, failed := h'.failed } ∧
    h'.threads.length = h.threads.length ∧
    ∀ (l : Nat) (x y : Thread), h.threads[l]? = some x → h'.threads[l]? = some y →
      y = if p.lanes.getLsbD l then
            { x with held := some s.nextId, pc := b.here + 8, inBundle := false, readyAt := y.readyAt,
                     clause := if b.pos + 1 = b.count then b.here + 8 else b.base, cnt := x.cnt + i.common.stall.toNat,
                     issued := y.issued }
          else x
  others : ∀ tag j, ¬ (tag = b.tag ∧ j = p.sheaf) → t.sheaf tag j = s.sheaf tag j
  rest : t = { s with sheaves := t.sheaves, cores := t.cores, free := t.free, nextId := s.nextId + 1, holds := t.holds }

/-! ## Accesses -/

/-- The address a lane accesses: its register pair plus the offset, modulo 2^64 (R122). -/
def Sheaf.ea (h : Sheaf) (l : Nat) (a : Reg) (off : Int) : Nat := vaPlus (BitVec.ofNat 64 (h.val l a 2)) off

/-- The lanes that access: each active one for itself, or all as one (R122). -/
def accesses (once : Bool) (m : Lanes) : List (Nat × Lanes) :=
  if once then [((lanesOf m).headD 0, m)] else (lanesOf m).map fun l => (l, 1#32 <<< l)

/-- How a lane's accesses go (R185). -/
def State.laneWho (s : State) (k : Stook) (h : Sheaf) (l : Nat) : Who :=
  match h.threads[l]? with
  | some x => s.whoOf k.job x
  | none => .untagged

/-- An access of w bytes at a VA passes the checks of R279, R315 and R356 and lies at offset o of range e: it is outside
the wain aperture, aligned, inside a range that grants the rights, of a class that allows it, and on lines that can be
read; a write is not under a hypothesis (for one that is, see `TaggedWritesWait`). -/
structure Passes (s : State) (k : Stook) (who : Who) (va w : Nat) (rights : BitVec 7) (shOnly : Bool) (e : RangeEnt)
    (o : Nat) : Prop where
  aperture : s.inAperture k.job va = false
  range : s.translate k.job va w w rights = .ok (e, o)
  cls : (shOnly = true → e.cls = .sh) ∧ (rights &&& rightW ≠ 0 → e.cls ≠ .ro)
  plain : rights &&& rightW ≠ 0 → who.isTagged = false
  lines : s.lineChecks e (rights &&& rightW != 0) o w va = none

/-- A request of lanes for w bytes at a place, of an instruction that accesses once per bundle or not, before it is
numbered: it reads nothing and writes nothing yet. -/
def Bundle.request (b : Bundle) (p : Part) (k : Stook) (h : Sheaf) (m : Lanes) (once : Bool) (place : Place) (home : Bool)
    (who : Who) (w : Nat) (va : DWord) : Req :=
  { id := 0, op := 0, tag := b.tag, job := k.job, sheaf := p.sheaf, lanes := m, core := h.core, kind := .load false, place,
    width := w, data := [], acq := false, rel := false, scope := 0, home, who, dest := [], extra := [], ff := none,
    got := List.replicate w 0, done := [], va, pc := b.here, clause := b.base, issued := 0, once }

/-- An instruction that accesses global memory completes its issue: where every access passes, one request is queued for
each, at home for `SH` data, hypothesis and peer ranges and threads under a hypothesis, and as a snapshot or an L1 write
otherwise (R101). Where all lanes access as one, an atomic needs one `%hyp` if a lane is tagged, a load or store in any case
(R189, R315, R356). `want` fills in what the instruction asks. -/
def Accesses (i : Instr) (a : Reg) (off : Int) (w : Nat) (once : Bool) (rights : BitVec 7) (shOnly : Bool)
    (want : Sheaf → Lanes → Nat → Req → Req) : Prop :=
  ∀ s b p k h m (e : Nat → RangeEnt) (o : Nat → Nat), Issues i s b p k h m →
    (∀ g ∈ accesses once m, Passes s k (s.laneWho k h g.1) (h.ea g.1 a off) w rights shOnly (e g.1) (o g.1)) →
    (once = true → (if shOnly then (issueCtx i s b p m).mixedTagged s else (issueCtx i s b p m).mixed s) = false) →
    ∃ t, exec i s = .next t ∧ Queues i s t b p k h m ((accesses once m).map fun g =>
      let who := s.laneWho k h g.1
      let at' := e g.1
      want h m g.1 (b.request p k h g.2 once (.range at' (o g.1))
        (at'.cls == .sh || at'.hyp || at'.peer.isSome || who != .untagged) who w (BitVec.ofNat 64 (h.ea g.1 a off))))

/-- The registers of a result of n words for a lane, the lowest word first (R4, R260). -/
def regsOf (d : Reg) (n l : Nat) : List (Nat × Option Nat) :=
  if d.isZ then [] else (List.range n).map fun j => (d.num + j, if d.isU then none else some l)

/-- The same for the scratchpad: each active lane's offset is its register plus the offset, modulo 2^32, in the share of
the core that `CSEL` names, or of its own (R97). -/
def SpadAccesses (i : Instr) (a : Reg) (off : Int) (w : Nat) (csel : Bool) (core : Nat) (atomic : Bool)
    (want : Sheaf → Lanes → Nat → Req → Req) : Prop :=
  ∀ s b p k h m, Issues i s b p k h m →
    let share := if csel then core else k.cores.idxOf h.core
    let at' (l : Nat) : Nat := wrapI 32 ((h.val l a 1 : Int) + off)
    (∀ l, m.getLsbD l = true → k.spadCheck share (at' l) w = none ∧
      (atomic = true → k.cribAt share (at' l) = none)) →
    ∃ t, exec i s = .next t ∧ Queues i s t b p k h m ((accesses false m).map fun g =>
      want h m g.1 (b.request p k h g.2 false (.spad share (at' g.1)) true .untagged w (BitVec.ofNat 64 (at' g.1))))

/-! ## Numbers and the fabric -/

/-- No stook of a job is resident or saved, and no wain has a copy of it (R241, R245). -/
def State.evicted (s : State) (job : Nat) : Prop :=
  (∀ k ∈ s.stooks, k.job ≠ job) ∧ (∀ k ∈ s.saved, k.job ≠ job) ∧ ∀ c ∈ s.copies, c.job ≠ job

/-- The fabric and the matrix engines hold nothing of a job: no message, also on its way to a peer, no request, no entry
(R241). -/
def State.silent (s : State) (job : Nat) : Prop :=
  (∀ m ∈ s.msgs ++ s.outgoing, m.job ≠ job) ∧ (∀ f ∈ s.fabReqs, f.job ≠ job) ∧ ∀ e ∈ s.mxTable, e.job ≠ job

/-- The numbers of what instructions wait for lie below the next one to be given. -/
structure Issued (s : State) : Prop where
  ops : ∀ o ∈ s.ops, o.id < s.nextId
  reqs : ∀ r ∈ s.reqs, r.id < s.nextId
  results : ∀ r ∈ s.results, r.id < s.nextId
  holds : ∀ h ∈ s.holds, h.id < s.nextId

/-- Every number in use lies below the next one to be given: those of the engines and the fabric too. -/
structure Numbered (s : State) : Prop extends Issued s where
  fabReqs : ∀ f ∈ s.fabReqs, f.id < s.nextId
  msgs : ∀ m ∈ s.msgs, m.id < s.nextId
  copies : ∀ c ∈ s.copies, c.id < s.nextId
  entries : ∀ e ∈ s.mxTable, e.seq < s.nextId

/-- The message that a packet of a request leaves as, for a destination in this package: its payload is read from memory
now where it comes from there (R197, R199, R204). -/
def State.packetMsg (s : State) (f : FabReq) (u : Unsent) (id : Nat) : Msg :=
  let kind : MsgKind := match u.src, u.kind with
    | some (e, o, n), .write d _ => .write d (s.engineRead e o n .untagged)
    | _, k => k
  let m := match u.goal with
    | .mem pkg x o => s.memMsg f.job f.core pkg x o f.id u.piece kind
    | .core pkg d c => s.coreMsg f.job f.core pkg d c f.id u.piece kind
    | .router _ => s.coreMsg f.job f.core s.pkg 0 0 f.id u.piece kind
  { m with id := id }

/-- A packet goes to memory or a core of this package, and what it carries can be read here. -/
def State.packetHere (s : State) (u : Unsent) : Prop :=
  (match u.goal with | .mem pkg _ _ => pkg = s.pkg | .core pkg _ _ => pkg = s.pkg | .router _ => False) ∧
  ∀ e o n, u.src = some (e, o, n) → e.peer = none ∧ (s.entNow e).peer = none ∧ (s.entNow e).firstBlocked false o n = none ∧
    s.keyLive (s.entNow e) = true

/-- The issue hands a fabric request of these packets to the interface, for its lowest active lane (R203, R204). While an
earlier access of its lanes is outstanding, or a payload is still fetched from a peer range, its packets wait there;
otherwise they leave at once, in order, as messages. Memory and registers are as before. -/
structure Submits (i : Instr) (s t : State) (b : Bundle) (p : Part) (k : Stook) (h : Sheaf) (m : Lanes) (kind : FabKind)
    (us : List Unsent) (rel : Option Nat) : Prop where
  still : Still s t b p h
  ops : t.ops = s.ops ++ [s.newOp i b p m us.length]
  fab : ∃ f fs, t.fabReqs = s.fabReqs ++ f :: fs ∧ (∀ g ∈ fs, ∃ rng line, g.kind = .fetch f.id rng line) ∧
    f = ⟨s.nextId + 1, s.nextId, b.tag, k.job, p.sheaf, 1#32 <<< (lanesOf m).headD 0, h.core, kind, us.map (·.piece),
      f.unsent, ⟨b.tag, p.sheaf, m, s.nextId⟩, rel⟩ ∧
    (s.met ⟨b.tag, p.sheaf, m, s.nextId⟩ = false → f.unsent = us ∧ fs = [] ∧ t.msgs = s.msgs) ∧
    (s.met ⟨b.tag, p.sheaf, m, s.nextId⟩ = true → rel = none → (∀ u ∈ us, s.packetHere u) →
      f.unsent = [] ∧ fs = [] ∧ t.msgs = s.msgs ++ us.mapIdx fun j u => s.packetMsg f u (s.nextId + 2 + j))
  memory : rel = none → t.mem = s.mem ∧ t.ranges = s.ranges ∧ t.l3 = s.l3 ∧ t.l2 = s.l2 ∧ t.l1 = s.l1 ∧ t.versions = s.versions
  rest : t.stooks = s.stooks ∧ t.reqs = s.reqs ∧ t.results = s.results ∧ t.holds = s.holds ∧
    t.now = s.now

/-- No uniform register's latest write is outstanding for a lane: every one reads as it holds (R71). -/
def State.settledFor (s : State) (h : Sheaf) (l : Nat) : Prop :=
  ∀ x, h.threads[l]? = some x → ∀ r, 256 ≤ r → r ≤ 640 → x.covers s.ops r = true

/-- No request waits at its interface, so that the one to come is the only one that may leave. -/
def State.noneWait (s : State) : Prop := ∀ f ∈ s.fabReqs, f.unsent = []

/-! ## The end of a wait -/

/-- A hold has ended: its threads are held no more and stand where they stood, at the instruction after it (R57, R66);
of a thread only its allotment, its save stage and when it is ready may differ. -/
structure Freed (s t : State) (h : Hold) : Prop where
  gone : ∀ x ∈ t.holds, x.id ≠ h.id
  threads : ∀ l x, l < 32 → h.lanes.getLsbD l = true → s.thread h.tag h.sheaf l = some x → x.held = some h.id →
    ∃ y, t.thread h.tag h.sheaf l = some y ∧
      y = { x with held := none, readyAt := y.readyAt, v := y.v, stage := y.stage, hyp := y.hyp }

/-- No copy in a core's L1 holds a dirty byte of a job. -/
def State.l1Clean (t : State) (core job : Nat) : Prop := ∀ x ∈ t.l1, x.unit = core → x.job = job → x.dirty = 0

/-- No copy in a core's L1 holds a clean byte of a job. -/
def State.l1Fresh (t : State) (core job : Nat) : Prop := ∀ x ∈ t.l1, x.unit = core → x.job = job → x.valid = x.dirty

/-! ## What atomics and the matrix engine compute -/

/-- The new value of an atomic of w bytes from the old one, its operand and its compare value (R205, R277). -/
structure RmwGives (op : Rmw) (w old b cmp new : Nat) : Prop where
  add : op = .add → new = (old + b) % 2 ^ (8 * w)
  and : op = .and → ∀ i, new.testBit i = (old.testBit i && b.testBit i)
  or : op = .or → ∀ i, new.testBit i = (old.testBit i || b.testBit i)
  xor : op = .xor → ∀ i, new.testBit i = (old.testBit i != b.testBit i)
  signed : op = .mins ∨ op = .maxs → (new = old ∨ new = b) ∧
    sgn (8 * w) new = if op = .mins then min (sgn (8 * w) old) (sgn (8 * w) b) else max (sgn (8 * w) old) (sgn (8 * w) b)
  minu : op = .minu → new = min old b
  maxu : op = .maxu → new = max old b
  xchg : op = .xchg → new = b
  cas : op = .cas → new = if old = cmp then b else old
  fadd : op = .fadd → new = (addF fp32 .rne (decodeF fp32 old) (decodeF fp32 b)).1

/-- A finite value as an integer multiple of 2^q. -/
def Val.times (q : Int) : Val → Int
  | .fin n m x => signedAt n m x q
  | _ => 0

/-- A value is the exact sum of others (R172): NaN, infinities and the sign of zero as IEEE 754 has them, and otherwise the
sum of integers at any exponent that holds every value. -/
def IsSum (ps : List Val) (p : Val) : Prop :=
  if .nan ∈ ps ∨ (.inf false ∈ ps ∧ .inf true ∈ ps) then p = .nan
  else if .inf false ∈ ps then p = .inf false
  else if .inf true ∈ ps then p = .inf true
  else ∃ neg m x, p = .fin neg m x ∧
    (∀ q, q ≤ x → (∀ n y f, .fin n y f ∈ ps → q ≤ f) → p.times q = (ps.map (Val.times q)).sum) ∧
    (m = 0 → (neg = true ↔ ∀ v ∈ ps, ∃ f, v = .fin true 0 f))

/-- What one segment adds to a word of a tile, from the values of its row and its column and the exponent of their scales,
and the status bits that this raises (R172). `NV` may be raised by the products too (DEDUCED, log entry 56). -/
def SegmentAdds (iacc : Bool) (as bs : List Val) (e : Int) (c c' status : Word) : Prop :=
  let ps := (as.zip bs).map fun x => (mulV x.1 x.2).1
  if iacc then
    let y := sgn 32 c.toNat + (ps.map (Val.times 0)).sum
    c' = BitVec.ofInt 32 (min (max y (-2147483648)) 2147483647) ∧
      status = if -2147483648 ≤ y ∧ y ≤ 2147483647 then 0 else 0x100
  else ∃ p, IsSum ps p ∧
    let t := encodeF fp32 (p.scale e) .rne
    let r := addF fp32 .rne (decodeF fp32 c.toNat) (decodeF fp32 t.1)
    c' = BitVec.ofNat 32 r.1 ∧ ∃ nv : Bool, status = ((t.2 ||| r.2) ||| if nv then 0x10 else 0).zeroExtend 32

/-! ## Management -/

/-- A function may take a command (R243, R244). -/
def State.mayCommand (s : State) (fn : Nat) : Prop := fn ≤ 64 ∧ (s.func fn).busy = .idle

/-- A command of a function has ended, with this in `MSTAT` (R243). -/
def State.ended (t : State) (fn status result : Nat) : Prop :=
  (t.func fn).busy = .idle ∧ (t.func fn).status = status ∧ (t.func fn).result = result

/-- A command of a function goes on: `MSTAT` reads busy (R243, R244). -/
def State.underWay (t : State) (fn : Nat) (b : Busy) : Prop := (t.func fn).busy = b ∧ (t.func fn).status = 1

/-- A function may act on a job: it is its own, or the function is function 0 (R243). -/
def Job.ownedBy (j : Job) (fn : Nat) : Prop := fn = 0 ∨ j.fn = fn

/-- Nothing has changed but the registers of functions. -/
def State.onlyFuncs (s t : State) : Prop := t = { s with funcs := t.funcs }

/-! ## Shapes that every step keeps -/

/-- Memory keeps its canonical form: the package's memory, the memory at device physical addresses, and the scratchpad of
every resident stook; every line a home slice holds has 64 bytes (R4, R95, R101). -/
structure State.Canonical (s : State) : Prop where
  mem : Memory.wf s.mem = true
  devMem : Memory.wf s.devMem = true
  spads : ∀ k ∈ s.stooks, Memory.wf k.spad = true
  lines : ∀ l ∈ s.l3, l.bytes.length = 64

/-- Every sheaf has 32 threads of one allotment and 384 uniform registers; range indices, job numbers and the places of
matrix entries are each used once; every number in use lies below the next (R32, R47, R73, R163, R245). -/
structure State.Ordered (s : State) : Prop where
  sheaves : ∀ h ∈ s.sheaves, h.shaped = true
  ranges : (s.ranges.map (·.idx)).Nodup
  jobs : (s.jobs.map (·.id)).Nodup ∧ ∀ j ∈ s.jobs, j.id < s.nextJob
  entries : (s.mxTable.map (·.seq)).Nodup
  numbers : Numbered s

end Sys2Proof.Machine
end

