-- ==== Sys2Proof/Certificates/Slice0/Obligations.lean ====
section
/-! DEFINITION. The statements about the package. Each docstring names the rules of spec/ that the statement
formalises, or says what of it is the model's own. -/

open Sys2Proof Sys2Proof.Machine

/-! ## Arithmetic of fixed latency -/

/-- Integer arithmetic (R308): for every state, every form and every field value with which one of these instructions
issues, it answers a next state in which each active lane's destination holds the result of the rule, no flag changes,
and nothing outside the destination changes (R16, R17, R56). Operands of 32 or 64 bits by `MOD`[14]; with `.sat` the exact
signed result is clamped to INT32. -/
def Obligations.IntegerArithmetic : Prop :=
  ∀ (c : Common) (f : A3) (g : A4),
    let n := x2 f.mod 14
    let w := 32 * n
    let sat (x : Int) : Nat := wrapI 32 (min (max x (-2147483648)) 2147483647)
    let bin (op : Nat → Nat → Nat) (n : Nat) (h : Sheaf) (l : Nat) : Nat × Flags := (op (h.val l f.a n) (h.val l f.b n), 0)
    Computes (.iadd c f) f.d n (bin (fun x y => if mbit f.mod 13 then sat (sgn 32 x + sgn 32 y) else x + y) n) ∧
    Computes (.isub c f) f.d n
      (bin (fun x y => if mbit f.mod 13 then sat (sgn 32 x - sgn 32 y) else x + (2 ^ w - y)) n) ∧
    Computes (.imul c f) f.d n (bin (fun x y => x * y) n) ∧
    Computes (.imulhi c f) f.d 1 (bin (fun x y => wrapI 32 (sgn 32 x * sgn 32 y / 2 ^ 32)) 1) ∧
    Computes (.imulhiU c f) f.d 1 (bin (fun x y => x * y / 2 ^ 32) 1) ∧
    Computes (.imad c g) g.d (x2 g.mod 4)
      (fun h l => (h.val l g.a (x2 g.mod 4) * h.val l g.b (x2 g.mod 4) + h.val l g.c (x2 g.mod 4), 0)) ∧
    Computes (.imin c f) f.d n (bin (fun x y => if sgn w x < sgn w y then x else y) n) ∧
    Computes (.iminU c f) f.d n (bin (fun x y => min x y) n) ∧
    Computes (.imax c f) f.d n (bin (fun x y => if sgn w x < sgn w y then y else x) n) ∧
    Computes (.imaxU c f) f.d n (bin (fun x y => max x y) n) ∧
    Computes (.iabs c f) f.d 1
      (fun h l => (let y : Int := (sgn 32 (h.val l f.a 1)).natAbs; if mbit f.mod 13 then sat y else y.toNat, 0))

/-- Shifts and logic (R320, R347): a count of the width or more gives 0, or for `SAR` the sign in every bit; as in
`IntegerArithmetic`, every form completes and nothing outside the destination changes. -/
def Obligations.ShiftsAndLogic : Prop :=
  ∀ (c : Common) (f : A3),
    let n := x2 f.mod 14
    let w := 32 * n
    let bin (op : Nat → Nat → Nat) (h : Sheaf) (l : Nat) : Nat × Flags := (op (h.val l f.a n) (h.val l f.b n), 0)
    Computes (.shl c f) f.d n (bin fun x k => if w ≤ k then 0 else x <<< k) ∧
    Computes (.shr c f) f.d n (bin fun x k => if w ≤ k then 0 else x >>> k) ∧
    Computes (.sar c f) f.d n (bin fun x k => wrapI w (sgn w x / 2 ^ min k w)) ∧
    Computes (.lopAnd c f) f.d n (bin fun x y => x &&& y) ∧
    Computes (.lopOr c f) f.d n (bin fun x y => x ||| y) ∧
    Computes (.lopXor c f) f.d n (bin fun x y => x ^^^ y) ∧
    Computes (.lopAndn c f) f.d n (bin fun x y => x &&& (2 ^ w - 1 - y))

/-- Bit fields and counts (R284, R286, R320): a control's position is in bits [7:0] and its length in bits [15:8]; a
field that would run past bit 31 is cut there, and a position of 32 or more selects nothing. -/
def Obligations.BitFieldsAndCounts : Prop :=
  ∀ (c : Common) (f : A3) (g : A4),
    let len (ctl : Nat) : Nat := if 32 ≤ ctl % 256 then 0 else min (ctl / 256 % 256) (32 - ctl % 256)
    let bin (op : Nat → Nat → Nat) (h : Sheaf) (l : Nat) : Nat × Flags := (op (h.val l f.a 1) (h.val l f.b 1), 0)
    let una (op : Nat → Nat) (h : Sheaf) (l : Nat) : Nat × Flags := (op (h.val l f.a 1), 0)
    Computes (.bfx c f) f.d 1
      (bin fun x k => if len k = 0 then 0 else wrapI 32 (sgn (len k) (x / 2 ^ (k % 256)))) ∧
    Computes (.bfxU c f) f.d 1 (bin fun x k => if len k = 0 then 0 else x / 2 ^ (k % 256) % 2 ^ len k) ∧
    Computes (.bfi c g) g.d 1 (fun h l =>
      let x := h.val l g.a 1
      let y := h.val l g.b 1
      let k := h.val l g.c 1
      ((List.range 32).foldl (fun r i =>
        if (if k % 256 ≤ i ∧ i < k % 256 + len k then x.testBit (i - k % 256) else y.testBit i) then r + 2 ^ i else r) 0,
       0)) ∧
    Computes (.popc c f) f.d 1 (una fun x => ((List.range 32).filter x.testBit).length) ∧
    Computes (.clz c f) f.d 1 (una fun x => if x = 0 then 32 else 31 - x.log2) ∧
    Computes (.brev c f) f.d 1
      (una fun x => (List.range 32).foldl (fun r i => if x.testBit (31 - i) then r + 2 ^ i else r) 0)

/-- Compares into a predicate, selection, moves and predicate logic (R296, R309, R321, R328, R349). A compare gives 1 or
0; a condition of an FP32 compare with a NaN holds only in the `.u` form. -/
def Obligations.CompareSelectMove : Prop :=
  ∀ (c : Common) (f : A3) (g : A4) (q : MI),
    let n := x2 f.mod 14
    let w := 32 * n
    let k := mfield f.mod 0 3
    let bit (x : Bool) : Nat × Flags := (if x then 1 else 0, 0)
    let holds (o : Ordering) : Bool := match k with
      | 0 => o == .eq | 1 => o != .eq | 2 => o == .lt | 3 => o != .gt | 4 => o == .gt | _ => o != .lt
    let fcmp (un : Bool) (h : Sheaf) (l : Nat) : Nat × Flags :=
      bit (match cmpV (decodeF fp32 (h.val l f.a 1)) (decodeF fp32 (h.val l f.b 1)) with | none => un | some o => holds o)
    let logic (op : Bool → Bool → Bool) (h : Sheaf) (l : Nat) : Nat × Flags :=
      bit (op (h.pred l f.a != mbit f.mod 0) (h.pred l f.b != mbit f.mod 1))
    Computes (.icmp c f) f.d 1 (fun h l => bit (holds (compare (sgn w (h.val l f.a n)) (sgn w (h.val l f.b n))))) ∧
    Computes (.icmpU c f) f.d 1 (fun h l => bit (holds (compare (h.val l f.a n) (h.val l f.b n)))) ∧
    Computes (.fcmp c f) f.d 1 (fcmp false) ∧
    Computes (.fcmpU c f) f.d 1 (fcmp true) ∧
    Computes (.sel c g) g.d (x2 g.mod 4) (fun h l =>
      (if h.pred l g.c != mbit g.mod 3 then h.val l g.a (x2 g.mod 4) else h.val l g.b (x2 g.mod 4), 0)) ∧
    Computes (.mov c f) f.d n (fun h l => (h.val l f.a n, 0)) ∧
    Computes (.movi c q) q.d (x2 q.mod 0) (fun _ _ => ((q.imm.signExtend 64).toNat, 0)) ∧
    Computes (.psetAnd c f) f.d 1 (logic and) ∧
    Computes (.psetOr c f) f.d 1 (logic or) ∧
    Computes (.psetXor c f) f.d 1 (logic xor)

/-- FP32 arithmetic (R295, R299, R300): each result is rounded once from the exact value, with the flags of R151. An
operand's absolute value is taken before its negation. -/
def Obligations.FloatArithmetic : Prop :=
  ∀ (c : Common) (f : A3) (g : A4),
    let rm := rmOf f.mod.toNat
    let src (x : Nat) (abs neg : Bool) : Val :=
      (fun v : Val => if neg then v.neg else v) (decodeF fp32 (if abs then x % 2 ^ 31 else x))
    let a (h : Sheaf) (l : Nat) : Val := src (h.val l f.a 1) (mbit f.mod 4) (mbit f.mod 2)
    let b (h : Sheaf) (l : Nat) : Val := src (h.val l f.b 1) (mbit f.mod 5) (mbit f.mod 3)
    Computes (.fadd c f) f.d 1 (fun h l => addF fp32 rm (a h l) (b h l)) ∧
    Computes (.fmul c f) f.d 1 (fun h l => mulF fp32 rm (a h l) (b h l)) ∧
    Computes (.ffma c g) g.d 1 (fun h l => fmaF fp32 (rmOf g.mod.toNat) (mbit g.mod 2) (decodeF fp32 (h.val l g.a 1))
      (decodeF fp32 (h.val l g.b 1)) (src (h.val l g.c 1) false (mbit g.mod 3))) ∧
    Computes (.fmin c f) f.d 1 (fun h l => (minmaxF false false (a h l) (b h l), 0)) ∧
    Computes (.fminNan c f) f.d 1 (fun h l => (minmaxF false true (a h l) (b h l), 0)) ∧
    Computes (.fmax c f) f.d 1 (fun h l => (minmaxF true false (a h l) (b h l), 0)) ∧
    Computes (.fmaxNan c f) f.d 1 (fun h l => (minmaxF true true (a h l) (b h l), 0))

/-- Packed half-precision arithmetic and conversions (R297, R304): each half is computed by itself, the flags of either
half are raised; a conversion rounds once, and to an integer it clamps. -/
def Obligations.PackedAndConversions : Prop :=
  ∀ (c : Common) (f : A3) (g : A4),
    let rm := rmOf f.mod.toNat
    let half (fm : Fmt) (x j : Nat) : Val := decodeF fm (x / 2 ^ (16 * j) % 2 ^ 16)
    let both (op : Nat → Nat × Flags) : Nat × Flags := ((op 0).1 + (op 1).1 * 2 ^ 16, (op 0).2 ||| (op 1).2)
    let add (fm : Fmt) (h : Sheaf) (l : Nat) : Nat × Flags :=
      both fun j => addF fm rm (half fm (h.val l f.a 1) j) (half fm (h.val l f.b 1) j)
    let mul (fm : Fmt) (h : Sheaf) (l : Nat) : Nat × Flags :=
      both fun j => mulF fm rm (half fm (h.val l f.a 1) j) (half fm (h.val l f.b 1) j)
    let fma (fm : Fmt) (h : Sheaf) (l : Nat) : Nat × Flags :=
      both fun j => fmaF fm (rmOf g.mod.toNat) false (half fm (h.val l g.a 1) j) (half fm (h.val l g.b 1) j)
        (half fm (h.val l g.c 1) j)
    let src := (fmtOf (mfield f.mod 9 3)).getD fp32
    let dst := (fmtOf (mfield f.mod 12 3)).getD fp32
    let fromInt (x : Nat) : Val := if mfield f.mod 9 3 = 1 then intV x else intV (sgn (intFmt (mfield f.mod 9 3)).2.2 x)
    let toInt := intFmt (mfield f.mod 12 3)
    Computes (.hadd2 c f) f.d 1 (add fp16) ∧ Computes (.hadd2Bf c f) f.d 1 (add bf16) ∧
    Computes (.hmul2 c f) f.d 1 (mul fp16) ∧ Computes (.hmul2Bf c f) f.d 1 (mul bf16) ∧
    Computes (.hfma2 c g) g.d 1 (fma fp16) ∧ Computes (.hfma2Bf c g) g.d 1 (fma bf16) ∧
    Computes (.fcvtFloatFromFloat c f) f.d 1
      (fun h l => encodeF dst (decodeF src (h.val l f.a 1 % 2 ^ src.width)) rm) ∧
    Computes (.fcvtFloatFromInteger c f) f.d 1 (fun h l => encodeF dst (fromInt (h.val l f.a 1)) rm) ∧
    Computes (.fcvtIntegerFromFloat c f) f.d 1 (fun h l =>
      let r := encodeI toInt.1 toInt.2.1 (decodeF src (h.val l f.a 1 % 2 ^ src.width)) rm
      (wrapI toInt.2.2 r.1, r.2))

/-- The special functions (R350): one result per active lane, or one for a uniform destination, on its way under the
instruction's slot, with its flags. The precision to which `sfn` rounds is the model's own (log entry 10). -/
def Obligations.SpecialFunctions : Prop :=
  ∀ (c : Common) (f : A3),
    let fn (op : Sfn) (_ : Lanes) (h : Sheaf) (l : Nat) : Nat × Flags := sfn op (decodeF fp32 (h.val l f.a 1))
    Delivers (.sfnRcp c f) f.d (fn .rcp) ∧ Delivers (.sfnRsqrt c f) f.d (fn .rsqrt) ∧
    Delivers (.sfnSqrt c f) f.d (fn .sqrt) ∧ Delivers (.sfnLog2 c f) f.d (fn .log2) ∧
    Delivers (.sfnExp2 c f) f.d (fn .exp2) ∧ Delivers (.sfnSin c f) f.d (fn .sin) ∧ Delivers (.sfnCos c f) f.d (fn .cos)

/-- The sheaf collectives (R68, R69, R336, R338): a lane's result is computed from the active lanes of its tile, the
lanes with the same number divided by `%part`; a shuffle whose source lane is not an active one of the tile gives the
lane's own value. -/
def Obligations.SheafCollectives : Prop :=
  ∀ (c : Common) (f : A3),
    let peers (m : Lanes) (h : Sheaf) (l : Nat) : List Nat := (lanesOf m).filter fun j => j / h.part == l / h.part
    let shuffle (pick : Nat → Nat → Nat → Option Nat) (m : Lanes) (h : Sheaf) (l : Nat) : Nat × Flags :=
      let k := if mbit f.mod 14 then mfield f.mod 0 5 else h.val l f.b 1
      let from' := match pick (l / h.part * h.part) l k with
        | some j => if (peers m h l).contains j then j else l
        | none => l
      (h.val from' f.a 1, 0)
    let vote (test : List Nat → (Nat → Bool) → Nat) (m : Lanes) (h : Sheaf) (l : Nat) : Nat × Flags :=
      (test (peers m h l) fun j => h.pred j f.a != mbit f.mod 0, 0)
    let reduce (op : Nat → Nat → Nat) (m : Lanes) (h : Sheaf) (l : Nat) : Nat × Flags :=
      (match (peers m h l).map fun j => h.val j f.a 1 with | [] => 0 | x :: xs => xs.foldl op x, 0)
    Delivers (.shflIdx c f) f.d (shuffle fun base _ k => some (base + k)) ∧
    Delivers (.shflUp c f) f.d (shuffle fun _ l k => if k ≤ l then some (l - k) else none) ∧
    Delivers (.shflDown c f) f.d (shuffle fun _ l k => some (l + k)) ∧
    Delivers (.shflXor c f) f.d (shuffle fun _ l k => some (l ^^^ k)) ∧
    Delivers (.voteAll c f) f.d (vote fun ls q => if ls.all q then 1 else 0) ∧
    Delivers (.voteAny c f) f.d (vote fun ls q => if ls.any q then 1 else 0) ∧
    Delivers (.voteBallot c f) f.d (vote fun ls q => ((ls.filter q).map (2 ^ ·)).sum) ∧
    Delivers (.reduxAdd c f) f.d (reduce fun x y => (x + y) % 2 ^ 32) ∧
    Delivers (.reduxMin c f) f.d (reduce fun x y => if sgn 32 x < sgn 32 y then x else y) ∧
    Delivers (.reduxMinu c f) f.d (reduce min) ∧
    Delivers (.reduxMax c f) f.d (reduce fun x y => if sgn 32 x < sgn 32 y then y else x) ∧
    Delivers (.reduxMaxu c f) f.d (reduce max) ∧
    Delivers (.rdfirst c f) f.d (fun m h l => (h.val ((peers m h l).headD l) f.a 1, 0))

/-! ## Where threads go -/

/-- Control transfers (R56, R269, R285, R288, R310, R326, R344, R363), at the end of a clause: an active lane whose
condition holds goes to the target, every other thread of the bundle to the next clause header; `CALL` writes the address
of the next header to its link register. A register target must be a multiple of 8 in every active lane (what an
unaligned one does is stated in `UnalignedTargetTraps`). -/
def Obligations.ControlTransfers : Prop :=
  ∀ (c : Common) (f : A3) (q : BF),
    let free (_ : Sheaf) (_ : Lanes) : Prop := True
    let aligned (h : Sheaf) (m : Lanes) : Prop := ∀ l, m.getLsbD l = true → h.val l f.a 2 % 8 = 0
    let fall (b : Bundle) (_ : Sheaf) (_ : Lanes) (i l : Nat) : DWord := b.goal i l
    let branch (cond : Sheaf → Lanes → Nat → Bool) (b : Bundle) (h : Sheaf) (m : Lanes) (i l : Nat) : DWord :=
      if m.getLsbD l && cond h m l then b.here + 8 * q.off.signExtend 64 else b.goal i l
    let jump (b : Bundle) (h : Sheaf) (m : Lanes) (i l : Nat) : DWord :=
      if m.getLsbD l then BitVec.ofNat 64 (h.val l f.a 2) else b.goal i l
    Moves (.nop c f) .z 0 free fall (fun _ => 0) ∧
    Moves (.yield c f) .z 0 free fall (fun _ => 0) ∧
    Moves (.bra c q) .z 0 free (branch fun h _ l => h.pred l q.cond != mbit q.mod 0) (fun _ => 0) ∧
    Moves (.brau c q) .z 0 free (branch fun h m _ => (h.uval m q.cond 1 != 0) != mbit q.mod 0) (fun _ => 0) ∧
    Moves (.jmpi c f) .z 0 aligned jump (fun _ => 0) ∧
    Moves (.ret c f) .z 0 aligned jump (fun _ => 0) ∧
    Moves (.callLabel c q) q.cond 2 free (branch fun _ _ _ => true) (fun b => (b.here + 8).toNat) ∧
    Moves (.callRegister c f) f.d 2 aligned jump (fun b => (b.here + 8).toNat)

/-- `NOP` inside its clause (R326): the bundle goes on to the next word, and no register or other state changes but the
stall sums (R16). -/
def Obligations.NopGoesOn : Prop :=
  ∀ (c : Common) (f : A3) s b p k h m, Issues (.nop c f) s b p k h m → b.pos + 1 < b.count →
    ∃ t h', exec (.nop c f) s = .next t ∧ t.sheaf b.tag p.sheaf = some h' ∧
      (∃ at', t.slot s.cur.1 s.cur.2 = some { b with pos := b.pos + 1, nextAt := at' }) ∧
      (∀ (l : Nat) (x y : Thread), h.threads[l]? = some x → h'.threads[l]? = some y →
        y = if p.lanes.getLsbD l then { x with cnt := x.cnt + c.stall.toNat, issued := s.free + 1 } else x) ∧
      RegFrame s t b p k h h' m .z 0

/-- `EXIT` (R294): every active lane has exited, with no cause pending and all else of it as before; the other threads of
the bundle go to the next clause header, after its `STALL`; the rest of the sheaf, every other sheaf, the other issue
slots and everything else are as before. A thread is in one bundle at most. That the threads that stay are ready max(1,
STALL) cycles on, after a clause of CLASS 2 too, is the model's choice (DESIGN CHOICE, log entry 143). -/
def Obligations.ExitEndsLanes : Prop :=
  ∀ (c : Common) (f : A3) s b p k h m, Issues (.exit c f) s b p k h m → b.pos + 1 = b.count → s.noneElsewhere b p →
    ∃ t h', exec (.exit c f) s = .next t ∧ t.slot s.cur.1 s.cur.2 = none ∧ t.sheaf b.tag p.sheaf = some h' ∧
      h' = { h with threads := h'.threads, failed := h'.failed } ∧ h'.threads.length = h.threads.length ∧
      (∀ (l : Nat) (x y : Thread), h.threads[l]? = some x → h'.threads[l]? = some y →
        y = if m.getLsbD l then { x with exited := true, pending := [], held := none, inBundle := false }
          else if p.lanes.getLsbD l then
            { x with pc := b.goal p.sheaf l, clause := b.goal p.sheaf l, inBundle := false, cnt := x.cnt + c.stall.toNat,
                     readyAt := s.cycles (s.cur.1 / 64) + max 1 c.stall.toNat, issued := s.free + 1 }
          else x) ∧
      (∀ tag j, ¬ (tag = b.tag ∧ j = p.sheaf) → t.sheaf tag j = s.sheaf tag j) ∧ s.sameSlots t ∧
      t = { s with sheaves := t.sheaves, cores := t.cores, jobs := (s.retire k.job).jobs, free := s.free + 1 }

/-- `TRAP #n` (R226, R229): each active lane enters its handler with cause 0x60, `%fault` holding n and `%epc` the next
clause header, at offset 0 of its clause. -/
def Obligations.TrapEntersHandler : Prop :=
  ∀ (c : Common) (f : MI) s b p k h m, Issues (.trap c f) s b p k h m → b.pos + 1 = b.count → k.kh.handler ≠ 0 →
    (∀ (l : Nat) (x : Thread), m.getLsbD l = true → h.threads[l]? = some x → x.canEnter) →
    ∃ t, exec (.trap c f) s = .next t ∧
      Trapped s t b p k h m 0x60 (fun _ => f.imm.zeroExtend 64) (b.here + 8) (b.here + 8)

/-- A field that the rules forbid raises 0x02 (R262): every active lane enters its handler with `%fault` 0 and `%epc` at
the instruction; the instruction has no other effect. It holds for every instruction. -/
def Obligations.IllegalFieldTraps : Prop :=
  ∀ (i : Instr) s b p k h m, i.isInstruction = true → (∀ w, i ≠ .reservedOpcode w) →
    Reaches i s b p k h → s.accepts i.shape.feat = true → i.shape.ok = false →
    (lanesOf p.lanes).all (fun l => (s.uncovered h i l).isNone) = true →
    m = (if isFence i then p.lanes else lanesWhere fun l => p.lanes.getLsbD l && h.guard i.common l) → m ≠ 0 →
    k.kh.handler ≠ 0 → (∀ (l : Nat) (x : Thread), m.getLsbD l = true → h.threads[l]? = some x → x.canEnter) →
    ∃ t, exec i s = .next t ∧ Trapped s t b p k h m 0x02 (fun _ => 0) b.here b.base

/-- A vector register beyond the allotment raises 0x05 (R225, R259): every active lane enters its handler with `%fault`
holding the number of a register that the instruction names and that the allotment does not hold (which one, where
several do, is the model's choice: the first in field order), with `%epc` at the instruction. -/
def Obligations.BeyondAllotmentTraps : Prop :=
  ∀ (i : Instr) s b p k h m, i.isInstruction = true → (∀ w, i ≠ .reservedOpcode w) → isFence i = false →
    Reaches i s b p k h → s.accepts i.shape.feat = true → i.shape.ok = true →
    (i.wholeSheaf && h.part != 32) = false → i.shape.modFeats.all s.accepts = true →
    (regNums i.shape.regs).any (fun r => decide (r < 256 ∧ h.allot ≤ r)) = true →
    (lanesOf p.lanes).all (fun l => (s.uncovered h i l).isNone) = true →
    m = (lanesWhere fun l => p.lanes.getLsbD l && h.guard i.common l) → m ≠ 0 → k.kh.handler ≠ 0 →
    (∀ (l : Nat) (x : Thread), m.getLsbD l = true → h.threads[l]? = some x → x.canEnter) →
    ∃ t r, exec i s = .next t ∧ r ∈ regNums i.shape.regs ∧ h.allot ≤ r ∧ r < 256 ∧
      Trapped s t b p k h m 0x05 (fun _ => BitVec.ofNat 64 r) b.here b.base

/-- Reserved values (R264): the opcodes 0xD0 to 0xFF and the 64 dashes of the map are those that decode to no instruction;
a word with one of them, or with an opcode of a feature that is not accepted, raises 0x01 in every thread of the bundle,
with `%fault` holding the word and `%epc` at it, whatever its other fields hold. -/
def Obligations.ReservedOpcodeTraps : Prop :=
  (∀ w : DWord, let op := w.toNat / 2 ^ 56
    decode w = .reservedOpcode w ↔ 0x0A ≤ op ∧ op ≤ 0x0F ∨ 0x39 ≤ op ∧ op ≤ 0x3F ∨ 0x88 ≤ op ∧ op ≤ 0x8F ∨
      0x96 ≤ op ∧ op ≤ 0x9F ∨ 0xA5 ≤ op ∧ op ≤ 0xAF ∨ op = 0xB2 ∨ op = 0xB3 ∨ 0xB8 ≤ op ∧ op ≤ 0xBF ∨ 0xC4 ≤ op) ∧
  ∀ (i : Instr) s b p k h, i.isInstruction = true → Reaches i s b p k h →
    ((∃ w, i = .reservedOpcode w) ∨ s.accepts i.shape.feat = false) → p.lanes ≠ 0 → k.kh.handler ≠ 0 →
    (∀ (l : Nat) (x : Thread), p.lanes.getLsbD l = true → h.threads[l]? = some x → x.canEnter) →
    ∃ t, exec i s = .next t ∧ Trapped s t b p k h p.lanes 0x01 (fun _ => i.word) b.here b.base

/-- A register jump target that is no multiple of 8 raises 0x13 with `%fault` holding the target (R269, R288, R310,
R344), here where it is unaligned in every active lane; no link is written. -/
def Obligations.UnalignedTargetTraps : Prop :=
  ∀ (c : Common) (f : A3) (i : Instr), i = .jmpi c f ∨ i = .ret c f ∨ i = .callRegister c f →
    ∀ s b p k h m, Issues i s b p k h m → b.pos + 1 = b.count → k.kh.handler ≠ 0 →
      (∀ l, m.getLsbD l = true → h.val l f.a 2 % 8 ≠ 0) →
      (∀ (l : Nat) (x : Thread), m.getLsbD l = true → h.threads[l]? = some x → x.canEnter) →
      ∃ t, exec i s = .next t ∧ Trapped s t b p k h m 0x13 (fun l => BitVec.ofNat 64 (h.val l f.a 2)) b.here b.base

/-- `RETT` (R229, R256, R345): each active lane, in its handler or its save or restore routine, clears `HACT` and `RMODE`
and stands at `%epc`, in the clause that `CLOFF` gives; the bundle's other threads go to the next clause header. A restore
routine's end is not this case. -/
def Obligations.RettResumes : Prop :=
  ∀ (c : Common) (f : A3) s b p k h m, Issues (.rett c f) s b p k h m → b.pos + 1 = b.count → k.restore = none →
    (∀ (l : Nat) (x : Thread), m.getLsbD l = true → h.threads[l]? = some x →
      (x.hact || x.rmode) = true ∧ x.exited = false ∧ x.stage ≠ .restoring) →
    ∃ t h', exec (.rett c f) s = .next t ∧ t.sheaf b.tag p.sheaf = some h' ∧ h'.s = h.s ∧
      (∀ (l : Nat) (x y : Thread), h.threads[l]? = some x → h'.threads[l]? = some y →
        if m.getLsbD l then
          y = { x with hact := false, rmode := false, svarea := 0, pc := x.epc,
                       clause := x.epc - 8 * x.cloff.zeroExtend 64, readyAt := y.readyAt, inBundle := false, cnt := y.cnt,
                       issued := y.issued }
        else if p.lanes.getLsbD l then
          y = { x with pc := b.goal p.sheaf l, clause := b.goal p.sheaf l, readyAt := y.readyAt, inBundle := false, cnt := y.cnt,
                       issued := y.issued }
        else y = x) ∧
      (∀ tag j, ¬ (tag = b.tag ∧ j = p.sheaf) → t.sheaf tag j = s.sheaf tag j) ∧
      t = { s with sheaves := t.sheaves, cores := t.cores, jobs := (s.retire k.job).jobs, free := t.free }

/-- A cause without a usable handler fires the watchdog (R228, R240): where the kernel has no handler, `TRAP` records
cause 0x60 and the address in the job, and the stook is gone. -/
def Obligations.NoHandlerFiresWatchdog : Prop :=
  ∀ (c : Common) (f : MI) s b p k h m j, Issues (.trap c f) s b p k h m → b.pos + 1 = b.count → k.kh.handler = 0 →
    s.job k.job = some j → (∀ (l : Nat) (x : Thread), m.getLsbD l = true → h.threads[l]? = some x → x.exited = false) →
    ∃ t j', exec (.trap c f) s = .next t ∧ t.job k.job = some j' ∧ j'.fired = some ⟨0x60, b.here + 8⟩ ∧
      t.stook b.tag = none

/-! ## Memory accesses -/

/-- Loads (R101, R122, R230, R278, R314, R316, R317): where every access passes its checks, each active lane of `LD` and
`LDFF`, and `LDU` once, queues a load of its width for its destination registers; an acquire is marked so. `LDFF` also
sets its predicate where the data comes, and only its lowest lane would raise 0x14 later. -/
def Obligations.LoadsQueue : Prop :=
  ∀ (c : Common) (f : MF),
    let n := mfield f.mod 6 3
    let load (sx : Bool) (_ : Sheaf) (_ : Lanes) (l : Nat) (q : Req) : Req :=
      { q with kind := .load sx, dest := regsOf f.d (if n = 3 then 2 else if n = 4 then 4 else 1) l,
               acq := mfield f.mod 4 2 == 1, scope := mfield f.mod 2 2 }
    let first (_ : Sheaf) (m : Lanes) (l : Nat) (q : Req) : Req :=
      let pr := 640 + mfield f.mod 3 3
      { q with dest := regsOf f.d (if n = 3 then 2 else if n = 4 then 4 else 1) l,
               extra := if pr = 647 then [] else [(pr, some l, 1)],
               ff := if l = (lanesOf m).headD 0 then none else some pr }
    Accesses (.ld c f) f.addr f.off.toInt (2 ^ n) false rightR false (load false) ∧
    Accesses (.ldSx c f) f.addr f.off.toInt (2 ^ n) false rightR false (load true) ∧
    Accesses (.ldu c f) f.addr f.off.toInt (2 ^ n) true rightR false (load false) ∧
    Accesses (.lduSx c f) f.addr f.off.toInt (2 ^ n) true rightR false (load true) ∧
    Accesses (.ldff c f) f.addr f.off.toInt (2 ^ n) false rightR false first

/-- Stores (R101, R122, R355, R357): where every access passes its checks, each active lane of `ST`, and `STU` once,
queues a store of the low bytes of its data registers; a release is marked so. Memory itself is as before. -/
def Obligations.StoresQueue : Prop :=
  ∀ (c : Common) (f : MF),
    let n := mfield f.mod 6 3
    let store (h : Sheaf) (_ : Lanes) (l : Nat) (q : Req) : Req :=
      { q with kind := .store, data := leBytes (2 ^ n) (h.val l f.d (if n = 3 then 2 else if n = 4 then 4 else 1)),
               rel := mfield f.mod 4 2 == 2, scope := mfield f.mod 2 2 }
    Accesses (.st c f) f.addr f.off.toInt (2 ^ n) false rightW false store ∧
    Accesses (.stu c f) f.addr f.off.toInt (2 ^ n) true rightW false store

/-- Atomics (R277, R278, R280): on an `SH` range that grants R, W and A, each active lane queues its read-modify-write of
4 or 8 bytes, or one for the sheaf where the destination is uniform; `cas` reads its compare value above its operand. What
`ATOM.xchg` does inside the wain aperture is `WainRequestsDefer`. -/
def Obligations.AtomicsQueue : Prop :=
  ∀ (c : Common) (f : MA),
    let w := if mbit f.mod 4 then 2 else 1
    let rmw (op : Rmw) (h : Sheaf) (_ : Lanes) (l : Nat) (q : Req) : Req :=
      let v := h.val l f.b (if op = .cas then 2 * w else w)
      { q with kind := .rmw op (v % 2 ^ (32 * w)) (v / 2 ^ (32 * w)), dest := regsOf f.d w l, acq := mbit f.mod 2,
               rel := mbit f.mod 3, scope := mfield f.mod 0 2 }
    let all (i : Instr) (op : Rmw) : Prop :=
      Accesses i f.addr f.off.toInt (4 * w) f.d.isU (rightR ||| rightW ||| rightA) true (rmw op)
    all (.atomAdd c f) .add ∧ all (.atomAnd c f) .and ∧ all (.atomOr c f) .or ∧ all (.atomXor c f) .xor ∧
    all (.atomMins c f) .mins ∧ all (.atomMinu c f) .minu ∧ all (.atomMaxs c f) .maxs ∧ all (.atomMaxu c f) .maxu ∧
    all (.atomXchg c f) .xchg ∧ all (.atomCas c f) .cas ∧ all (.atomFadd c f) .fadd

/-- `ATOM.xchg.b64` in the wain aperture (R111, R112, R278, R364): where every access lies there at a multiple of 64, the
bundle waits for the wain's answer with each lane's offset and request word. -/
def Obligations.WainRequestsDefer : Prop :=
  ∀ (c : Common) (f : MA) s b p k h m j, Issues (.atomXchg c f) s b p k h m → mbit f.mod 4 = true → s.job k.job = some j →
    (∀ g ∈ accesses f.d.isU m, s.inAperture k.job (h.ea g.1 f.addr f.off.toInt) = true ∧
      (h.ea g.1 f.addr f.off.toInt - j.aperture) % 64 = 0) →
    ∃ t, exec (.atomXchg c f) s = .next t ∧ Still s t b p h ∧ t.reqs = s.reqs ∧
      t.slot s.cur.1 s.cur.2 = some { b with deferred := true } ∧
      t.ops = s.ops ++ [s.newOp (.atomXchg c f) b p (lanesWhere fun l => (accesses f.d.isU m).any fun g => g.1 == l)
        (accesses f.d.isU m).length] ∧
      t.deferred.map Deferred.words = s.deferred.map Deferred.words ++ [(accesses f.d.isU m).map fun g =>
        (g.1, [BitVec.ofNat 32 (h.ea g.1 f.addr f.off.toInt - j.aperture), BitVec.ofNat 32 (h.val g.1 f.b 2),
               BitVec.ofNat 32 (h.val g.1 f.b 2 / 2 ^ 32)])]

/-- A store or atomic under a hypothesis waits, with its requests, until its home slices have a way for it (R190, R364);
nothing is queued yet, and memory and versions are as before. It holds for `ST`, `STU`, every `ATOM` and `STBLK`, on
hypothesis ranges in HBM of this package (R189). -/
def Obligations.TaggedWritesWait : Prop :=
  let waits (i : Instr) (a : Reg) (off : Int) (w align : Nat) (once : Bool) (rights : BitVec 7) (shOnly : Bool)
      (ws : Sheaf → Lanes → List (Nat × List Word)) : Prop :=
    ∀ s b p k h m (e : Nat → RangeEnt) (o : Nat → Nat), Issues i s b p k h m →
      (∀ g ∈ accesses once m, s.inAperture k.job (h.ea g.1 a off) = false ∧
        s.translate k.job (h.ea g.1 a off) w align rights = .ok (e g.1, o g.1) ∧ (e g.1).cls ≠ .ro ∧
        (shOnly = true → (e g.1).cls = .sh) ∧ (s.laneWho k h g.1).isTagged = true ∧ (e g.1).hyp = true ∧
        (e g.1).tierOf (o g.1) ≠ 1 ∧ (e g.1).peer = none) →
      (once = true → (issueCtx i s b p m).mixed s = false) →
      ∃ t d, exec i s = .next t ∧ Still s t b p h ∧ t.reqs = s.reqs ∧ t.mem = s.mem ∧ t.versions = s.versions ∧
        t.slot s.cur.1 s.cur.2 = some { b with deferred := true } ∧ t.deferred = s.deferred ++ [d] ∧ d.op = s.nextId ∧
        d.instr = i ∧ (∀ x ∈ d.reqs, x.op = d.op ∧ x.width = w ∧ x.isWrite = true ∧ x.home = true) ∧
        d.words.map (·.1) = (ws h m).map (·.1) ∧
        d.reqs.map (fun r => (r.lanes, r.place, r.who)) =
          (accesses once m).map fun g => (g.2, .range (e g.1) (o g.1), s.laneWho k h g.1)
  let none' (_ : Sheaf) (_ : Lanes) : List (Nat × List Word) := []
  ∀ (c : Common) (f : MF) (g : MA),
    let n := 2 ^ mfield f.mod 6 3
    let atom (i : Instr) : Prop :=
      let w := if mbit g.mod 4 then 8 else 4
      waits i g.addr g.off.toInt w w g.d.isU (rightR ||| rightW ||| rightA) true none'
    waits (.st c f) f.addr f.off.toInt n n false rightW false none' ∧
    waits (.stu c f) f.addr f.off.toInt n n true rightW false none' ∧
    waits (.stblk c f) f.addr f.off.toInt 64 64 true rightW false (fun _ m => (lanesOf m).map fun l => (l, [])) ∧
    atom (.atomAdd c g) ∧ atom (.atomAnd c g) ∧ atom (.atomOr c g) ∧ atom (.atomXor c g) ∧ atom (.atomMins c g) ∧
    atom (.atomMinu c g) ∧ atom (.atomMaxs c g) ∧ atom (.atomMaxu c g) ∧ atom (.atomXchg c g) ∧ atom (.atomCas c g) ∧
    atom (.atomFadd c g)

/-- Scratchpad accesses (R97, R281, R314, R355): where each offset passes its checks, each active lane queues its load,
store or read-modify-write; an atomic may not name a crib. -/
def Obligations.ScratchpadQueues : Prop :=
  ∀ (c : Common) (f : MF) (g : A3),
    let n := mfield f.mod 7 2
    let r := if n = 3 then 2 else 1
    let load (sx : Bool) (_ : Sheaf) (_ : Lanes) (l : Nat) (q : Req) : Req :=
      { q with kind := .load sx, dest := regsOf f.d r l, acq := mfield f.mod 5 2 == 1, scope := mfield f.mod 3 2 }
    let store (h : Sheaf) (_ : Lanes) (l : Nat) (q : Req) : Req :=
      { q with kind := .store, data := leBytes (2 ^ n) (h.val l f.d r), rel := mfield f.mod 5 2 == 2,
               scope := mfield f.mod 3 2 }
    let w := if mbit g.mod 10 then 2 else 1
    let rmw (h : Sheaf) (_ : Lanes) (l : Nat) (q : Req) : Req :=
      let v := h.val l g.b ((if mfield g.mod 11 4 = 9 then 2 else 1) * w)
      { q with kind := .rmw (rmwOf (mfield g.mod 11 4)) (v % 2 ^ (32 * w)) (v / 2 ^ (32 * w)), dest := regsOf g.d w l,
               acq := mbit g.mod 8, rel := mbit g.mod 9, scope := mfield g.mod 6 2 }
    SpadAccesses (.lds c f) f.addr f.off.toInt (2 ^ n) (mbit f.mod 2) (mfield f.mod 0 2) false (load false) ∧
    SpadAccesses (.ldsSx c f) f.addr f.off.toInt (2 ^ n) (mbit f.mod 2) (mfield f.mod 0 2) false (load true) ∧
    SpadAccesses (.sts c f) f.addr f.off.toInt (2 ^ n) (mbit f.mod 2) (mfield f.mod 0 2) false store ∧
    SpadAccesses (.atoms c g) g.a 0 (4 * w) (mbit g.mod 5) (mfield g.mod 3 2) true rmw

/-- A global load whose address fails a check raises that check's cause in its lane (R78, R315): here where every active
lane's address lies in no range, cause 0x10 with `%fault` the address and `%epc` at the instruction; no request is
queued. -/
def Obligations.UnmappedLoadTraps : Prop :=
  ∀ (c : Common) (f : MF) s b p k h m, Issues (.ld c f) s b p k h m → k.kh.handler ≠ 0 →
    (∀ l, m.getLsbD l = true → s.inAperture k.job (h.ea l f.addr f.off.toInt) = false ∧
      h.ea l f.addr f.off.toInt % 2 ^ mfield f.mod 6 3 = 0 ∧ s.findRange k.job (h.ea l f.addr f.off.toInt) = none) →
    (∀ (l : Nat) (x : Thread), m.getLsbD l = true → h.threads[l]? = some x → x.canEnter) →
    ∃ t, exec (.ld c f) s = .next t ∧
      Trapped s t b p k h m 0x10 (fun l => BitVec.ofNat 64 (h.ea l f.addr f.off.toInt)) b.here b.base

/-! ## Instructions that wait -/

/-- The instructions that hold their bundle (R47 to R49, R105, R110, R118, R119, R137, R217, R236, R325): under the
conditions given, which leave out only the values that raise a cause, each holds it for what it waits on; `RELACC` of a
stook that holds no tiles has no effect. `FENCE` holds every thread of the bundle, guarded or not. -/
def Obligations.WaitsHold : Prop :=
  ∀ (c : Common) (f : A3) (g : A4) (q : MF),
    let scope := mfield f.mod 0 2
    let holds (i : Instr) (pre : State → Stook → Sheaf → Lanes → Prop)
        (kind : State → Sheaf → Lanes → HoldKind) : Prop :=
      ∀ s b p k h m, Issues i s b p k h m → pre s k h m → ∃ t, exec i s = .next t ∧
        Blocks i s t b p h (if isFence i then p.lanes else m) (kind s h m)
    let any (_ : State) (_ : Stook) (_ : Sheaf) (_ : Lanes) : Prop := True
    let counter (s : State) (k : Stook) (va : Nat) : Prop := ∃ e o, s.waitCheck k.job va = .ok (e, o)
    let va (h : Sheaf) (m : Lanes) : Nat := h.ea ((lanesOf m).headD 0) q.addr q.off.toInt
    let waits (i : Instr) (at' : Sheaf → Lanes → Nat) (kind : Sheaf → Lanes → HoldKind) : Prop :=
      ∀ s b p k h m, Issues i s b p k h m → counter s k (at' h m) → (issueCtx i s b p m).mixedTagged s = false →
        ∃ t, exec i s = .next t ∧ Blocks i s t b p h m (kind h m)
    holds (.publish c f) any (fun _ _ _ => .publish scope) ∧
    holds (.refresh c f) any (fun _ _ _ => .refresh scope) ∧
    holds (.fence c f) any (fun _ _ _ => .fence scope) ∧
    holds (.waitquiet c f) any (fun s _ _ => .waitQuiet f.d.num s.now) ∧
    holds (.cribwait c f) (fun _ k h m => h.uval m f.a 1 < k.cribs.length)
      (fun _ h m => .cribWait (h.uval m f.a 1) (h.uval m f.b 1)) ∧
    waits (.waitge c q) va (fun h m => .waitGe (BitVec.ofNat 64 (va h m)) (h.uval m q.d 2)) ∧
    waits (.doze c g) (fun h m => h.uval m g.a 2)
      (fun h m => .doze (BitVec.ofNat 64 (h.uval m g.a 2)) (h.uval m g.b 2) (h.uval m g.c 2)) ∧
    holds (.grow c f) (fun _ _ h _ => h.allot + 8 * mfield f.mod 0 5 ≤ 256) (fun _ _ _ => .grow (mfield f.mod 0 5)) ∧
    holds (.acqacc c f)
      (fun s k _ _ => k.tiles = 0 ∧ ∀ x ∈ s.holds, x.tag = k.tag → ∀ n, x.kind ≠ .acqAcc n)
      (fun _ _ _ => .acqAcc (mfield f.mod 0 4)) ∧
    holds (.relacc c f) (fun _ k _ _ => k.mxErr = none ∧ k.tiles ≠ 0) (fun _ _ _ => .relAcc) ∧
    (∀ s b p k h m, Issues (.relacc c f) s b p k h m → k.mxErr = none → k.tiles = 0 →
      ∃ t, exec (.relacc c f) s = .next t ∧ Still s t b p h ∧
        t = { s with sheaves := t.sheaves, cores := t.cores, jobs := (s.retire k.job).jobs, free := t.free }) ∧
    (∀ stk, holds (.saved c f) (fun _ _ h m => ∀ (l : Nat) (x : Thread), m.getLsbD l = true → h.threads[l]? = some x →
        x.rmode = true ∧ x.stage = if stk then .stookSaving else .saving) (fun _ _ _ => .saved stk))

/-- `BAR` and `BAR.arrive` (R283): each active lane's arrivals at the barrier rise by one, and a release at `.die` is
queued for each; `BAR` then holds its bundle for the instances it has arrived at. -/
def Obligations.BarrierArrivals : Prop :=
  ∀ (c : Common) (f : A3) (wait : Bool) s b p k h m,
    let i : Instr := if wait then .bar c f else .barArrive c f
    let n := mfield f.mod 0 4
    Issues i s b p k h m →
    ∃ t h', exec i s = .next t ∧ t.sheaf b.tag p.sheaf = some h' ∧ h'.s = h.s ∧
      (∀ (l : Nat) (x y : Thread), h.threads[l]? = some x → h'.threads[l]? = some y →
        y.v = x.v ∧ y.p = x.p ∧ y.fflags = x.fflags ∧
        y.arrivals = (if m.getLsbD l then x.arrivals.modify n (· + 1) else x.arrivals) ∧
        y.held = (if wait && p.lanes.getLsbD l then some (s.nextId + 1 + (lanesOf m).length) else x.held)) ∧
      t.reqs = s.reqs ++ (lanesOf m).mapIdx (fun j l =>
        { b.request p k h (1#32 <<< l) false (.bar n) true .untagged 16 0 with
          id := s.nextId + 1 + j, op := s.nextId, kind := .barrier, rel := true, scope := 1, got := [], issued := s.free + 1 }) ∧
      t.ops = s.ops ++ [s.newOp i b p m (lanesOf m).length] ∧
      t.holds.map Hold.kind = s.holds.map Hold.kind ++ (if wait then [.bar n ((lanesOf m).map fun l =>
        (l, ((h.threads[l]?).bind fun x => (x.arrivals.modify n (· + 1))[n]?).getD 0))] else []) ∧
      t = { s with sheaves := t.sheaves, cores := t.cores, jobs := t.jobs, free := t.free, nextId := t.nextId,
                   reqs := t.reqs, ops := t.ops, holds := t.holds }

/-- `CRIBSET` and `CRIBARR` (R109, R110): the update sets out for the crib, `CRIBARR` as a release at `.die` that adds bits
[15:0] of its count; a crib's targets and counts change only when the crib unit takes it (`CribsAndCopies`). -/
def Obligations.CribUpdatesQueue : Prop :=
  ∀ (c : Common) (f : A3) (g : A4) s b p k h m,
    let req (i : Nat) : Req := { b.request p k h m true (.spad 0 (k.share + 16 * i)) true .untagged 16 0 with got := [] }
    (Issues (.cribarr c f) s b p k h m → h.uval m f.a 1 < k.cribs.length →
      ∃ t, exec (.cribarr c f) s = .next t ∧ Queues (.cribarr c f) s t b p k h m
        [{ req (h.uval m f.a 1) with kind := .cribArrive (h.uval m f.b 1 % 65536), rel := true, scope := 1 }]) ∧
    (Issues (.cribset c g) s b p k h m → h.uval m g.a 1 < k.cribs.length → h.uval m g.b 1 ≤ 0xFFFF →
      ∃ t, exec (.cribset c g) s = .next t ∧ Queues (.cribset c g) s t b p k h m
        [{ req (h.uval m g.a 1) with kind := .cribSet p.sheaf (h.uval m g.b 1) (h.uval m g.c 1) }])

/-! ## Special registers, tile width, bit window, allotment -/

/-- `MOVS` (R270, R322): the destination receives the special register named; what each number reads is written out here.
An active lane's own values are read for it, the sheaf's and the core's are the same for all. That `%clock` reads one
count for all cores of a die is the model's choice (DESIGN CHOICE, log entry 115). -/
def Obligations.SpecialRegistersRead : Prop :=
  ∀ (c : Common) (f : SF) s b p k h m, Issues (.movs c f) s b p k h m →
    let n := f.spec.toNat
    let d := h.core / 64
    let bit (x : Bool) (i : Nat) : Nat := if x then 2 ^ i else 0
    let word (l : Nat) (x : Thread) : Nat :=
      if 0x010 ≤ n ∧ n ≤ 0x017 then ((k.lparams[n - 0x010]?).map (·.toNat)).getD 0 else match n with
      | 0x000 => 32 * h.index + l | 0x001 => l | 0x002 => h.index | 0x003 => k.index | 0x004 => k.launch
      | 0x005 => k.nstook | 0x006 => 32 * k.nsheaf | 0x007 => d * 2 ^ 25 + h.core % 64 * 2 ^ 19 | 0x008 => k.tag
      | 0x020 => s.cycles d | 0x021 => s.now / 4 | 0x030 => x.hyp.toNat | 0x031 => h.part | 0x032 => x.fflags.toNat
      | 0x033 => x.bcur | 0x034 => (s.core h.core).spw * 16 + bit (s.core h.core).chk 0
      | 0x035 => ((s.job k.job).map (·.replay.toNat)).getD 0 | 0x040 => x.epc.toNat
      | 0x041 => bit x.async 31 + bit x.hact 30 + bit x.rmode 29 + x.cloff.toNat * 2 ^ 8 + x.code.toNat
      | 0x042 => x.fault.toNat | 0x043 => x.svarea.toNat | 0x050 => (s.bayCtr k.die k.bay).terms.toNat
      | 0x051 => (s.bayCtr k.die k.bay).ksteps.toNat | 0x052 => (s.bayCtr k.die k.bay).kskips.toNat
      | _ => (s.bayCtr k.die k.bay).mxcyc.toNat
    let w := if n = 0x020 ∨ n = 0x021 ∨ n = 0x035 ∨ n = 0x040 ∨ n = 0x042 ∨ n = 0x043 ∨ 0x050 ≤ n then 2 else 1
    ∃ t h', exec (.movs c f) s = .next t ∧ t.sheaf b.tag p.sheaf = some h' ∧
      (f.d.isZ = false → ∀ (l : Nat) (x : Thread), m.getLsbD l = true → h.threads[l]? = some x →
        (f.d.isU = true → l = (lanesOf m).headD 0) → h'.val l f.d w = word l x % 2 ^ (32 * w)) ∧
      (∀ (l : Nat) (x y : Thread), h.threads[l]? = some x → h'.threads[l]? = some y → y.fflags = x.fflags) ∧
      RegFrame s t b p k h h' m f.d w

/-- `MOVSW` (R224, R322, R323): `%fflags` takes the low five bits in each active lane; `%epc` takes a multiple of 8 in a
lane that is in its handler or its save or restore routine, at offset 0; `%ctl` sets check mode and a scratchpad way count
not above the one in force (a larger one holds the bundle). Registers are as before. -/
def Obligations.SpecialRegistersWrite : Prop :=
  ∀ (c : Common) (f : SF) s b p k h m, Issues (.movsw c f) s b p k h m →
    let thread (change : Nat → Thread → Thread) : Prop :=
      ∃ t h', exec (.movsw c f) s = .next t ∧ t.sheaf b.tag p.sheaf = some h' ∧ h'.s = h.s ∧
        (∀ (l : Nat) (x y : Thread), h.threads[l]? = some x → h'.threads[l]? = some y →
          Thread.sameButPlace (if m.getLsbD l then change l x else x) y) ∧
        (∀ tag j, ¬ (tag = b.tag ∧ j = p.sheaf) → t.sheaf tag j = s.sheaf tag j) ∧
        t = { s with sheaves := t.sheaves, cores := t.cores, jobs := (s.retire k.job).jobs, free := t.free }
    (f.spec = 0x032 → thread fun l x => { x with fflags := BitVec.ofNat 5 (h.val l f.a 1) }) ∧
    (f.spec = 0x040 →
      (∀ (l : Nat) (x : Thread), m.getLsbD l = true → h.threads[l]? = some x →
        (x.hact || x.rmode) = true ∧ h.val l f.a 2 % 8 = 0) →
      thread fun l x => { x with epc := BitVec.ofNat 64 (h.val l f.a 2), cloff := 0 }) ∧
    (f.spec = 0x034 → h.core = s.cur.1 → (s.core h.core).convs = [] →
      let v := h.uval m f.a 1
      v / 16 % 16 ≤ (s.core h.core).spw → s.spadWays h.core ≤ v / 16 % 16 → v / 16 % 16 ≤ 11 →
      ∃ t, exec (.movsw c f) s = .next t ∧ (t.core h.core).spw = v / 16 % 16 ∧ (t.core h.core).chk = (v % 2 == 1) ∧
        (∀ x, x ≠ h.core → t.core x = s.core x) ∧
        t = { s with sheaves := t.sheaves, cores := t.cores, jobs := (s.retire k.job).jobs, free := t.free })

/-- `PARTN`, `BSINIT` and `BSRD` (R67, R287): the tile width becomes a power of two; a cursor of at most 64 and the window
are set in each active lane, under the slot where one is named; `BSRD` reads n bits, 1 to 32, at the cursor and moves it
on, to 64 at most. -/
def Obligations.TilesAndBitWindows : Prop :=
  ∀ (c : Common) (f : A3) s b p k h m,
    let threads (i : Instr) (t : State) (h' : Sheaf) (change : Nat → Thread → Thread) : Prop :=
      exec i s = .next t ∧ t.sheaf b.tag p.sheaf = some h' ∧ h'.s = h.s ∧
        (∀ (l : Nat) (x y : Thread), h.threads[l]? = some x → h'.threads[l]? = some y →
          Thread.sameButPlace (if m.getLsbD l then change l x else x) y) ∧
        (∀ tag j, ¬ (tag = b.tag ∧ j = p.sheaf) → t.sheaf tag j = s.sheaf tag j) ∧
        t = { s with sheaves := t.sheaves, cores := t.cores, jobs := (s.retire k.job).jobs, free := t.free,
                     nextId := t.nextId, ops := t.ops, results := t.results }
    let n (l : Nat) : Nat := if mbit f.mod 14 then mfield f.mod 0 6 else h.val l f.b 1
    (Issues (.partn c f) s b p k h m → ∃ t h', threads (.partn c f) t h' (fun _ x => x) ∧
      h'.part = 2 ^ (mfield f.mod 0 3 + 1) ∧ t.ops = s.ops ∧ t.results = s.results ∧ t.nextId = s.nextId) ∧
    (Issues (.bsinit c f) s b p k h m → (∀ l, m.getLsbD l = true → h.val l f.b 1 ≤ 64) →
      ∃ t h', threads (.bsinit c f) t h'
          (fun l x => { x with window := BitVec.ofNat 64 (h.val l f.a 2), bcur := h.val l f.b 1 }) ∧
        h'.part = h.part ∧
        (if c.sbw = 7#3 then t.ops = s.ops ∧ t.results = s.results
         else t.ops = s.ops ++ [s.newOp (.bsinit c f) b p m 1] ∧
           t.results = s.results ++ [⟨s.nextId + 1, s.nextId, b.tag, p.sheaf, []⟩])) ∧
    (Issues (.bsrd c f) s b p k h m → f.d.isU = false → (∀ l, m.getLsbD l = true → 1 ≤ n l ∧ n l ≤ 32) →
      ∃ t h', exec (.bsrd c f) s = .next t ∧ t.sheaf b.tag p.sheaf = some h' ∧
        (∀ (l : Nat) (x y : Thread), m.getLsbD l = true → h.threads[l]? = some x → h'.threads[l]? = some y →
          y.window = x.window ∧ y.bcur = min (x.bcur + n l) 64 ∧
          (f.d.isZ = false → h'.val l f.d 1 = x.window.toNat / 2 ^ x.bcur % 2 ^ n l)) ∧
        (∀ l r, f.d.isZ = true ∨ r ≠ f.d.num ∨ m.getLsbD l = false → h'.raw l r = h.raw l r) ∧ h'.s = h.s ∧
        (∀ (l : Nat) (x y : Thread), h.threads[l]? = some x → h'.threads[l]? = some y → y.fflags = x.fflags ∧
          Thread.sameButRegs (if m.getLsbD l then { x with bcur := min (x.bcur + n l) 64 } else x) y) ∧
        (∀ tag j, ¬ (tag = b.tag ∧ j = p.sheaf) → t.sheaf tag j = s.sheaf tag j) ∧
        t = { s with sheaves := t.sheaves, cores := t.cores, jobs := (s.retire k.job).jobs, free := t.free })

/-- `SHRINK` (R47, R353): every thread of the sheaf loses its highest 8n registers, which needs 8 left; the others keep
their values. A result outstanding for a lost register is discarded; until it comes its operation holds the register's
bytes back from the core. -/
def Obligations.ShrinkDropsRegisters : Prop :=
  ∀ (c : Common) (f : A3) s b p k h m, Issues (.shrink c f) s b p k h m → 8 * mfield f.mod 0 5 + 8 ≤ h.allot →
    let gone (r : Nat) : Bool := decide (h.allot - 8 * mfield f.mod 0 5 ≤ r) && decide (r < 256)
    ∃ t h', exec (.shrink c f) s = .next t ∧ t.sheaf b.tag p.sheaf = some h' ∧ h'.s = h.s ∧
      h'.allot = h.allot - 8 * mfield f.mod 0 5 ∧
      (∀ (l : Nat) (x y : Thread), h.threads[l]? = some x → h'.threads[l]? = some y →
        y.v = x.v.take (h.allot - 8 * mfield f.mod 0 5) ∧ y.p = x.p ∧ y.fflags = x.fflags) ∧
      (∀ tag j, ¬ (tag = b.tag ∧ j = p.sheaf) → t.sheaf tag j = s.sheaf tag j) ∧
      (∀ x ∈ t.results, x.tag = b.tag → x.sheaf = p.sheaf → ∀ w ∈ x.writes, gone w.1 = false) ∧
      (∃ at', t.ops = s.ops.map fun o => if o.tag = b.tag ∧ o.sheaf = p.sheaf then
          { o with regs := o.regs.filter (!gone ·), back := o.back ++ (o.regs.filter gone).eraseDups.map fun r => (r, at') }
        else o) ∧
      t = { s with sheaves := t.sheaves, cores := t.cores, jobs := (s.retire k.job).jobs, free := t.free,
                   results := t.results, reqs := t.reqs, deferred := t.deferred, ops := t.ops }

/-! ## Extents, blocks and range queries -/

/-- `CLEAN`, `DISCARD` and `TIERPF` (R106, R120): a request for the whole extent is queued under the slot, whose accesses
that follow wait for it; `TIERPF` sets its lines on their way; while an earlier access of its lanes is outstanding
nothing is credited, and else the bytes of each line that is in HBM or in its home slice are, at once. A length of zero
has no effect. -/
def Obligations.ExtentsQueue : Prop :=
  ∀ (c : Common) (f : MF) (g : A4) s b p k h m (e : RangeEnt) (o : Nat),
    let va := h.ea ((lanesOf m).headD 0) f.addr f.off.toInt
    let len := h.uval m f.d 1
    let extent (i : Instr) (kind : ReqKind) : Prop := Issues i s b p k h m → va % 64 = 0 → len ≠ 0 →
      (len % 64 = 0 ∨ va + len = e.base + e.limit) → s.inAperture k.job va = false →
      s.translate k.job va len 1 rightW = .ok (e, o) → e.cls ≠ .ro → s.keyLive e = true →
      (∀ l, m.getLsbD l = true → s.laneWho k h l = .untagged) →
      ∃ t, exec i s = .next t ∧ Queues i s t b p k h m
        [{ b.request p k h m true (.range e o) true .untagged len (BitVec.ofNat 64 va) with kind := kind, got := [] }]
    let dep : Dep := ⟨b.tag, p.sheaf, m, s.nextId⟩
    let crib := h.uval m g.c 1
    let lines := (linePieces o (h.uval m g.b 1)).map fun x => (x.1 / 64 * 64, x.2)
    let near (x : Nat × Nat) : Bool := e.tierOf x.1 != 1 ||
      s.l3.any fun y => y.job == e.owner && y.rng == e.idx && y.line == x.1 && y.key == e.key
    let tier : Prop := Issues (.tierpf c g) s b p k h m ∧ crib < k.cribs.length ∧ h.uval m g.b 1 ≠ 0 ∧
      s.inAperture k.job (h.uval m g.a 2) = false ∧
      s.translate k.job (h.uval m g.a 2) (h.uval m g.b 1) 1 rightR = .ok (e, o) ∧ s.keyLive e = true ∧
      (issueCtx (.tierpf c g) s b p m).mixedTagged s = false
    let nothing (i : Instr) : Prop := ∃ t, exec i s = .next t ∧ Still s t b p h ∧
      t = { s with sheaves := t.sheaves, cores := t.cores, jobs := (s.retire k.job).jobs, free := t.free }
    extent (.clean c f) .clean ∧ extent (.discard c f) .discard ∧
    (tier → s.met dep = false →
      ∃ t, exec (.tierpf c g) s = .next t ∧ Still s t b p h ∧
        t.tierOps = s.tierOps ++ [⟨s.nextId, b.tag, crib, e.idx, lines, dep⟩] ∧
        t = { s with sheaves := t.sheaves, cores := t.cores, jobs := (s.retire k.job).jobs, free := t.free,
                     nextId := s.nextId + 1, tierOps := t.tierOps }) ∧
    (tier → s.met dep = true → s.range e.idx = some e → (∀ q ∈ s.tierOps, q.id ≠ s.nextId ∧ q.lines ≠ []) →
      ∃ t k', exec (.tierpf c g) s = .next t ∧ Still s t b p h ∧ t.stook b.tag = some k' ∧
        k' = { k with cribUps := k'.cribUps } ∧
        k'.cribUps.map (fun u => (u.crib, u.kind)) =
          k.cribUps.map (fun u => (u.crib, u.kind)) ++ (lines.filter near).map (fun x => (crib, .credit x.2)) ∧
        t.tierOps = s.tierOps ++ (if lines.all near then []
          else [⟨s.nextId, b.tag, crib, e.idx, lines.filter (!near ·), dep⟩]) ∧
        t = { s with sheaves := t.sheaves, cores := t.cores, jobs := (s.retire k.job).jobs, free := t.free,
                     nextId := s.nextId + 1, tierOps := t.tierOps, stooks := t.stooks }) ∧
    (Issues (.clean c f) s b p k h m → va % 64 = 0 → len = 0 → nothing (.clean c f)) ∧
    (Issues (.discard c f) s b p k h m → va % 64 = 0 → len = 0 → nothing (.discard c f)) ∧
    (Issues (.tierpf c g) s b p k h m → crib < k.cribs.length → h.uval m g.b 1 = 0 →
      (issueCtx (.tierpf c g) s b p m).mixedTagged s = false → nothing (.tierpf c g))

/-- `LDBLK` and `STBLK` (R156 to R160): where the address passes, `LDBLK` queues one read of the bytes its planes touch
and its bundle waits for the format checks, and nothing of the `LDBLK` itself stands before that read; `STBLK` queues one
write of the 64 bytes of the block packed from the lanes' values, an inactive lane's counting as zero. -/
def Obligations.BlocksQueue : Prop :=
  ∀ (c : Common) (f : MF) s b p k h m (e : RangeEnt) (o : Nat),
    let va := h.ea ((lanesOf m).headD 0) f.addr f.off.toInt
    let who := s.laneWho k h ((lanesOf m).headD 0)
    let home := e.cls == .sh || e.hyp || e.peer.isSome || who != .untagged
    let common (i : Instr) (w : Nat) (rights : BitVec 7) : Prop := Issues i s b p k h m ∧
      (issueCtx i s b p m).mixedTagged s = false ∧ s.inAperture k.job va = false ∧
      s.translate k.job va w 64 rights = .ok (e, o) ∧ s.lineChecks e (rights == rightW) o w va = none
    let req (w : Nat) : Req := b.request p k h m true (.range e o) home who w (BitVec.ofNat 64 va)
    let pl := mfield f.mod 5 3
    let n := if pl = 0 then 64 else 2 + (60 * pl + 7) / 8
    let g := stblkFmt (mfield f.mod 6 3)
    let xs := (List.range g.count).map fun j => if m.getLsbD (j % 60 / 2) then
      decodeF fp32 (h.raw (j % 60 / 2) (f.d.num + j % 2 + if 60 ≤ j then 2 else 0)).toNat else .fin false 0 0
    (common (.ldblk c f) n rightR →
      ∃ t, exec (.ldblk c f) s = .next t ∧ Still s t b p h ∧ t.slot s.cur.1 s.cur.2 = some { b with deferred := true } ∧
        t.ops = s.ops ++ [s.newOp (.ldblk c f) b p m 1] ∧
        ∃ r, t.reqs = s.reqs ++ [r] ∧
          r = { req n with id := s.nextId + 1, op := s.nextId, kind := .block, issued := s.free + 1 } ∧
          (s.canRun r = true → t.canRun r = true)) ∧
    (common (.stblk c f) 64 rightW → e.cls ≠ .ro → who.isTagged = false →
      ∃ t h', exec (.stblk c f) s = .next t ∧ t.sheaf b.tag p.sheaf = some h' ∧
        (∀ l r, h'.raw l r = h.raw l r) ∧ t.ops = s.ops ++ [s.newOp (.stblk c f) b p m 1] ∧
        t.reqs = s.reqs ++ [
          { req 64 with id := s.nextId + 1, op := s.nextId, kind := .store, data := (g.pack xs (rmOf (mfield f.mod 4 2))).1,
                        issued := s.free + 1 }] ∧
        t = { s with sheaves := t.sheaves, cores := t.cores, jobs := (s.retire k.job).jobs, free := t.free,
                     nextId := s.nextId + 2, reqs := t.reqs, ops := t.ops })

/-- `RQRY` (R89, R90): the item of the range that contains the address, or zero where none does: base, limit, the info
word, or the index. -/
def Obligations.RangeQueries : Prop :=
  ∀ (c : Common) (f : SF) s b p k h m, Issues (.rqry c f) s b p k h m →
    let item := f.spec.toNat
    let n := if item ≤ 1 then 2 else 1
    let bit (x : Bool) (i : Nat) : Nat := if x then 2 ^ i else 0
    let word (e : RangeEnt) : Nat := 2 ^ 31 + bit (e.move != .none) 30 + bit e.anyLost 29 + bit (e.place.tier == 1) 28 +
      (match e.cls with | .sh => 0 | .ph => 1 | .ro => 2) * 2 ^ 26 + bit e.hyp 25 + bit e.par 24 + e.rights.toNat
    let value (l : Nat) : Nat := match s.findRange k.job (h.val l f.a 2) with
      | none => 0
      | some e => if item = 0 then e.base else if item = 1 then e.limit else if item = 2 then word e else e.idx
    ∃ t, exec (.rqry c f) s = .next t ∧ Answers (.rqry c f) s t b p k h m
      ((if f.d.isU then (lanesOf m).take 1 else lanesOf m).flatMap fun l =>
        if f.d.isZ then [] else (List.range n).map fun j =>
          (f.d.num + j, if f.d.isU then none else some l, BitVec.ofNat 32 (value l / 2 ^ (32 * j))))

/-- `REQNT` (R161): the block in 16 uniform registers goes to a new scale below 255; an empty block and one whose scale is
NaN are unchanged. What the elements become is the model's `BFmt.requant` (R161). -/
def Obligations.RequantiseAnswers : Prop :=
  ∀ (c : Common) (f : A3) s b p k h m, Issues (.reqnt c f) s b p k h m →
    let blk := leBytes 64 (h.uval m f.a 16)
    let sc := h.uval m f.b 1
    ∀ g, sc < 255 → s.blockFmt blk = some g →
      let out := match g with
        | none => blk
        | some g => if byteAt blk 1 = 255 then blk else (g.requant blk sc (rmOf (mfield f.mod 0 2))).1
      ∃ t h', exec (.reqnt c f) s = .next t ∧ t.sheaf b.tag p.sheaf = some h' ∧ (∀ l r, h'.raw l r = h.raw l r) ∧
        t.ops = s.ops ++ [s.newOp (.reqnt c f) b p m 1] ∧
        t.results = s.results ++ [⟨s.nextId + 1, s.nextId, b.tag, p.sheaf, if f.d.isZ then [] else
          (List.range 16).map fun j => (f.d.num + j, none, BitVec.ofNat 32 (leNat out / 2 ^ (32 * j)))⟩] ∧
        t = { s with sheaves := t.sheaves, cores := t.cores, jobs := (s.retire k.job).jobs, free := t.free,
                     nextId := s.nextId + 2, results := t.results, ops := t.ops }

/-! ## The matrix engine, the fabric, launches and the arbor -/

/-- `MXQ` and `MXDRAIN` (R162, R166, R175, R176, R325): a command or drain that passes its checks takes a free entry of
the bay's table of 32 (which one is the model's choice, log entry 12); `MXQ` answers the entry number plus one, or 0 and
posts nothing where the table is full; a full table holds `MXDRAIN`. That a drain's entry has priority 0 is the model's
reading (DEDUCED, log entry 51): R175 gives it none. A recorded matrix error (R173): `MXQ`, `MXDRAIN` and `RELACC` raise
it in place of their effect, in every active lane, and the record is empty again. -/
def Obligations.MatrixPosts : Prop :=
  (∀ (c : Common) (f : A3) s b p k h m, k.mxErr = none →
    let free := s.mxFree k.die k.bay
    let entry (n op seq prio : Nat) (w : MxWork) : MxEntry :=
      ⟨k.die, k.bay, n, seq, b.tag, k.job, p.sheaf, op, prio, w, 0, false, 0, ⟨b.tag, p.sheaf, m, s.nextId⟩, 0⟩
    let cmd := MxCmd.ofNat (h.uval m f.a 16)
    let desc := MxDesc.ofNat (h.uval m f.a 4)
    let dest := if f.d.isZ then 1023 else f.d.num
    (Issues (.mxq c f) s b p k h m → s.mxCheck k cmd = none → (issueCtx (.mxq c f) s b p m).mixedTagged s = false →
      ∃ t, exec (.mxq c f) s = .next t ∧ Still s t b p h ∧ t.ops = s.ops ++ [s.newOp (.mxq c f) b p m 1] ∧
        (free = [] → t.mxTable = s.mxTable ∧
          t.results = s.results ++ [⟨s.nextId + 1, s.nextId, b.tag, p.sheaf, [(f.d.num, none, 0)]⟩]) ∧
        (free ≠ [] → ∃ n ∈ free, t.mxTable = s.mxTable ++ [entry n 0 (s.nextId + 1) cmd.prio (.command cmd)] ∧
          t.results = s.results ++
            [⟨s.nextId + 2, s.nextId, b.tag, p.sheaf, [(f.d.num, none, BitVec.ofNat 32 (n + 1))]⟩])) ∧
    (Issues (.mxdrain c f) s b p k h m → s.mxDrainCheck k (Instr.mxdrain c f).word desc = none →
      (issueCtx (.mxdrain c f) s b p m).mixedTagged s = false →
      ∃ t, exec (.mxdrain c f) s = .next t ∧ t.ops = s.ops ++ [s.newOp (.mxdrain c f) b p m 1] ∧
        (free ≠ [] → Still s t b p h ∧ t.holds = s.holds ∧
          ∃ n ∈ free, t.mxTable = s.mxTable ++ [entry n s.nextId (s.nextId + 1) 0 (.drain desc dest h.core)]) ∧
        (free = [] → t.mxTable = s.mxTable ∧ t.slot s.cur.1 s.cur.2 = none ∧
          t.holds.map Hold.kind = s.holds.map Hold.kind ++ [.mxDrain dest ((List.range 4).map fun j =>
            BitVec.ofNat 32 (h.uval m f.a 4 / 2 ^ (32 * j)))]))) ∧
  ∀ (c : Common) (f : A3) (i : Instr), i = .mxq c f ∨ i = .mxdrain c f ∨ i = .relacc c f →
    ∀ s b p k h m cause, Issues i s b p k h m → k.mxErr = some cause → k.kh.handler ≠ 0 →
      (∀ (l : Nat) (x : Thread), m.getLsbD l = true → h.threads[l]? = some x → x.canEnter) →
      ∃ t h' k', exec i s = .next t ∧ t.stook b.tag = some k' ∧ k' = { k with mxErr := none } ∧
        t.mxTable = s.mxTable ∧ t.tiles = s.tiles ∧ t.holds = s.holds ∧ t.sheaf b.tag p.sheaf = some h' ∧
        ∀ (l : Nat) (x y : Thread), m.getLsbD l = true → h.threads[l]? = some x → h'.threads[l]? = some y →
          Entered k x y cause.1 cause.2 b.here b.base

/-- `PUT`, `GET`, `RATOM` and `AMSG` (R197, R203 to R205, R276, R302, R330, R333): each hands its packets to the fabric:
`PUT` one write for each stretch up to a multiple of 256 of its destination, from registers or memory that can be read;
`GET` one read request for each such stretch of its source; `RATOM` one atomic; `AMSG` one active message. The lanes are
untagged. That a scratchpad destination is cut at multiples of 256 of its offset is the model's choice (DESIGN CHOICE,
log entry 48), and that the lowest active lane is the elected one, and that the whole source in memory is read as the
request is sent, are its readings (DEDUCED, log entries 45 and 47). -/
def Obligations.FabricRequests : Prop :=
  ∀ (c : Common) (f : A3) s b p k h m, Numbered s → s.noneWait → s.settledFor h ((lanesOf m).headD 0) →
    (s.ranges.map (·.idx)).Nodup → (∀ l, m.getLsbD l = true → s.laneWho k h l = .untagged) →
    let words (r : Reg) (n : Nat) : List Word := (List.range n).map fun j => h.raw ((lanesOf m).headD 0) (r.num + j)
    let d := DestWord.ofNat (h.uval m f.d 4)
    let a := DestWord.ofNat (h.uval m f.a 4)
    let n := h.uval m f.b 1
    let cuts (w : DestWord) : List ((Nat × Nat) × Nat) := (cut256 w.off n).zipIdx
    (Issues (.put c f) s b p k h m → d.reserved = false → d.kind ≤ 1 → mbit f.mod 0 = false → 4 ≤ n → n ≤ 256 → n % 4 = 0 →
      f.a.num + n / 4 ≤ 640 →
      ∃ t, exec (.put c f) s = .next t ∧ Submits (.put c f) s t b p k h m .put ((cuts d).map fun x =>
        ⟨x.2, (d.plus x.1.1).goal,
          .write (d.plus x.1.1) ((((words f.a (n / 4)).flatMap fun w => leBytes 4 w.toNat).drop x.1.1).take x.1.2),
          none⟩) none) ∧
    (∀ e o, Issues (.put c f) s b p k h m → d.reserved = false → d.kind ≤ 1 → mbit f.mod 0 = true → 1 ≤ n → n ≤ 16777216 →
      s.inAperture k.job (h.uval m f.a 2) = false →
      s.translate k.job (h.uval m f.a 2) n 1 rightR = .ok (e, o) → s.keyLive e = true →
      (e.peer.isSome = true ∨ ∀ x ∈ cuts d, e.firstBlocked false (o + x.1.1) x.1.2 = none) →
      ∃ t, exec (.put c f) s = .next t ∧ Submits (.put c f) s t b p k h m .put ((cuts d).map fun x =>
        ⟨x.2, (d.plus x.1.1).goal, .write (d.plus x.1.1) [], some (e, o + x.1.1, x.1.2)⟩) none) ∧
    (Issues (.get c f) s b p k h m → d.reserved = false → a.reserved = false → d.kind = 0 → a.kind ≤ 1 → a.pkg = s.pkg →
      1 ≤ n → n ≤ 16777216 →
      (a.kind = 0 → ∃ e, s.range a.range = some e ∧ e.owner = k.job ∧ a.off < e.limit ∧ a.off + n ≤ e.limit ∧
        e.grants rightW = true ∧ e.cls ≠ .ro ∧ s.keyLive e = true) →
      (a.kind = 1 → k.cores.contains (64 * a.die + a.core) = true ∧ (a.restag = 0 ∨ a.restag = k.tag) ∧ a.off + n ≤ k.share ∧
        (a.cribEn = true → a.crib < k.cribs.length)) →
      ∃ t, exec (.get c f) s = .next t ∧ Submits (.get c f) s t b p k h m (.get d a n) ((cuts d).map fun x =>
        ⟨x.2, (d.plus x.1.1).goal, .readReq (d.plus x.1.1) x.1.2, none⟩) none) ∧
    (Issues (.ratom c f) s b p k h m → a.reserved = false → a.kind = 0 → s.knowsPkg a.pkg = true →
      let w := if mbit f.mod 10 then 2 else 1
      let v := h.uval m f.b ((if mfield f.mod 11 4 = 9 then 2 else 1) * w)
      ∃ t, exec (.ratom c f) s = .next t ∧ Submits (.ratom c f) s t b p k h m
        (.ratom f.d.num w (mbit f.mod 8) (mfield f.mod 6 2) a)
        [⟨0, .mem a.pkg a.range a.toff.toNat,
          .atomicReq a (rmwOf (mfield f.mod 11 4)) (4 * w) (v % 2 ^ (32 * w)) (v / 2 ^ (32 * w)), none⟩]
        (if mbit f.mod 9 then some (mfield f.mod 6 2) else none)) ∧
    (Issues (.amsg c f) s b p k h m → d.reserved = false → d.kind = 3 → n / 2 ^ 12 % 16 = 0 → n / 2 ^ 22 = 0 →
      n / 2 ^ 16 % 64 ≤ 62 → f.a.num + n / 2 ^ 16 % 64 ≤ 640 →
      ∃ t, exec (.amsg c f) s = .next t ∧ Submits (.amsg c f) s t b p k h m .amsg
        [⟨0, .core d.pkg d.die d.core, .active d (n % 4096) (words f.a (n / 2 ^ 16 % 64)), none⟩] none)

/-- Instructions whose checks need memory or another agent hold their bundle with what they read (R37, R187, R192, R204,
R364): `LAUNCH`, `COLL` (with how much of its payload each lane reads covered, R71), a multicast `PUT`, and `HYPOPEN` and
`RESOLVE`, which join their arbor's queue. During a flatten `HYPOPEN` holds its bundle instead (R195). -/
def Obligations.DeferredInstructions : Prop :=
  ∀ (c : Common) (f : A3) (q : MF) s b p k h m, s.settledFor h ((lanesOf m).headD 0) →
    let words (r : Reg) (n : Nat) : List Word := (List.range n).map fun j => h.raw ((lanesOf m).headD 0) (r.num + j)
    let asks (i : Instr) (kind : Word → AskKind) (ok : Arbor → Bool) : Prop :=
      ∀ a, Issues i s b p k h m → s.arbor k.job = some a → s.arborAt a.id = some a → ok a = true →
        pathOk (BitVec.ofNat 32 (h.uval m f.a 1)) = true → (issueCtx i s b p m).mixedTagged s = false →
        ∃ t a', exec i s = .next t ∧ Defers i s t b p h m [] ∧ t.arborAt a.id = some a' ∧
          a' = { a with queue := a.queue ++ [.ask ⟨s.nextId, b.tag, p.sheaf, m, s.cur.1, s.cur.2, none,
            ⟨b.tag, p.sheaf, m, s.nextId⟩, kind (BitVec.ofNat 32 (h.uval m f.a 1))⟩] }
    (Issues (.launch c q) s b p k h m →
      let va := BitVec.ofNat 64 (h.ea ((lanesOf m).headD 0) q.addr q.off.toInt)
      ∃ t, exec (.launch c q) s = .next t ∧ t.arbors = s.arbors ∧
        Defers (.launch c q) s t b p h m [va.setWidth 32, (va >>> 32).setWidth 32]) ∧
    (Issues (.coll c f) s b p k h m → h.uval m f.b 1 / 2 ^ 12 % 16 = 0 →
      ∃ t, exec (.coll c f) s = .next t ∧ t.arbors = s.arbors ∧ Defers (.coll c f) s t b p h m
        (words f.a 2 ++ words f.b 1 ++ (List.range 32).map (fun l => BitVec.ofNat 32 (if mbit f.mod 0 then 65535
          else (issueCtx (.coll c f) s b p m).coveredRun s f.d l)) ++
          words f.d (if mbit f.mod 0 then 2 else min 64 (640 - f.d.num)))) ∧
    (Issues (.put c f) s b p k h m → (DestWord.ofNat (h.uval m f.d 4)).kind = 2 →
      (DestWord.ofNat (h.uval m f.d 4)).reserved = false → s.accepts 8 = true → mbit f.mod 0 = false →
      4 ≤ h.uval m f.b 1 → h.uval m f.b 1 ≤ 256 → h.uval m f.b 1 % 4 = 0 → f.a.num + h.uval m f.b 1 / 4 ≤ 640 →
      ∃ t, exec (.put c f) s = .next t ∧ t.arbors = s.arbors ∧ Defers (.put c f) s t b p h m
        (words f.d 4 ++ words f.b 1 ++ words f.a 2 ++ words f.a (h.uval m f.b 1 / 4))) ∧
    asks (.hypopen c f) (fun x => .hypOpen f.d.num f.b.num x (mfield f.mod 0 4)) (fun a => !a.flatten || a.freeing) ∧
    asks (.resolveConfirm c f) (fun x => .resolve true (if f.d.isZ then 1023 else f.d.num) x) (fun _ => true) ∧
    asks (.resolveRefute c f) (fun x => .resolve false (if f.d.isZ then 1023 else f.d.num) x) (fun _ => true) ∧
    (∀ a, Issues (.hypopen c f) s b p k h m → s.arbor k.job = some a → a.flatten = true → a.freeing = false →
      pathOk (BitVec.ofNat 32 (h.uval m f.a 1)) = true → (issueCtx (.hypopen c f) s b p m).mixedTagged s = false →
      ∃ t, exec (.hypopen c f) s = .next t ∧ t.slot s.cur.1 s.cur.2 = none ∧
        t.ops = s.ops ++ [s.newOp (.hypopen c f) b p m 1] ∧
        t.holds.map Hold.kind = s.holds.map Hold.kind ++ [.hypOpen false] ∧
        t.arbors.map (fun x => (x.id, x.nodes, x.queue.length)) =
          s.arbors.map fun x => (x.id, x.nodes, x.queue.length + if x.id = a.id then 1 else 0))

/-- `HYPSET` (R181, R186): each active lane's path becomes the value given, where it is well-formed and, unless zero, the
job has an arbor; a path whose node is refuted, or has not been opened since the last flatten, orphans the thread and posts
0x23 to it. -/
def Obligations.HypsetSetsPath : Prop :=
  ∀ (c : Common) (f : A3) s b p k h m, Issues (.hypset c f) s b p k h m →
    let path (l : Nat) : Word := BitVec.ofNat 32 (h.val l f.a 1)
    let dead (l : Nat) : Bool := match s.arbor k.job with
      | some a => path l != 0 && !a.nodes.any fun n => n.path == path l && n.state != .refuted
      | none => false
    (∀ a, s.arbor k.job = some a → (a.nodes.map (·.path)).Nodup) →
    (∀ l, m.getLsbD l = true → pathOk (path l) = true ∧ (path l = 0 ∨ (s.arbor k.job).isSome = true)) →
    (∀ (l : Nat) (x : Thread), m.getLsbD l = true → h.threads[l]? = some x → x.exited = false ∧ x.held = none) →
    ∃ t h', exec (.hypset c f) s = .next t ∧ t.sheaf b.tag p.sheaf = some h' ∧ h'.s = h.s ∧
      (∀ (l : Nat) (x y : Thread), h.threads[l]? = some x → h'.threads[l]? = some y →
        Thread.sameButPlace (if m.getLsbD l then
          { x with hyp := path l, orphan := dead l,
                   pending := if dead l then (0x23, (path l).zeroExtend 64) :: x.pending.filter (·.1 != 0x23)
                     else x.pending } else x) y) ∧
      (∀ tag j, ¬ (tag = b.tag ∧ j = p.sheaf) → t.sheaf tag j = s.sheaf tag j) ∧
      t = { s with sheaves := t.sheaves, cores := t.cores, jobs := (s.retire k.job).jobs, free := t.free }

/-- `CANCEL` (R50, R289), by level: it posts cause 0x51 to every thread that has not exited of the running stooks of the unit
it names, and to no other thread; the unit's launches are marked, each counted in `CANCNT`, and start no further stook; a
stook that is removed before it starts counts for `SCNT`. Where something completes at the same time its own counters advance
as well, so the counts are stated where nothing does. That a graph or phase goes by its number in the order of R43 is the
model's reading (DEDUCED, log entry 66). -/
def Obligations.CancelPosts : Prop :=
  ∀ (c : Common) (f : A3) s b p k h m j, Issues (.cancel c f) s b p k h m → s.job k.job = some j →
    let v := h.uval m f.a 2
    let level := mfield f.mod 0 3
    let unit (l : Launch) : Bool := match level with
      | 0 => false
      | 1 => l.no == v % 2 ^ 32
      | 2 => l.graph == v % 2 ^ 32 && j.graphs.any (·.no == l.graph)
      | 3 => j.graphs.any fun g => g.no == l.graph && g.phase == v % 2 ^ 32
      | _ => true
    let hit (g : Stook) : Prop := g.job = k.job ∧ (level = 4 ∧ g.kind ≠ .launch ∨
      g.kind = .launch ∧ ∃ l ∈ j.launches, l.no = g.launch ∧ l.complete = false ∧ (unit l = true ∨
        level = 0 ∧ l.no ≠ 0 ∧ l.no = v / 2 ^ 32 ∧ g.index = v % 2 ^ 32 ∧ g.index < l.nstook ∧
          l.started.contains g.index = true ∧ l.removed.contains g.index = false))
    let counter (va : Nat) : Prop := va ≠ 0 ∧ ∃ e o, s.translate k.job va 8 1 0 = .ok (e, o) ∧
      s.lineChecks e true o 8 va = none ∧ e.peer = none ∧ o % 8 = 0 ∧ ∀ x ∈ s.versions, x.rng ≠ e.idx
    let apart (x y : Nat) : Prop := x + 8 ≤ y ∨ y + 8 ≤ x
    let alone : Prop := (∀ l ∈ s.l3, l.bytes.length = 64) ∧ (s.ranges.map (·.idx)).Nodup ∧ (∀ x ∈ s.saved, x.job ≠ k.job) ∧
      (∀ x ∈ j.launches, x.complete = true ∨ x.finished < x.started.length) ∧
      ∀ g, j.graphs.head? = some g → g.closed = true → ∃ x ∈ j.launches, x.graph = g.no ∧ x.complete = false
    (j.launches.map (·.no)).Nodup → (s.stooks.map (·.tag)).Nodup →
    (∀ tag i l x, s.thread tag i l = some x → ∀ g ∈ s.holds, x.held = some g.id → g.tag = tag) →
    ∃ t, exec (.cancel c f) s = .next t ∧
      (∀ g ∈ s.stooks, hit g → ∀ i l x, s.thread g.tag i l = some x → l < 32 → x.exited = false →
        ∃ y, t.thread g.tag i l = some y ∧ (0x51, BitVec.ofNat 64 level) ∈ y.pending) ∧
      (∀ g ∈ s.stooks, ¬ hit g → ∀ i l x, s.thread g.tag i l = some x →
        ∃ y, t.thread g.tag i l = some y ∧ y.pending = x.pending ∧ (g.tag ≠ b.tag → y = x)) ∧
      (∀ l ∈ j.launches, l.complete = false → unit l = true → ∀ j', t.job k.job = some j' → ∀ l' ∈ j'.launches, l'.no = l.no →
        l'.removedAll = true ∧ l'.cancelled = true) ∧
      (alone → counter (j.block + 0x20) → 1 ≤ level → (∀ x ∈ j.launches, x.scnt = 0 ∨ apart x.scnt (j.block + 0x20)) →
        t.readWord k.job (j.block + 0x20) = (s.readWord k.job (j.block + 0x20) +
          (j.launches.filter fun l => unit l && !l.complete && !l.cancelled).length) % 2 ^ 64) ∧
      (alone → ∀ l ∈ j.launches, l.complete = false → counter l.scnt → apart l.scnt (j.block + 0x20) →
        (level = 1 → unit l = true → t.readWord k.job l.scnt = (s.readWord k.job l.scnt +
          if l.removedAll then 0 else l.nstook - l.started.length - l.removed.length) % 2 ^ 64) ∧
        (level = 0 → l.no ≠ 0 → l.no = v / 2 ^ 32 → v % 2 ^ 32 < l.nstook → l.removedAll = false →
          l.removed.contains (v % 2 ^ 32) = false → l.started.contains (v % 2 ^ 32) = false →
          t.readWord k.job l.scnt = (s.readWord k.job l.scnt + 1) % 2 ^ 64 ∧
          ∃ j', t.job k.job = some j' ∧ { l with removed := v % 2 ^ 32 :: l.removed } ∈ j'.launches))

/-! ## Accesses execute and results land -/

/-- Requests execute at home, in L1 or in scratchpad, and results land (R97, R100, R101, R123, R205, R258, R277, R281,
R314, R355). For a request that may run, on a line that can be read, of a range of this package of which no version
stands: a load sends the bytes it reads to its registers; a store at home changes exactly its own bytes, and every other
byte of every range reads as before; an atomic sends the old value and writes the new one, or nothing where a compare
fails; a store to `PH` data changes the core's L1 copy and nothing at home. In a scratchpad share, away from the cribs,
the same. A result puts each value in its register, where no later write has overtaken it, and ends its operation. -/
def Obligations.AccessesExecute : Prop :=
  (∀ s (r : Req) (e : RangeEnt) (o : Nat), s.reqs.find? (·.id == r.id) = some r → s.canRun r = true → r.done = [] →
    r.place = .range e o → e ∈ s.ranges → (s.ranges.map (·.idx)).Nodup → e.peer = none →
    (∀ v ∈ s.versions, v.rng ≠ e.idx) → s.keyLive e = true → e.lost (o / 64 * 64) = false →
    o % 64 + r.width ≤ 64 → 0 < r.width → r.got = List.replicate r.width 0 → r.acq = false → r.rel = false →
    r.who = .untagged → (∀ l ∈ s.l3, l.bytes.length = 64) →
    let line := o / 64 * 64
    let done : List Req := s.reqs.filter (·.id != r.id)
    let byte (s : State) (x : RangeEnt) (a : Nat) : List Byte := s.homeRead x a 1 .untagged
    let answer (v : Nat) : List (Nat × Option Nat × Word) :=
      ((r.dest.zipIdx).map fun d => (d.1.1, d.1.2, BitVec.ofNat 32 (v / 2 ^ (32 * d.2)))) ++ r.extra
    let wrote (t : State) (bs : List Byte) : Prop := ∀ x ∈ s.ranges, ∀ a, byte t x a =
      if x.idx = e.idx ∧ o ≤ a ∧ a < o + r.width then (bs[a - o]?).toList else byte s x a
    (∀ sx, r.kind = .load sx → r.home = true → (sx = true → r.dest.length ≤ 1) →
      ∃ t, exec (.homeAccess r.id 0 false) s = .next t ∧ t = { s with nextId := s.nextId + 1, reqs := done, results :=
        s.results ++ [⟨s.nextId, r.op, r.tag, r.sheaf,
          answer (let v := leNat (s.homeRead e o r.width .untagged)
            if sx then wrapI 32 (sgn (8 * r.width) v) else v)⟩] }) ∧
    (∀ cp, r.kind = .load false → r.home = false → e.hyp = false → e.cls ≠ .sh → findCopy s.l1 r.core e line = some cp →
      cp.valid &&& byteMask (o % 64) r.width = byteMask (o % 64) r.width →
      ∃ t, exec (.homeAccess r.id 0 false) s = .next t ∧ t = { s with nextId := s.nextId + 1, reqs := done, results :=
        s.results ++ [⟨s.nextId, r.op, r.tag, r.sheaf, answer (leNat ((cp.bytes.drop (o % 64)).take r.width))⟩] }) ∧
    (r.kind = .store → r.home = true → r.data.length = r.width →
      ∃ t, exec (.homeAccess r.id 0 false) s = .next t ∧ wrote t r.data ∧
        t = { s with reqs := done, ops := (s.opPart r.op).ops, l3 := t.l3 }) ∧
    (r.kind = .store → r.home = false → e.hyp = false → e.cls ≠ .sh → r.data.length = r.width →
      ∃ t cp, exec (.homeAccess r.id 0 false) s = .next t ∧ findCopy t.l1 r.core e line = some cp ∧
        (∀ j, j < r.width → cp.bytes.length = 64 → cp.bytes[o % 64 + j]? = r.data[j]? ∧
          cp.dirty.getLsbD (o % 64 + j) = true) ∧
        t = { s with reqs := done, ops := (s.opPart r.op).ops, l1 := t.l1 }) ∧
    (∀ op x cmp, r.kind = .rmw op x cmp → r.home = true →
      let old := s.homeRead e o r.width .untagged
      ∃ t new, exec (.homeAccess r.id 0 false) s = .next t ∧ RmwGives op r.width (leNat old) x cmp new ∧
        wrote t (leBytes r.width new) ∧
        t.results = s.results ++ [⟨s.nextId, r.op, r.tag, r.sheaf, answer (leNat old)⟩] ∧
        t = { s with nextId := s.nextId + 1, reqs := done, results := t.results, l3 := t.l3 })) ∧
  (∀ s (r : Req) k share o, s.reqs.find? (·.id == r.id) = some r → s.canRun r = true → r.done = [] →
    r.place = .spad share o → s.stook r.tag = some k → r.acq = false → r.rel = false → r.got = List.replicate r.width 0 →
    (share = 0 → o + r.width ≤ k.share) → 0 < r.width → Memory.wf k.spad = true →
    let at' := share * 2 ^ 32 + o
    let old := Memory.getN k.spad at' r.width
    let done : List Req := s.reqs.filter (·.id != r.id)
    let answer (v : Nat) : Result := ⟨s.nextId, r.op, r.tag, r.sheaf,
      ((r.dest.zipIdx).map fun d => (d.1.1, d.1.2, BitVec.ofNat 32 (v / 2 ^ (32 * d.2)))) ++ r.extra⟩
    let wrote (t : State) (bs : List Byte) : Prop := ∃ k', t.stook r.tag = some k' ∧ k' = { k with spad := k'.spad } ∧
      Memory.getN k'.spad at' r.width = bs ∧ ∀ a, a < at' ∨ at' + r.width ≤ a → k'.spad.get a = k.spad.get a
    (∀ sx, r.kind = .load sx → (sx = true → r.dest.length ≤ 1) →
      ∃ t, exec (.homeAccess r.id 0 false) s = .next t ∧ t = { s with nextId := s.nextId + 1, reqs := done, results :=
        s.results ++ [answer (if sx then wrapI 32 (sgn (8 * r.width) (leNat old)) else leNat old)] }) ∧
    (r.kind = .store → r.data.length = r.width →
      ∃ t, exec (.homeAccess r.id 0 false) s = .next t ∧ wrote t r.data ∧
        t = { s with reqs := done, ops := (s.opPart r.op).ops, stooks := t.stooks }) ∧
    (∀ op x cmp, r.kind = .rmw op x cmp →
      ∃ t new, exec (.homeAccess r.id 0 false) s = .next t ∧ RmwGives op r.width (leNat old) x cmp new ∧
        wrote t (leBytes r.width new) ∧
        t = { s with nextId := s.nextId + 1, reqs := done, results := s.results ++ [answer (leNat old)],
                     stooks := t.stooks })) ∧
  (∀ s (x : Result) h, s.results.find? (·.id == x.id) = some x → s.sheaf x.tag x.sheaf = some h → h.shaped = true →
    (x.writes.map fun w => (w.1, w.2.1)).Nodup → (∀ w ∈ x.writes, w.1 < 647 ∧ (w.2.1.getD 0) < 32 ∧
      (256 ≤ w.1 ∧ w.1 < 640 ↔ w.2.1 = none) ∧ (w.1 < 256 → w.1 < h.allot) ∧
      ∀ y, h.threads[w.2.1.getD 0]? = some y → (y.pending? w.1).map Pend.cover = some (.op x.op)) →
    ∃ t h', exec (.resultWriteback x.id) s = .next t ∧ t.sheaf x.tag x.sheaf = some h' ∧
      (∀ w ∈ x.writes, ∀ l, (w.2.1 = none ∨ w.2.1 = some l) → l < 32 →
        h'.raw l w.1 = if 640 ≤ w.1 then (if w.2.2 = 0 then 0 else 1) else w.2.2) ∧
      (∀ l r, (∀ w ∈ x.writes, w.1 ≠ r ∨ (w.2.1 ≠ none ∧ w.2.1 ≠ some l)) → h'.raw l r = h.raw l r) ∧
      (∀ tag j, ¬ (tag = x.tag ∧ j = x.sheaf) → t.sheaf tag j = s.sheaf tag j) ∧
      t.results = s.results.filter (·.id != x.id) ∧ t.ops = (s.opPart x.op).ops ∧
      t = { s with sheaves := t.sheaves, free := t.free, results := t.results, ops := t.ops })

/-- Waits end (R37, R47 to R49, R105, R110, R118, R119, R137, R141, R175, R283, R341, R361): for a hold whose condition
has come, the event that its kind names ends it, with what the rule says then holds. A `DOZE` whose time has come with
its counter below the target raises 0x20 at the instruction after it; a `LAUNCH` whose queue has room is accepted under
the next number, or answers 0 where its kernel header cannot be read. When a way conversion ends (R57, R96, R324) the
core has its new ways, the next conversion is first, and the bundle that a `MOVSW %ctl` holds in its slot goes on to its
next word. That an `MXDRAIN` that waits for an entry is posted also while a matrix error is recorded is the model's
reading (DEDUCED, log entry 133). -/
def Obligations.WaitsEnd : Prop :=
  (∀ s (h : Hold) k, s.holds.find? (·.id == h.id) = some h → s.stook h.tag = some k →
    let others (t : State) : Prop := ∀ x ∈ s.holds, x.id ≠ h.id → x ∈ t.holds
    let counter (va : DWord) (x : Nat) : Prop := ∃ e o, s.waitCheck k.job va.toNat = .ok (e, o) ∧ e.peer = none ∧
      s.waitOrdered h e o = true ∧ e.held o 8 = false ∧ x = leNat (s.homeReadN e o 8)
    (∀ scope, h.kind = .publish scope → s.publishReady h k.job scope = true →
      ∃ t, exec (.publishComplete h.id) s = .next t ∧ Freed s t h ∧ others t ∧
        (scope ≠ 0 → t.l1Clean h.core k.job) ∧
        (2 ≤ scope → ∀ x ∈ t.l2, x.unit = h.core / 64 → x.job = k.job → h.core ∉ x.writers)) ∧
    (∀ scope, h.kind = .refresh scope → s.acquired h.tag h.sheaf h.active h.id = true →
      ∃ t, exec (.refreshComplete h.id) s = .next t ∧ Freed s t h ∧ others t ∧ (scope ≠ 0 → t.l1Fresh h.core k.job) ∧
        (2 ≤ scope → (∀ x ∈ t.l2, x.unit = h.core / 64 → x.job = k.job → x.valid = x.dirty) ∧
          ∀ x ∈ t.code, x.core ≠ h.core) ∧ t.mem = s.mem ∧ t.l3 = s.l3) ∧
    (∀ scope, h.kind = .fence scope → s.publishReady h k.job scope = true →
      s.allDone h.tag h.sheaf h.lanes h.id = true →
      ∃ t, exec (.fenceComplete h.id) s = .next t ∧ Freed s t h ∧ others t ∧
        (scope ≠ 0 → ∀ x ∈ t.l1, ¬ (x.unit = h.core ∧ x.job = k.job))) ∧
    (∀ i turn (x : Crib), h.kind = .cribWait i turn → k.cribs[i]? = some x → x.turn < 2 ^ 32 → turn < 2 ^ 32 →
      s.ordered (h.read k.job (k.cribPlace i) 16) = true → (∀ u ∈ k.cribUps, u.crib ≠ i) →
      (0 < (x.turn + 2 ^ 32 - turn) % 2 ^ 32 ∧ (x.turn + 2 ^ 32 - turn) % 2 ^ 32 < 2 ^ 31) →
      ∃ t, exec (.cribwaitRelease h.id) s = .next t ∧ Freed s t h ∧ others t ∧ t.l1Fresh h.core k.job) ∧
    (∀ va target x, h.kind = .waitGe va target → counter va x → target ≤ x →
      ∃ t, exec (.waitgeRelease h.id) s = .next t ∧ Freed s t h ∧ others t ∧ t.l1Fresh h.core k.job) ∧
    (∀ va target time x, h.kind = .doze va target time → time ≤ s.now / 4 → counter va x → target ≤ x →
      ∃ t, exec (.dozeTimeReached h.id) s = .next t ∧ Freed s t h ∧ others t ∧ t.l1Fresh h.core k.job) ∧
    (∀ va target time x, h.kind = .doze va target time → time ≤ s.now / 4 → counter va x → x < target → k.kh.handler ≠ 0 →
      (∀ l y, h.active.getLsbD l = true → s.thread h.tag h.sheaf l = some y → y.canEnter) →
      ∃ t, exec (.dozeTimeReached h.id) s = .next t ∧ ∀ l y, l < 32 → h.active.getLsbD l = true →
        s.thread h.tag h.sheaf l = some y → ∃ z, t.thread h.tag h.sheaf l = some z ∧ z.hact = true ∧ z.code = 0x20 ∧
          z.fault = va ∧ z.epc = y.pc ∧ z.pc = k.kh.handler ∧ z.held = none) ∧
    (∀ n sh, h.kind = .grow n → s.sheaf h.tag h.sheaf = some sh → sh.shaped = true → sh.allot + 8 * n ≤ 256 →
      s.regBytes h.core + 1024 * n ≤ 524288 →
      (∀ x ∈ s.holds, x.core = h.core → x.id < h.id → ∀ n', x.kind ≠ .grow n') →
      ∃ t sh', exec (.growGrant h.id) s = .next t ∧ Freed s t h ∧ others t ∧ t.sheaf h.tag h.sheaf = some sh' ∧
        sh'.allot = sh.allot + 8 * n ∧ ∀ l r, sh'.raw l r = sh.raw l r) ∧
    (∀ n, h.kind = .acqAcc n → (∀ x ∈ s.holds, x.id ≠ h.id → ∀ n', x.kind ≠ .acqAcc n') →
      ((s.stooks.filter fun x => x.die == k.die && x.bay == k.bay).map (·.tiles)).sum + n ≤ 8 →
      ∃ t k', exec (.acqaccGrant h.id) s = .next t ∧ Freed s t h ∧ others t ∧ t.stook h.tag = some k' ∧ k'.tiles = n ∧
        ∀ x ∈ t.tiles, x.tag ≠ h.tag) ∧
    (h.kind = .relAcc → k.mxErr = none → (∀ x ∈ s.mxTable, x.tag ≠ h.tag) →
      ∃ t k', exec (.relaccComplete h.id) s = .next t ∧ Freed s t h ∧ others t ∧ t.stook h.tag = some k' ∧ k'.tiles = 0) ∧
    (∀ dest ws, h.kind = .mxDrain dest ws → s.mxDrainCheck k 0 (MxDesc.ofNat (leNat (wordBytes ws))) = none →
      s.mxFree k.die k.bay ≠ [] → (∀ x ∈ s.holds, x.id < h.id → ∀ d w, x.kind ≠ .mxDrain d w) →
      ∃ t, exec (.mxdrainEntryGrant h.id) s = .next t ∧ Freed s t h ∧ others t ∧
        t.mxTable.map MxEntry.work =
          s.mxTable.map MxEntry.work ++ [.drain (MxDesc.ofNat (leNat (wordBytes ws))) dest h.core]) ∧
    (∀ dest bs, h.kind = .launchQ dest bs → ((s.job k.job).map Job.queued).getD 0 < 4096 →
      (∀ n ∈ s.vaLines k.job (LaunchRec.ofBytes bs).kh 128, n.1.peer = none) →
      (∀ x ∈ s.holds, x.id < h.id → ∀ d w, x.kind ≠ .launchQ d w) → s.ops.any (·.id == h.op) = true →
      let header := s.readHeader k.job (LaunchRec.ofBytes bs).kh
      (header.isNone = true →
        ∃ t, exec (.launchQueueEntryGrant h.id) s = .next t ∧ Freed s t h ∧ others t ∧
          t.results.map Result.writes = s.results.map Result.writes ++ [[(dest, none, 0)]]) ∧
      (∀ kh j, header = some kh → s.headerRefused kh = false → s.job k.job = some j → (LaunchRec.ofBytes bs).nstook ≠ 0 →
        (j.graphOf k).cancelled = false → (∀ l ∈ j.launches, l.no ≠ j.nextLaunch) →
        ∃ t j' l, exec (.launchQueueEntryGrant h.id) s = .next t ∧ Freed s t h ∧ others t ∧
          t.results.map Result.writes = s.results.map Result.writes ++ [[(dest, none, BitVec.ofNat 32 j.nextLaunch)]] ∧
          t.job k.job = some j' ∧ l ∈ j'.launches ∧ l.no = j.nextLaunch ∧ l.kh = kh ∧
          l.nstook = (LaunchRec.ofBytes bs).nstook ∧ l.complete = false ∧ l.started = [])) ∧
    (∀ pre, h.kind = .saved true → k.pre = some pre → s.publishReady h k.job 3 = true →
      s.fabPending h.tag h.sheaf h.active h.id = false → s.writing h.tag h.sheaf h.active h.id = false →
      (∃ x ∈ s.threadsOf h.tag, x.1.index = 0 ∧ x.2.2.stage ≠ .stookSaved ∧
        (h.sheaf = 0 → h.active.getLsbD x.2.1 = false)) → pre.stage = .stook →
      ∃ t, exec (.savedComplete h.id) s = .next t ∧ Freed s t h ∧ others t ∧ ∀ l x, l < 32 → h.active.getLsbD l = true →
        s.thread h.tag h.sheaf l = some x → ∃ y, t.thread h.tag h.sheaf l = some y ∧ y.stage = .stookSaved) ∧
    (∀ b inst, h.kind = .bar b inst → (∀ q ∈ s.reqs, q.tag = h.tag → q.place ≠ .bar b) →
      (∀ sh ∈ s.sheaves, sh.tag = h.tag → ∀ x ∈ sh.threads, x.exited = false → ∀ i ∈ inst,
        i.2 ≤ (x.arrivals[b]?).getD 0) →
      ∃ t, exec (.barInstanceComplete h.tag b) s = .next t ∧ Freed s t h ∧ t.l1Fresh h.core k.job)) ∧
  (∀ s core v rest, (s.core core).convs = v :: rest → (s.core core).spw < v.spw →
      ∃ t, exec (.spwConversionComplete core []) s = .next t ∧ (t.core core).spw = v.spw ∧ (t.core core).convs = rest ∧
        t.l1 = s.l1 ∧ t.l2 = s.l2 ∧ t.mem = s.mem ∧ t.holds = s.holds ∧
        ∀ slot com b, v.hold = some (slot, com) → s.slot core slot = some b → b.deferred = true → b.hold = false →
          (∃ p ∈ b.parts, p.lanes ≠ 0) → b.pos + 1 < b.count →
          ∃ at', t.slot core slot = some { b with deferred := false, pos := b.pos + 1, nextAt := at' })

/-! ## Cribs, copies and extents -/

/-- What reaches cribs and homes by itself (R106 to R109, R114, R115, R120, R168): the crib unit adds up the arrivals and
credits of a cycle, each count stopping at its largest value, and then advances the turn once and takes the targets off
where both are reached; a landing packet moves exactly its bytes and, where the template enables its crib and gives no
sum of bytes, credits them; a copy all of whose packets have landed leaves its channel, credits the sum its template
gives, counts and starts its follow-on command; a tier-prefetched line credits its bytes; a `CLEAN` of an `SH` line
writes it back and keeps it clean, and a `DISCARD` drops its lines. That the prefetched line credits also under a retired
key is the model's choice (DESIGN CHOICE, log entry 130), that a follow-on's record is read and checked as it is posted
its reading (DEDUCED, log entry 110). -/
def Obligations.CribsAndCopies : Prop :=
  let credits (s t : State) (tag : Nat) (xs : List (Nat × CribKind)) : Prop := ∀ k, s.stook tag = some k →
    ∃ k', t.stook tag = some k' ∧
      k'.cribUps.map (fun u => (u.crib, u.kind)) = k.cribUps.map (fun u => (u.crib, u.kind)) ++ xs
  (∀ s (k : Stook) i (x : Crib) cyc, s.stook k.tag = some k → k.cribs[i]? = some x → cyc ≤ s.cycles k.die →
    x.cycle < s.cycles k.die →
    (k.cribUps.filter (·.crib == i)) ≠ [] →
    (∀ u ∈ k.cribUps, u.crib = i → u.cycle = cyc ∧ ∃ n, u.kind = .arrive n ∨ u.kind = .credit n) → x.met = false →
    let ups := k.cribUps.filter (·.crib == i)
    let arr := min (x.arr + (ups.map fun u => match u.kind with | .arrive n => n | _ => 0).sum) 0xFFFF
    let bytes := min (x.bytes + (ups.map fun u => match u.kind with | .credit n => n | _ => 0).sum) 0xFFFFFFFF
    x.arr ≤ 0xFFFF → x.bytes ≤ 0xFFFFFFFF →
    ∃ t k', exec (.cribUnitCycle k.tag i) s = .next t ∧ t.stook k.tag = some k' ∧
      k'.cribUps = k.cribUps.filter (fun u => !(u.crib == i)) ∧
      k'.cribs[i]? = some (if (x.atgt ≠ 0 ∨ x.btgt ≠ 0) ∧ x.atgt ≤ arr ∧ x.btgt ≤ bytes then
          ⟨max cyc x.cycle, (x.turn + 1) % 2 ^ 32, x.btgt, bytes - x.btgt, x.atgt, arr - x.atgt⟩
        else ⟨max cyc x.cycle, x.turn, x.btgt, bytes, x.atgt, arr⟩) ∧
      (∀ j, j ≠ i → k'.cribs[j]? = k.cribs[j]?) ∧ t = { s with stooks := t.stooks }) ∧
  (∀ s (c : Copy) n (p : Packet) (e : RangeEnt) (o : Nat), s.copies.find? (·.id == c.id) = some c →
    c.packets[n]? = some p → c.landed.contains n = false → (∀ j, j < n → c.landed.contains j = true) →
    (∀ x ∈ s.copies, x.sameChannel c = true → x.id < c.id → x.started = true) → (∀ f ∈ s.fabReqs, f.kind ≠ .wain c.id n) →
    c.first = none → (∀ y ∈ s.peerBuf, y.who ≠ c.id) →
    s.met c.dep = true → s.sourceReady p = true → s.packetReady c p = true → s.packetHeld p = false →
    p.dst = .range e o → e ∈ s.ranges → p.src ∈ s.ranges → (s.ranges.map (·.idx)).Nodup → e.peer = none →
    p.src.peer = none → s.keyLive e = true → (∀ v ∈ s.versions, v.rng ≠ e.idx) →
    c.who = .untagged → p.dst.meets p.len (.range p.src p.soff) p.len = false → (∀ l ∈ s.l3, l.bytes.length = 64) →
    ∃ t, exec (.wainPacketLand c.id n) s = .next t ∧
      (∀ x ∈ s.ranges, ∀ a, t.homeRead x a 1 .untagged =
        if x.idx = e.idx ∧ o ≤ a ∧ a < o + p.len then s.homeRead p.src (p.soff + (a - o)) 1 .untagged
        else s.homeRead x a 1 .untagged) ∧
      (∃ c', t.copies.find? (·.id == c.id) = some c' ∧ c' = { c with landed := n :: c.landed, started := true }) ∧
      credits s t c.tag (if c.template.cribEn = true ∧ c.template.bcred = 0 then [(c.template.crib, .credit p.len)] else []) ∧
      t = { s with l3 := t.l3, l2 := t.l2, ranges := t.ranges, devMem := t.devMem, copies := t.copies, stooks := t.stooks,
                   free := t.free }) ∧
  (∀ s (c : Copy), s.copies.find? (·.id == c.id) = some c → (∀ j, j < c.packets.length → c.landed.contains j = true) →
    (∀ x ∈ s.copies, x.sameChannel c = true → c.id ≤ x.id) →
    c.template.notify = false →
    ∃ t, exec (.wainCopyComplete c.id) s = .next t ∧ t.copies = s.copies.filter (·.id != c.id) ∧
      credits s t c.tag
        (if c.template.cribEn = true ∧ c.template.bcred ≠ 0 then [(c.template.crib, .credit c.template.bcred)] else []) ∧
      t.followOns.map (fun w => (w.tag, w.job, w.mxidx)) = s.followOns.map (fun w => (w.tag, w.job, w.mxidx)) ++
        (if c.template.follow then [(c.tag, c.job, c.template.mxidx)] else []) ∧
      (c.template.incr = 0 → t.mem = s.mem ∧ t.l3 = s.l3) ∧
      (∀ e o, c.template.incr ≠ 0 → c.template.cntr ≠ 0 → s.translate c.job c.template.cntr 8 1 0 = .ok (e, o) →
        s.lineChecks e true o 8 c.template.cntr = none → e.peer = none →
        o % 8 = 0 → (∀ v ∈ s.versions, v.rng ≠ e.idx) → (∀ l ∈ s.l3, l.bytes.length = 64) →
        t.readWord c.job c.template.cntr = (s.readWord c.job c.template.cntr + c.template.incr) % 2 ^ 64)) ∧
  (∀ s (w : FollowOn) k e, s.followOns.find? (·.id == w.id) = some w → s.stookNow w.tag = some k → e.peer = none →
    (∀ y ∈ s.peerBuf, y.who ≠ w.id) → s.lineChecks e false (64 * w.mxidx) 64 (e.base + 64 * w.mxidx) = none →
    s.mxFree k.die k.bay ≠ [] → s.registered w.job ((s.job w.job).bind (·.mxRange)) w.mxidx = some e →
    let cmd := MxCmd.ofNat (leNat (s.homeReadN e (64 * w.mxidx) 64))
    s.mxCheck k cmd = none →
    ∃ t, exec (.followOnPost w.id) s = .next t ∧ t.followOns = s.followOns.filter (·.id != w.id) ∧
      t.mxTable.map MxEntry.work = s.mxTable.map MxEntry.work ++ [.command cmd]) ∧
  (∀ s (q : TierOp) k line n, s.tierOps.find? (·.id == q.id) = some q → s.stook q.tag = some k →
    q.lines.find? (·.1 == line) = some (line, n) → s.met q.dep = true →
    ∃ t k', exec (.tierpfLineArrive q.id line) s = .next t ∧ t.stook q.tag = some k' ∧
      k'.cribUps.map (fun u => (u.crib, u.kind)) = k.cribUps.map (fun u => (u.crib, u.kind)) ++ [(q.crib, .credit n)] ∧
      (∀ x ∈ t.tierOps, x.id = q.id → ∀ y ∈ x.lines, y.1 ≠ line)) ∧
  (∀ s (r : Req) e o, s.reqs.find? (·.id == r.id) = some r → s.canRun r = true → r.place = .range e o → e ∈ s.ranges →
    (s.ranges.map (·.idx)).Nodup → o % 64 = 0 → r.width = 64 → r.acq = false →
    let mine (x : CacheLine) : Bool :=
      x.job == e.owner && x.rng == e.idx && x.key == e.key && decide (o ≤ x.line) && decide (x.line < o + 64)
    (r.kind = .discard → e.cls = .sh →
      ∃ t, exec (.cleanDiscardComplete r.id) s = .next t ∧
        t = { s with reqs := s.reqs.filter (·.id != r.id), ops := (s.opPart r.op).ops,
                     l3 := s.l3.filter fun l => !(l.job == e.owner && l.rng == e.idx && l.key == e.key && decide (o ≤ l.line) &&
                       decide (l.line < o + 64)),
                     versions := s.versions.filter fun v => !((s.arbor e.owner).any fun a => v.arbor == a.id && v.rng == e.idx &&
                       v.key == e.key && decide (o ≤ v.line) && decide (v.line < o + 64) &&
                       a.stateAt (e.home v.line) v.path == .committed) }) ∧
    (r.kind = .discard → e.cls ≠ .sh →
      ∃ t, exec (.cleanDiscardComplete r.id) s = .next t ∧
        t = { s with reqs := s.reqs.filter (·.id != r.id), ops := (s.opPart r.op).ops,
                     l1 := s.l1.filter fun x => !(x.unit == r.core && mine x),
                     l2 := s.l2.filter fun x => !(x.unit == r.core / 64 && mine x) }) ∧
    (r.kind = .clean → e.cls = .sh → Memory.wf s.mem = true → (∀ l ∈ s.l3, l.bytes.length = 64 ∧ l.line % 64 = 0) →
      (∀ l ∈ s.l3, l.names e o = true → l.dirty = false → l.bytes = s.memLine e o) → s.keyLive e = true →
      o < toLines e.limit →
      ∃ t, exec (.cleanDiscardComplete r.id) s = .next t ∧ t.memLine e o = s.baseLine e o ∧
        t.l3 = s.l3.map (fun l => if l.names e o then { l with dirty := false } else l) ∧
        t = { s with reqs := s.reqs.filter (·.id != r.id), ops := (s.opPart r.op).ops, l3 := t.l3, mem := t.mem,
                     seals := t.seals }))

/-! ## Bundles, stooks and deferred checks -/

/-- How threads come to issue (R42 to R46, R53 to R56, R62, R157, R206, R364): a free slot takes a bundle of the ready
threads of a sheaf that stand where its lead thread stands, the lead being the lowest lane of age 63, or else the lowest
counter; a stook starts with cleared registers at its entry, and a handler's with its arguments in the first uniform
registers; a stook whose threads have exited and whose work is done is gone; and a block read by `LDBLK` gives lanes 0 to
29 two elements each, with which its bundle goes on. That all threads that join run under the clause of the lead thread
is the model's choice (DESIGN CHOICE, log entry 128). -/
def Obligations.BundlesAndStooks : Prop :=
  (∀ s core slot tag i k h w (lead : Nat × Thread), slot ≤ 1 → s.stook tag = some k → s.sheaf tag i = some h →
    h.shaped = true → h.core = core → h.tag = tag → h.index = i → s.slot core slot = none → k.pre = none → k.tag = tag →
    k.frozen = false → (s.core core).mayPick slot tag i (s.cycles k.die) = true → h.failed = [] →
    (∀ e ∈ s.ranges, e.peer = none) →
    let ready := s.draw.readyLanes tag i
    let hd : Header := ⟨w⟩
    let join : Lanes := lanesWhere fun l => ready.any fun x => x.1 == l && x.2.pc == lead.2.pc
    (∀ x ∈ ready, x.2.pending = []) → lead ∈ ready →
    ((∃ x ∈ ready, x.2.age = 63) → lead.2.age = 63 ∧ ∀ x ∈ ready, x.2.age = 63 → lead.1 ≤ x.1) →
    ((∀ x ∈ ready, x.2.age ≠ 63) →
      ∀ x ∈ ready, lead.2.pc < x.2.pc ∨ (lead.2.pc = x.2.pc ∧ lead.1 ≤ x.1)) →
    (lead.2.pc = lead.2.clause ∨ (lead.2.pc - lead.2.clause).toNat / 8 ≤ hd.count) →
    s.draw.codeWord core k.job lead.2.clause = .ok w → s.draw.badHeader core k.job lead.2.clause hd = false →
    ∃ t h', exec (.bundleStart core slot tag i none) s = .next t ∧
      t.slot core slot = some ⟨s.cycles k.die, tag, [⟨i, join⟩], lead.2.clause, w.toNat / 2 ^ 60 % 16,
        w.toNat / 2 ^ 56 % 16 + 1, if lead.2.pc = lead.2.clause then 0 else (lead.2.pc - lead.2.clause).toNat / 8 - 1,
        s.cycles k.die, [], false, false⟩ ∧ t.stook tag = some k ∧
      t.sheaf tag i = some h' ∧ h' = { h with threads := h'.threads } ∧
      (∀ (l : Nat) (x y : Thread), h.threads[l]? = some x → h'.threads[l]? = some y →
        y = if join.getLsbD l then { x with age := 0, inBundle := true }
          else if ready.any (·.1 == l) then { x with age := min (x.age + 1) 63 } else x) ∧
      t = { s with sheaves := t.sheaves, cores := t.cores, code := t.code, free := t.free, stooks := t.stooks }) ∧
  (∀ s job launch stook die bay tag j l cores homes, s.job job = some j → launch ≠ 0 →
    j.launches.find? (·.no == launch) = some l → l.removedAll = false → l.removed.contains stook = false →
    l.started.contains stook = false → stook < l.nstook → j.mayStart l = true → s.firstReady l = true → s.tagFree tag = true →
    (∀ x ∈ s.sheaves, x.tag ≠ tag) →
    s.placeOn die bay l.kh (List.replicate l.nsheaf l.kh.vregs) = some (cores, homes) →
    ∃ t k, exec (.stookStart job launch stook die bay tag) s = .next t ∧ t.stook tag = some k ∧
      (k.job, k.kind, k.launch, k.index, k.nstook, k.nsheaf) = (job, .launch, launch, stook, l.nstook, l.nsheaf) ∧
      (k.die, k.bay, k.cores, k.kh, k.lparams, k.spad, k.tiles) = (die, bay, cores, l.kh, l.lparams, [], 0) ∧
      (∀ (i c : Nat), homes[i]? = some c → i < l.nsheaf → ∃ h, t.sheaf tag i = some h ∧ h.core = c ∧ h.part = 32 ∧
        h.s = List.replicate 384 0 ∧ h.threads.length = 32 ∧ ∀ x ∈ h.threads, x.pc = l.kh.entry ∧
          x.v = List.replicate l.kh.vregs 0 ∧ x.p = 0 ∧ x.fflags = 0 ∧ x.hyp = 0 ∧ x.hact = false ∧ x.exited = false) ∧
      (∀ x ∈ s.stooks, x ∈ t.stooks) ∧
      ∃ j' l', t.job job = some j' ∧ j'.launches.find? (·.no == launch) = some l' ∧
        l' = { l with started := stook :: l.started }) ∧
  (∀ s id bay tag (m : Msg) w n args kh cores c, s.msgAt id = some m → m.kind = .active w n args → m.accepted = true →
    (∀ x ∈ s.stooks, x.kind ≠ .handler id) → (∀ x ∈ s.saved, x.kind ≠ .handler id) → s.tagFree tag = true →
    (∀ x ∈ s.sheaves, x.tag ≠ tag) → args.length ≤ 384 →
    (∀ e ∈ s.ranges, e.peer = none) →
    s.handlerHeader m.job n = .ok kh → s.placeOn w.die bay kh [kh.vregs] = some (cores, [c]) →
    ∃ t k h, exec (.handlerStookStart id bay tag) s = .next t ∧ t.stook tag = some k ∧ k.kind = .handler id ∧
      k.job = m.job ∧ t.sheaf tag 0 = some h ∧ h.s = args ++ List.replicate (384 - args.length) 0 ∧
      ∀ x ∈ h.threads, x.pc = kh.entry) ∧
  (∀ s k, s.stook k.tag = some k → (∀ h ∈ s.sheaves, h.tag = k.tag → ∀ x ∈ h.threads, x.exited = true) → k.pre = none →
    s.stookBusy k = false →
    ∃ t, exec (.stookComplete k.tag) s = .next t ∧ t.stook k.tag = none ∧ (∀ h ∈ t.sheaves, h.tag ≠ k.tag) ∧
      (∀ tag i, tag ≠ k.tag → t.sheaf tag i = s.sheaf tag i) ∧
      (k.kind = .root → ∀ j, t.job k.job = some j → j.root = .exited)) ∧
  (∀ s (d : Deferred) b k c f g ws, s.deferred.filter (fun x => x.core == d.core && x.slot == d.slot) = [d] →
    d.instr = .ldblk c f → s.deferReady d = true → s.slot d.core d.slot = some b → b.hold = false → b.pos + 1 < b.count →
    (∃ x ∈ b.parts, x.lanes ≠ 0) → s.stook d.tag = some k → d.words = [(0, ws)] → d.gone = [] → ws.length = 16 →
    let pl := mfield f.mod 5 3
    let blk := keepPlanes pl (leBytes 64 (leNat (wordBytes ws)))
    s.blockFmt blk = some (some g) → (mbit f.mod 8 = true → g.width = 4) → (pl ≠ 0 → g.planar = true) →
    let elem (l n : Nat) : Nat :=
      let i := 2 * l + n + if mbit f.mod 8 then 60 else 0
      if i < g.count then (encodeF fp32 (g.elem blk i) .rne).1 else 0
    ∃ t at', exec (.preciseChecksDecided d.core d.slot) s = .next t ∧
      t.slot d.core d.slot = some { b with deferred := false, pos := b.pos + 1, nextAt := at' } ∧
      t.results = s.results ++ [⟨s.nextId, d.op, d.tag, d.sheaf,
        ((lanesOf d.active).filter (· < 30)).flatMap fun l =>
          (List.range 2).map fun n => (f.d.num + n, some l, BitVec.ofNat 32 (elem l n))⟩] ∧
      ∀ x ∈ t.deferred, ¬ (x.core = d.core ∧ x.slot = d.slot))

/-! ## The matrix engine's work -/

/-- The matrix engine (R163, R165, R170, R172 to R175): a pass serves the eligible entry of highest priority, first
posted first; a `LOAD` pass fills rows of its tile from memory, 16 in a pass by the model's reading (DEDUCED, log entry
59: R163 speaks of segments, and R174 gives no figure); a multiplication's pass takes up to 16 segments and changes no
memory and no other tile; each segment adds to every word the exact sum of its row's and its column's products, rounded
to FP32 and added with one more rounding, or clamped to INT32, and the status word collects the flags (that an invalid
product raises NV is the model's reading, DEDUCED, log entry 56); a finished command without a counter leaves the table
and advances its crib; a finished drain delivers the tile's status word and clears the tile where it is asked to, that of
a collective drain which contributed nothing too by the model's reading (DEDUCED, log entry 134). -/
def Obligations.MatrixWorks : Prop :=
  (∀ s (e : MxEntry) k c, s.stook e.tag = some k → (∀ r ∈ s.ranges, r.owner = k.job → r.peer = none) → e ∈ s.mxTable → e.left = true → s.eligible e = true →
    (∀ x ∈ s.mxTable, x.die = e.die → x.bay = e.bay → x.left = true → s.eligible x = true → x ≠ e →
      x.prio < e.prio ∨ (x.prio = e.prio ∧ e.seq < x.seq)) → (s.mxTable.map (·.seq)).Nodup → e.work = .command c →
    (s.bayCtr e.die e.bay).busyTo ≤ s.cycles e.die →
    let tile (t : State) (n : Nat) : Word := ((t.tile e.tag c.tile).dense[n]?).getD 0
    let status (s : State) : Word := (s.tile e.tag c.tile).status
    (c.load = true → ∀ rows : Nat → List Byte,
      (∀ i, i < 16 → s.mxBytes k c.sideA (c.sideA.at (e.next + i)) 512 = .ok (rows i) ∧ (rows i).length = 512) →
      e.next + 16 ≤ 128 →
      ∃ t e', exec (.enginePass e.die e.bay) s = .next t ∧ t.mxTable.find? (·.seq == e.seq) = some e' ∧
        e'.next = e.next + 16 ∧ e'.stopped = false ∧
        (∀ i n, i < 16 → n < 128 → tile t (128 * (e.next + i) + n) =
          BitVec.ofNat 32 (leNat (((rows i).drop (4 * n)).take 4))) ∧
        (∀ n, n < 128 * e.next ∨ 128 * (e.next + 16) ≤ n → tile t n = tile s n) ∧
        status t = (if e.next = 0 then 0 else status s) ∧ t.mem = s.mem) ∧
    (c.load = false →
      ∃ t e', exec (.enginePass e.die e.bay) s = .next t ∧ t.mxTable.find? (·.seq == e.seq) = some e' ∧
        e'.next = min (e.next + 16) c.segments ∧ t.mem = s.mem ∧ t.l3 = s.l3 ∧
        s.cycles e.die ≤ e'.endsAt ∧ (t.bayCtr e.die e.bay).busyTo = e'.endsAt ∧
        (∀ tag n, ¬ (tag = e.tag ∧ n = c.tile) → t.tile tag n = s.tile tag n) ∧
        (e'.stopped = true → ∃ k', t.stook e.tag = some k' ∧ k'.mxErr.isSome = true)) ∧
    (c.load = false → ∀ as bs : Nat → Nat → MxBlock,
      let ea := mxCount c.ea
      let eb := mxCount c.eb
      let at' (i : Nat) : Nat := (e.next + i) * c.segLen
      let n := min (e.next + 16) c.segments - e.next
      let fresh := c.zero && e.next == 0
      (∀ i m, i < n → m < 128 →
        s.mxBlock k c c.sideA ea (c.sideA.at m + 64 * (at' i / ea)) (c.sideA.pl != 0 && at' i / ea + 1 == c.nblk) =
          .ok (as i m) ∧
        s.mxBlock k c c.sideB eb (c.sideB.at m + 64 * (at' i / eb)) (c.sideB.pl != 0 && at' i / eb + 1 == c.blocksB) =
          .ok (bs i m)) →
      ∃ t e', ∃ C F : Nat → Nat → Word, exec (.enginePass e.die e.bay) s = .next t ∧
        t.mxTable.find? (·.seq == e.seq) = some e' ∧ e'.next = e.next + n ∧ e'.stopped = false ∧
        (∀ x, x < 16384 → C 0 x = (if fresh then 0 else tile s x) ∧ tile t x = C n x) ∧
        (∀ i m j, i < n → m < 128 → j < 128 →
          SegmentAdds c.iacc (MxBlock.values (as i m) (at' i % ea) c.segLen) (MxBlock.values (bs i j) (at' i % eb) c.segLen)
            (MxBlock.scale (as i m) + MxBlock.scale (bs i j) - 254) (C i (128 * m + j)) (C (i + 1) (128 * m + j))
            (F i (128 * m + j))) ∧
        ∀ b, (status t).getLsbD b = true ↔ (fresh = false ∧ (status s).getLsbD b = true) ∨
          ∃ i x, i < n ∧ x < 16384 ∧ (F i x).getLsbD b = true)) ∧
  (∀ s die bay, s.cycles die < (s.bayCtr die bay).busyTo → exec (.enginePass die bay) s = .next s) ∧
  (∀ s die bay, (∀ e ∈ s.mxTable, e.die = die → e.bay = bay → e.left = true ∨
      ∀ c, e.work = .command c → c.load = false ∧ s.cycles die < e.endsAt + 16) →
    exec (.matrixCommandComplete die bay) s = .next s) ∧
  (∀ s die bay (e : MxEntry) c, s.mxFirst die bay (fun x => !x.left && match x.work with
        | .command c => c.load || decide (x.endsAt + 16 ≤ s.cycles x.die)
        | _ => false) = some e → e.work = .command c → c.cntr = 0 → (s.mxTable.map (·.seq)).Nodup →
    ∃ t, exec (.matrixCommandComplete die bay) s = .next t ∧ t.mxTable = s.mxTable.filter (·.seq != e.seq) ∧
      ∀ k, s.stook e.tag = some k → ∃ k', t.stook e.tag = some k' ∧ k'.cribUps.map (fun u => (u.crib, u.kind)) =
        k.cribUps.map (fun u => (u.crib, u.kind)) ++ if c.cribEn then [(c.crib, .arrive 1)] else []) ∧
  (∀ s die bay (e : MxEntry) d dest core, s.mxFirst die bay (fun x => !x.left && !(s.fabReqs.any (·.kind == .drain x.seq)) &&
      match x.work with | .command _ => false | _ => true) = some e → e.work = .drain d dest core →
    ∃ t, exec (.drainComplete die bay) s = .next t ∧ t.mxTable = s.mxTable.filter (·.seq != e.seq) ∧
      t.results = s.results ++ [⟨s.nextId, e.op, e.tag, e.sheaf,
        if dest = 1023 then [] else [(dest, none, (s.tile e.tag d.tile).status)]⟩] ∧
      (d.clr = true → (t.tile e.tag d.tile).words = [] ∧ (t.tile e.tag d.tile).status = 0) ∧
      (d.clr = false → t.tiles = s.tiles))

/-! ## Caches, ports and moves -/

/-- What caches and memory ports do in their own slots (R27, R82, R83, R84, R101, R102, R193, R251, R253): a copy leaving
an L1 or L2 by replacement carries exactly its dirty bytes on; a slide or re-place copies the stored bytes of the line at
the frontier and moves the frontier on; a request to the home of a line in transit waits; a finished move installs the
target; an uncorrectable line found by scrubbing enters the loss list, with the lines of its row that it leaves without
recovery; a channel retrains; refuted versions are freed; telemetry changes nothing. That a re-place copies what memory
holds and leaves the lines of home slices as they are (log entry 79), that a share's size counts whole granules (140),
and which lines of a row have no recovery, the parity lines being derived (49), are the model's readings (DEDUCED); that
tables and loss lists lie in a memory of their own is its choice (DESIGN CHOICE, log entry 9). -/
def Obligations.MemoryPorts : Prop :=
  (∀ s unit rng line,
    let here (x : CacheLine) : Bool := x.unit == unit && x.rng == rng && x.line == line
    (∃ t, exec (.phReplacementWriteback false unit rng line) s = .next t ∧ t.l1 = s.l1.filter (fun x => !here x) ∧
      ((∀ x ∈ s.l1, here x = true → x.dirty = 0) → t = { s with l1 := t.l1 }) ∧
      ((∀ x ∈ s.l1, s.l2Off x.fn = false) → t = { s with l1 := t.l1, l2 := t.l2 }) ∧
      ∀ c e, s.l1.filter here = [c] → s.entAt rng line = some e → c.dirty ≠ 0 →
        s.l2Off c.fn = false →
        ∃ x ∈ t.l2, (x.unit, x.job, x.rng, x.line, x.key) = (unit / 64, e.owner, e.idx, line, c.key) ∧
          ∀ j, j < 64 → c.dirty.getLsbD j = true → x.dirty.getLsbD j = true ∧
            (c.bytes.length = 64 → x.bytes.length = 64 → x.bytes[j]? = c.bytes[j]?)) ∧
    (∃ t, exec (.phReplacementWriteback true unit rng line) s = .next t ∧ t.l2 = s.l2.filter (fun x => !here x) ∧
      ∀ c e, s.l2.filter here = [c] → s.entAt rng line = some e → e.peer = none → e.key = c.key → line % 64 = 0 →
        (∀ v ∈ s.versions, v.rng ≠ rng) →
        c.bytes.length = 64 → (∀ l ∈ s.l3, l.bytes.length = 64) → ∀ j, j < 64 → t.homeRead e (line + j) 1 .untagged =
          if c.dirty.getLsbD j then (c.bytes[j]?).toList else s.homeRead e (line + j) 1 .untagged)) ∧
  (∀ s rng share e h, s.range rng = some e → e.place.shares[share]? = some h → h.sliding = true →
    s.inPortSlot (portOf e.place.tier h.ch) 0 16 = true → Memory.wf s.mem = true →
    let ch := portOf e.place.tier h.ch * 2 ^ 48
    let size := e.place.shareSize share (toLines e.limit)
    (h.sfront + 64 < size →
      ∃ t e', exec (.slideLine rng share) s = .next t ∧
        Memory.getN t.mem (ch + h.nbase + h.sfront) 64 = Memory.getN s.mem (ch + h.pbase + h.sfront) 64 ∧
        (∀ a, a < ch + h.nbase + h.sfront ∨ ch + h.nbase + h.sfront + 64 ≤ a → t.mem.get a = s.mem.get a) ∧
        t.range rng = some e' ∧ e'.move = e.move ∧ e'.place.shares[share]? = some { h with sfront := h.sfront + 64 } ∧
        t.devMem = Memory.setN s.devMem e'.place.table (e'.place.shares.flatMap Share.bytes) ∧
        t = { s with mem := t.mem, seals := t.seals, ranges := t.ranges, devMem := t.devMem }) ∧
    (size ≤ h.sfront + 64 →
      ∃ t e', exec (.slideLine rng share) s = .next t ∧ t.range rng = some e' ∧
        e'.place.shares[share]? = some { h with pbase := h.nbase, sliding := false, nbase := 0, sfront := toLines size } ∧
        (h.sfront < size →
          Memory.getN t.mem (ch + h.nbase + h.sfront) 64 = Memory.getN s.mem (ch + h.pbase + h.sfront) 64) ∧
        (∀ a, size ≤ h.sfront ∨ a < ch + h.nbase + h.sfront ∨ ch + h.nbase + h.sfront + 64 ≤ a →
          t.mem.get a = s.mem.get a) ∧
        t = { s with mem := t.mem, seals := t.seals, ranges := t.ranges, devMem := t.devMem })) ∧
  (∀ s rng e p, s.range rng = some e → e.move.target = some p → e.front < toLines e.limit → e.lost e.front = false →
    let source := (e.sourcePorts e.front).all (s.inPortSlot · 0 16)
    let target := s.inPortSlot (portOf p.tier (p.channel e.front)) 0 16
    let near : Prop := ∀ x ∈ e.sourcePorts e.front, (if 256 ≤ x then x - 256 else x / 64) = p.baseDie e.front
    (e.transit = 0 → ¬ near → source = true → s.roomIn e p e.front = true →
      ∃ t, exec (.replaceLine rng) s = .next t ∧ t.range rng = some { e with transit := 1 } ∧ t = { s with ranges := t.ranges }) ∧
    (e.transit = 1 → inGleanerSlot s.now = true →
      ∃ t, exec (.replaceLine rng) s = .next t ∧ t.range rng = some { e with transit := 2 } ∧ t = { s with ranges := t.ranges }) ∧
    (e.transit ≠ 0 → ∀ (r : Req) o, r.place = .range e o → r.home = true → o < e.front + 64 → e.front < o + r.width →
      s.canRun r = false) ∧
    ((e.transit = 0 ∧ near ∧ source = true) ∨ e.transit = 2 → target = true →
      s.slicesAgree e (e.place.home e.front) (p.home e.front) = true → s.roomIn e p e.front = true →
      Memory.wf s.mem = true → ({ e with front := e.front + 64 } : RangeEnt).deadAt e.front = false →
      ∃ t, exec (.replaceLine rng) s = .next t ∧
        Memory.getN t.mem (p.address e.front) 64 = Memory.getN s.mem (e.place.address e.front) 64 ∧
        t.range rng = some { e with front := e.front + 64, transit := 0 } ∧ (∀ v ∈ t.versions, v ∈ s.versions) ∧
        (∀ v ∈ s.versions, v ∉ t.versions → ∃ slice, s.reclaimable slice v = true) ∧
        t = { s with mem := t.mem, seals := t.seals, ranges := t.ranges, versions := t.versions })) ∧
  (∀ s rng e p, s.range rng = some e → e.move.target = some p → toLines e.limit ≤ e.front → e.lostCh = [] →
    s.inFlight (fun x => x.idx == rng && x.place != p) s.nextId = false →
    ∃ t, exec (.moveEnd rng) s = .next t ∧
      t.range rng = some { e with place := p, move := .none, front := 0, transit := 0 } ∧
      t.devMem = Memory.setN s.devMem p.table (p.shares.flatMap Share.bytes) ∧
      t = { s with ranges := t.ranges, devMem := t.devMem }) ∧
  (∀ s rng line ue e, s.range rng = some e → s.inPortSlot (portOf (e.tierOf line) ((e.placeOf line).channel line)) 24 28 = true →
    line % 64 = 0 → line < toLines e.limit → e.peer = none → (∀ x ∈ e.losses, x.line ≠ line) →
    ∃ t e', exec (.scrubbing rng line ue) s = .next t ∧ t.range rng = some e' ∧
      e' = (if ue then { e with losses := e.losses ++ ⟨1, line⟩ :: (e.alsoLost line).map (⟨2, ·⟩),
                                lossCount := e.lossCount + ((e.alsoLost line).length + 1) } else e) ∧
      t = { s with ranges := t.ranges, devMem := t.devMem } ∧ (ue = false ∨ e.lossVa = 0 → t.devMem = s.devMem)) ∧
  (∀ s ch, 3456 ≤ s.now / 2 % 4096 → s.retrains ch = true →
    ∃ t, exec (.hbmRetraining ch) s = .next t ∧
      t = { s with retrained := (ch, s.now / 8192) :: s.retrained.filter (·.1 != ch) }) ∧
  (∀ s, exec .telemetry s = .next s) ∧
  (∀ s slice, s.inPortSlot slice 16 24 = true → ∃ t, exec (.arborMergeReclaim slice) s = .next t ∧
    (∀ v, v ∈ t.versions ↔ v ∈ s.versions ∧ ∀ a e, s.arborAt v.arbor = some a → s.entAt v.rng v.line = some e →
      e.home v.line = slice → a.stateAt slice v.path ≠ .refuted) ∧ t = { s with versions := t.versions })

/-! ## The arbor's events -/

/-- The arbor (R183, R187, R192 to R195), where no earlier request blocks it: `HYPOPEN` opens the child, and answers its
path and a true predicate, where its parent is open or the frontier and above depth 7, and the child is new and the table
not full; else zero and false. A resolve of an open node commits the open chain down to it and refutes the open nodes off
the chain, or refutes its open subtree, with status 1; a slice applies the one under way in its slot; when all 256 have, its
status is on its way, and with no open node and nothing under way the flatten starts. A flatten folds committed bytes into
base, and at its end the table is empty. A freed arbor is gone with its versions. -/
def Obligations.ArborServes : Prop :=
  (∀ s (a : Arbor) (x : Ask) rest dest pred parent n o, s.arborAt a.id = some a → a.queue = .ask x :: rest →
    x.kind = .hypOpen dest pred parent n → x.hold = none → a.flatten = false → a.freeing = false →
    (∀ q ∈ rest, ∀ y, q = .ask y → y.hold = none) → s.ops.find? (·.id == x.op) = some o →
    let child := pathChild parent n
    let opens : Prop := (a.state parent = .isOpen ∨ parent = a.prefixP) ∧ pathDepth parent < 7 ∧
      (∀ m ∈ a.nodes, m.path ≠ child) ∧ a.nodes.length < 1023
    let answer (p ok : Word) : List (Nat × Option Nat × Word) :=
      (dest, none, p) :: if pred = 647 then [] else (lanesOf x.act).map fun l => (pred, some l, ok)
    ∃ t, exec (.hypopenService a.id) s = .next t ∧
      (opens → t.arborAt a.id = some { a with queue := rest, nodes := a.nodes ++ [⟨child, .isOpen⟩] } ∧
        t.results = s.results ++ [⟨s.nextId, x.op, o.tag, o.sheaf, answer child 1⟩]) ∧
      (¬ opens → t.arborAt a.id = some { a with queue := rest } ∧
        t.results = s.results ++ [⟨s.nextId, x.op, o.tag, o.sheaf, answer 0 0⟩]) ∧
      t = { s with arbors := t.arbors, results := t.results, nextId := s.nextId + 1 }) ∧
  (∀ s (a : Arbor) (x : Ask) rest dest g confirm h, s.arborAt a.id = some a → a.queue = .ask x :: rest →
    x.kind = .resolve confirm dest g → x.hold = none → a.flatten = false → a.freeing = false →
    (∀ q ∈ rest, ∀ y, q = .ask y → y.hold = none) → s.sheaf x.tag x.sheaf = some h → a.state g = .isOpen →
    s.met x.dep = true → s.undrained h.core a.job x.dep.upto = false → s.fabPending x.tag x.sheaf x.act x.dep.upto = false →
    ∃ t a', exec (.resolveService a.id) s = .next t ∧ t.arborAt a.id = some a' ∧ a'.queue = rest ∧
      a'.prefixP = (if confirm then g else a.prefixP) ∧ a'.nodes.map Node.path = a.nodes.map Node.path ∧
      (∀ (i : Nat) (m m' : Node), a.nodes[i]? = some m → a'.nodes[i]? = some m' → (a.nodes.map (·.path)).Nodup →
        m'.state = if m.state ≠ .isOpen then m.state
          else if confirm then (if isAncestor m.path g then .committed
            else if isAncestor g m.path then .isOpen else .refuted)
          else if isAncestor g m.path then .refuted else .isOpen) ∧
      (∃ r, a'.inflight = a.inflight ++ [r] ∧ r.seq = a.nextSeq ∧ r.applied = [] ∧ r.status = 1 ∧ r.dest = dest) ∧
      t.l1Clean h.core a.job) ∧
  (∀ s (a : Arbor) r seq slice, s.arborAt a.id = some a → inResolveSlot s.now = true → slice < 256 →
    a.inflight = [r] → r.seq = seq → r.applied.contains slice = false →
    ∃ t, exec (.resolveApply a.id seq slice) s = .next t ∧
      t.arborAt a.id = some { a with inflight := [{ r with applied := slice :: r.applied }] }) ∧
  (∀ s (a : Arbor) r o, s.arborAt a.id = some a → a.inflight = [r] → (∀ i, i < 256 → r.applied.contains i = true) →
    r.freeing = false → s.ops.find? (·.id == r.op) = some o → r.refutes = [] → (∀ q ∈ a.queue, q.opens = false) →
    ∃ t, exec (.resolveComplete a.id r.seq) s = .next t ∧
      t.results = s.results ++ [⟨s.nextId, r.op, o.tag, o.sheaf,
        if r.dest = 1023 then [] else [(r.dest, none, BitVec.ofNat 32 r.status)]⟩] ∧
      t.arborAt a.id = some { a with inflight := [], flatten := a.flatten || a.nodes.all fun m => m.state != .isOpen }) ∧
  (∀ s (a : Arbor) e rng line, s.arborAt a.id = some a → s.entAt rng line = some e → a.flatten = true →
    s.arbor e.owner = some a → s.inPortSlot (e.home line % 256) 16 24 = true → line % 64 = 0 →
    a.inflight = [] →
    (∀ v ∈ s.versions, v.arbor = a.id → v.rng = rng → v.line = line → v.key = e.key ∧ pathDepth v.path ≠ 0) →
    (∀ l ∈ s.l3, l.bytes.length = 64) →
    ∃ t, exec (.flattenFold a.id rng line) s = .next t ∧
      (∀ v ∈ t.versions, ¬ (v.arbor = a.id ∧ v.rng = rng ∧ v.line = line)) ∧
      t.viewLine e line .untagged = s.viewLine e line .untagged) ∧
  (∀ s (a : Arbor), s.arborAt a.id = some a → a.flatten = true → a.inflight = [] → (∀ v ∈ s.versions, v.arbor ≠ a.id) →
    ∃ t, exec (.flattenEnd a.id) s = .next t ∧
      t.arborAt a.id = some { a with nodes := [], prefixP := 0, flatten := false } ∧
      ∀ h ∈ s.sheaves, ∀ k, s.stook h.tag = some k → k.job = a.job → ∀ x ∈ h.threads, x.orphan = false → x.hyp ≠ 0 →
        a.state x.hyp = .committed → ∃ h' ∈ t.sheaves, h'.tag = h.tag ∧ h'.index = h.index ∧
          { x with hyp := 0 } ∈ h'.threads) ∧
  (∀ s (a : Arbor) (r : Req) p, s.arborAt a.id = some a → a.flatten = true → a.inflight = [] →
    (∀ v ∈ s.versions, v.arbor ≠ a.id) → r ∈ s.reqs → r.job = a.job → r.who = .tagged p →
    ∃ t, exec (.flattenEnd a.id) s = .next t ∧
      { r with who := if a.state p = .committed then .untagged else .orphan p } ∈ t.reqs) ∧
  (∀ s (a : Arbor) fn, s.arborAt a.id = some a → a.freeing = true → a.flatten = false → a.inflight = [] → a.queue = [] →
    a.freeFn = some fn → (s.func fn).busy = .freeing a.job →
    ∃ t, exec (.arborFreeComplete a.id) s = .next t ∧ t.arborAt a.id = none ∧ (∀ v ∈ t.versions, v.arbor ≠ a.id) ∧
      (t.func fn).busy = .idle ∧ (t.func fn).status = 0)

/-! ## Messages -/

/-- Messages (R198 to R201, R204, R206, R207, R211, R213, R214, R302, R333), the first of their place and from this
package: a write packet that its target accepts changes exactly its bytes and is acknowledged; a read request is answered
with the bytes, an atomic request with the old value; a read response lands its bytes, an atomic response its old value
in the registers, an acknowledgement takes its packet off its request; an error marks the slot of a read failed, first
failure first; an active message that finds its handler is accepted and acknowledged, and waits for its stook; a
contribution is taken in under its participant's next use, counted by the root word of its collective (the model's
reading, DEDUCED, log entry 50: R210 and R211 name a collective by its descriptor). A message that is consumed is gone.
-/
def Obligations.MessagesAct : Prop :=
  ∀ s (m : Msg), s.msgAt m.id = some m → Numbered s → m.srcPkg = s.pkg → s.firstOf m = true →
    (s.ranges.map (·.idx)).Nodup → (∀ l ∈ s.l3, l.bytes.length = 64) →
    let gone (t : State) : Prop := ∀ x ∈ t.msgs, x.id ≠ m.id
    let answered (t : State) (k : MsgKind) : Prop := gone t ∧ ∃ a ∈ t.msgs, a.id = s.nextId ∧ a.kind = k ∧ a.job = m.job ∧
      a.dstPkg = s.pkg ∧ a.srcEp = m.dstEp ∧ a.dstEp = m.srcEp ∧ a.req = m.req ∧ a.piece = m.piece
    let wrote (t : State) (e : RangeEnt) (o : Nat) (bs : List Byte) : Prop := ∀ x ∈ s.ranges, ∀ a,
      t.homeRead x a 1 .untagged =
        if x.idx = e.idx ∧ o ≤ a ∧ a < o + bs.length then (bs[a - o]?).toList else s.homeRead x a 1 .untagged
    let pieceDone (t : State) (f : FabReq) : Prop := ∀ x ∈ t.fabReqs, x.id = f.id → m.piece ∉ x.left
    let unversioned (e : RangeEnt) : Prop := ∀ v ∈ s.versions, v.rng ≠ e.idx
    m.dstPkg = s.pkg →
    (∀ w bs e, m.kind = .write w bs → w.reserved = false → w.kind = 0 →
      s.targetCheck m.job s.pkg w.range w.toff.toNat bs.length 1 rightW = .ok e → unversioned e → bs ≠ [] →
      ∃ t, exec (.writePacket m.id) s = .next t ∧ wrote t e w.toff.toNat bs ∧ answered t .ack) ∧
    (∀ w n e, m.kind = .readReq w n → w.kind = 0 →
      s.targetCheck m.job s.pkg w.range w.toff.toNat n 1 rightR = .ok e →
      ∃ t, exec (.readRequest m.id) s = .next t ∧ answered t (.readResp (s.homeReadN e w.toff.toNat n)) ∧
        t.mem = s.mem ∧ t.l3 = s.l3) ∧
    (∀ w op n x cmp e, m.kind = .atomicReq w op n x cmp → w.kind = 0 → s.accepts 5 = true → (n = 4 ∨ n = 8) →
      s.targetCheck m.job s.pkg w.range w.toff.toNat n n (rightR ||| rightW ||| rightA) = .ok e → unversioned e →
      let old := leNat (s.homeReadN e w.toff.toNat n)
      ∃ t new, exec (.atomicRequest m.id) s = .next t ∧ answered t (.atomicResp old) ∧ RmwGives op n old x cmp new ∧
        wrote t e w.toff.toNat (leBytes n new)) ∧
    (∀ f bs src dest len pos e, m.kind = .readResp bs → s.fabReqs.find? (·.id == m.req) = some f →
      f.kind = .get src dest len → s.stillReads f src dest len = false →
      ((cut256 src.off len)[m.piece]?).map (·.1) = some pos → dest.kind = 0 → dest.reserved = false →
      s.targetCheck m.job s.pkg dest.range (dest.plus pos).toff.toNat bs.length 1 rightW = .ok e → unversioned e → bs ≠ [] →
      ∃ t, exec (.readResponse m.id) s = .next t ∧ gone t ∧ wrote t e (dest.plus pos).toff.toNat bs ∧ pieceDone t f) ∧
    (∀ f d n scope h old, m.kind = .atomicResp old → s.fabReqs.find? (·.id == m.req) = some f →
      (∃ w, f.kind = .ratom d n false scope w) → s.sheaf f.tag f.sheaf = some h → h.shaped = true → 256 ≤ d → d + n ≤ 640 →
      (∀ x j, h.threads[0]? = some x → j < n → (x.pending? (d + j)).map Pend.cover = some (.op f.op)) →
      ∃ t h', exec (.atomicResponse m.id) s = .next t ∧ gone t ∧ pieceDone t f ∧ t.sheaf f.tag f.sheaf = some h' ∧
        (∀ j l, j < n → l < 32 → h'.raw l (d + j) = BitVec.ofNat 32 (old / 2 ^ (32 * j))) ∧
        ∀ l r, (r < d ∨ d + n ≤ r) → h'.raw l r = h.raw l r) ∧
    (∀ f, m.kind = .ack → s.fabReqs.find? (·.id == m.req) = some f → (f.kind = .put ∨ f.kind = .amsg ∨ f.kind = .coll) →
      ∃ t, exec (.acknowledgement m.id) s = .next t ∧ gone t ∧ pieceDone t f ∧
        t.ops = (if f.left.contains m.piece then s.opPart f.op else s).ops ∧ t.mem = s.mem) ∧
    (∀ f src dest len o h cause reason plane, m.kind = .error cause reason plane →
      s.fabReqs.find? (·.id == m.req) = some f → f.kind = .get src dest len → s.ops.find? (·.id == f.op) = some o →
      o.slot ≤ 5 → s.sheaf o.tag o.sheaf = some h → (∀ x ∈ h.failed, x.slot ≠ o.slot) →
      ∃ t h', exec (.errorResponse m.id) s = .next t ∧ gone t ∧ pieceDone t f ∧ t.sheaf o.tag o.sheaf = some h' ∧
        h' = { h with failed := h.failed ++
          [⟨o.slot, cause, BitVec.ofNat 64 (reason + s.pkg * 2 ^ 8 + plane * 2 ^ 20)⟩] }) ∧
    (∀ w n args kh, m.kind = .active w n args → m.accepted = false → s.accepts 6 = true → (∀ e ∈ s.ranges, e.peer = none) →
      s.handlerHeader m.job n = .ok kh →
      ∃ t, exec (.activeMessage m.id) s = .next t ∧ t.msgAt m.id = some { m with accepted := true } ∧
        ∃ a ∈ t.msgs, a.id = s.nextId ∧ a.kind = .ack ∧ a.dstEp = m.srcEp ∧ a.req = m.req) ∧
    (∀ c va bay chunk pkt part ws f, m.kind = .contribution c va bay chunk pkt part ws → m.accepted = false →
      s.accepts 8 = true → c.opr ≠ 3 → (∀ e ∈ s.ranges, e.peer = none) → c.root.pkg = s.pkg → s.fabReqs.find? (·.id == m.req) = some f →
      s.leafOk m.job c va bay part = true → 1 < c.npart →
      (∀ x ∈ s.msgs, x.accepted = true → ∀ d u b i q r v, x.kind ≠ .contribution d u b i q r v) →
      ∃ t, exec (.contribution m.id) s = .next t ∧ pieceDone t f ∧
        t.msgAt m.id = some { m with accepted := true, use := s.usesOf m.job c.root chunk pkt part } ∧
        t.usesOf m.job c.root chunk pkt part = s.usesOf m.job c.root chunk pkt part + 1)

/-! ## Counting waves, links, ports and planes -/

/-- Counting waves and failures of the fabric (R202, R208, R214 to R217): in wave slots of sub-frames 0 to 5 a wave reads
and sums the three counts of every endpoint, twice; its verdict in sub-frame 6 is quiet when both passes agree and are
balanced, and releases every `WAITQUIET` that issued before the wave began, and whose lanes have no acquire outstanding
(R127), with the losses since the mark; a linked port holds its peer's word; an isolated port answers what was
outstanding through it with reason 0x31 and counts it lost; a dead plane's messages are consumed by proxy and counted
lost, and a wave whose two passes are not over straddles the repair and will report not quiet. That an active message
whose handler stook runs or is saved stays, and that one which is accepted and has no stook yet is lost, is the model's
reading (DEDUCED, log entry 55), and so are the endpoint at which a failed port's messages count (33), the time of a
job's last progress at a release (32) and the plane in `%fault` (53). Which waves straddle a repair, by the slots and the
depth of their passes, and the mark that the waits of one wave count from rest on its choice of a tree (DESIGN CHOICE,
log entry 118). -/
def Obligations.WavesAndLinks : Prop :=
  let at' (l : List Counts) (i : Nat) : Counts := (l[i]?).getD ⟨0, 0, 0⟩
  let two (a b : Counts) : Counts := ⟨a.inj + b.inj, a.cons + b.cons, a.lost + b.lost⟩
  let single (s : State) (j : Job) : Prop := (∀ q ∈ j.pkgs, q = s.pkg) ∧ j.depth = 0 ∧ j.older = [] ∧ j.peerWaits = false
  (∀ s j, s.job j.id = some j → single s j → s.now / 2 % 512 < 16 →
    let sf := s.now % 8192 / 1024
    (sf = 0 → s.waitsQuiet j.id ≠ [] → (∀ w, j.wave = some w → w.start / 8192 ≠ s.now / 8192 ∧ w.slot < w.slotAt s.now) →
      ∃ t w, exec (.countingWaveSlot j.id) s = .next t ∧ t.job j.id = some { j with wave := some w } ∧
        w.start = s.now ∧ w.slot = 1 ∧ w.broken = false ∧ (∀ i, i < 8 → w.die[i]? = some (at' j.counts i)) ∧
        t = { s with jobs := t.jobs }) ∧
    (∀ w, j.wave = some w → w.start / 8192 = s.now / 8192 → w.slot = sf → 1 ≤ sf → sf ≤ 5 → w.die.length = 8 →
      (2 ≤ sf → w.base.length = 4) → w.peers = [] →
      ∃ t w', exec (.countingWaveSlot j.id) s = .next t ∧ t.job j.id = some { j with wave := some w' } ∧
        w'.start = w.start ∧ w'.slot = sf + 1 ∧ w'.broken = w.broken ∧ w'.peers = [] ∧
        (sf = 1 ∨ sf = 4 → ∀ i, i < 4 → w'.base[i]? =
          some (two (at' j.counts (8 + i)) (two (at' w.die (2 * i)) (at' w.die (2 * i + 1))))) ∧
        (sf = 2 → w'.first = two (two (two (at' w.base 0) (at' w.base 1)) (at' w.base 2)) (at' w.base 3)) ∧
        (sf = 3 → ∀ i, i < 8 → w'.die[i]? = some (at' j.counts i)) ∧
        (sf = 5 → w'.second = two (two (two (at' w.base 0) (at' w.base 1)) (at' w.base 2)) (at' w.base 3)) ∧
        (sf ≠ 2 → w'.first = w.first) ∧ t = { s with jobs := t.jobs })) ∧
  (∀ s j w, s.job j.id = some j → single s j → j.wave = some w → s.now / 2 % 512 < 16 → s.now % 8192 / 1024 = 6 → w.slot = 6 →
    w.start / 8192 = s.now / 8192 →
    let quiet : Prop := w.broken = false ∧ w.first.inj = w.first.cons ∧ w.second.inj = w.first.inj ∧ w.second.cons = w.first.cons
    (¬ quiet → ∃ t, exec (.waveVerdict j.id) s = .next t ∧ t.job j.id = some { j with wave := none } ∧ t.holds = s.holds ∧
      t.sheaves = s.sheaves) ∧
    let ends (h : Hold) : Bool := s.acquired h.tag h.sheaf h.active h.id &&
      match h.kind with | .waitQuiet _ t0 => decide (t0 / 2 < w.start / 8192 * 4096) | _ => false
    let released := (s.waitsQuiet j.id).filter ends
    (quiet → released ≠ [] → j.markFrame ≠ some (w.start / 8192) → (s.holds.map (·.id)).Nodup →
      (∀ h ∈ released, ∀ d t0, h.kind = .waitQuiet d t0 → 256 ≤ d ∧ d < 640) →
      ∃ t, exec (.waveVerdict j.id) s = .next t ∧ (∀ h ∈ s.holds, h ∉ released → h ∈ t.holds) ∧
        t.job j.id = some { j with wave := none, lostMark := w.second.lost, markFrame := some (w.start / 8192),
                                   markWas := j.lostMark, lastRetire := s.now } ∧
        ∀ h ∈ released, Freed s t h ∧ t.l1Fresh h.core j.id ∧
          ∀ d t0 x, h.kind = .waitQuiet d t0 → s.sheaf h.tag h.sheaf = some x → x.shaped = true →
            ∃ y, t.sheaf h.tag h.sheaf = some y ∧
              ∀ l, l < 32 → y.raw l d = BitVec.ofNat 32 (min (w.second.lost - j.lostMark) 0xFFFFFFFF)) ∧
    (quiet → released = [] → ∃ t, exec (.waveVerdict j.id) s = .next t ∧ t.job j.id = some { j with wave := none } ∧
      t.holds = s.holds ∧ t.sheaves = s.sheaves)) ∧
  (∀ s port peer word, port < 16 → peer < 4096 → peer ≠ s.pkg →
    (∀ x, s.ports.find? (·.id == port) = some x → x.isolated = false) →
    ∃ t, exec (.linkUp port peer word) s = .next t ∧
      t.ports.find? (·.id == port) = some ⟨port, some (peer, word), false⟩ ∧
      (∀ p, p ≠ port → t.ports.find? (·.id == p) = s.ports.find? (·.id == p)) ∧ t = { s with ports := t.ports }) ∧
  (∀ s port, port < 16 →
    ∃ t x, exec (.portFailure port) s = .next t ∧ t.ports.find? (·.id == port) = some x ∧ x.isolated = true ∧
      t.outgoing = s.outgoing.filter (·.port != some port) ∧ (∀ m ∈ s.msgs, m ∈ t.msgs) ∧
      (∀ m ∈ s.outgoing, m.port = some port → m.kind.asks = true → ∃ a ∈ t.msgs, a.kind = .error 0x31 0x31 m.plane ∧
        a.job = m.job ∧ a.dstPkg = m.srcPkg ∧ a.dstEp = m.srcEp ∧ a.req = m.req ∧ a.piece = m.piece) ∧
      (∀ j, s.job j.id = some j → j.counts.length = 12 →
        let out := s.outgoing.filter fun m => m.port == some port && m.job == j.id
        let ep := 8 + port / 4
        ∃ j', t.job j.id = some j' ∧ at' j'.counts ep = ⟨(at' j.counts ep).inj + (out.filter (·.kind.asks)).length,
          (at' j.counts ep).cons + out.length, (at' j.counts ep).lost + out.length⟩) ∧
      t.mem = s.mem ∧ t.ranges = s.ranges ∧ t.sheaves = s.sheaves) ∧
  (∀ s plane, plane < 4 → s.deadPlanes.contains plane = false →
    let straddles (j : Job) (w : Wave) : Wave := if w.slot < 2 * (3 + j.depth) then { w with broken := true } else w
    let stays (m : Msg) : Bool := m.plane != plane || s.handled m
    ∃ t, exec (.planeDeath plane) s = .next t ∧ t.deadPlanes = plane :: s.deadPlanes ∧
      t.jobs.map (fun j => (j.id, j.wave, j.older)) =
        s.jobs.map (fun j => (j.id, j.wave.map (straddles j), j.older.map (straddles j))) ∧
      ((∀ m ∈ s.msgs ++ s.outgoing, m.plane = plane → ∀ f ∈ s.fabReqs, f.id ≠ m.req) →
        t.msgs = s.msgs.filter stays ∧ t.outgoing = s.outgoing.filter (·.plane != plane) ∧
        t.fabReqs = s.fabReqs ∧ t.sheaves = s.sheaves ∧
        ∀ j ep, s.job j.id = some j → j.counts.length = 12 → ep < 12 →
          let n := ((s.msgs.filter (!stays ·) ++ s.outgoing.filter fun m => m.plane == plane && m.kind.asks).filter fun m =>
            m.job == j.id && m.dstEp == ep).length
          ∃ j', t.job j.id = some j' ∧ (at' j'.counts ep).inj = (at' j.counts ep).inj ∧
            (at' j'.counts ep).cons = (at' j.counts ep).cons + n ∧
            (at' j'.counts ep).lost = (at' j.counts ep).lost + n) ∧
      (∀ m f src dest len o h, s.msgs.filter (·.plane == plane) = [m] → (∀ x ∈ s.outgoing, x.plane ≠ plane) →
        m.srcPkg = s.pkg → m.kind.asks = true → m.accepted = false → s.fabReqs.find? (·.id == m.req) = some f →
        f.kind = .get src dest len → s.ops.find? (·.id == f.op) = some o → o.slot ≤ 5 → s.sheaf o.tag o.sheaf = some h →
        (∀ x ∈ h.failed, x.slot ≠ o.slot) →
        (∀ x ∈ t.fabReqs, x.id = f.id → m.piece ∉ x.left) ∧
        t.sheaf o.tag o.sheaf = some { h with failed := h.failed ++
          [⟨o.slot, 0x32, BitVec.ofNat 64 (0x32 + m.dstPkg * 2 ^ 8 + plane * 2 ^ 20)⟩] }))

/-! ## The host's registers and windows -/

/-- The host port (R2, R5, R87, R88, R99, R242 to R244, R253): a window read that passes every check answers the
committed bytes and a write changes exactly its bytes; otherwise Unsupported Request or nothing, with one host error.
`FEATACC` is written once and reads as it stands; `HERRCNT` clears; registers take what is written to them; `RETRAIN`
takes a period of 1 to 1,024, which applies from the next frame, and ignores other values; an unknown command answers 2,
a busy function ignores every command and counts it. The MARG registers of a function number 8. That a window's offset
keeps its low six bits is the model's reading (DEDUCED, log entry 87: R87 calls it a multiple of 64). -/
def Obligations.HostRegisters : Prop :=
  (∀ s fn off n e j, fn ≤ 64 →
    let f := s.func fn
    let w := off / 2 ^ f.winsize
    let x := off % 2 ^ f.winsize
    let o := ((f.window w).w0.toNat % 2 ^ 48) + x
    let open' (need : BitVec 7) (write : Bool) : Prop :=
      w ≤ 255 ∧ (f.window w).w1.getLsbD 63 = true ∧ x + n ≤ 2 ^ f.winsize ∧ e.owner = j.id ∧ j.fn = fn ∧
      e.grants (rightH ||| need) = true ∧ o + n ≤ e.limit ∧ e.peer = none ∧ s.lineChecks e write o n 0 = none
    s.range ((f.window w).w1.toNat % 2 ^ 20) = some e → s.job ((f.window w).w1.toNat / 2 ^ 20 % 2 ^ 16) = some j →
    (∃ t, exec (.hostWindowRead fn off n) s = .next t ∧
      (open' rightR false → t = { s with hostReads := s.hostReads ++ [⟨fn, off, some (s.homeReadN e o n)⟩] }) ∧
      (¬ open' rightR false → t.hostReads = s.hostReads ++ [⟨fn, off, none⟩] ∧
        t.func fn = { f with herrcnt := (f.herrcnt + 1) % 2 ^ 32 } ∧ t = { s with hostReads := t.hostReads, funcs := t.funcs })) ∧
    ∀ bs : List Byte, bs.length = n →
      ∃ t, exec (.hostWindowWrite fn off bs) s = .next t ∧
        (¬ open' rightW true → t.func fn = { f with herrcnt := (f.herrcnt + 1) % 2 ^ 32 } ∧ s.onlyFuncs t) ∧
        (open' rightW true → (∀ v ∈ s.versions, v.rng ≠ e.idx) → (∀ l ∈ s.l3, l.bytes.length = 64) → (s.ranges.map (·.idx)).Nodup →
          ∀ y ∈ s.ranges, ∀ a, t.homeRead y a 1 .untagged =
            if y.idx = e.idx ∧ y.key = e.key ∧ o ≤ a ∧ a < o + n then (bs[a - o]?).toList
            else s.homeRead y a 1 .untagged)) ∧
  (∀ s fn v, exec (.feataccWrite fn v) s = .next (if fn = 0 ∧ s.featWritten = false then
      { s with featAcc := v &&& s.featDev, featWritten := true } else s)) ∧
  (∀ s fn, fn ≤ 64 → ∃ t, exec (.herrcntWrite fn) s = .next t ∧ t.func fn = { s.func fn with herrcnt := 0 } ∧
    (∀ g, g ≠ fn → t.func g = s.func g) ∧ s.onlyFuncs t) ∧
  (∀ s fn (v : DWord), fn ≤ 64 →
    (∀ i, i < 8 → (s.func fn).margs.length = 8 →
      ∃ t, exec (.registerWrite fn (0x080 + 8 * i) v) s = .next t ∧ (t.func fn).margs[i]? = some v ∧
        (∀ k, k ≠ i → (t.func fn).margs[k]? = (s.func fn).margs[k]?) ∧ s.onlyFuncs t) ∧
    (20 ≤ v.toNat % 32 → v.toNat % 32 ≤ 30 →
      ∃ t, exec (.registerWrite fn 0x010 v) s = .next t ∧ t.func fn = { s.func fn with winsize := v.toNat % 32 } ∧
        s.onlyFuncs t) ∧
    (∀ i, i < 256 →
      (∃ t, exec (.registerWrite fn (0x100 + 16 * i) v) s = .next t ∧
        (t.func fn).window i = ⟨i, v &&& 0x0000FFFFFFFFFFFF, ((s.func fn).window i).w1⟩ ∧ s.onlyFuncs t) ∧
      (∃ t, exec (.registerWrite fn (0x108 + 16 * i) v) s = .next t ∧
        (t.func fn).window i = ⟨i, ((s.func fn).window i).w0, v &&& 0x8000000FFFFFFFFF⟩ ∧ s.onlyFuncs t)) ∧
    ∃ t, exec (.registerWrite 0 (0x2000 + 8 * fn) v) s = .next t ∧
      t.func fn = { s.func fn with l2mask := BitVec.ofNat 16 v.toNat } ∧ s.onlyFuncs t) ∧
  (∀ s fn (v : DWord), let period := v.toNat % 2048
    (1 ≤ period → period ≤ 1024 →
      ∃ t, exec (.registerWrite 0 0x2408 v) s = .next t ∧ t.retrain = period ∧ t.period = s.period ∧
        (∀ n, (s.now + n) / 8192 ≠ s.now / 8192 → ({ t with now := s.now + n } : State).period = period) ∧
        t = { s with retrain := t.retrain, retrainWas := t.retrainWas, retrainAt := t.retrainAt }) ∧
    (period = 0 ∨ 1024 < period → exec (.registerWrite 0 0x2408 v) s = .next s) ∧
    (fn ≠ 0 → exec (.registerWrite fn 0x2408 v) s = .next s)) ∧
  (∀ s, agendumStep (.registerRead 0 0x2408) s =
    .next { s with regReads := s.regReads ++ [(0, 0x2408, BitVec.ofNat 64 s.retrain)] }) ∧
  (∀ s fn off, fn ≤ 64 → fn ≠ 0 → 0x2000 ≤ off → off ≤ 0x2408 →
    agendumStep (.registerRead fn off) s = .next { s with regReads := s.regReads ++ [(fn, off, 0)] }) ∧
  (∀ s fn, fn ≤ 64 →
    agendumStep (.registerRead fn 0x008) s = .next { s with regReads := s.regReads ++ [(fn, 0x008, s.featAcc)] }) ∧
  (∀ s (op : DWord) fn, fn ≤ 64 →
    (op.toNat ∉ [0x01, 0x02, 0x03, 0x10, 0x11, 0x12, 0x20, 0x21, 0x30, 0x31, 0x40, 0x41, 0x42, 0x50, 0x60] →
      ∃ t, exec (.mopUnknown fn op) s = .next t ∧ s.onlyFuncs t ∧
        (s.mayCommand fn → t.ended fn 2 0) ∧
        ((s.func fn).busy ≠ .idle → t.func fn = { s.func fn with herrcnt := ((s.func fn).herrcnt + 1) % 2 ^ 32 })) ∧
    ((s.func fn).busy ≠ .idle → ∀ i ∈ [Instr.createJob fn, .destroyJob fn, .deleteRange fn, .loadKey fn, .retireKey fn,
        .setWatchdogPeriod fn, .retireChannel fn, .attest fn, .preEmptStook fn],
      ∃ t, exec i s = .next t ∧ s.onlyFuncs t ∧
        t.func fn = { s.func fn with herrcnt := ((s.func fn).herrcnt + 1) % 2 ^ 32 }) ∧
    (s.mayCommand fn → fn ≠ 0 → ∀ i ∈ [Instr.createJob fn, .loadKey fn, .retireKey fn, .retireChannel fn],
      ∃ t, exec i s = .next t ∧ s.onlyFuncs t ∧ t.ended fn 3 0))

/-! ## Management -/

/-- Commands of jobs, keys, tables, arbors, stooks, channels and attestation (R104, R112, R168, R183, R206, R234, R235,
R238, R240, R243, R245, R247, R249, R252): each, given to a function that is not busy, for a job it may act on, with
arguments that pass its checks, has its effect and its status. That a command naming no job answers 2 and one naming
another function's job 3 is the model's reading (DEDUCED, log entry 36). So are these: a root stook has one sheaf on one
core (log entry 69), Attest needs no right (81), key 0 may be retired (82), and the limits of registered ranges (83). Its
choices are the job numbers in order (log entry 18), wrapped key material as it stands (5), the report as a function of
what it covers (6), status 0 of an attestation in the degraded state (114), and that an arbor is given without the
feature `ARBOR` too (125). That a key is retired only once no store buffer holds bytes under it (155), and that a job's
ranges go only after earlier changes of them (154), are its readings (DEDUCED). -/
def Obligations.ManagementCommands : Prop :=
  (∀ s fn, s.mayCommand fn → s.featDev = 0 → ∃ t, exec (.attest fn) s = .next t ∧ t.ended fn 0 0) ∧
  ∀ s fn, s.mayCommand fn → (s.ranges.map (·.idx)).Nodup → (∀ l ∈ s.l3, l.bytes.length = 64) →
    (∀ y ∈ s.peerBuf, y.who ≠ commandReader fn) → s.featDev ≠ 0 →
    let a (i : Nat) : Nat := argOf (s.func fn).margs i
    let own (i : Nat) (j : Job) : Prop := s.job (a i) = some j ∧ j.ownedBy fn
    let goes (op : Nat) : Prop := s.mustWait fn op s.nextId (s.func fn).margs = false
    let refused (t : State) (status : Nat) : Prop :=
      t.ended fn status 0 ∧ t = { s with funcs := t.funcs, nextId := t.nextId }
    (∀ i ∈ [Instr.destroyJob fn, .setWatchdogPeriod fn, .attest fn, .preEmptStook fn],
      (s.job (a 0) = none → ∃ t, exec i s = .next t ∧ refused t 2) ∧
      (∀ j, s.job (a 0) = some j → ¬ j.ownedBy fn → ∃ t, exec i s = .next t ∧ refused t 3)) ∧
    (fn = 0 → a 0 ≤ 64 → s.featAcc.getLsbD 0 = true → s.nextJob ≤ 65535 →
      ∃ t, exec (.createJob fn) s = .next t ∧ t.ended fn 0 s.nextJob ∧
        t.jobs = s.jobs ++ [{ Job.fresh s.nextJob (a 0) with lastRetire := s.now }] ∧
        t = { s with funcs := t.funcs, jobs := t.jobs, nextJob := s.nextJob + 1 }) ∧
    (∀ j, own 0 j → j.started = false → j.destroying = false → j.launches = [] → j.graphs = [] → j.root = .absent →
      s.arbor j.id = none → (∀ f ∈ s.fabReqs, f.job ≠ j.id) →
      s.evicted j.id →
      (∀ r ∈ s.reqs, r.job ≠ j.id) →
      (∀ e ∈ s.ranges, e.owner = j.id → e.move = .none ∧ s.rangeDrains e.idx = false ∧
        s.rangeAwaited fn e.idx s.nextId = false) →
      ∃ t, exec (.destroyJob fn) s = .next t ∧ t.ended fn 0 0 ∧ (∀ x ∈ t.jobs, x.id ≠ j.id) ∧
        t.ranges = s.ranges.filter (·.owner != j.id)) ∧
    (∀ j kh e o die bay tag, own 0 j → goes 0x03 → j.started = false → j.destroying = false →
      s.translate j.id (a 1) 64 8 (rightW ||| rightA) = .ok (e, o) → e.cls = .sh → (∀ v ∈ s.versions, v.rng ≠ e.idx) →
      (∀ x ∈ s.ranges, x.owner = j.id → x.peer = none) → s.lineChecks e true o 64 (a 1) = none →
      s.readHeader j.id (a 2) = some kh → s.headerRefused kh = false → a 3 % 32768 = 0 → a 3 + 32768 ≤ 2 ^ 57 →
      (∀ x ∈ s.ranges, x.owner = j.id → x.base + x.limit ≤ a 3 ∨ a 3 + 32768 ≤ x.base) →
      ∃ t j', exec (.startJob fn tag bay die) s = .next t ∧ t.ended fn 0 0 ∧ t.job j.id = some j' ∧
        (j'.started, j'.block, j'.rootVa, j'.rootKh, j'.aperture) = (true, a 1, a 2, some kh, a 3) ∧
        t.homeReadN e o 64 = List.replicate 64 0 ∧
        (∀ cores homes, j.ended = false → s.tagFree tag = true → s.placeOn die bay kh [kh.vregs] = some (cores, homes) →
          j'.root = .running ∧ ∃ k, t.stook tag = some k ∧ k.kind = .root ∧ k.job = j.id ∧ k.cores = cores)) ∧
    (∀ j va, fn = 0 → own 1 j → goes 0x20 → va = a 2 → 1 ≤ a 0 → a 0 ≤ 4095 →
      (∀ x, s.erasedAt = some x → x / 2 ≠ s.now / 2) →
      ∀ e o, s.translate j.id va 96 1 rightR = .ok (e, o) → e.peer = none → s.lineChecks e false o 96 va = none →
      ∃ t, exec (.loadKey fn) s = .next t ∧ t.ended fn 0 0 ∧ t.keyMat (a 0) = some (.wrapped (s.homeReadN e o 96)) ∧
        (∀ k, k ≠ a 0 → t.keyMat k = s.keyMat k) ∧
        t = { s with funcs := t.funcs, keys := t.keys, nextId := s.nextId + 1 }) ∧
    (fn = 0 → a 0 ≤ 4095 → (∃ r ∈ s.reqs, r.stores (a 0) = true) →
      (∀ r ∈ s.reqs, s.canRun r = false) →
      ∃ t, exec (.retireKey fn) s = .next t ∧ t.underWay fn (.waiting 0x21 s.nextId (s.func fn).margs) ∧
        t = { s with funcs := t.funcs, nextId := s.nextId + 1 }) ∧
    (fn = 0 → a 0 ≤ 4095 → (∀ r ∈ s.reqs, r.stores (a 0) = false) →
      ∃ t, exec (.retireKey fn) s = .next t ∧ t.ended fn 0 0 ∧ t.keyMat (a 0) = none ∧
        (∀ k, k ≠ a 0 → t.keyMat k = s.keyMat k) ∧ (∀ x ∈ t.l1, x.key ≠ a 0) ∧ (∀ x ∈ t.l2, x.key ≠ a 0) ∧
        (∀ x ∈ t.l3, x.key ≠ a 0) ∧ ∀ v ∈ t.versions, v.key ≠ a 0) ∧
    (∀ j e, own 0 j → s.range (a 2) = some e → e.owner = j.id → e.grants rightR = true → goes 0x30 →
      (a 1 = 0 → e.limit ≤ 4096 * 64 → ∃ t, exec (.registerTemplateRange fn) s = .next t ∧ t.ended fn 0 0 ∧
        t.job j.id = some { j with tmpl := some e.idx } ∧
        t = { s with funcs := t.funcs, jobs := t.jobs, nextId := s.nextId + 1 }) ∧
      (a 1 = 1 → e.limit ≤ 4096 * 16 → ∃ t, exec (.registerHandlerTable fn) s = .next t ∧ t.ended fn 0 0 ∧
        t.job j.id = some { j with handlers := some e.idx } ∧
        t = { s with funcs := t.funcs, jobs := t.jobs, nextId := s.nextId + 1 }) ∧
      (a 1 = 2 → e.limit ≤ 4096 * 64 → ∃ t, exec (.registerMatrixCommandRange fn) s = .next t ∧ t.ended fn 0 0 ∧
        t.job j.id = some { j with mxRange := some e.idx } ∧
        t = { s with funcs := t.funcs, jobs := t.jobs, nextId := s.nextId + 1 })) ∧
    (∀ j, own 0 j →
      (∀ n, a 1 = 0 → s.arbor j.id = none → n < 256 → (∀ x ∈ s.arbors, x.id ≠ n) →
        (∀ m, m < n → ∃ x ∈ s.arbors, x.id = m) →
        ∃ t x, exec (.giveArbor fn) s = .next t ∧ t.ended fn 0 n ∧ t.arbors = s.arbors ++ [x] ∧
          (x.id, x.job, x.nodes, x.prefixP, x.queue) = (n, j.id, [], 0, []) ∧
          t = { s with funcs := t.funcs, arbors := t.arbors }) ∧
      (∀ x, a 1 = 1 → s.arbor j.id = some x → s.arborAt x.id = some x → x.freeing = false → .free ∉ x.queue →
        ∃ t, exec (.freeArbor fn) s = .next t ∧ t.underWay fn (.freeing j.id) ∧
          t.arborAt x.id = some { x with queue := x.queue ++ [.free], freeFn := some fn } ∧
          t = { s with funcs := t.funcs, arbors := t.arbors })) ∧
    (∀ j k, own 0 j → s.stook k.tag = some k → (k.job, k.launch, k.index) = (j.id, a 1, a 2) → (∀ m, k.kind ≠ .handler m) →
      (∀ x ∈ s.stooks, (x.job, x.launch, x.index) = (j.id, a 1, a 2) → (∀ m, x.kind ≠ .handler m) → x = k) → k.pre = none →
      goes 0x40 → s.regionOk k (a 3) = true → (a 4 = 0 ∨ 10 ≤ a 4 ∧ a 4 ≤ 10000) →
      ∃ t k' p, exec (.preEmptStook fn) s = .next t ∧ t.underWay fn (.preempt k.tag) ∧ t.stook k.tag = some k' ∧
        k'.pre = some p ∧ p.region = a 3 ∧ p.deadline = s.now + 4000 * (if a 4 = 0 then 200 else a 4) ∧ p.fn = fn) ∧
    (∀ j x die bay tag, own 0 j → goes 0x41 → s.saved.filter (fun x => x.job == j.id && x.region == a 1) = [x] → x.kh.srest ≠ 0 →
      s.tagFree tag = true → (∀ h ∈ s.sheaves, h.tag ≠ tag) → (s.func fn).margs.length = 8 → tag < 2 ^ 64 →
      (∀ e ∈ s.ranges, e.owner = j.id → e.peer = none) → s.recordsReadable x = true →
      let vregs := (List.range x.nsheaf).map fun i =>
        leNat ((s.readVa j.id (x.kh.slotVa x.region i 0) 16 0).getD []) / 2 ^ 64 % 2 ^ 9
      ∀ cores homes, s.placeOn die bay x.kh vregs = some (cores, homes) →
        ∃ t k, exec (.restoreStook fn die bay tag) s = .next t ∧ t.underWay fn (.restore tag) ∧
          t.saved = s.saved.filter (· != x) ∧ t.stook tag = some k ∧
          (k.job, k.kind, k.launch, k.index) = (j.id, x.kind, x.launch, x.index) ∧ k.restore = some x.region ∧
          ∀ h ∈ t.sheaves, h.tag = tag → h.index = 0 → ∀ y ∈ h.threads,
            y.pc = x.kh.srest ∧ y.svarea = BitVec.ofNat 64 x.region ∧ y.rmode = true) ∧
    (∀ j, own 0 j → 1 ≤ a 1 → a 1 ≤ 1024 →
      ∃ t, exec (.setWatchdogPeriod fn) s = .next t ∧ t.ended fn 0 0 ∧
        t.job j.id = some { j with period := a 1 * 4000000 } ∧ t = { s with funcs := t.funcs, jobs := t.jobs }) ∧
    (fn = 0 → a 0 ≤ 255 → goes 0x50 → ∃ t, exec (.retireChannel fn) s = .next t ∧ t.ended fn 0 0 ∧ a 0 ∈ t.retired ∧
      ∀ e ∈ s.ranges, e.move.target = none → (∀ h ∈ e.place.shares, h.ch ≠ a 0) → e ∈ t.ranges) ∧
    (∀ j e o e' o', own 0 j → goes 0x60 → s.translate j.id (a 1) 64 1 0 = .ok (e, o) → e.peer = none → s.lineChecks e false o 64 (a 1) = none →
      let report := Config.attestReport (s.firmware.map (·.digest)) s.arming s.featAcc (s.homeReadN e o 64)
      s.translate j.id (a 2) report.length 1 0 = .ok (e', o') → e'.peer = none →
      s.lineChecks e' true o' report.length (a 2) = none →
      ∃ t, exec (.attest fn) s = .next t ∧ t.ended fn 0 0 ∧ t.jobs = s.jobs ∧ t.stooks = s.stooks ∧ t.report = report ∧
        ((∀ v ∈ s.versions, v.rng ≠ e'.idx) → t.homeReadN e' o' report.length = report))

/-- Commands on ranges (R73, R74, R77, R82 to R85, R243, R244): a creation takes the lowest free index and the range
reads zero; a change has the new limit, rights, class, key and flags at once, and what it adds reads zero; a deleted
range is gone, with every copy of its lines once no access under it is on its way home; moves start with their frontiers
at zero; on a range that moves, a command waits. Where no command of another function came before on the range, and it
does not move, a command acts at once. That a deletion clears the job's registrations of the range is the model's reading
(DEDUCED, log entry 77), that channel tables are read and written in a memory of their own its choice (DESIGN CHOICE, log
entry 9). -/
def Obligations.RangeCommands : Prop :=
  ∀ s fn, s.mayCommand fn →
    let args := (s.func fn).margs
    let a (i : Nat) : Nat := argOf args i
    let goes (op : Nat) : Prop := s.mustWait fn op s.nextId args = false
    (∀ j e, a 6 = 0 → s.job (a 2 / 2 ^ 48 % 2 ^ 16) = some j → j.ownedBy fn →
      s.image s.freeIndex (args.take 6) = some e → s.clashes e = false → s.freeIndex < 1048576 →
      (s.ranges.filter (·.owner == j.id)).length < 65536 →
      ∃ t e', exec (.createRange fn) s = .next t ∧ t.ended fn 0 e.idx ∧ t.range e.idx = some e' ∧
        e' = e ∧ (∀ x ∈ s.ranges, x.idx ≠ e.idx) ∧
        (∀ i, i < e.idx → (∃ x ∈ s.ranges, x.idx = i) ∨ ∃ f ∈ s.funcs, ∃ n, f.busy = .draining i n) ∧ (∀ x, x ≠ e.idx → t.range x = s.range x) ∧
        (e.peer = none → (s.keyMat e.key).isSome = true →
          ∀ o, o < e.limit → t.homeRead e' o 1 .untagged = [0])) ∧
    (∀ j old e, a 6 = 2 ^ 63 + old.idx → old.idx < 2 ^ 20 → s.job (a 2 / 2 ^ 48 % 2 ^ 16) = some j → j.ownedBy fn →
      s.range old.idx = some old → old.owner = j.id → goes 0x10 → s.image old.idx (args.take 6) = some e →
      s.clashes e = false → e.base = old.base → e.peer = old.peer → e.place.same old.place = true →
      (∀ l ∈ s.l3, l.bytes.length = 64) → (∀ h ∈ old.place.shares, h.sliding = false) →
      ∃ t e', exec (.changeRange fn) s = .next t ∧ t.range old.idx = some e' ∧
        e' = { old with limit := e.limit, key := e.key, rights := e.rights, cls := e.cls, hyp := e.hyp, par := e.par,
                        place := { old.place with table := e.place.table }, lossVa := e.lossVa,
                        losses := e'.losses, lossCount := e'.lossCount } ∧ (∀ x ∈ e'.losses, x ∈ old.losses) ∧
        (∀ x, x ≠ old.idx → t.range x = s.range x) ∧
        (s.drainsRange old.idx (s.nextId + 1) = false → t.ended fn 0 old.idx) ∧
        (s.drainsRange old.idx (s.nextId + 1) = true → t.underWay fn (.draining old.idx (s.nextId + 1))) ∧
        (old.limit < e.limit → e.peer = none → (s.keyMat e.key).isSome = true →
          ∀ o, old.limit ≤ o → o < e.limit → t.homeRead e' o 1 .untagged = [0])) ∧
    (∀ j e, s.job (a 0) = some j → j.ownedBy fn → a 1 = e.idx → e.idx < 2 ^ 20 → s.range e.idx = some e → e.owner = j.id →
      (e.move ≠ .none → ∃ t, exec (.deleteRange fn) s = .next t ∧ t.underWay fn (.waiting 0x11 s.nextId args) ∧
        t = { s with funcs := t.funcs, nextId := s.nextId + 1 }) ∧
      (goes 0x11 → ∃ t, exec (.deleteRange fn) s = .next t ∧ t.ranges = s.ranges.filter (·.idx != e.idx) ∧
        (∀ x ∈ t.l1 ++ t.l2, x.rng = e.idx → x.dirty = 0) ∧
        (∀ x ∈ t.jobs, x.tmpl ≠ some e.idx ∧ x.handlers ≠ some e.idx ∧ x.mxRange ≠ some e.idx) ∧
        (s.drainsRange e.idx (s.nextId + 1) = false → t.ended fn 0 0 ∧ (∀ x ∈ t.l1 ++ t.l2, x.rng ≠ e.idx) ∧
          (∀ x ∈ t.l3, x.rng ≠ e.idx) ∧ ∀ v ∈ t.versions, v.rng ≠ e.idx) ∧
        (s.drainsRange e.idx (s.nextId + 1) = true → t.underWay fn (.draining e.idx (s.nextId + 1)))) ∧
      (goes 0x12 → e.peer = none → a 2 % 2 ^ 32 = 0 → a 2 / 2 ^ 45 % 2 ^ 17 = 0 → a 2 < 2 ^ 64 →
        let nb (i : Nat) : Nat := leNat (Memory.getN s.devMem (a 3 + 8 * i) 8)
        let target := s.readPlacement (a 2 / 2 ^ 44 % 2) (a 2 / 2 ^ 40 % 16) (a 2 / 2 ^ 32 % 256 + 1) (a 3) e.limit e.par
        (a 2 = 2 ^ 62 → (∀ (i : Nat) h, e.place.shares[i]? = some h → nb i = 0 ∨ nb i % 256 = 0 ∧ nb i < h.pbase) →
          (∃ i, i < e.place.shares.length ∧ nb i ≠ 0) →
          ∃ t e', exec (.startSlide fn) s = .next t ∧ t.ended fn 0 0 ∧ t.range e.idx = some e' ∧
            e' = { e with place := { e.place with shares := e'.place.shares }, move := .slide } ∧
            (∀ i : Nat, e'.place.shares[i]? = (e.place.shares[i]?).map fun h =>
              if nb i = 0 then h else { h with sliding := true, nbase := nb i, sfront := 0 }) ∧
            t.devMem = Memory.setN s.devMem e.place.table (e'.place.shares.flatMap Share.bytes) ∧
            t = { s with funcs := t.funcs, nextId := s.nextId + 1, ranges := t.ranges, devMem := t.devMem }) ∧
        (∀ p, a 2 / 2 ^ 62 = 2 → target = some p →
          ∃ t, exec (.startReplace fn) s = .next t ∧ t.ended fn 0 0 ∧
            t.range e.idx = some { e with move := .replace p, front := 0, transit := 0 } ∧
            t = { s with funcs := t.funcs, nextId := s.nextId + 1, ranges := t.ranges }) ∧
        (∀ p ch, a 2 / 2 ^ 62 = 3 → target = some p → e.par = true → ch ∈ e.lostCh → (∃ h ∈ e.place.shares, h.ch = ch) →
          p.shares.map (·.ch) = (e.place.shares.map (·.ch)).filter (· != ch) →
          ∃ t, exec (.startRebuild fn) s = .next t ∧ t.ended fn 0 0 ∧
            t.range e.idx = some { e with move := .rebuild p, front := 0, transit := 0 } ∧
            t = { s with funcs := t.funcs, nextId := s.nextId + 1, ranges := t.ranges })))

/-! ## Pre-emption, watchdog, reset, alarms -/

/-- Pre-emption, the watchdog and the outside (R24, R25, R31, R51, R196, R235, R236, R240, R241, R246 to R248, R250,
R252): a request whose deadline comes with a thread unparked lapses with status 2 and its parked threads go on; after the
drain each live thread stands at its save routine with its place in `%epc`; a retired channel is recorded; a watchdog
that fires leaves no stook, message, copy, request, matrix entry, private copy or open node of any job of its partition,
and every such job that was started and has not ended is to start anew; device reset leaves what R1 and R242 give, memory
and the world outside, with the firmware images that passed started (which fail: the model's choice, log entry 106); an
alarm latches and, under an arming policy, erases every key; a lower clock rate keeps the cycles counted. The model's own
are the expiry record of cause 0 and counter 0 (DEDUCED, log entry 84), that memory and the package number stay at a
device reset (DESIGN CHOICE, log entry 85), that a fraction of a cycle is lost as the clock changes (DESIGN CHOICE, log
entry 86), and status 2 of a lapsed request, its reading of R235. -/
def Obligations.PreemptionAndReset : Prop :=
  (∀ s k p, s.parkAll = s → s.stook k.tag = some k → k.pre = some p → p.stage = .parking → p.deadline ≤ s.now →
    ∃ t, exec (.preemptDeadlineExpiry k.tag) s = .next t ∧ t.stook k.tag = some { k with pre := none } ∧
      (∀ i h, s.sheaf k.tag i = some h → ∃ h', t.sheaf k.tag i = some h' ∧
        ∀ (l : Nat) (x : Thread), h.threads[l]? = some x →
          h'.threads[l]? = some (if x.stage = .parked then { x with stage := .none } else x)) ∧
      (∀ fn, (s.func fn).busy = .preempt k.tag → (s.funcs.map (·.id)).Nodup → t.ended fn 2 (s.func fn).result) ∧
      t = { s with stooks := t.stooks, sheaves := t.sheaves, funcs := t.funcs }) ∧
  (∀ s k p, s.parkAll = s → s.stook k.tag = some k → k.pre = some p → p.stage = .draining → s.drained k.tag = true →
    (∀ h ∈ s.sheaves, h.tag = k.tag → ∀ x ∈ h.threads, x.exited = false ∧ (s.safePoint k.job k.kh x.spidx).1 ≠ 0) →
    (∃ h ∈ s.sheaves, h.tag = k.tag ∧ h.threads ≠ []) →
    (∀ h ∈ s.sheaves, h.tag = k.tag → s.sheaf k.tag h.index = some h) →
    (∀ e ∈ s.ranges, e.owner = k.job → e.peer = none) → (∀ y ∈ s.peerBuf, y.who ≠ stookReader k.tag) →
    ∃ t, exec (.preemptDrainComplete k.tag) s = .next t ∧
      t.stook k.tag = some { k with pre := some { p with stage := .threads } } ∧
      (∀ i h, s.sheaf k.tag i = some h → ∃ h', t.sheaf k.tag i = some h' ∧
        ∀ (l : Nat) (x : Thread), h.threads[l]? = some x → ∃ y, h'.threads[l]? = some y ∧ y.epc = x.pc ∧
          y.cloff = BitVec.ofNat 5 ((x.pc - x.clause).toNat / 8) ∧
          y.pc = BitVec.ofNat 64 (s.safePoint k.job k.kh x.spidx).1 ∧ y.clause = y.pc ∧
          y.svarea = BitVec.ofNat 64 (k.kh.slotVa p.region i l + 16) ∧ y.rmode = true ∧ y.v = x.v ∧ y.p = x.p) ∧
      t = { s with stooks := t.stooks, sheaves := t.sheaves }) ∧
  (∀ s ch, ch < 256 → (s.ranges.map (·.idx)).Nodup → ∃ t, exec (.channelRetireByPort ch) s = .next t ∧ ch ∈ t.retired ∧
    (∀ c, c ∈ t.retired → c = ch ∨ c ∈ s.retired) ∧
    ∀ e ∈ s.ranges, e.move.target = none → (∀ h ∈ e.place.shares, h.ch ≠ ch) → e ∈ t.ranges) ∧
  (∀ s j, s.job j.id = some j → j.started = true → j.ended = false → s.watchdogRests j = false →
    j.lastRetire + j.period ≤ s.now → (s.jobs.map (·.id)).Nodup → (∀ e ∈ s.ranges, e.peer = none) →
    ∃ t, exec (.watchdogExpiry j.id) s = .next t ∧
      ∀ x, s.job x.id = some x → x.fn = j.fn →
        t.evicted x.id ∧ t.silent x.id ∧
        (∀ c ∈ t.l1 ++ t.l2, c.job = x.id → ∃ e, s.entAt c.rng c.line = some e ∧ e.cls ≠ .ph) ∧
        (∀ a, t.arbor x.id = some a → a.flatten = true ∧ ∀ n ∈ a.nodes, n.state ≠ .isOpen) ∧
        ∃ x', t.job x.id = some x' ∧ (x.id = j.id → x'.fired = some ⟨0, 0⟩) ∧
          (x.started = true → x.ended = false → x'.launches = [] ∧ x'.root = .waiting ∧ x'.lastRetire = s.now ∧
            (x'.started, x'.block, x'.rootVa) = (x.started, x.block, x.rootVa))) ∧
  (∀ s ok arming, ∃ t, exec (.deviceReset ok arming) s = .next t ∧ t.now = 0 ∧
    t.featDev = (if ok then 0x1000000000000FFF else 0) ∧ t.featAcc = 0 ∧ t.featWritten = false ∧ t.alarm = 0 ∧
    t.arming = some arming ∧ t.retrain = 64 ∧ t.keys = [⟨0, some (.fresh (s.resets + 1))⟩] ∧
    (t.jobs, t.ranges, t.stooks, t.sheaves, t.cores, t.arbors, t.msgs, t.funcs) = ([], [], [], [], [], [], [], []) ∧
    (t.mem, t.devMem, t.cxlCap, t.pkg) = (s.mem, s.devMem, s.cxlCap, s.pkg) ∧
    (ok = true ↔ ∀ f ∈ t.firmware, f.passed = true) ∧ (∀ f ∈ t.firmware, f.started = f.passed) ∧
    (∀ fn, t.func fn = ⟨fn, 20, 0, 0, 0, 0, .idle, List.replicate 8 0, [], 0xFFFF⟩)) ∧
  (∀ s n b, n ≤ 3 → s.arming = some b → ∃ t, exec (.alarm n) s = .next t ∧
    t.alarm = s.alarm ||| BitVec.ofNat 64 (2 ^ n) ||| (if b then 0x100 else 0) ∧
    (b = true → ∀ k, t.keyMat k = none) ∧ (b = false → t.keys = s.keys) ∧
    t = { s with alarm := t.alarm, keys := t.keys, erasedAt := if b then some s.now else s.erasedAt }) ∧
  (∀ s die num den, die < 8 → 0 < num → num ≤ den → num * (s.clock die).den < (s.clock die).num * den → ∃ t, exec (.powerCapExceeded die num den) s = .next t ∧
    (∀ n, ({ t with now := t.now + n } : State).cycles die = s.cycles die + n * num / den) ∧
    (∀ d n, d ≠ die → ({ t with now := t.now + n } : State).cycles d = ({ s with now := s.now + n } : State).cycles d) ∧
    t = { s with clocks := t.clocks })

/-! ## Encoding, fetching, reset, and what every step keeps -/

/-- Words whose encoding the spec writes out decode to the instructions they stand for (R257, R261, R263, R326, R327, R347,
R359, R344, R363, R336, R311, R289, R361). -/
def Obligations.DecodeSamples : Prop :=
  let c : Common := ⟨1, 7, 0, 7⟩
  let c0 : Common := ⟨1, 0, 0, 7⟩
  decodeTableWord 64 0x001EFFFFFFFF8000 = some (.nop c ⟨.z, .z, .z, 0⟩) ∧
  decodeTableWord 64 0x5D1EFFFFFFFF8002 = some (.partn c ⟨.z, .z, .z, 2⟩) ∧
  decodeTableWord 64 0x1C1EE882188B0000 = some (.shr c ⟨.s 16, .s 12, .s 22, 0⟩) ∧
  decodeTableWord 64 0x781EFFFA50952560 = some (.tierpf c ⟨.z, .s 40, .s 42, .s 43, 0⟩) ∧
  decodeTableWord 64 0x061EFFF805FF8000 = some (.ret c ⟨.z, .v 2, .z, 0⟩) ∧
  decodeTableWord 64 0x091EFFFFFFFF8000 = some (.yield c ⟨.z, .z, .z, 0⟩) ∧
  decodeTableWord 64 0x5310E02004888000 = some (.shflXor c0 ⟨.v 4, .v 2, .s 17, 0⟩) ∧
  decodeTableWord 64 0xB010E9E228000000 = some (.launch c0 ⟨.s 60, .s 20, 0, 0⟩) ∧
  decodeTableWord 64 0xB11EFFFA29FF8001 = some (.cancel c ⟨.z, .s 20, .z, 1⟩) ∧
  decodeTableWord 64 0x841EE88218000000 = some (.waitge c ⟨.s 16, .s 12, 0, 0⟩)

/-- Decoder and encoder agree on every instruction and every word (R254, R257, R259, R261, R263, R264): decoding the word of
a well-formed instruction gives that instruction, with every field at every value, through the bytes as stored too; every
one of the 2^64 words is the word of what it decodes to; so no two words decode to one instruction. -/
def Obligations.DecodeEncodeAgree : Prop :=
  (∀ (i : Instr) w, WellFormed i = true → encode i = some w → decode w = i) ∧
  (∀ w, encode (decode w) = some w) ∧
  (∀ w v, decode w = decode v → w = v) ∧
  (∀ (i : Instr) w rest, WellFormed i = true → encode i = some w →
    decodeBytes (leBytes 8 w.toNat ++ rest) = .ok (i, rest)) ∧
  ∀ (i : Instr) w, WellFormed i = true → encode i = some w → decodeTableWord 64 w.toNat = some i

/-- A step runs the instruction that is fetched (R15, R16, R54, R56, R254): where the agenda lets a bundle issue, or
nothing is on the agenda and its slot is the first that can issue, no deadline, period or promise falls due before (R6),
slot 0 does not come first, and the eight bytes that the bundle stands before can be fetched in this package and decode
to i, the step is the meaning of i in the state at the bundle's cycle, in which the slot has issued, with the word in the
instruction cache, followed by what the model lets follow every act at once (`followed`; the agenda and the order of
agents are the model's own, log entry 8). -/
def Obligations.StepRunsDecoded : Prop :=
  ∀ s core slot (b : Bundle) rest,
    (s.agenda = .issue core slot :: rest ∨ s.agenda = [] ∧ rest = [] ∧ s.issuable = some (core, slot)) →
    s.due = none → s.dueFirst core slot = none →
    s.slot core slot = some b → b.deferred = false → b.hold = false → b.pos < b.count →
    (slot = 1 → s.slot0First core b = false) →
    let u : State := { s with agenda := rest, now := s.timeOf (core / 64) (s.issueCycle core slot b), cur := (core, slot) }
    let t : State := u.modCore core fun x =>
      if slot = 0 then { x with slot0At := u.cycles (core / 64) + 1 } else { x with slot1At := u.cycles (core / 64) + 1 }
    let job := ((s.stook b.tag).map (·.job)).getD 0
    ∀ e o i, t.translateOut job b.here.toNat 8 8 rightX = .ok (e, o) → e.peer = none → t.lineChecks e false o 8 b.here.toNat = none →
      (∀ x ∈ s.code, ¬ (x.core = core ∧ x.job = job ∧ x.va = b.here.toNat)) →
      decodeBytes (t.homeReadN e o 8) = .ok (i, []) →
      step s = followed (exec i (t.keepCode core job b.here (BitVec.ofNat 64 (leNat (t.homeReadN e o 8)))))

/-- The machine after device reset (R1, R2, R24, R25, R99, R104, R242, R245 to R247, R253, R323): the registers that the spec
gives a reset value read so, no job, range, stook or message exists, key 0 alone is loaded, and the shapes that every step
keeps stand. That memory then reads zero is the model's choice (DESIGN CHOICE, log entry 1). -/
def Obligations.ResetState : Prop :=
  let s := State.reset
  s.dtime = 0 ∧ (∀ d, s.cycles d = 0) ∧ (∀ d, (s.clock d).num = (s.clock d).den) ∧
  s.featDev = 0x1000000000000FFF ∧ s.featAcc = 0 ∧ s.featWritten = false ∧ s.alarm = 0 ∧ s.retrain = 64 ∧
  (∀ fn, let f := s.func fn
    (f.winsize, f.herrcnt, f.mop, f.status, f.result, f.l2mask) = (20, 0, 0, 0, 0, 0xFFFF) ∧
    (∀ i, i < 8 → f.margs[i]? = some 0) ∧ ∀ i, ((f.window i).w0, (f.window i).w1) = (0, 0)) ∧
  (∀ c, ((s.core c).chk, (s.core c).spw) = (false, 0)) ∧
  (∀ j, s.job j = none) ∧ (∀ x, s.range x = none) ∧ (∀ g, s.stook g = none) ∧ s.msgs = [] ∧
  (∀ k, (s.keyMat k).isSome = true ↔ k = 0) ∧ (∀ a, s.mem.get a = 0) ∧ s.Canonical ∧ s.Ordered

/-- Every step keeps memory in its one form (the model's own invariant, on which equal memories are equal data): whatever act
comes next, of whatever agent. -/
def Obligations.CanonicalKept : Prop :=
  ∀ s t, s.Canonical → step s = .next t → t.Canonical

/-- Every step keeps sheaves in shape, numbers in order, and range indices, job numbers and matrix entries distinct (R32, R47,
R73, R163, R245): whatever act comes next, of whatever agent. -/
def Obligations.OrderedKept : Prop :=
  ∀ s t, s.Ordered → step s = .next t → t.Ordered
end

