-- ==== Sys2Proof/Laws/Lists.lean ====
section
/-! SUPPORT. Lane sets. -/

namespace Sys2Proof.Machine
open Sys2Proof

theorem mem_lanesOf {m : Lanes} {l : Nat} : l ∈ lanesOf m ↔ l < 32 ∧ m.getLsbD l = true := by
  simp [lanesOf]

/-- Lane l is in a set that is filled lane by lane where it was there before or is one of the lanes that the test picks. -/
theorem getLsbD_fillLanes (pick : Nat → Bool) (l : Nat) : ∀ (todo : List Nat) (m : Lanes),
    (todo.foldl (fun m k => if pick k then m ||| (1#32 <<< k) else m) m).getLsbD l =
      (m.getLsbD l || (decide (l < 32) && pick l && decide (l ∈ todo)))
  | [], m => by simp
  | k :: todo, m => by
    have bit : (1#32 <<< k).getLsbD l = (decide (l < 32) && decide (l = k)) := by
      rw [BitVec.getLsbD_shiftLeft, BitVec.getLsbD_one]
      by_cases e : l = k
      · simp [e]
      · have : ¬ (k ≤ l ∧ l - k = 0) := by omega
        simp only [e]; simp; omega
    rw [List.foldl_cons, getLsbD_fillLanes pick l todo]
    by_cases e : l = k
    · subst e
      cases pick l <;> by_cases e : l < 32 <;> simp [bit, e]
    · cases pick k <;> simp [bit, e]

theorem getLsbD_lanesWhere (p : Nat → Bool) (l : Nat) : (lanesWhere p).getLsbD l = (decide (l < 32) && p l) := by
  rw [lanesWhere, getLsbD_fillLanes]
  by_cases h : l < 32 <;> simp [h]

theorem lanesWhere_congr {p q : Nat → Bool} (h : ∀ l, l < 32 → p l = q l) : lanesWhere p = lanesWhere q := by
  apply BitVec.eq_of_getLsbD_eq
  intro i hi
  rw [getLsbD_lanesWhere, getLsbD_lanesWhere, h i hi]

theorem lanesWhere_self (m : Lanes) : lanesWhere m.getLsbD = m := by
  apply BitVec.eq_of_getLsbD_eq
  intro i hi
  rw [getLsbD_lanesWhere]
  simp [hi]

theorem getLsbD_dropLane (m : Lanes) (l i : Nat) : (dropLane m l).getLsbD i = (m.getLsbD i && decide (i ≠ l)) := by
  by_cases hi : i < 32
  · simp only [dropLane, BitVec.getLsbD_and, BitVec.getLsbD_not, BitVec.getLsbD_shiftLeft, BitVec.getLsbD_one, hi]
    by_cases h : i = l <;> simp [h]
    omega
  · rw [BitVec.getLsbD_of_ge _ _ (by omega), BitVec.getLsbD_of_ge _ _ (by omega)]; simp

end Sys2Proof.Machine
end

