-- ==== Sys2Proof/Laws/State.lean ====
section
/-! SUPPORT. Each field of the state after each elementary update of it. -/

namespace Sys2Proof.Machine.State

/-! ### `modCore` -/
section modCore
variable (s : State) (c : Nat) (f : Core → Core)
@[simp] theorem modCore_now : (s.modCore c f).now = s.now := rfl
@[simp] theorem modCore_clocks : (s.modCore c f).clocks = s.clocks := rfl
@[simp] theorem modCore_cur : (s.modCore c f).cur = s.cur := rfl
@[simp] theorem modCore_nextId : (s.modCore c f).nextId = s.nextId := rfl
@[simp] theorem modCore_free : (s.modCore c f).free = s.free := rfl
@[simp] theorem modCore_agenda : (s.modCore c f).agenda = s.agenda := rfl
@[simp] theorem modCore_ranges : (s.modCore c f).ranges = s.ranges := rfl
@[simp] theorem modCore_mem : (s.modCore c f).mem = s.mem := rfl
@[simp] theorem modCore_devMem : (s.modCore c f).devMem = s.devMem := rfl
@[simp] theorem modCore_leaving : (s.modCore c f).leaving = s.leaving := rfl
@[simp] theorem modCore_seals : (s.modCore c f).seals = s.seals := rfl
@[simp] theorem modCore_l3 : (s.modCore c f).l3 = s.l3 := rfl
@[simp] theorem modCore_l2 : (s.modCore c f).l2 = s.l2 := rfl
@[simp] theorem modCore_l1 : (s.modCore c f).l1 = s.l1 := rfl
@[simp] theorem modCore_code : (s.modCore c f).code = s.code := rfl
@[simp] theorem modCore_peerBuf : (s.modCore c f).peerBuf = s.peerBuf := rfl
@[simp] theorem modCore_versions : (s.modCore c f).versions = s.versions := rfl
@[simp] theorem modCore_cxlCap : (s.modCore c f).cxlCap = s.cxlCap := rfl
@[simp] theorem modCore_retired : (s.modCore c f).retired = s.retired := rfl
@[simp] theorem modCore_sheaves : (s.modCore c f).sheaves = s.sheaves := rfl
@[simp] theorem modCore_stooks : (s.modCore c f).stooks = s.stooks := rfl
@[simp] theorem modCore_saved : (s.modCore c f).saved = s.saved := rfl
@[simp] theorem modCore_reqs : (s.modCore c f).reqs = s.reqs := rfl
@[simp] theorem modCore_results : (s.modCore c f).results = s.results := rfl
@[simp] theorem modCore_ops : (s.modCore c f).ops = s.ops := rfl
@[simp] theorem modCore_holds : (s.modCore c f).holds = s.holds := rfl
@[simp] theorem modCore_deferred : (s.modCore c f).deferred = s.deferred := rfl
@[simp] theorem modCore_copies : (s.modCore c f).copies = s.copies := rfl
@[simp] theorem modCore_followOns : (s.modCore c f).followOns = s.followOns := rfl
@[simp] theorem modCore_tierOps : (s.modCore c f).tierOps = s.tierOps := rfl
@[simp] theorem modCore_mxTable : (s.modCore c f).mxTable = s.mxTable := rfl
@[simp] theorem modCore_tiles : (s.modCore c f).tiles = s.tiles := rfl
@[simp] theorem modCore_bayCtrs : (s.modCore c f).bayCtrs = s.bayCtrs := rfl
@[simp] theorem modCore_jobs : (s.modCore c f).jobs = s.jobs := rfl
@[simp] theorem modCore_nextJob : (s.modCore c f).nextJob = s.nextJob := rfl
@[simp] theorem modCore_arbors : (s.modCore c f).arbors = s.arbors := rfl
@[simp] theorem modCore_pkg : (s.modCore c f).pkg = s.pkg := rfl
@[simp] theorem modCore_ports : (s.modCore c f).ports = s.ports := rfl
@[simp] theorem modCore_deadPlanes : (s.modCore c f).deadPlanes = s.deadPlanes := rfl
@[simp] theorem modCore_msgs : (s.modCore c f).msgs = s.msgs := rfl
@[simp] theorem modCore_outgoing : (s.modCore c f).outgoing = s.outgoing := rfl
@[simp] theorem modCore_fabReqs : (s.modCore c f).fabReqs = s.fabReqs := rfl
@[simp] theorem modCore_chunkUses : (s.modCore c f).chunkUses = s.chunkUses := rfl
@[simp] theorem modCore_featDev : (s.modCore c f).featDev = s.featDev := rfl
@[simp] theorem modCore_featAcc : (s.modCore c f).featAcc = s.featAcc := rfl
@[simp] theorem modCore_featWritten : (s.modCore c f).featWritten = s.featWritten := rfl
@[simp] theorem modCore_alarm : (s.modCore c f).alarm = s.alarm := rfl
@[simp] theorem modCore_arming : (s.modCore c f).arming = s.arming := rfl
@[simp] theorem modCore_retrain : (s.modCore c f).retrain = s.retrain := rfl
@[simp] theorem modCore_retrainWas : (s.modCore c f).retrainWas = s.retrainWas := rfl
@[simp] theorem modCore_retrainAt : (s.modCore c f).retrainAt = s.retrainAt := rfl
@[simp] theorem modCore_retrained : (s.modCore c f).retrained = s.retrained := rfl
@[simp] theorem modCore_keys : (s.modCore c f).keys = s.keys := rfl
@[simp] theorem modCore_resets : (s.modCore c f).resets = s.resets := rfl
@[simp] theorem modCore_erasedAt : (s.modCore c f).erasedAt = s.erasedAt := rfl
@[simp] theorem modCore_firmware : (s.modCore c f).firmware = s.firmware := rfl
@[simp] theorem modCore_report : (s.modCore c f).report = s.report := rfl
@[simp] theorem modCore_funcs : (s.modCore c f).funcs = s.funcs := rfl
@[simp] theorem modCore_hostReads : (s.modCore c f).hostReads = s.hostReads := rfl
@[simp] theorem modCore_regReads : (s.modCore c f).regReads = s.regReads := rfl
@[simp] theorem modCore_waveOut : (s.modCore c f).waveOut = s.waveOut := rfl
end modCore

/-! ### `setSlot` -/
section setSlot
variable (s : State) (c k : Nat) (b : Option Bundle)
@[simp] theorem setSlot_now : (s.setSlot c k b).now = s.now := rfl
@[simp] theorem setSlot_clocks : (s.setSlot c k b).clocks = s.clocks := rfl
@[simp] theorem setSlot_cur : (s.setSlot c k b).cur = s.cur := rfl
@[simp] theorem setSlot_nextId : (s.setSlot c k b).nextId = s.nextId := rfl
@[simp] theorem setSlot_free : (s.setSlot c k b).free = s.free := rfl
@[simp] theorem setSlot_agenda : (s.setSlot c k b).agenda = s.agenda := rfl
@[simp] theorem setSlot_ranges : (s.setSlot c k b).ranges = s.ranges := rfl
@[simp] theorem setSlot_mem : (s.setSlot c k b).mem = s.mem := rfl
@[simp] theorem setSlot_devMem : (s.setSlot c k b).devMem = s.devMem := rfl
@[simp] theorem setSlot_leaving : (s.setSlot c k b).leaving = s.leaving := rfl
@[simp] theorem setSlot_seals : (s.setSlot c k b).seals = s.seals := rfl
@[simp] theorem setSlot_l3 : (s.setSlot c k b).l3 = s.l3 := rfl
@[simp] theorem setSlot_l2 : (s.setSlot c k b).l2 = s.l2 := rfl
@[simp] theorem setSlot_l1 : (s.setSlot c k b).l1 = s.l1 := rfl
@[simp] theorem setSlot_code : (s.setSlot c k b).code = s.code := rfl
@[simp] theorem setSlot_peerBuf : (s.setSlot c k b).peerBuf = s.peerBuf := rfl
@[simp] theorem setSlot_versions : (s.setSlot c k b).versions = s.versions := rfl
@[simp] theorem setSlot_cxlCap : (s.setSlot c k b).cxlCap = s.cxlCap := rfl
@[simp] theorem setSlot_retired : (s.setSlot c k b).retired = s.retired := rfl
@[simp] theorem setSlot_sheaves : (s.setSlot c k b).sheaves = s.sheaves := rfl
@[simp] theorem setSlot_stooks : (s.setSlot c k b).stooks = s.stooks := rfl
@[simp] theorem setSlot_saved : (s.setSlot c k b).saved = s.saved := rfl
@[simp] theorem setSlot_reqs : (s.setSlot c k b).reqs = s.reqs := rfl
@[simp] theorem setSlot_results : (s.setSlot c k b).results = s.results := rfl
@[simp] theorem setSlot_ops : (s.setSlot c k b).ops = s.ops := rfl
@[simp] theorem setSlot_holds : (s.setSlot c k b).holds = s.holds := rfl
@[simp] theorem setSlot_deferred : (s.setSlot c k b).deferred = s.deferred := rfl
@[simp] theorem setSlot_copies : (s.setSlot c k b).copies = s.copies := rfl
@[simp] theorem setSlot_followOns : (s.setSlot c k b).followOns = s.followOns := rfl
@[simp] theorem setSlot_tierOps : (s.setSlot c k b).tierOps = s.tierOps := rfl
@[simp] theorem setSlot_mxTable : (s.setSlot c k b).mxTable = s.mxTable := rfl
@[simp] theorem setSlot_tiles : (s.setSlot c k b).tiles = s.tiles := rfl
@[simp] theorem setSlot_bayCtrs : (s.setSlot c k b).bayCtrs = s.bayCtrs := rfl
@[simp] theorem setSlot_jobs : (s.setSlot c k b).jobs = s.jobs := rfl
@[simp] theorem setSlot_nextJob : (s.setSlot c k b).nextJob = s.nextJob := rfl
@[simp] theorem setSlot_arbors : (s.setSlot c k b).arbors = s.arbors := rfl
@[simp] theorem setSlot_pkg : (s.setSlot c k b).pkg = s.pkg := rfl
@[simp] theorem setSlot_ports : (s.setSlot c k b).ports = s.ports := rfl
@[simp] theorem setSlot_deadPlanes : (s.setSlot c k b).deadPlanes = s.deadPlanes := rfl
@[simp] theorem setSlot_msgs : (s.setSlot c k b).msgs = s.msgs := rfl
@[simp] theorem setSlot_outgoing : (s.setSlot c k b).outgoing = s.outgoing := rfl
@[simp] theorem setSlot_fabReqs : (s.setSlot c k b).fabReqs = s.fabReqs := rfl
@[simp] theorem setSlot_chunkUses : (s.setSlot c k b).chunkUses = s.chunkUses := rfl
@[simp] theorem setSlot_featDev : (s.setSlot c k b).featDev = s.featDev := rfl
@[simp] theorem setSlot_featAcc : (s.setSlot c k b).featAcc = s.featAcc := rfl
@[simp] theorem setSlot_featWritten : (s.setSlot c k b).featWritten = s.featWritten := rfl
@[simp] theorem setSlot_alarm : (s.setSlot c k b).alarm = s.alarm := rfl
@[simp] theorem setSlot_arming : (s.setSlot c k b).arming = s.arming := rfl
@[simp] theorem setSlot_retrain : (s.setSlot c k b).retrain = s.retrain := rfl
@[simp] theorem setSlot_retrainWas : (s.setSlot c k b).retrainWas = s.retrainWas := rfl
@[simp] theorem setSlot_retrainAt : (s.setSlot c k b).retrainAt = s.retrainAt := rfl
@[simp] theorem setSlot_retrained : (s.setSlot c k b).retrained = s.retrained := rfl
@[simp] theorem setSlot_keys : (s.setSlot c k b).keys = s.keys := rfl
@[simp] theorem setSlot_resets : (s.setSlot c k b).resets = s.resets := rfl
@[simp] theorem setSlot_erasedAt : (s.setSlot c k b).erasedAt = s.erasedAt := rfl
@[simp] theorem setSlot_firmware : (s.setSlot c k b).firmware = s.firmware := rfl
@[simp] theorem setSlot_report : (s.setSlot c k b).report = s.report := rfl
@[simp] theorem setSlot_funcs : (s.setSlot c k b).funcs = s.funcs := rfl
@[simp] theorem setSlot_hostReads : (s.setSlot c k b).hostReads = s.hostReads := rfl
@[simp] theorem setSlot_regReads : (s.setSlot c k b).regReads = s.regReads := rfl
@[simp] theorem setSlot_waveOut : (s.setSlot c k b).waveOut = s.waveOut := rfl
end setSlot

/-! ### `modSheaf` -/
section modSheaf
variable (s : State) (g i : Nat) (f : Sheaf → Sheaf)
@[simp] theorem modSheaf_now : (s.modSheaf g i f).now = s.now := rfl
@[simp] theorem modSheaf_clocks : (s.modSheaf g i f).clocks = s.clocks := rfl
@[simp] theorem modSheaf_cur : (s.modSheaf g i f).cur = s.cur := rfl
@[simp] theorem modSheaf_nextId : (s.modSheaf g i f).nextId = s.nextId := rfl
@[simp] theorem modSheaf_free : (s.modSheaf g i f).free = s.free := rfl
@[simp] theorem modSheaf_agenda : (s.modSheaf g i f).agenda = s.agenda := rfl
@[simp] theorem modSheaf_ranges : (s.modSheaf g i f).ranges = s.ranges := rfl
@[simp] theorem modSheaf_mem : (s.modSheaf g i f).mem = s.mem := rfl
@[simp] theorem modSheaf_devMem : (s.modSheaf g i f).devMem = s.devMem := rfl
@[simp] theorem modSheaf_leaving : (s.modSheaf g i f).leaving = s.leaving := rfl
@[simp] theorem modSheaf_seals : (s.modSheaf g i f).seals = s.seals := rfl
@[simp] theorem modSheaf_l3 : (s.modSheaf g i f).l3 = s.l3 := rfl
@[simp] theorem modSheaf_l2 : (s.modSheaf g i f).l2 = s.l2 := rfl
@[simp] theorem modSheaf_l1 : (s.modSheaf g i f).l1 = s.l1 := rfl
@[simp] theorem modSheaf_code : (s.modSheaf g i f).code = s.code := rfl
@[simp] theorem modSheaf_peerBuf : (s.modSheaf g i f).peerBuf = s.peerBuf := rfl
@[simp] theorem modSheaf_versions : (s.modSheaf g i f).versions = s.versions := rfl
@[simp] theorem modSheaf_cxlCap : (s.modSheaf g i f).cxlCap = s.cxlCap := rfl
@[simp] theorem modSheaf_retired : (s.modSheaf g i f).retired = s.retired := rfl
@[simp] theorem modSheaf_cores : (s.modSheaf g i f).cores = s.cores := rfl
@[simp] theorem modSheaf_stooks : (s.modSheaf g i f).stooks = s.stooks := rfl
@[simp] theorem modSheaf_saved : (s.modSheaf g i f).saved = s.saved := rfl
@[simp] theorem modSheaf_reqs : (s.modSheaf g i f).reqs = s.reqs := rfl
@[simp] theorem modSheaf_results : (s.modSheaf g i f).results = s.results := rfl
@[simp] theorem modSheaf_ops : (s.modSheaf g i f).ops = s.ops := rfl
@[simp] theorem modSheaf_holds : (s.modSheaf g i f).holds = s.holds := rfl
@[simp] theorem modSheaf_deferred : (s.modSheaf g i f).deferred = s.deferred := rfl
@[simp] theorem modSheaf_copies : (s.modSheaf g i f).copies = s.copies := rfl
@[simp] theorem modSheaf_followOns : (s.modSheaf g i f).followOns = s.followOns := rfl
@[simp] theorem modSheaf_tierOps : (s.modSheaf g i f).tierOps = s.tierOps := rfl
@[simp] theorem modSheaf_mxTable : (s.modSheaf g i f).mxTable = s.mxTable := rfl
@[simp] theorem modSheaf_tiles : (s.modSheaf g i f).tiles = s.tiles := rfl
@[simp] theorem modSheaf_bayCtrs : (s.modSheaf g i f).bayCtrs = s.bayCtrs := rfl
@[simp] theorem modSheaf_jobs : (s.modSheaf g i f).jobs = s.jobs := rfl
@[simp] theorem modSheaf_nextJob : (s.modSheaf g i f).nextJob = s.nextJob := rfl
@[simp] theorem modSheaf_arbors : (s.modSheaf g i f).arbors = s.arbors := rfl
@[simp] theorem modSheaf_pkg : (s.modSheaf g i f).pkg = s.pkg := rfl
@[simp] theorem modSheaf_ports : (s.modSheaf g i f).ports = s.ports := rfl
@[simp] theorem modSheaf_deadPlanes : (s.modSheaf g i f).deadPlanes = s.deadPlanes := rfl
@[simp] theorem modSheaf_msgs : (s.modSheaf g i f).msgs = s.msgs := rfl
@[simp] theorem modSheaf_outgoing : (s.modSheaf g i f).outgoing = s.outgoing := rfl
@[simp] theorem modSheaf_fabReqs : (s.modSheaf g i f).fabReqs = s.fabReqs := rfl
@[simp] theorem modSheaf_chunkUses : (s.modSheaf g i f).chunkUses = s.chunkUses := rfl
@[simp] theorem modSheaf_featDev : (s.modSheaf g i f).featDev = s.featDev := rfl
@[simp] theorem modSheaf_featAcc : (s.modSheaf g i f).featAcc = s.featAcc := rfl
@[simp] theorem modSheaf_featWritten : (s.modSheaf g i f).featWritten = s.featWritten := rfl
@[simp] theorem modSheaf_alarm : (s.modSheaf g i f).alarm = s.alarm := rfl
@[simp] theorem modSheaf_arming : (s.modSheaf g i f).arming = s.arming := rfl
@[simp] theorem modSheaf_retrain : (s.modSheaf g i f).retrain = s.retrain := rfl
@[simp] theorem modSheaf_retrainWas : (s.modSheaf g i f).retrainWas = s.retrainWas := rfl
@[simp] theorem modSheaf_retrainAt : (s.modSheaf g i f).retrainAt = s.retrainAt := rfl
@[simp] theorem modSheaf_retrained : (s.modSheaf g i f).retrained = s.retrained := rfl
@[simp] theorem modSheaf_keys : (s.modSheaf g i f).keys = s.keys := rfl
@[simp] theorem modSheaf_resets : (s.modSheaf g i f).resets = s.resets := rfl
@[simp] theorem modSheaf_erasedAt : (s.modSheaf g i f).erasedAt = s.erasedAt := rfl
@[simp] theorem modSheaf_firmware : (s.modSheaf g i f).firmware = s.firmware := rfl
@[simp] theorem modSheaf_report : (s.modSheaf g i f).report = s.report := rfl
@[simp] theorem modSheaf_funcs : (s.modSheaf g i f).funcs = s.funcs := rfl
@[simp] theorem modSheaf_hostReads : (s.modSheaf g i f).hostReads = s.hostReads := rfl
@[simp] theorem modSheaf_regReads : (s.modSheaf g i f).regReads = s.regReads := rfl
@[simp] theorem modSheaf_waveOut : (s.modSheaf g i f).waveOut = s.waveOut := rfl
end modSheaf

/-! ### `modThread` -/
section modThread
variable (s : State) (g i l : Nat) (f : Thread → Thread)
@[simp] theorem modThread_now : (s.modThread g i l f).now = s.now := rfl
@[simp] theorem modThread_clocks : (s.modThread g i l f).clocks = s.clocks := rfl
@[simp] theorem modThread_cur : (s.modThread g i l f).cur = s.cur := rfl
@[simp] theorem modThread_nextId : (s.modThread g i l f).nextId = s.nextId := rfl
@[simp] theorem modThread_free : (s.modThread g i l f).free = s.free := rfl
@[simp] theorem modThread_agenda : (s.modThread g i l f).agenda = s.agenda := rfl
@[simp] theorem modThread_ranges : (s.modThread g i l f).ranges = s.ranges := rfl
@[simp] theorem modThread_mem : (s.modThread g i l f).mem = s.mem := rfl
@[simp] theorem modThread_devMem : (s.modThread g i l f).devMem = s.devMem := rfl
@[simp] theorem modThread_leaving : (s.modThread g i l f).leaving = s.leaving := rfl
@[simp] theorem modThread_seals : (s.modThread g i l f).seals = s.seals := rfl
@[simp] theorem modThread_l3 : (s.modThread g i l f).l3 = s.l3 := rfl
@[simp] theorem modThread_l2 : (s.modThread g i l f).l2 = s.l2 := rfl
@[simp] theorem modThread_l1 : (s.modThread g i l f).l1 = s.l1 := rfl
@[simp] theorem modThread_code : (s.modThread g i l f).code = s.code := rfl
@[simp] theorem modThread_peerBuf : (s.modThread g i l f).peerBuf = s.peerBuf := rfl
@[simp] theorem modThread_versions : (s.modThread g i l f).versions = s.versions := rfl
@[simp] theorem modThread_cxlCap : (s.modThread g i l f).cxlCap = s.cxlCap := rfl
@[simp] theorem modThread_retired : (s.modThread g i l f).retired = s.retired := rfl
@[simp] theorem modThread_cores : (s.modThread g i l f).cores = s.cores := rfl
@[simp] theorem modThread_stooks : (s.modThread g i l f).stooks = s.stooks := rfl
@[simp] theorem modThread_saved : (s.modThread g i l f).saved = s.saved := rfl
@[simp] theorem modThread_reqs : (s.modThread g i l f).reqs = s.reqs := rfl
@[simp] theorem modThread_results : (s.modThread g i l f).results = s.results := rfl
@[simp] theorem modThread_ops : (s.modThread g i l f).ops = s.ops := rfl
@[simp] theorem modThread_holds : (s.modThread g i l f).holds = s.holds := rfl
@[simp] theorem modThread_deferred : (s.modThread g i l f).deferred = s.deferred := rfl
@[simp] theorem modThread_copies : (s.modThread g i l f).copies = s.copies := rfl
@[simp] theorem modThread_followOns : (s.modThread g i l f).followOns = s.followOns := rfl
@[simp] theorem modThread_tierOps : (s.modThread g i l f).tierOps = s.tierOps := rfl
@[simp] theorem modThread_mxTable : (s.modThread g i l f).mxTable = s.mxTable := rfl
@[simp] theorem modThread_tiles : (s.modThread g i l f).tiles = s.tiles := rfl
@[simp] theorem modThread_bayCtrs : (s.modThread g i l f).bayCtrs = s.bayCtrs := rfl
@[simp] theorem modThread_jobs : (s.modThread g i l f).jobs = s.jobs := rfl
@[simp] theorem modThread_nextJob : (s.modThread g i l f).nextJob = s.nextJob := rfl
@[simp] theorem modThread_arbors : (s.modThread g i l f).arbors = s.arbors := rfl
@[simp] theorem modThread_pkg : (s.modThread g i l f).pkg = s.pkg := rfl
@[simp] theorem modThread_ports : (s.modThread g i l f).ports = s.ports := rfl
@[simp] theorem modThread_deadPlanes : (s.modThread g i l f).deadPlanes = s.deadPlanes := rfl
@[simp] theorem modThread_msgs : (s.modThread g i l f).msgs = s.msgs := rfl
@[simp] theorem modThread_outgoing : (s.modThread g i l f).outgoing = s.outgoing := rfl
@[simp] theorem modThread_fabReqs : (s.modThread g i l f).fabReqs = s.fabReqs := rfl
@[simp] theorem modThread_chunkUses : (s.modThread g i l f).chunkUses = s.chunkUses := rfl
@[simp] theorem modThread_featDev : (s.modThread g i l f).featDev = s.featDev := rfl
@[simp] theorem modThread_featAcc : (s.modThread g i l f).featAcc = s.featAcc := rfl
@[simp] theorem modThread_featWritten : (s.modThread g i l f).featWritten = s.featWritten := rfl
@[simp] theorem modThread_alarm : (s.modThread g i l f).alarm = s.alarm := rfl
@[simp] theorem modThread_arming : (s.modThread g i l f).arming = s.arming := rfl
@[simp] theorem modThread_retrain : (s.modThread g i l f).retrain = s.retrain := rfl
@[simp] theorem modThread_retrainWas : (s.modThread g i l f).retrainWas = s.retrainWas := rfl
@[simp] theorem modThread_retrainAt : (s.modThread g i l f).retrainAt = s.retrainAt := rfl
@[simp] theorem modThread_retrained : (s.modThread g i l f).retrained = s.retrained := rfl
@[simp] theorem modThread_keys : (s.modThread g i l f).keys = s.keys := rfl
@[simp] theorem modThread_resets : (s.modThread g i l f).resets = s.resets := rfl
@[simp] theorem modThread_erasedAt : (s.modThread g i l f).erasedAt = s.erasedAt := rfl
@[simp] theorem modThread_firmware : (s.modThread g i l f).firmware = s.firmware := rfl
@[simp] theorem modThread_report : (s.modThread g i l f).report = s.report := rfl
@[simp] theorem modThread_funcs : (s.modThread g i l f).funcs = s.funcs := rfl
@[simp] theorem modThread_hostReads : (s.modThread g i l f).hostReads = s.hostReads := rfl
@[simp] theorem modThread_regReads : (s.modThread g i l f).regReads = s.regReads := rfl
@[simp] theorem modThread_waveOut : (s.modThread g i l f).waveOut = s.waveOut := rfl
end modThread

/-! ### `modThreads` -/
section modThreads
variable (s : State) (g i : Nat) (m : Lanes) (f : Thread → Thread)
@[simp] theorem modThreads_now : (s.modThreads g i m f).now = s.now := rfl
@[simp] theorem modThreads_clocks : (s.modThreads g i m f).clocks = s.clocks := rfl
@[simp] theorem modThreads_cur : (s.modThreads g i m f).cur = s.cur := rfl
@[simp] theorem modThreads_nextId : (s.modThreads g i m f).nextId = s.nextId := rfl
@[simp] theorem modThreads_free : (s.modThreads g i m f).free = s.free := rfl
@[simp] theorem modThreads_agenda : (s.modThreads g i m f).agenda = s.agenda := rfl
@[simp] theorem modThreads_ranges : (s.modThreads g i m f).ranges = s.ranges := rfl
@[simp] theorem modThreads_mem : (s.modThreads g i m f).mem = s.mem := rfl
@[simp] theorem modThreads_devMem : (s.modThreads g i m f).devMem = s.devMem := rfl
@[simp] theorem modThreads_leaving : (s.modThreads g i m f).leaving = s.leaving := rfl
@[simp] theorem modThreads_seals : (s.modThreads g i m f).seals = s.seals := rfl
@[simp] theorem modThreads_l3 : (s.modThreads g i m f).l3 = s.l3 := rfl
@[simp] theorem modThreads_l2 : (s.modThreads g i m f).l2 = s.l2 := rfl
@[simp] theorem modThreads_l1 : (s.modThreads g i m f).l1 = s.l1 := rfl
@[simp] theorem modThreads_code : (s.modThreads g i m f).code = s.code := rfl
@[simp] theorem modThreads_peerBuf : (s.modThreads g i m f).peerBuf = s.peerBuf := rfl
@[simp] theorem modThreads_versions : (s.modThreads g i m f).versions = s.versions := rfl
@[simp] theorem modThreads_cxlCap : (s.modThreads g i m f).cxlCap = s.cxlCap := rfl
@[simp] theorem modThreads_retired : (s.modThreads g i m f).retired = s.retired := rfl
@[simp] theorem modThreads_cores : (s.modThreads g i m f).cores = s.cores := rfl
@[simp] theorem modThreads_stooks : (s.modThreads g i m f).stooks = s.stooks := rfl
@[simp] theorem modThreads_saved : (s.modThreads g i m f).saved = s.saved := rfl
@[simp] theorem modThreads_reqs : (s.modThreads g i m f).reqs = s.reqs := rfl
@[simp] theorem modThreads_results : (s.modThreads g i m f).results = s.results := rfl
@[simp] theorem modThreads_ops : (s.modThreads g i m f).ops = s.ops := rfl
@[simp] theorem modThreads_holds : (s.modThreads g i m f).holds = s.holds := rfl
@[simp] theorem modThreads_deferred : (s.modThreads g i m f).deferred = s.deferred := rfl
@[simp] theorem modThreads_copies : (s.modThreads g i m f).copies = s.copies := rfl
@[simp] theorem modThreads_followOns : (s.modThreads g i m f).followOns = s.followOns := rfl
@[simp] theorem modThreads_tierOps : (s.modThreads g i m f).tierOps = s.tierOps := rfl
@[simp] theorem modThreads_mxTable : (s.modThreads g i m f).mxTable = s.mxTable := rfl
@[simp] theorem modThreads_tiles : (s.modThreads g i m f).tiles = s.tiles := rfl
@[simp] theorem modThreads_bayCtrs : (s.modThreads g i m f).bayCtrs = s.bayCtrs := rfl
@[simp] theorem modThreads_jobs : (s.modThreads g i m f).jobs = s.jobs := rfl
@[simp] theorem modThreads_nextJob : (s.modThreads g i m f).nextJob = s.nextJob := rfl
@[simp] theorem modThreads_arbors : (s.modThreads g i m f).arbors = s.arbors := rfl
@[simp] theorem modThreads_pkg : (s.modThreads g i m f).pkg = s.pkg := rfl
@[simp] theorem modThreads_ports : (s.modThreads g i m f).ports = s.ports := rfl
@[simp] theorem modThreads_deadPlanes : (s.modThreads g i m f).deadPlanes = s.deadPlanes := rfl
@[simp] theorem modThreads_msgs : (s.modThreads g i m f).msgs = s.msgs := rfl
@[simp] theorem modThreads_outgoing : (s.modThreads g i m f).outgoing = s.outgoing := rfl
@[simp] theorem modThreads_fabReqs : (s.modThreads g i m f).fabReqs = s.fabReqs := rfl
@[simp] theorem modThreads_chunkUses : (s.modThreads g i m f).chunkUses = s.chunkUses := rfl
@[simp] theorem modThreads_featDev : (s.modThreads g i m f).featDev = s.featDev := rfl
@[simp] theorem modThreads_featAcc : (s.modThreads g i m f).featAcc = s.featAcc := rfl
@[simp] theorem modThreads_featWritten : (s.modThreads g i m f).featWritten = s.featWritten := rfl
@[simp] theorem modThreads_alarm : (s.modThreads g i m f).alarm = s.alarm := rfl
@[simp] theorem modThreads_arming : (s.modThreads g i m f).arming = s.arming := rfl
@[simp] theorem modThreads_retrain : (s.modThreads g i m f).retrain = s.retrain := rfl
@[simp] theorem modThreads_retrainWas : (s.modThreads g i m f).retrainWas = s.retrainWas := rfl
@[simp] theorem modThreads_retrainAt : (s.modThreads g i m f).retrainAt = s.retrainAt := rfl
@[simp] theorem modThreads_retrained : (s.modThreads g i m f).retrained = s.retrained := rfl
@[simp] theorem modThreads_keys : (s.modThreads g i m f).keys = s.keys := rfl
@[simp] theorem modThreads_resets : (s.modThreads g i m f).resets = s.resets := rfl
@[simp] theorem modThreads_erasedAt : (s.modThreads g i m f).erasedAt = s.erasedAt := rfl
@[simp] theorem modThreads_firmware : (s.modThreads g i m f).firmware = s.firmware := rfl
@[simp] theorem modThreads_report : (s.modThreads g i m f).report = s.report := rfl
@[simp] theorem modThreads_funcs : (s.modThreads g i m f).funcs = s.funcs := rfl
@[simp] theorem modThreads_hostReads : (s.modThreads g i m f).hostReads = s.hostReads := rfl
@[simp] theorem modThreads_regReads : (s.modThreads g i m f).regReads = s.regReads := rfl
@[simp] theorem modThreads_waveOut : (s.modThreads g i m f).waveOut = s.waveOut := rfl
end modThreads

/-! ### `modStook` -/
section modStook
variable (s : State) (g : Nat) (f : Stook → Stook)
@[simp] theorem modStook_now : (s.modStook g f).now = s.now := rfl
@[simp] theorem modStook_clocks : (s.modStook g f).clocks = s.clocks := rfl
@[simp] theorem modStook_cur : (s.modStook g f).cur = s.cur := rfl
@[simp] theorem modStook_nextId : (s.modStook g f).nextId = s.nextId := rfl
@[simp] theorem modStook_free : (s.modStook g f).free = s.free := rfl
@[simp] theorem modStook_agenda : (s.modStook g f).agenda = s.agenda := rfl
@[simp] theorem modStook_ranges : (s.modStook g f).ranges = s.ranges := rfl
@[simp] theorem modStook_mem : (s.modStook g f).mem = s.mem := rfl
@[simp] theorem modStook_devMem : (s.modStook g f).devMem = s.devMem := rfl
@[simp] theorem modStook_leaving : (s.modStook g f).leaving = s.leaving := rfl
@[simp] theorem modStook_seals : (s.modStook g f).seals = s.seals := rfl
@[simp] theorem modStook_l3 : (s.modStook g f).l3 = s.l3 := rfl
@[simp] theorem modStook_l2 : (s.modStook g f).l2 = s.l2 := rfl
@[simp] theorem modStook_l1 : (s.modStook g f).l1 = s.l1 := rfl
@[simp] theorem modStook_code : (s.modStook g f).code = s.code := rfl
@[simp] theorem modStook_peerBuf : (s.modStook g f).peerBuf = s.peerBuf := rfl
@[simp] theorem modStook_versions : (s.modStook g f).versions = s.versions := rfl
@[simp] theorem modStook_cxlCap : (s.modStook g f).cxlCap = s.cxlCap := rfl
@[simp] theorem modStook_retired : (s.modStook g f).retired = s.retired := rfl
@[simp] theorem modStook_cores : (s.modStook g f).cores = s.cores := rfl
@[simp] theorem modStook_sheaves : (s.modStook g f).sheaves = s.sheaves := rfl
@[simp] theorem modStook_saved : (s.modStook g f).saved = s.saved := rfl
@[simp] theorem modStook_reqs : (s.modStook g f).reqs = s.reqs := rfl
@[simp] theorem modStook_results : (s.modStook g f).results = s.results := rfl
@[simp] theorem modStook_ops : (s.modStook g f).ops = s.ops := rfl
@[simp] theorem modStook_holds : (s.modStook g f).holds = s.holds := rfl
@[simp] theorem modStook_deferred : (s.modStook g f).deferred = s.deferred := rfl
@[simp] theorem modStook_copies : (s.modStook g f).copies = s.copies := rfl
@[simp] theorem modStook_followOns : (s.modStook g f).followOns = s.followOns := rfl
@[simp] theorem modStook_tierOps : (s.modStook g f).tierOps = s.tierOps := rfl
@[simp] theorem modStook_mxTable : (s.modStook g f).mxTable = s.mxTable := rfl
@[simp] theorem modStook_tiles : (s.modStook g f).tiles = s.tiles := rfl
@[simp] theorem modStook_bayCtrs : (s.modStook g f).bayCtrs = s.bayCtrs := rfl
@[simp] theorem modStook_jobs : (s.modStook g f).jobs = s.jobs := rfl
@[simp] theorem modStook_nextJob : (s.modStook g f).nextJob = s.nextJob := rfl
@[simp] theorem modStook_arbors : (s.modStook g f).arbors = s.arbors := rfl
@[simp] theorem modStook_pkg : (s.modStook g f).pkg = s.pkg := rfl
@[simp] theorem modStook_ports : (s.modStook g f).ports = s.ports := rfl
@[simp] theorem modStook_deadPlanes : (s.modStook g f).deadPlanes = s.deadPlanes := rfl
@[simp] theorem modStook_msgs : (s.modStook g f).msgs = s.msgs := rfl
@[simp] theorem modStook_outgoing : (s.modStook g f).outgoing = s.outgoing := rfl
@[simp] theorem modStook_fabReqs : (s.modStook g f).fabReqs = s.fabReqs := rfl
@[simp] theorem modStook_chunkUses : (s.modStook g f).chunkUses = s.chunkUses := rfl
@[simp] theorem modStook_featDev : (s.modStook g f).featDev = s.featDev := rfl
@[simp] theorem modStook_featAcc : (s.modStook g f).featAcc = s.featAcc := rfl
@[simp] theorem modStook_featWritten : (s.modStook g f).featWritten = s.featWritten := rfl
@[simp] theorem modStook_alarm : (s.modStook g f).alarm = s.alarm := rfl
@[simp] theorem modStook_arming : (s.modStook g f).arming = s.arming := rfl
@[simp] theorem modStook_retrain : (s.modStook g f).retrain = s.retrain := rfl
@[simp] theorem modStook_retrainWas : (s.modStook g f).retrainWas = s.retrainWas := rfl
@[simp] theorem modStook_retrainAt : (s.modStook g f).retrainAt = s.retrainAt := rfl
@[simp] theorem modStook_retrained : (s.modStook g f).retrained = s.retrained := rfl
@[simp] theorem modStook_keys : (s.modStook g f).keys = s.keys := rfl
@[simp] theorem modStook_resets : (s.modStook g f).resets = s.resets := rfl
@[simp] theorem modStook_erasedAt : (s.modStook g f).erasedAt = s.erasedAt := rfl
@[simp] theorem modStook_firmware : (s.modStook g f).firmware = s.firmware := rfl
@[simp] theorem modStook_report : (s.modStook g f).report = s.report := rfl
@[simp] theorem modStook_funcs : (s.modStook g f).funcs = s.funcs := rfl
@[simp] theorem modStook_hostReads : (s.modStook g f).hostReads = s.hostReads := rfl
@[simp] theorem modStook_regReads : (s.modStook g f).regReads = s.regReads := rfl
@[simp] theorem modStook_waveOut : (s.modStook g f).waveOut = s.waveOut := rfl
end modStook

/-! ### `modJob` -/
section modJob
variable (s : State) (j : Nat) (f : Job → Job)
@[simp] theorem modJob_now : (s.modJob j f).now = s.now := rfl
@[simp] theorem modJob_clocks : (s.modJob j f).clocks = s.clocks := rfl
@[simp] theorem modJob_cur : (s.modJob j f).cur = s.cur := rfl
@[simp] theorem modJob_nextId : (s.modJob j f).nextId = s.nextId := rfl
@[simp] theorem modJob_free : (s.modJob j f).free = s.free := rfl
@[simp] theorem modJob_agenda : (s.modJob j f).agenda = s.agenda := rfl
@[simp] theorem modJob_ranges : (s.modJob j f).ranges = s.ranges := rfl
@[simp] theorem modJob_mem : (s.modJob j f).mem = s.mem := rfl
@[simp] theorem modJob_devMem : (s.modJob j f).devMem = s.devMem := rfl
@[simp] theorem modJob_leaving : (s.modJob j f).leaving = s.leaving := rfl
@[simp] theorem modJob_seals : (s.modJob j f).seals = s.seals := rfl
@[simp] theorem modJob_l3 : (s.modJob j f).l3 = s.l3 := rfl
@[simp] theorem modJob_l2 : (s.modJob j f).l2 = s.l2 := rfl
@[simp] theorem modJob_l1 : (s.modJob j f).l1 = s.l1 := rfl
@[simp] theorem modJob_code : (s.modJob j f).code = s.code := rfl
@[simp] theorem modJob_peerBuf : (s.modJob j f).peerBuf = s.peerBuf := rfl
@[simp] theorem modJob_versions : (s.modJob j f).versions = s.versions := rfl
@[simp] theorem modJob_cxlCap : (s.modJob j f).cxlCap = s.cxlCap := rfl
@[simp] theorem modJob_retired : (s.modJob j f).retired = s.retired := rfl
@[simp] theorem modJob_cores : (s.modJob j f).cores = s.cores := rfl
@[simp] theorem modJob_sheaves : (s.modJob j f).sheaves = s.sheaves := rfl
@[simp] theorem modJob_stooks : (s.modJob j f).stooks = s.stooks := rfl
@[simp] theorem modJob_saved : (s.modJob j f).saved = s.saved := rfl
@[simp] theorem modJob_reqs : (s.modJob j f).reqs = s.reqs := rfl
@[simp] theorem modJob_results : (s.modJob j f).results = s.results := rfl
@[simp] theorem modJob_ops : (s.modJob j f).ops = s.ops := rfl
@[simp] theorem modJob_holds : (s.modJob j f).holds = s.holds := rfl
@[simp] theorem modJob_deferred : (s.modJob j f).deferred = s.deferred := rfl
@[simp] theorem modJob_copies : (s.modJob j f).copies = s.copies := rfl
@[simp] theorem modJob_followOns : (s.modJob j f).followOns = s.followOns := rfl
@[simp] theorem modJob_tierOps : (s.modJob j f).tierOps = s.tierOps := rfl
@[simp] theorem modJob_mxTable : (s.modJob j f).mxTable = s.mxTable := rfl
@[simp] theorem modJob_tiles : (s.modJob j f).tiles = s.tiles := rfl
@[simp] theorem modJob_bayCtrs : (s.modJob j f).bayCtrs = s.bayCtrs := rfl
@[simp] theorem modJob_nextJob : (s.modJob j f).nextJob = s.nextJob := rfl
@[simp] theorem modJob_arbors : (s.modJob j f).arbors = s.arbors := rfl
@[simp] theorem modJob_pkg : (s.modJob j f).pkg = s.pkg := rfl
@[simp] theorem modJob_ports : (s.modJob j f).ports = s.ports := rfl
@[simp] theorem modJob_deadPlanes : (s.modJob j f).deadPlanes = s.deadPlanes := rfl
@[simp] theorem modJob_msgs : (s.modJob j f).msgs = s.msgs := rfl
@[simp] theorem modJob_outgoing : (s.modJob j f).outgoing = s.outgoing := rfl
@[simp] theorem modJob_fabReqs : (s.modJob j f).fabReqs = s.fabReqs := rfl
@[simp] theorem modJob_chunkUses : (s.modJob j f).chunkUses = s.chunkUses := rfl
@[simp] theorem modJob_featDev : (s.modJob j f).featDev = s.featDev := rfl
@[simp] theorem modJob_featAcc : (s.modJob j f).featAcc = s.featAcc := rfl
@[simp] theorem modJob_featWritten : (s.modJob j f).featWritten = s.featWritten := rfl
@[simp] theorem modJob_alarm : (s.modJob j f).alarm = s.alarm := rfl
@[simp] theorem modJob_arming : (s.modJob j f).arming = s.arming := rfl
@[simp] theorem modJob_retrain : (s.modJob j f).retrain = s.retrain := rfl
@[simp] theorem modJob_retrainWas : (s.modJob j f).retrainWas = s.retrainWas := rfl
@[simp] theorem modJob_retrainAt : (s.modJob j f).retrainAt = s.retrainAt := rfl
@[simp] theorem modJob_retrained : (s.modJob j f).retrained = s.retrained := rfl
@[simp] theorem modJob_keys : (s.modJob j f).keys = s.keys := rfl
@[simp] theorem modJob_resets : (s.modJob j f).resets = s.resets := rfl
@[simp] theorem modJob_erasedAt : (s.modJob j f).erasedAt = s.erasedAt := rfl
@[simp] theorem modJob_firmware : (s.modJob j f).firmware = s.firmware := rfl
@[simp] theorem modJob_report : (s.modJob j f).report = s.report := rfl
@[simp] theorem modJob_funcs : (s.modJob j f).funcs = s.funcs := rfl
@[simp] theorem modJob_hostReads : (s.modJob j f).hostReads = s.hostReads := rfl
@[simp] theorem modJob_regReads : (s.modJob j f).regReads = s.regReads := rfl
@[simp] theorem modJob_waveOut : (s.modJob j f).waveOut = s.waveOut := rfl
end modJob

/-! ### `modRange` -/
section modRange
variable (s : State) (x : Nat) (f : RangeEnt → RangeEnt)
@[simp] theorem modRange_now : (s.modRange x f).now = s.now := rfl
@[simp] theorem modRange_clocks : (s.modRange x f).clocks = s.clocks := rfl
@[simp] theorem modRange_cur : (s.modRange x f).cur = s.cur := rfl
@[simp] theorem modRange_nextId : (s.modRange x f).nextId = s.nextId := rfl
@[simp] theorem modRange_free : (s.modRange x f).free = s.free := rfl
@[simp] theorem modRange_agenda : (s.modRange x f).agenda = s.agenda := rfl
@[simp] theorem modRange_mem : (s.modRange x f).mem = s.mem := rfl
@[simp] theorem modRange_devMem : (s.modRange x f).devMem = s.devMem := rfl
@[simp] theorem modRange_leaving : (s.modRange x f).leaving = s.leaving := rfl
@[simp] theorem modRange_seals : (s.modRange x f).seals = s.seals := rfl
@[simp] theorem modRange_l3 : (s.modRange x f).l3 = s.l3 := rfl
@[simp] theorem modRange_l2 : (s.modRange x f).l2 = s.l2 := rfl
@[simp] theorem modRange_l1 : (s.modRange x f).l1 = s.l1 := rfl
@[simp] theorem modRange_code : (s.modRange x f).code = s.code := rfl
@[simp] theorem modRange_peerBuf : (s.modRange x f).peerBuf = s.peerBuf := rfl
@[simp] theorem modRange_versions : (s.modRange x f).versions = s.versions := rfl
@[simp] theorem modRange_cxlCap : (s.modRange x f).cxlCap = s.cxlCap := rfl
@[simp] theorem modRange_retired : (s.modRange x f).retired = s.retired := rfl
@[simp] theorem modRange_cores : (s.modRange x f).cores = s.cores := rfl
@[simp] theorem modRange_sheaves : (s.modRange x f).sheaves = s.sheaves := rfl
@[simp] theorem modRange_stooks : (s.modRange x f).stooks = s.stooks := rfl
@[simp] theorem modRange_saved : (s.modRange x f).saved = s.saved := rfl
@[simp] theorem modRange_reqs : (s.modRange x f).reqs = s.reqs := rfl
@[simp] theorem modRange_results : (s.modRange x f).results = s.results := rfl
@[simp] theorem modRange_ops : (s.modRange x f).ops = s.ops := rfl
@[simp] theorem modRange_holds : (s.modRange x f).holds = s.holds := rfl
@[simp] theorem modRange_deferred : (s.modRange x f).deferred = s.deferred := rfl
@[simp] theorem modRange_copies : (s.modRange x f).copies = s.copies := rfl
@[simp] theorem modRange_followOns : (s.modRange x f).followOns = s.followOns := rfl
@[simp] theorem modRange_tierOps : (s.modRange x f).tierOps = s.tierOps := rfl
@[simp] theorem modRange_mxTable : (s.modRange x f).mxTable = s.mxTable := rfl
@[simp] theorem modRange_tiles : (s.modRange x f).tiles = s.tiles := rfl
@[simp] theorem modRange_bayCtrs : (s.modRange x f).bayCtrs = s.bayCtrs := rfl
@[simp] theorem modRange_jobs : (s.modRange x f).jobs = s.jobs := rfl
@[simp] theorem modRange_nextJob : (s.modRange x f).nextJob = s.nextJob := rfl
@[simp] theorem modRange_arbors : (s.modRange x f).arbors = s.arbors := rfl
@[simp] theorem modRange_pkg : (s.modRange x f).pkg = s.pkg := rfl
@[simp] theorem modRange_ports : (s.modRange x f).ports = s.ports := rfl
@[simp] theorem modRange_deadPlanes : (s.modRange x f).deadPlanes = s.deadPlanes := rfl
@[simp] theorem modRange_msgs : (s.modRange x f).msgs = s.msgs := rfl
@[simp] theorem modRange_outgoing : (s.modRange x f).outgoing = s.outgoing := rfl
@[simp] theorem modRange_fabReqs : (s.modRange x f).fabReqs = s.fabReqs := rfl
@[simp] theorem modRange_chunkUses : (s.modRange x f).chunkUses = s.chunkUses := rfl
@[simp] theorem modRange_featDev : (s.modRange x f).featDev = s.featDev := rfl
@[simp] theorem modRange_featAcc : (s.modRange x f).featAcc = s.featAcc := rfl
@[simp] theorem modRange_featWritten : (s.modRange x f).featWritten = s.featWritten := rfl
@[simp] theorem modRange_alarm : (s.modRange x f).alarm = s.alarm := rfl
@[simp] theorem modRange_arming : (s.modRange x f).arming = s.arming := rfl
@[simp] theorem modRange_retrain : (s.modRange x f).retrain = s.retrain := rfl
@[simp] theorem modRange_retrainWas : (s.modRange x f).retrainWas = s.retrainWas := rfl
@[simp] theorem modRange_retrainAt : (s.modRange x f).retrainAt = s.retrainAt := rfl
@[simp] theorem modRange_retrained : (s.modRange x f).retrained = s.retrained := rfl
@[simp] theorem modRange_keys : (s.modRange x f).keys = s.keys := rfl
@[simp] theorem modRange_resets : (s.modRange x f).resets = s.resets := rfl
@[simp] theorem modRange_erasedAt : (s.modRange x f).erasedAt = s.erasedAt := rfl
@[simp] theorem modRange_firmware : (s.modRange x f).firmware = s.firmware := rfl
@[simp] theorem modRange_report : (s.modRange x f).report = s.report := rfl
@[simp] theorem modRange_funcs : (s.modRange x f).funcs = s.funcs := rfl
@[simp] theorem modRange_hostReads : (s.modRange x f).hostReads = s.hostReads := rfl
@[simp] theorem modRange_regReads : (s.modRange x f).regReads = s.regReads := rfl
@[simp] theorem modRange_waveOut : (s.modRange x f).waveOut = s.waveOut := rfl
end modRange

/-! ### `modFunc` -/
section modFunc
variable (s : State) (n : Nat) (f : Func → Func)
@[simp] theorem modFunc_now : (s.modFunc n f).now = s.now := rfl
@[simp] theorem modFunc_clocks : (s.modFunc n f).clocks = s.clocks := rfl
@[simp] theorem modFunc_cur : (s.modFunc n f).cur = s.cur := rfl
@[simp] theorem modFunc_nextId : (s.modFunc n f).nextId = s.nextId := rfl
@[simp] theorem modFunc_free : (s.modFunc n f).free = s.free := rfl
@[simp] theorem modFunc_agenda : (s.modFunc n f).agenda = s.agenda := rfl
@[simp] theorem modFunc_ranges : (s.modFunc n f).ranges = s.ranges := rfl
@[simp] theorem modFunc_mem : (s.modFunc n f).mem = s.mem := rfl
@[simp] theorem modFunc_devMem : (s.modFunc n f).devMem = s.devMem := rfl
@[simp] theorem modFunc_leaving : (s.modFunc n f).leaving = s.leaving := rfl
@[simp] theorem modFunc_seals : (s.modFunc n f).seals = s.seals := rfl
@[simp] theorem modFunc_l3 : (s.modFunc n f).l3 = s.l3 := rfl
@[simp] theorem modFunc_l2 : (s.modFunc n f).l2 = s.l2 := rfl
@[simp] theorem modFunc_l1 : (s.modFunc n f).l1 = s.l1 := rfl
@[simp] theorem modFunc_code : (s.modFunc n f).code = s.code := rfl
@[simp] theorem modFunc_peerBuf : (s.modFunc n f).peerBuf = s.peerBuf := rfl
@[simp] theorem modFunc_versions : (s.modFunc n f).versions = s.versions := rfl
@[simp] theorem modFunc_cxlCap : (s.modFunc n f).cxlCap = s.cxlCap := rfl
@[simp] theorem modFunc_retired : (s.modFunc n f).retired = s.retired := rfl
@[simp] theorem modFunc_cores : (s.modFunc n f).cores = s.cores := rfl
@[simp] theorem modFunc_sheaves : (s.modFunc n f).sheaves = s.sheaves := rfl
@[simp] theorem modFunc_stooks : (s.modFunc n f).stooks = s.stooks := rfl
@[simp] theorem modFunc_saved : (s.modFunc n f).saved = s.saved := rfl
@[simp] theorem modFunc_reqs : (s.modFunc n f).reqs = s.reqs := rfl
@[simp] theorem modFunc_results : (s.modFunc n f).results = s.results := rfl
@[simp] theorem modFunc_ops : (s.modFunc n f).ops = s.ops := rfl
@[simp] theorem modFunc_holds : (s.modFunc n f).holds = s.holds := rfl
@[simp] theorem modFunc_deferred : (s.modFunc n f).deferred = s.deferred := rfl
@[simp] theorem modFunc_copies : (s.modFunc n f).copies = s.copies := rfl
@[simp] theorem modFunc_followOns : (s.modFunc n f).followOns = s.followOns := rfl
@[simp] theorem modFunc_tierOps : (s.modFunc n f).tierOps = s.tierOps := rfl
@[simp] theorem modFunc_mxTable : (s.modFunc n f).mxTable = s.mxTable := rfl
@[simp] theorem modFunc_tiles : (s.modFunc n f).tiles = s.tiles := rfl
@[simp] theorem modFunc_bayCtrs : (s.modFunc n f).bayCtrs = s.bayCtrs := rfl
@[simp] theorem modFunc_jobs : (s.modFunc n f).jobs = s.jobs := rfl
@[simp] theorem modFunc_nextJob : (s.modFunc n f).nextJob = s.nextJob := rfl
@[simp] theorem modFunc_arbors : (s.modFunc n f).arbors = s.arbors := rfl
@[simp] theorem modFunc_pkg : (s.modFunc n f).pkg = s.pkg := rfl
@[simp] theorem modFunc_ports : (s.modFunc n f).ports = s.ports := rfl
@[simp] theorem modFunc_deadPlanes : (s.modFunc n f).deadPlanes = s.deadPlanes := rfl
@[simp] theorem modFunc_msgs : (s.modFunc n f).msgs = s.msgs := rfl
@[simp] theorem modFunc_outgoing : (s.modFunc n f).outgoing = s.outgoing := rfl
@[simp] theorem modFunc_fabReqs : (s.modFunc n f).fabReqs = s.fabReqs := rfl
@[simp] theorem modFunc_chunkUses : (s.modFunc n f).chunkUses = s.chunkUses := rfl
@[simp] theorem modFunc_featDev : (s.modFunc n f).featDev = s.featDev := rfl
@[simp] theorem modFunc_featAcc : (s.modFunc n f).featAcc = s.featAcc := rfl
@[simp] theorem modFunc_featWritten : (s.modFunc n f).featWritten = s.featWritten := rfl
@[simp] theorem modFunc_alarm : (s.modFunc n f).alarm = s.alarm := rfl
@[simp] theorem modFunc_arming : (s.modFunc n f).arming = s.arming := rfl
@[simp] theorem modFunc_retrain : (s.modFunc n f).retrain = s.retrain := rfl
@[simp] theorem modFunc_retrainWas : (s.modFunc n f).retrainWas = s.retrainWas := rfl
@[simp] theorem modFunc_retrainAt : (s.modFunc n f).retrainAt = s.retrainAt := rfl
@[simp] theorem modFunc_retrained : (s.modFunc n f).retrained = s.retrained := rfl
@[simp] theorem modFunc_keys : (s.modFunc n f).keys = s.keys := rfl
@[simp] theorem modFunc_resets : (s.modFunc n f).resets = s.resets := rfl
@[simp] theorem modFunc_erasedAt : (s.modFunc n f).erasedAt = s.erasedAt := rfl
@[simp] theorem modFunc_firmware : (s.modFunc n f).firmware = s.firmware := rfl
@[simp] theorem modFunc_report : (s.modFunc n f).report = s.report := rfl
@[simp] theorem modFunc_hostReads : (s.modFunc n f).hostReads = s.hostReads := rfl
@[simp] theorem modFunc_regReads : (s.modFunc n f).regReads = s.regReads := rfl
@[simp] theorem modFunc_waveOut : (s.modFunc n f).waveOut = s.waveOut := rfl
end modFunc

/-! ### `modArbor` -/
section modArbor
variable (s : State) (a : Nat) (f : Arbor → Arbor)
@[simp] theorem modArbor_now : (s.modArbor a f).now = s.now := rfl
@[simp] theorem modArbor_clocks : (s.modArbor a f).clocks = s.clocks := rfl
@[simp] theorem modArbor_cur : (s.modArbor a f).cur = s.cur := rfl
@[simp] theorem modArbor_nextId : (s.modArbor a f).nextId = s.nextId := rfl
@[simp] theorem modArbor_free : (s.modArbor a f).free = s.free := rfl
@[simp] theorem modArbor_agenda : (s.modArbor a f).agenda = s.agenda := rfl
@[simp] theorem modArbor_ranges : (s.modArbor a f).ranges = s.ranges := rfl
@[simp] theorem modArbor_mem : (s.modArbor a f).mem = s.mem := rfl
@[simp] theorem modArbor_devMem : (s.modArbor a f).devMem = s.devMem := rfl
@[simp] theorem modArbor_leaving : (s.modArbor a f).leaving = s.leaving := rfl
@[simp] theorem modArbor_seals : (s.modArbor a f).seals = s.seals := rfl
@[simp] theorem modArbor_l3 : (s.modArbor a f).l3 = s.l3 := rfl
@[simp] theorem modArbor_l2 : (s.modArbor a f).l2 = s.l2 := rfl
@[simp] theorem modArbor_l1 : (s.modArbor a f).l1 = s.l1 := rfl
@[simp] theorem modArbor_code : (s.modArbor a f).code = s.code := rfl
@[simp] theorem modArbor_peerBuf : (s.modArbor a f).peerBuf = s.peerBuf := rfl
@[simp] theorem modArbor_versions : (s.modArbor a f).versions = s.versions := rfl
@[simp] theorem modArbor_cxlCap : (s.modArbor a f).cxlCap = s.cxlCap := rfl
@[simp] theorem modArbor_retired : (s.modArbor a f).retired = s.retired := rfl
@[simp] theorem modArbor_cores : (s.modArbor a f).cores = s.cores := rfl
@[simp] theorem modArbor_sheaves : (s.modArbor a f).sheaves = s.sheaves := rfl
@[simp] theorem modArbor_stooks : (s.modArbor a f).stooks = s.stooks := rfl
@[simp] theorem modArbor_saved : (s.modArbor a f).saved = s.saved := rfl
@[simp] theorem modArbor_reqs : (s.modArbor a f).reqs = s.reqs := rfl
@[simp] theorem modArbor_results : (s.modArbor a f).results = s.results := rfl
@[simp] theorem modArbor_ops : (s.modArbor a f).ops = s.ops := rfl
@[simp] theorem modArbor_holds : (s.modArbor a f).holds = s.holds := rfl
@[simp] theorem modArbor_deferred : (s.modArbor a f).deferred = s.deferred := rfl
@[simp] theorem modArbor_copies : (s.modArbor a f).copies = s.copies := rfl
@[simp] theorem modArbor_followOns : (s.modArbor a f).followOns = s.followOns := rfl
@[simp] theorem modArbor_tierOps : (s.modArbor a f).tierOps = s.tierOps := rfl
@[simp] theorem modArbor_mxTable : (s.modArbor a f).mxTable = s.mxTable := rfl
@[simp] theorem modArbor_tiles : (s.modArbor a f).tiles = s.tiles := rfl
@[simp] theorem modArbor_bayCtrs : (s.modArbor a f).bayCtrs = s.bayCtrs := rfl
@[simp] theorem modArbor_jobs : (s.modArbor a f).jobs = s.jobs := rfl
@[simp] theorem modArbor_nextJob : (s.modArbor a f).nextJob = s.nextJob := rfl
@[simp] theorem modArbor_pkg : (s.modArbor a f).pkg = s.pkg := rfl
@[simp] theorem modArbor_ports : (s.modArbor a f).ports = s.ports := rfl
@[simp] theorem modArbor_deadPlanes : (s.modArbor a f).deadPlanes = s.deadPlanes := rfl
@[simp] theorem modArbor_msgs : (s.modArbor a f).msgs = s.msgs := rfl
@[simp] theorem modArbor_outgoing : (s.modArbor a f).outgoing = s.outgoing := rfl
@[simp] theorem modArbor_fabReqs : (s.modArbor a f).fabReqs = s.fabReqs := rfl
@[simp] theorem modArbor_chunkUses : (s.modArbor a f).chunkUses = s.chunkUses := rfl
@[simp] theorem modArbor_featDev : (s.modArbor a f).featDev = s.featDev := rfl
@[simp] theorem modArbor_featAcc : (s.modArbor a f).featAcc = s.featAcc := rfl
@[simp] theorem modArbor_featWritten : (s.modArbor a f).featWritten = s.featWritten := rfl
@[simp] theorem modArbor_alarm : (s.modArbor a f).alarm = s.alarm := rfl
@[simp] theorem modArbor_arming : (s.modArbor a f).arming = s.arming := rfl
@[simp] theorem modArbor_retrain : (s.modArbor a f).retrain = s.retrain := rfl
@[simp] theorem modArbor_retrainWas : (s.modArbor a f).retrainWas = s.retrainWas := rfl
@[simp] theorem modArbor_retrainAt : (s.modArbor a f).retrainAt = s.retrainAt := rfl
@[simp] theorem modArbor_retrained : (s.modArbor a f).retrained = s.retrained := rfl
@[simp] theorem modArbor_keys : (s.modArbor a f).keys = s.keys := rfl
@[simp] theorem modArbor_resets : (s.modArbor a f).resets = s.resets := rfl
@[simp] theorem modArbor_erasedAt : (s.modArbor a f).erasedAt = s.erasedAt := rfl
@[simp] theorem modArbor_firmware : (s.modArbor a f).firmware = s.firmware := rfl
@[simp] theorem modArbor_report : (s.modArbor a f).report = s.report := rfl
@[simp] theorem modArbor_funcs : (s.modArbor a f).funcs = s.funcs := rfl
@[simp] theorem modArbor_hostReads : (s.modArbor a f).hostReads = s.hostReads := rfl
@[simp] theorem modArbor_regReads : (s.modArbor a f).regReads = s.regReads := rfl
@[simp] theorem modArbor_waveOut : (s.modArbor a f).waveOut = s.waveOut := rfl
end modArbor

/-! ### `modBayCtr` -/
section modBayCtr
variable (s : State) (d b : Nat) (f : BayCtr → BayCtr)
@[simp] theorem modBayCtr_now : (s.modBayCtr d b f).now = s.now := rfl
@[simp] theorem modBayCtr_clocks : (s.modBayCtr d b f).clocks = s.clocks := rfl
@[simp] theorem modBayCtr_cur : (s.modBayCtr d b f).cur = s.cur := rfl
@[simp] theorem modBayCtr_nextId : (s.modBayCtr d b f).nextId = s.nextId := rfl
@[simp] theorem modBayCtr_free : (s.modBayCtr d b f).free = s.free := rfl
@[simp] theorem modBayCtr_agenda : (s.modBayCtr d b f).agenda = s.agenda := rfl
@[simp] theorem modBayCtr_ranges : (s.modBayCtr d b f).ranges = s.ranges := rfl
@[simp] theorem modBayCtr_mem : (s.modBayCtr d b f).mem = s.mem := rfl
@[simp] theorem modBayCtr_devMem : (s.modBayCtr d b f).devMem = s.devMem := rfl
@[simp] theorem modBayCtr_leaving : (s.modBayCtr d b f).leaving = s.leaving := rfl
@[simp] theorem modBayCtr_seals : (s.modBayCtr d b f).seals = s.seals := rfl
@[simp] theorem modBayCtr_l3 : (s.modBayCtr d b f).l3 = s.l3 := rfl
@[simp] theorem modBayCtr_l2 : (s.modBayCtr d b f).l2 = s.l2 := rfl
@[simp] theorem modBayCtr_l1 : (s.modBayCtr d b f).l1 = s.l1 := rfl
@[simp] theorem modBayCtr_code : (s.modBayCtr d b f).code = s.code := rfl
@[simp] theorem modBayCtr_peerBuf : (s.modBayCtr d b f).peerBuf = s.peerBuf := rfl
@[simp] theorem modBayCtr_versions : (s.modBayCtr d b f).versions = s.versions := rfl
@[simp] theorem modBayCtr_cxlCap : (s.modBayCtr d b f).cxlCap = s.cxlCap := rfl
@[simp] theorem modBayCtr_retired : (s.modBayCtr d b f).retired = s.retired := rfl
@[simp] theorem modBayCtr_cores : (s.modBayCtr d b f).cores = s.cores := rfl
@[simp] theorem modBayCtr_sheaves : (s.modBayCtr d b f).sheaves = s.sheaves := rfl
@[simp] theorem modBayCtr_stooks : (s.modBayCtr d b f).stooks = s.stooks := rfl
@[simp] theorem modBayCtr_saved : (s.modBayCtr d b f).saved = s.saved := rfl
@[simp] theorem modBayCtr_reqs : (s.modBayCtr d b f).reqs = s.reqs := rfl
@[simp] theorem modBayCtr_results : (s.modBayCtr d b f).results = s.results := rfl
@[simp] theorem modBayCtr_ops : (s.modBayCtr d b f).ops = s.ops := rfl
@[simp] theorem modBayCtr_holds : (s.modBayCtr d b f).holds = s.holds := rfl
@[simp] theorem modBayCtr_deferred : (s.modBayCtr d b f).deferred = s.deferred := rfl
@[simp] theorem modBayCtr_copies : (s.modBayCtr d b f).copies = s.copies := rfl
@[simp] theorem modBayCtr_followOns : (s.modBayCtr d b f).followOns = s.followOns := rfl
@[simp] theorem modBayCtr_tierOps : (s.modBayCtr d b f).tierOps = s.tierOps := rfl
@[simp] theorem modBayCtr_mxTable : (s.modBayCtr d b f).mxTable = s.mxTable := rfl
@[simp] theorem modBayCtr_tiles : (s.modBayCtr d b f).tiles = s.tiles := rfl
@[simp] theorem modBayCtr_jobs : (s.modBayCtr d b f).jobs = s.jobs := rfl
@[simp] theorem modBayCtr_nextJob : (s.modBayCtr d b f).nextJob = s.nextJob := rfl
@[simp] theorem modBayCtr_arbors : (s.modBayCtr d b f).arbors = s.arbors := rfl
@[simp] theorem modBayCtr_pkg : (s.modBayCtr d b f).pkg = s.pkg := rfl
@[simp] theorem modBayCtr_ports : (s.modBayCtr d b f).ports = s.ports := rfl
@[simp] theorem modBayCtr_deadPlanes : (s.modBayCtr d b f).deadPlanes = s.deadPlanes := rfl
@[simp] theorem modBayCtr_msgs : (s.modBayCtr d b f).msgs = s.msgs := rfl
@[simp] theorem modBayCtr_outgoing : (s.modBayCtr d b f).outgoing = s.outgoing := rfl
@[simp] theorem modBayCtr_fabReqs : (s.modBayCtr d b f).fabReqs = s.fabReqs := rfl
@[simp] theorem modBayCtr_chunkUses : (s.modBayCtr d b f).chunkUses = s.chunkUses := rfl
@[simp] theorem modBayCtr_featDev : (s.modBayCtr d b f).featDev = s.featDev := rfl
@[simp] theorem modBayCtr_featAcc : (s.modBayCtr d b f).featAcc = s.featAcc := rfl
@[simp] theorem modBayCtr_featWritten : (s.modBayCtr d b f).featWritten = s.featWritten := rfl
@[simp] theorem modBayCtr_alarm : (s.modBayCtr d b f).alarm = s.alarm := rfl
@[simp] theorem modBayCtr_arming : (s.modBayCtr d b f).arming = s.arming := rfl
@[simp] theorem modBayCtr_retrain : (s.modBayCtr d b f).retrain = s.retrain := rfl
@[simp] theorem modBayCtr_retrainWas : (s.modBayCtr d b f).retrainWas = s.retrainWas := rfl
@[simp] theorem modBayCtr_retrainAt : (s.modBayCtr d b f).retrainAt = s.retrainAt := rfl
@[simp] theorem modBayCtr_retrained : (s.modBayCtr d b f).retrained = s.retrained := rfl
@[simp] theorem modBayCtr_keys : (s.modBayCtr d b f).keys = s.keys := rfl
@[simp] theorem modBayCtr_resets : (s.modBayCtr d b f).resets = s.resets := rfl
@[simp] theorem modBayCtr_erasedAt : (s.modBayCtr d b f).erasedAt = s.erasedAt := rfl
@[simp] theorem modBayCtr_firmware : (s.modBayCtr d b f).firmware = s.firmware := rfl
@[simp] theorem modBayCtr_report : (s.modBayCtr d b f).report = s.report := rfl
@[simp] theorem modBayCtr_funcs : (s.modBayCtr d b f).funcs = s.funcs := rfl
@[simp] theorem modBayCtr_hostReads : (s.modBayCtr d b f).hostReads = s.hostReads := rfl
@[simp] theorem modBayCtr_regReads : (s.modBayCtr d b f).regReads = s.regReads := rfl
@[simp] theorem modBayCtr_waveOut : (s.modBayCtr d b f).waveOut = s.waveOut := rfl
end modBayCtr

/-! ### `bump` -/
section bump
variable (s : State)
@[simp] theorem bump_now : (s.bump).now = s.now := rfl
@[simp] theorem bump_clocks : (s.bump).clocks = s.clocks := rfl
@[simp] theorem bump_cur : (s.bump).cur = s.cur := rfl
@[simp] theorem bump_free : (s.bump).free = s.free := rfl
@[simp] theorem bump_agenda : (s.bump).agenda = s.agenda := rfl
@[simp] theorem bump_ranges : (s.bump).ranges = s.ranges := rfl
@[simp] theorem bump_mem : (s.bump).mem = s.mem := rfl
@[simp] theorem bump_devMem : (s.bump).devMem = s.devMem := rfl
@[simp] theorem bump_leaving : (s.bump).leaving = s.leaving := rfl
@[simp] theorem bump_seals : (s.bump).seals = s.seals := rfl
@[simp] theorem bump_l3 : (s.bump).l3 = s.l3 := rfl
@[simp] theorem bump_l2 : (s.bump).l2 = s.l2 := rfl
@[simp] theorem bump_l1 : (s.bump).l1 = s.l1 := rfl
@[simp] theorem bump_code : (s.bump).code = s.code := rfl
@[simp] theorem bump_peerBuf : (s.bump).peerBuf = s.peerBuf := rfl
@[simp] theorem bump_versions : (s.bump).versions = s.versions := rfl
@[simp] theorem bump_cxlCap : (s.bump).cxlCap = s.cxlCap := rfl
@[simp] theorem bump_retired : (s.bump).retired = s.retired := rfl
@[simp] theorem bump_cores : (s.bump).cores = s.cores := rfl
@[simp] theorem bump_sheaves : (s.bump).sheaves = s.sheaves := rfl
@[simp] theorem bump_stooks : (s.bump).stooks = s.stooks := rfl
@[simp] theorem bump_saved : (s.bump).saved = s.saved := rfl
@[simp] theorem bump_reqs : (s.bump).reqs = s.reqs := rfl
@[simp] theorem bump_results : (s.bump).results = s.results := rfl
@[simp] theorem bump_ops : (s.bump).ops = s.ops := rfl
@[simp] theorem bump_holds : (s.bump).holds = s.holds := rfl
@[simp] theorem bump_deferred : (s.bump).deferred = s.deferred := rfl
@[simp] theorem bump_copies : (s.bump).copies = s.copies := rfl
@[simp] theorem bump_followOns : (s.bump).followOns = s.followOns := rfl
@[simp] theorem bump_tierOps : (s.bump).tierOps = s.tierOps := rfl
@[simp] theorem bump_mxTable : (s.bump).mxTable = s.mxTable := rfl
@[simp] theorem bump_tiles : (s.bump).tiles = s.tiles := rfl
@[simp] theorem bump_bayCtrs : (s.bump).bayCtrs = s.bayCtrs := rfl
@[simp] theorem bump_jobs : (s.bump).jobs = s.jobs := rfl
@[simp] theorem bump_nextJob : (s.bump).nextJob = s.nextJob := rfl
@[simp] theorem bump_arbors : (s.bump).arbors = s.arbors := rfl
@[simp] theorem bump_pkg : (s.bump).pkg = s.pkg := rfl
@[simp] theorem bump_ports : (s.bump).ports = s.ports := rfl
@[simp] theorem bump_deadPlanes : (s.bump).deadPlanes = s.deadPlanes := rfl
@[simp] theorem bump_msgs : (s.bump).msgs = s.msgs := rfl
@[simp] theorem bump_outgoing : (s.bump).outgoing = s.outgoing := rfl
@[simp] theorem bump_fabReqs : (s.bump).fabReqs = s.fabReqs := rfl
@[simp] theorem bump_chunkUses : (s.bump).chunkUses = s.chunkUses := rfl
@[simp] theorem bump_featDev : (s.bump).featDev = s.featDev := rfl
@[simp] theorem bump_featAcc : (s.bump).featAcc = s.featAcc := rfl
@[simp] theorem bump_featWritten : (s.bump).featWritten = s.featWritten := rfl
@[simp] theorem bump_alarm : (s.bump).alarm = s.alarm := rfl
@[simp] theorem bump_arming : (s.bump).arming = s.arming := rfl
@[simp] theorem bump_retrain : (s.bump).retrain = s.retrain := rfl
@[simp] theorem bump_retrainWas : (s.bump).retrainWas = s.retrainWas := rfl
@[simp] theorem bump_retrainAt : (s.bump).retrainAt = s.retrainAt := rfl
@[simp] theorem bump_retrained : (s.bump).retrained = s.retrained := rfl
@[simp] theorem bump_keys : (s.bump).keys = s.keys := rfl
@[simp] theorem bump_resets : (s.bump).resets = s.resets := rfl
@[simp] theorem bump_erasedAt : (s.bump).erasedAt = s.erasedAt := rfl
@[simp] theorem bump_firmware : (s.bump).firmware = s.firmware := rfl
@[simp] theorem bump_report : (s.bump).report = s.report := rfl
@[simp] theorem bump_funcs : (s.bump).funcs = s.funcs := rfl
@[simp] theorem bump_hostReads : (s.bump).hostReads = s.hostReads := rfl
@[simp] theorem bump_regReads : (s.bump).regReads = s.regReads := rfl
@[simp] theorem bump_waveOut : (s.bump).waveOut = s.waveOut := rfl
end bump

/-! ### `opEnd` -/
section opEnd
variable (s : State) (n : Nat)
@[simp] theorem opEnd_now : (s.opEnd n).now = s.now := rfl
@[simp] theorem opEnd_clocks : (s.opEnd n).clocks = s.clocks := rfl
@[simp] theorem opEnd_cur : (s.opEnd n).cur = s.cur := rfl
@[simp] theorem opEnd_nextId : (s.opEnd n).nextId = s.nextId := rfl
@[simp] theorem opEnd_free : (s.opEnd n).free = s.free := rfl
@[simp] theorem opEnd_agenda : (s.opEnd n).agenda = s.agenda := rfl
@[simp] theorem opEnd_ranges : (s.opEnd n).ranges = s.ranges := rfl
@[simp] theorem opEnd_mem : (s.opEnd n).mem = s.mem := rfl
@[simp] theorem opEnd_devMem : (s.opEnd n).devMem = s.devMem := rfl
@[simp] theorem opEnd_leaving : (s.opEnd n).leaving = s.leaving := rfl
@[simp] theorem opEnd_seals : (s.opEnd n).seals = s.seals := rfl
@[simp] theorem opEnd_l3 : (s.opEnd n).l3 = s.l3 := rfl
@[simp] theorem opEnd_l2 : (s.opEnd n).l2 = s.l2 := rfl
@[simp] theorem opEnd_l1 : (s.opEnd n).l1 = s.l1 := rfl
@[simp] theorem opEnd_code : (s.opEnd n).code = s.code := rfl
@[simp] theorem opEnd_peerBuf : (s.opEnd n).peerBuf = s.peerBuf := rfl
@[simp] theorem opEnd_versions : (s.opEnd n).versions = s.versions := rfl
@[simp] theorem opEnd_cxlCap : (s.opEnd n).cxlCap = s.cxlCap := rfl
@[simp] theorem opEnd_retired : (s.opEnd n).retired = s.retired := rfl
@[simp] theorem opEnd_cores : (s.opEnd n).cores = s.cores := rfl
@[simp] theorem opEnd_sheaves : (s.opEnd n).sheaves = s.sheaves := rfl
@[simp] theorem opEnd_stooks : (s.opEnd n).stooks = s.stooks := rfl
@[simp] theorem opEnd_saved : (s.opEnd n).saved = s.saved := rfl
@[simp] theorem opEnd_reqs : (s.opEnd n).reqs = s.reqs := rfl
@[simp] theorem opEnd_results : (s.opEnd n).results = s.results := rfl
@[simp] theorem opEnd_holds : (s.opEnd n).holds = s.holds := rfl
@[simp] theorem opEnd_deferred : (s.opEnd n).deferred = s.deferred := rfl
@[simp] theorem opEnd_copies : (s.opEnd n).copies = s.copies := rfl
@[simp] theorem opEnd_followOns : (s.opEnd n).followOns = s.followOns := rfl
@[simp] theorem opEnd_tierOps : (s.opEnd n).tierOps = s.tierOps := rfl
@[simp] theorem opEnd_mxTable : (s.opEnd n).mxTable = s.mxTable := rfl
@[simp] theorem opEnd_tiles : (s.opEnd n).tiles = s.tiles := rfl
@[simp] theorem opEnd_bayCtrs : (s.opEnd n).bayCtrs = s.bayCtrs := rfl
@[simp] theorem opEnd_jobs : (s.opEnd n).jobs = s.jobs := rfl
@[simp] theorem opEnd_nextJob : (s.opEnd n).nextJob = s.nextJob := rfl
@[simp] theorem opEnd_arbors : (s.opEnd n).arbors = s.arbors := rfl
@[simp] theorem opEnd_pkg : (s.opEnd n).pkg = s.pkg := rfl
@[simp] theorem opEnd_ports : (s.opEnd n).ports = s.ports := rfl
@[simp] theorem opEnd_deadPlanes : (s.opEnd n).deadPlanes = s.deadPlanes := rfl
@[simp] theorem opEnd_msgs : (s.opEnd n).msgs = s.msgs := rfl
@[simp] theorem opEnd_outgoing : (s.opEnd n).outgoing = s.outgoing := rfl
@[simp] theorem opEnd_fabReqs : (s.opEnd n).fabReqs = s.fabReqs := rfl
@[simp] theorem opEnd_chunkUses : (s.opEnd n).chunkUses = s.chunkUses := rfl
@[simp] theorem opEnd_featDev : (s.opEnd n).featDev = s.featDev := rfl
@[simp] theorem opEnd_featAcc : (s.opEnd n).featAcc = s.featAcc := rfl
@[simp] theorem opEnd_featWritten : (s.opEnd n).featWritten = s.featWritten := rfl
@[simp] theorem opEnd_alarm : (s.opEnd n).alarm = s.alarm := rfl
@[simp] theorem opEnd_arming : (s.opEnd n).arming = s.arming := rfl
@[simp] theorem opEnd_retrain : (s.opEnd n).retrain = s.retrain := rfl
@[simp] theorem opEnd_retrainWas : (s.opEnd n).retrainWas = s.retrainWas := rfl
@[simp] theorem opEnd_retrainAt : (s.opEnd n).retrainAt = s.retrainAt := rfl
@[simp] theorem opEnd_retrained : (s.opEnd n).retrained = s.retrained := rfl
@[simp] theorem opEnd_keys : (s.opEnd n).keys = s.keys := rfl
@[simp] theorem opEnd_resets : (s.opEnd n).resets = s.resets := rfl
@[simp] theorem opEnd_erasedAt : (s.opEnd n).erasedAt = s.erasedAt := rfl
@[simp] theorem opEnd_firmware : (s.opEnd n).firmware = s.firmware := rfl
@[simp] theorem opEnd_report : (s.opEnd n).report = s.report := rfl
@[simp] theorem opEnd_funcs : (s.opEnd n).funcs = s.funcs := rfl
@[simp] theorem opEnd_hostReads : (s.opEnd n).hostReads = s.hostReads := rfl
@[simp] theorem opEnd_regReads : (s.opEnd n).regReads = s.regReads := rfl
@[simp] theorem opEnd_waveOut : (s.opEnd n).waveOut = s.waveOut := rfl
end opEnd

/-! ### `opPart` -/
section opPart
variable (s : State) (n : Nat)
@[simp] theorem opPart_now : (s.opPart n).now = s.now := rfl
@[simp] theorem opPart_clocks : (s.opPart n).clocks = s.clocks := rfl
@[simp] theorem opPart_cur : (s.opPart n).cur = s.cur := rfl
@[simp] theorem opPart_nextId : (s.opPart n).nextId = s.nextId := rfl
@[simp] theorem opPart_free : (s.opPart n).free = s.free := rfl
@[simp] theorem opPart_agenda : (s.opPart n).agenda = s.agenda := rfl
@[simp] theorem opPart_ranges : (s.opPart n).ranges = s.ranges := rfl
@[simp] theorem opPart_mem : (s.opPart n).mem = s.mem := rfl
@[simp] theorem opPart_devMem : (s.opPart n).devMem = s.devMem := rfl
@[simp] theorem opPart_leaving : (s.opPart n).leaving = s.leaving := rfl
@[simp] theorem opPart_seals : (s.opPart n).seals = s.seals := rfl
@[simp] theorem opPart_l3 : (s.opPart n).l3 = s.l3 := rfl
@[simp] theorem opPart_l2 : (s.opPart n).l2 = s.l2 := rfl
@[simp] theorem opPart_l1 : (s.opPart n).l1 = s.l1 := rfl
@[simp] theorem opPart_code : (s.opPart n).code = s.code := rfl
@[simp] theorem opPart_peerBuf : (s.opPart n).peerBuf = s.peerBuf := rfl
@[simp] theorem opPart_versions : (s.opPart n).versions = s.versions := rfl
@[simp] theorem opPart_cxlCap : (s.opPart n).cxlCap = s.cxlCap := rfl
@[simp] theorem opPart_retired : (s.opPart n).retired = s.retired := rfl
@[simp] theorem opPart_cores : (s.opPart n).cores = s.cores := rfl
@[simp] theorem opPart_sheaves : (s.opPart n).sheaves = s.sheaves := rfl
@[simp] theorem opPart_stooks : (s.opPart n).stooks = s.stooks := rfl
@[simp] theorem opPart_saved : (s.opPart n).saved = s.saved := rfl
@[simp] theorem opPart_reqs : (s.opPart n).reqs = s.reqs := rfl
@[simp] theorem opPart_results : (s.opPart n).results = s.results := rfl
@[simp] theorem opPart_holds : (s.opPart n).holds = s.holds := rfl
@[simp] theorem opPart_deferred : (s.opPart n).deferred = s.deferred := rfl
@[simp] theorem opPart_copies : (s.opPart n).copies = s.copies := rfl
@[simp] theorem opPart_followOns : (s.opPart n).followOns = s.followOns := rfl
@[simp] theorem opPart_tierOps : (s.opPart n).tierOps = s.tierOps := rfl
@[simp] theorem opPart_mxTable : (s.opPart n).mxTable = s.mxTable := rfl
@[simp] theorem opPart_tiles : (s.opPart n).tiles = s.tiles := rfl
@[simp] theorem opPart_bayCtrs : (s.opPart n).bayCtrs = s.bayCtrs := rfl
@[simp] theorem opPart_jobs : (s.opPart n).jobs = s.jobs := rfl
@[simp] theorem opPart_nextJob : (s.opPart n).nextJob = s.nextJob := rfl
@[simp] theorem opPart_arbors : (s.opPart n).arbors = s.arbors := rfl
@[simp] theorem opPart_pkg : (s.opPart n).pkg = s.pkg := rfl
@[simp] theorem opPart_ports : (s.opPart n).ports = s.ports := rfl
@[simp] theorem opPart_deadPlanes : (s.opPart n).deadPlanes = s.deadPlanes := rfl
@[simp] theorem opPart_msgs : (s.opPart n).msgs = s.msgs := rfl
@[simp] theorem opPart_outgoing : (s.opPart n).outgoing = s.outgoing := rfl
@[simp] theorem opPart_fabReqs : (s.opPart n).fabReqs = s.fabReqs := rfl
@[simp] theorem opPart_chunkUses : (s.opPart n).chunkUses = s.chunkUses := rfl
@[simp] theorem opPart_featDev : (s.opPart n).featDev = s.featDev := rfl
@[simp] theorem opPart_featAcc : (s.opPart n).featAcc = s.featAcc := rfl
@[simp] theorem opPart_featWritten : (s.opPart n).featWritten = s.featWritten := rfl
@[simp] theorem opPart_alarm : (s.opPart n).alarm = s.alarm := rfl
@[simp] theorem opPart_arming : (s.opPart n).arming = s.arming := rfl
@[simp] theorem opPart_retrain : (s.opPart n).retrain = s.retrain := rfl
@[simp] theorem opPart_retrainWas : (s.opPart n).retrainWas = s.retrainWas := rfl
@[simp] theorem opPart_retrainAt : (s.opPart n).retrainAt = s.retrainAt := rfl
@[simp] theorem opPart_retrained : (s.opPart n).retrained = s.retrained := rfl
@[simp] theorem opPart_keys : (s.opPart n).keys = s.keys := rfl
@[simp] theorem opPart_resets : (s.opPart n).resets = s.resets := rfl
@[simp] theorem opPart_erasedAt : (s.opPart n).erasedAt = s.erasedAt := rfl
@[simp] theorem opPart_firmware : (s.opPart n).firmware = s.firmware := rfl
@[simp] theorem opPart_report : (s.opPart n).report = s.report := rfl
@[simp] theorem opPart_funcs : (s.opPart n).funcs = s.funcs := rfl
@[simp] theorem opPart_hostReads : (s.opPart n).hostReads = s.hostReads := rfl
@[simp] theorem opPart_regReads : (s.opPart n).regReads = s.regReads := rfl
@[simp] theorem opPart_waveOut : (s.opPart n).waveOut = s.waveOut := rfl
end opPart

/-! ### `retire` -/
section retire
variable (s : State) (j : Nat)
@[simp] theorem retire_now : (s.retire j).now = s.now := rfl
@[simp] theorem retire_clocks : (s.retire j).clocks = s.clocks := rfl
@[simp] theorem retire_cur : (s.retire j).cur = s.cur := rfl
@[simp] theorem retire_nextId : (s.retire j).nextId = s.nextId := rfl
@[simp] theorem retire_free : (s.retire j).free = s.free := rfl
@[simp] theorem retire_agenda : (s.retire j).agenda = s.agenda := rfl
@[simp] theorem retire_ranges : (s.retire j).ranges = s.ranges := rfl
@[simp] theorem retire_mem : (s.retire j).mem = s.mem := rfl
@[simp] theorem retire_devMem : (s.retire j).devMem = s.devMem := rfl
@[simp] theorem retire_leaving : (s.retire j).leaving = s.leaving := rfl
@[simp] theorem retire_seals : (s.retire j).seals = s.seals := rfl
@[simp] theorem retire_l3 : (s.retire j).l3 = s.l3 := rfl
@[simp] theorem retire_l2 : (s.retire j).l2 = s.l2 := rfl
@[simp] theorem retire_l1 : (s.retire j).l1 = s.l1 := rfl
@[simp] theorem retire_code : (s.retire j).code = s.code := rfl
@[simp] theorem retire_peerBuf : (s.retire j).peerBuf = s.peerBuf := rfl
@[simp] theorem retire_versions : (s.retire j).versions = s.versions := rfl
@[simp] theorem retire_cxlCap : (s.retire j).cxlCap = s.cxlCap := rfl
@[simp] theorem retire_retired : (s.retire j).retired = s.retired := rfl
@[simp] theorem retire_cores : (s.retire j).cores = s.cores := rfl
@[simp] theorem retire_sheaves : (s.retire j).sheaves = s.sheaves := rfl
@[simp] theorem retire_stooks : (s.retire j).stooks = s.stooks := rfl
@[simp] theorem retire_saved : (s.retire j).saved = s.saved := rfl
@[simp] theorem retire_reqs : (s.retire j).reqs = s.reqs := rfl
@[simp] theorem retire_results : (s.retire j).results = s.results := rfl
@[simp] theorem retire_ops : (s.retire j).ops = s.ops := rfl
@[simp] theorem retire_holds : (s.retire j).holds = s.holds := rfl
@[simp] theorem retire_deferred : (s.retire j).deferred = s.deferred := rfl
@[simp] theorem retire_copies : (s.retire j).copies = s.copies := rfl
@[simp] theorem retire_followOns : (s.retire j).followOns = s.followOns := rfl
@[simp] theorem retire_tierOps : (s.retire j).tierOps = s.tierOps := rfl
@[simp] theorem retire_mxTable : (s.retire j).mxTable = s.mxTable := rfl
@[simp] theorem retire_tiles : (s.retire j).tiles = s.tiles := rfl
@[simp] theorem retire_bayCtrs : (s.retire j).bayCtrs = s.bayCtrs := rfl
@[simp] theorem retire_nextJob : (s.retire j).nextJob = s.nextJob := rfl
@[simp] theorem retire_arbors : (s.retire j).arbors = s.arbors := rfl
@[simp] theorem retire_pkg : (s.retire j).pkg = s.pkg := rfl
@[simp] theorem retire_ports : (s.retire j).ports = s.ports := rfl
@[simp] theorem retire_deadPlanes : (s.retire j).deadPlanes = s.deadPlanes := rfl
@[simp] theorem retire_msgs : (s.retire j).msgs = s.msgs := rfl
@[simp] theorem retire_outgoing : (s.retire j).outgoing = s.outgoing := rfl
@[simp] theorem retire_fabReqs : (s.retire j).fabReqs = s.fabReqs := rfl
@[simp] theorem retire_chunkUses : (s.retire j).chunkUses = s.chunkUses := rfl
@[simp] theorem retire_featDev : (s.retire j).featDev = s.featDev := rfl
@[simp] theorem retire_featAcc : (s.retire j).featAcc = s.featAcc := rfl
@[simp] theorem retire_featWritten : (s.retire j).featWritten = s.featWritten := rfl
@[simp] theorem retire_alarm : (s.retire j).alarm = s.alarm := rfl
@[simp] theorem retire_arming : (s.retire j).arming = s.arming := rfl
@[simp] theorem retire_retrain : (s.retire j).retrain = s.retrain := rfl
@[simp] theorem retire_retrainWas : (s.retire j).retrainWas = s.retrainWas := rfl
@[simp] theorem retire_retrainAt : (s.retire j).retrainAt = s.retrainAt := rfl
@[simp] theorem retire_retrained : (s.retire j).retrained = s.retrained := rfl
@[simp] theorem retire_keys : (s.retire j).keys = s.keys := rfl
@[simp] theorem retire_resets : (s.retire j).resets = s.resets := rfl
@[simp] theorem retire_erasedAt : (s.retire j).erasedAt = s.erasedAt := rfl
@[simp] theorem retire_firmware : (s.retire j).firmware = s.firmware := rfl
@[simp] theorem retire_report : (s.retire j).report = s.report := rfl
@[simp] theorem retire_funcs : (s.retire j).funcs = s.funcs := rfl
@[simp] theorem retire_hostReads : (s.retire j).hostReads = s.hostReads := rfl
@[simp] theorem retire_regReads : (s.retire j).regReads = s.regReads := rfl
@[simp] theorem retire_waveOut : (s.retire j).waveOut = s.waveOut := rfl
end retire

end Sys2Proof.Machine.State
end

