-- ==== Sys2Proof/Laws/Issue.lean ====
section
/-! SUPPORT. What the parts of the state read as after each elementary update, and what the issue of one instruction
does: `issueWith_one` and `finishIssue_spec`. -/

namespace Sys2Proof.Machine
open Sys2Proof

/-! ## Reading after an elementary update -/

/-- A change of one sheaf that keeps where sheaves stand leaves every search for a sheaf at the same place. -/
theorem sheaf_modSheaf (s : State) (g i g' i' : Nat) (f : Sheaf → Sheaf)
    (hf : ∀ h, (f h).tag = h.tag ∧ (f h).index = h.index) : (s.modSheaf g i f).sheaf g' i' =
      (s.sheaf g' i').map fun h => if h.tag == g && h.index == i then f h else h := by
  rw [State.sheaf, State.modSheaf, modWhere, List.find?_map, State.sheaf]
  congr 2
  funext h
  dsimp only [Function.comp]
  split
  · rw [(hf h).1, (hf h).2]
  · rfl

/-- What a search for a sheaf finds stands at that place. -/
theorem sheaf_at {s : State} {g i : Nat} {h : Sheaf} (hs : s.sheaf g i = some h) : h.tag = g ∧ h.index = i := by
  simpa using List.find?_some hs

theorem sheaf_modSheaf_self (s : State) (g i : Nat) (f : Sheaf → Sheaf)
    (hf : ∀ h, (f h).tag = h.tag ∧ (f h).index = h.index) : (s.modSheaf g i f).sheaf g i = (s.sheaf g i).map f := by
  rw [sheaf_modSheaf _ _ _ _ _ _ hf]
  refine Option.map_congr fun h hh => ?_
  simp [(sheaf_at hh).1, (sheaf_at hh).2]

theorem sheaf_modSheaf_other (s : State) (g i g' i' : Nat) (f : Sheaf → Sheaf)
    (hf : ∀ h, (f h).tag = h.tag ∧ (f h).index = h.index) (hne : ¬ (g' = g ∧ i' = i)) :
    (s.modSheaf g i f).sheaf g' i' = s.sheaf g' i' := by
  rw [sheaf_modSheaf _ _ _ _ _ _ hf]
  cases hs : s.sheaf g' i' with
  | none => rfl
  | some h => exact congrArg some (if_neg (by simpa [(sheaf_at hs).1, (sheaf_at hs).2] using hne))

@[simp] theorem stook_modSheaf (s : State) (g i : Nat) (f : Sheaf → Sheaf) (t : Nat) :
    (s.modSheaf g i f).stook t = s.stook t := rfl
@[simp] theorem slot_modSheaf (s : State) (g i : Nat) (f : Sheaf → Sheaf) (c k : Nat) :
    (s.modSheaf g i f).slot c k = s.slot c k := rfl
@[simp] theorem stook_setSlot (s : State) (c k : Nat) (b : Option Bundle) (t : Nat) :
    (s.setSlot c k b).stook t = s.stook t := rfl
@[simp] theorem sheaf_setSlot (s : State) (c k : Nat) (b : Option Bundle) (g i : Nat) :
    (s.setSlot c k b).sheaf g i = s.sheaf g i := rfl
@[simp] theorem stook_retire (s : State) (j t : Nat) : (s.retire j).stook t = s.stook t := rfl
@[simp] theorem sheaf_retire (s : State) (j g i : Nat) : (s.retire j).sheaf g i = s.sheaf g i := rfl
@[simp] theorem slot_retire (s : State) (j c k : Nat) : (s.retire j).slot c k = s.slot c k := rfl

/-- The core that a number names, after a change of the core of that number that keeps its number. -/
theorem core_modCore (c : Nat) (f : Core → Core) (hf : ∀ x : Core, x.id = c → (f x).id = c) : ∀ cs : List Core,
    (upsert (·.id == c) (Core.reset c) f cs).find? (·.id == c) = some (f ((cs.find? (·.id == c)).getD (Core.reset c)))
  | [] => by simp [upsert, hf, Core.reset]
  | x :: cs => by
    cases e : x.id == c <;> simp only [upsert, e, List.find?_cons, Bool.false_eq_true, if_false, if_true]
    · exact core_modCore c f hf cs
    · simp [hf x (by simpa using e)]

/-- A slot's bundle put into a core. -/
def Core.put (k : Nat) (b : Option Bundle) (x : Core) : Core :=
  if k = 0 then { x with slot0 := b } else { x with slot1 := b }

theorem Core.put_id (k : Nat) (b : Option Bundle) (x : Core) : (x.put k b).id = x.id := by
  unfold Core.put; split <;> rfl

theorem core_setSlot_self (s : State) (c k : Nat) (b : Option Bundle) : (s.setSlot c k b).core c = (s.core c).put k b :=
  congrArg (·.getD (Core.reset c)) (core_modCore c (Core.put k b) (fun x h => (Core.put_id k b x).trans h) s.cores)

/-- A slot holds what was put into it. -/
@[simp] theorem slot_setSlot_self (s : State) (c k : Nat) (b : Option Bundle) : (s.setSlot c k b).slot c k = b := by
  rw [State.slot, core_setSlot_self, Core.put]
  split <;> rfl

/-- Cores are as before where the core of the number stands among them and the change is none for it. -/
theorem cores_same (c : Nat) (f : Core → Core) (x : Core) (hf : f x = x) : ∀ cs : List Core,
    cs.find? (·.id == c) = some x → upsert (·.id == c) (Core.reset c) f cs = cs
  | [], h => by cases h
  | y :: cs, h => by
    cases e : y.id == c <;> simp only [upsert, e, List.find?_cons, Bool.false_eq_true, if_false, if_true] at h ⊢
    · rw [cores_same c f x hf cs h]
    · rw [Option.some.inj h, hf]

/-- Putting a bundle back where it stands changes nothing. -/
theorem setSlot_slot (s : State) (c k : Nat) (b : Bundle) (h : s.slot c k = some b) : s.setSlot c k (some b) = s := by
  cases hx : s.cores.find? (·.id == c) with
  | none =>
    rw [State.slot, State.core, hx] at h
    revert h; split <;> exact nofun
  | some x =>
    rw [State.slot, State.core, hx] at h
    have : Core.put k (some b) x = x := by
      unfold Core.put
      split at h <;> simp_all [← h]
    rw [State.setSlot, State.modCore]
    exact congrArg (fun cs => { s with cores := cs }) (cores_same c (Core.put k (some b)) x this s.cores hx)

/-- Of two changes of a core that keep its number, both are made. -/
theorem cores_twice (c : Nat) (f g : Core → Core) (hf : ∀ x : Core, x.id = c → (f x).id = c) : ∀ cs : List Core,
    upsert (·.id == c) (Core.reset c) g (upsert (·.id == c) (Core.reset c) f cs) =
      upsert (·.id == c) (Core.reset c) (g ∘ f) cs
  | [] => by simp [upsert, hf, Core.reset]
  | x :: cs => by
    cases e : x.id == c <;> simp only [upsert, e, Bool.false_eq_true, if_false, if_true, Function.comp]
    · exact congrArg _ (cores_twice c f g hf cs)
    · simp [hf x (by simpa using e)]

/-- Only the last bundle put into a slot counts. -/
@[simp] theorem setSlot_setSlot (s : State) (c k : Nat) (a b : Option Bundle) :
    (s.setSlot c k a).setSlot c k b = s.setSlot c k b := by
  have twice := cores_twice c (Core.put k a) (Core.put k b) (fun x h => (Core.put_id k a x).trans h) s.cores
  have last : Core.put k b ∘ Core.put k a = Core.put k b := by
    funext x
    simp only [Function.comp, Core.put]
    split <;> rfl
  rw [last] at twice
  exact congrArg (fun cs => { s with cores := cs }) twice

/-! ## Where threads stand: `finishIssue` -/

/-- A thread that differs only in where it stands, when it is next ready, and its stall sum. -/
def Thread.onlyPlace (t u : Thread) : Prop :=
  u = { t with pc := u.pc, clause := u.clause, readyAt := u.readyAt, inBundle := u.inBundle, cnt := u.cnt,
               issued := u.issued }

/-- Only the places of threads differ, in the sheaves listed of one stook. -/
structure PlaceOnly (g0 : Nat) (is : List Nat) (s t : State) : Prop where
  rest : t = { s with sheaves := t.sheaves }
  absent : ∀ g i, s.sheaf g i = none → t.sheaf g i = none
  present : ∀ g i h, s.sheaf g i = some h → ∃ f : Nat → Thread → Thread,
    (∀ l x, Thread.onlyPlace x (f l x)) ∧ t.sheaf g i = some { h with threads := h.threads.mapIdx f }
  others : ∀ g i, ¬ (g = g0 ∧ i ∈ is) → t.sheaf g i = s.sheaf g i

theorem mapIdx_self {α : Type} (l : List α) : l.mapIdx (fun _ x => x) = l :=
  List.ext_getElem List.length_mapIdx fun _ _ _ => List.getElem_mapIdx ..

theorem PlaceOnly.refl (g0 : Nat) (is : List Nat) (s : State) : PlaceOnly g0 is s s where
  rest := rfl
  absent _ _ h := h
  present g i h hs := ⟨fun _ x => x, fun _ _ => rfl, by rw [hs, mapIdx_self]⟩
  others _ _ _ := rfl

theorem PlaceOnly.trans {g0 : Nat} {is : List Nat} {a b c : State} (h : PlaceOnly g0 is a b) (k : PlaceOnly g0 is b c) :
    PlaceOnly g0 is a c where
  rest := by rw [k.rest, h.rest]
  absent g i x := k.absent g i (h.absent g i x)
  present g i x hx := by
    obtain ⟨f, hf, hb⟩ := h.present g i x hx
    obtain ⟨f', hf', hc⟩ := k.present g i _ hb
    refine ⟨fun l t => f' l (f l t), fun l t => ?_, by rw [hc]; simp [List.mapIdx_mapIdx, Function.comp_def]⟩
    have h1 := hf l t
    have h2 := hf' l (f l t)
    simp only [Thread.onlyPlace] at h1 h2 ⊢
    rw [h2, h1]
  others g i e := (k.others g i e).trans (h.others g i e)

theorem placeOnly_modSheaf (s : State) (g i : Nat) (is : List Nat) (hi : i ∈ is) (f : Nat → Thread → Thread)
    (hf : ∀ l x, Thread.onlyPlace x (f l x)) :
    PlaceOnly g is s (s.modSheaf g i fun h => { h with threads := h.threads.mapIdx f }) where
  rest := rfl
  absent g' i' h := by
    by_cases e : g' = g ∧ i' = i
    · obtain ⟨rfl, rfl⟩ := e
      rw [sheaf_modSheaf_self _ _ _ _ (by intro _; exact ⟨rfl, rfl⟩), h]; rfl
    · rw [sheaf_modSheaf_other _ _ _ _ _ _ (by intro _; exact ⟨rfl, rfl⟩) e, h]
  present g' i' h hs := by
    by_cases e : g' = g ∧ i' = i
    · obtain ⟨rfl, rfl⟩ := e
      exact ⟨f, hf, by rw [sheaf_modSheaf_self _ _ _ _ (by intro _; exact ⟨rfl, rfl⟩), hs]; rfl⟩
    · exact ⟨fun _ x => x, fun _ _ => rfl, by
        rw [sheaf_modSheaf_other _ _ _ _ _ _ (by intro _; exact ⟨rfl, rfl⟩) e, hs, mapIdx_self]⟩
  others g' i' e := sheaf_modSheaf_other _ _ _ _ _ _ (by intro _; exact ⟨rfl, rfl⟩) fun h => e ⟨h.1, h.2 ▸ hi⟩

theorem placeOnly_eachThread (b : Bundle) (f : Nat → Nat → Thread → Thread) (s : State)
    (hf : ∀ i l x, Thread.onlyPlace x (f i l x)) : PlaceOnly b.tag (b.parts.map (·.sheaf)) s (b.eachThread f s) := by
  have key : ∀ (is : List Nat) (ps : List Part) (s : State), (∀ p ∈ ps, p.sheaf ∈ is) → PlaceOnly b.tag is s
      (ps.foldl (fun s p => s.modSheaf b.tag p.sheaf fun h =>
        { h with threads := h.threads.mapIdx fun l t => if p.lanes.getLsbD l then f p.sheaf l t else t }) s) := by
    intro is ps
    induction ps with
    | nil => exact fun s _ => PlaceOnly.refl _ _ s
    | cons p ps ih =>
      intro s hp
      refine (placeOnly_modSheaf s b.tag p.sheaf is (hp p (by simp)) _ fun l x => ?_).trans
        (ih _ fun q hq => hp q (by simp [hq]))
      split
      · exact hf _ _ _
      · rfl
  exact key _ b.parts s fun p hp => List.mem_map_of_mem hp

/-- What follows an instruction in its bundle moves the bundle's threads and changes the issue slot, and nothing
else. -/
structure Finished (b : Bundle) (s t : State) : Prop where
  rest : t = { s with sheaves := t.sheaves, cores := (s.setSlot s.cur.1 s.cur.2 (t.slot s.cur.1 s.cur.2)).cores }
  absent : ∀ g i, s.sheaf g i = none → t.sheaf g i = none
  present : ∀ g i h, s.sheaf g i = some h → ∃ f : Nat → Thread → Thread,
    (∀ l x, Thread.onlyPlace x (f l x)) ∧ t.sheaf g i = some { h with threads := h.threads.mapIdx f }
  others : ∀ g i, ¬ (g = b.tag ∧ i ∈ b.parts.map (·.sheaf)) → t.sheaf g i = s.sheaf g i

theorem PlaceOnly.finished {b : Bundle} {s t : State} (h : PlaceOnly b.tag (b.parts.map (·.sheaf)) s t)
    (x : Option Bundle) : Finished b s (t.setSlot s.cur.1 s.cur.2 x) where
  rest := by
    have : (t.setSlot s.cur.1 s.cur.2 x).slot s.cur.1 s.cur.2 = x := slot_setSlot_self ..
    rw [this, h.rest]; rfl
  absent := h.absent
  present := h.present
  others := h.others

theorem finishIssue_spec (c : Common) (s : State) (b : Bundle) (hb : s.slot s.cur.1 s.cur.2 = some b) :
    Finished b s (finishIssue c s) := by
  unfold finishIssue
  simp only [hb]
  by_cases hd : b.deferred = true
  · simp only [hd, if_true]
    have := (PlaceOnly.refl b.tag (b.parts.map (·.sheaf)) s).finished (some b)
    rwa [setSlot_slot _ _ _ _ hb] at this
  · simp only [hd, if_false, Bool.false_eq_true]
    have h1 := placeOnly_eachThread b (fun _ _ x => { x with cnt := x.cnt + c.stall.toNat, issued := s.free }) s (fun _ _ _ => rfl)
    split
    · exact (h1.trans (placeOnly_eachThread _ _ _ (by intro _ _ _; rfl))).finished none
    · split
      · exact (h1.trans (placeOnly_eachThread _ _ _ (by intro _ _ _; rfl))).finished none
      · exact h1.finished _

/-! ## Covered reads -/

/-- A covered read gives what the register holds (R71). -/
theorem readReg_covered (s : State) (h : Sheaf) (l r : Nat) (t : Thread) (ht : h.threads[l]? = some t)
    (hc : t.covers s.ops r = true) : s.readReg h l r = h.raw l r := by
  simp [State.readReg, ht, hc]

/-- With no uncovered read in a lane, every source register and the guard are covered. -/
theorem covers_of_uncovered {s : State} {h : Sheaf} {i : Instr} {l : Nat} {t : Thread} (ht : h.threads[l]? = some t)
    (hu : s.uncovered h i l = none) {r : Nat}
    (hr : (r ∈ regNums i.shape.srcs ∧ r ≠ 647) ∨ (i.common.gp ≠ 7#3 ∧ r = 640 + i.common.gp.toNat)) :
    t.covers s.ops r = true := by
  simp only [State.uncovered, ht, List.find?_eq_none] at hu
  have := hu r (by
    rcases hr with hr | hr
    · simp [hr.1, hr.2]
    · simp [hr.1, hr.2])
  simpa using this

/-- The guard as issue reads it is what the predicate holds (R17). -/
theorem guardOf_covered {s : State} {h : Sheaf} {i : Instr} {l : Nat} {t : Thread} (ht : h.threads[l]? = some t)
    (hu : s.uncovered h i l = none) : s.guardOf h i.common l = h.guard i.common l := by
  unfold State.guardOf Sheaf.guard
  by_cases hg : i.common.gp = 7#3
  · simp [hg]
  · simp only [hg, if_false]
    rw [readReg_covered s h l _ t ht (covers_of_uncovered ht hu (.inr ⟨hg, rfl⟩))]

/-- Reading n registers that are all covered gives their value. -/
theorem rd_covered {s : State} {h : Sheaf} {l : Nat} {r : Reg} {n : Nat}
    (hc : ∀ i < n, s.readReg h l (r.num + i) = h.raw l (r.num + i)) : s.rd h l r n = h.val l r n := by
  unfold State.rd Sheaf.val
  split
  · rfl
  · exact List.foldl_rel rfl fun i hi x y e => by rw [e, hc i (List.mem_range.mp hi)]

/-! ## The issue of one instruction -/

/-- The state that the meaning of an instruction acts on: a free value is taken, and the mark of its slot is cleared
(R207). -/
def beforeBody (i : Instr) (s : State) (b : Bundle) (p : Part) : State := s.draw.clearMark b p i

theorem Issues.lane {i : Instr} {s : State} {b : Bundle} {p : Part} {k : Stook} {h : Sheaf} {m : Lanes}
    (hi : Issues i s b p k h m) {l : Nat} (hl : l < 32) : ∃ t, h.threads[l]? = some t := by
  have hs := hi.shaped
  simp only [Sheaf.shaped, Bool.and_eq_true, beq_iff_eq] at hs
  exact ⟨h.threads[l]'(by omega), by simp [hs.1.1, hl]⟩

theorem Issues.uncovered {i : Instr} {s : State} {b : Bundle} {p : Part} {k : Stook} {h : Sheaf} {m : Lanes}
    (hi : Issues i s b p k h m) {l : Nat} (hl : l < 32) (hp : p.lanes.getLsbD l = true) : s.uncovered h i l = none := by
  have := List.all_eq_true.mp hi.covered l (mem_lanesOf.mpr ⟨hl, hp⟩)
  simpa using this

theorem Issues.lane_of_active {i : Instr} {s : State} {b : Bundle} {p : Part} {k : Stook} {h : Sheaf} {m : Lanes}
    (hi : Issues i s b p k h m) {l : Nat} (hl : m.getLsbD l = true) :
    l < 32 ∧ p.lanes.getLsbD l = true ∧ h.guard i.common l = true := by
  rw [hi.active, getLsbD_lanesWhere] at hl
  simpa using hl

/-- Every source of an active lane reads as the register group holds. -/
theorem Issues.reads {i : Instr} {s : State} {b : Bundle} {p : Part} {k : Stook} {h : Sheaf} {m : Lanes}
    (hi : Issues i s b p k h m) {l : Nat} (hl : m.getLsbD l = true) {s' : State} (hs : s'.ops = s.ops) {r : Nat}
    (hr : r ∈ regNums i.shape.srcs) (h7 : r ≠ 647) : s'.readReg h l r = h.raw l r := by
  obtain ⟨h32, hp, -⟩ := hi.lane_of_active hl
  obtain ⟨t, ht⟩ := hi.lane h32
  exact readReg_covered _ _ _ _ t ht (hs ▸ covers_of_uncovered ht (hi.uncovered h32 hp) (.inl ⟨hr, h7⟩))

theorem Issues.activeLanes {i : Instr} {s : State} {b : Bundle} {p : Part} {k : Stook} {h : Sheaf} {m : Lanes}
    (hi : Issues i s b p k h m) (hf : isFence i = true → m = p.lanes) : s.draw.activeLanes h i p.lanes = m := by
  unfold State.activeLanes
  split
  · exact (hf ‹_›).symm
  · rw [hi.active]
    apply lanesWhere_congr
    intro l hl
    by_cases hp : p.lanes.getLsbD l = true
    · obtain ⟨t, ht⟩ := hi.lane hl
      have hu : s.draw.uncovered h i l = none := hi.uncovered hl hp
      rw [guardOf_covered ht hu]
    · simp [hp]

theorem Issues.lateLanes {i : Instr} {s : State} {b : Bundle} {p : Part} {k : Stook} {h : Sheaf} {m : Lanes}
    (hi : Issues i s b p k h m) (act : Lanes) : s.draw.lateLanes h i p.lanes act = 0 := by
  apply BitVec.eq_of_getLsbD_eq
  intro l hl
  rw [State.lateLanes, getLsbD_lanesWhere]
  by_cases hp : p.lanes.getLsbD l = true
  · have hu : s.draw.uncovered h i l = none := hi.uncovered hl hp
    rw [hu]; simp
  · simp [hp]

theorem Issues.allotted {i : Instr} {s : State} {b : Bundle} {p : Part} {k : Stook} {h : Sheaf} {m : Lanes}
    (hi : Issues i s b p k h m) : ((regNums i.shape.regs).filter (· < 256)).find? (h.allot ≤ ·) = none := by
  rw [List.find?_eq_none]
  intro r hr
  have := List.all_eq_true.mp hi.regs r (List.mem_filter.mp hr).1
  have h256 := (List.mem_filter.mp hr).2
  simp only [decide_eq_true_eq] at this h256
  simp; omega

/-- THE ISSUE OF ONE INSTRUCTION in a bundle of one sheaf: its meaning acts once, on the active lanes, and the bundle
goes on (R56). -/
theorem issueWith_one {i : Instr} {s : State} {b : Bundle} {p : Part} {k : Stook} {h : Sheaf} {m : Lanes}
    (hi : Issues i s b p k h m) (hf : isFence i = true → m = p.lanes) (body : Body) :
    issueWith i body s = finishIssue i.common
      (afterBody (beforeBody i s b p) (body (issueCtx i s b p m) (beforeBody i s b p)) (issueCtx i s b p m) k.job) := by
  have hopen := hi.open'
  simp only [Bool.or_eq_false_iff] at hopen
  unfold issueWith
  simp only [hi.slot, hopen.1.1, hopen.1.2, hopen.2, hi.room, Bool.or_self, Bool.false_eq_true, if_false]
  rw [hi.parts]
  simp only [List.foldl_cons, List.foldl_nil]
  congr 1
  unfold issuePart
  have h1 : s.draw.stook b.tag = some k := hi.stook
  have h2 : s.draw.sheaf b.tag p.sheaf = some h := hi.sheaf
  have h3 : s.draw.accepts i.shape.feat = true := hi.feat
  have h4 : i.shape.modFeats.any (!s.draw.accepts ·) = false := by
    rw [List.any_eq_false]
    intro x hx
    have : s.draw.accepts x = true := List.all_eq_true.mp hi.mods x hx
    simp [this]
  have hm0 : m ||| 0 ≠ 0 := by simpa using hi.some'
  have hm1 : m &&& ~~~(0 : Lanes) = m := BitVec.and_allOnes
  have hnil : lanesOf 0 = [] := by decide
  have hl : p.lanes &&& ~~~(0 : Lanes) = p.lanes := BitVec.and_allOnes
  have h5 : (actsOnce i && (issueCtx i s.draw b p m).mixedTagged s.draw) = false := hi.path
  simp only [h1, h2, hi.activeLanes hf, hi.lateLanes, h3, h4, hm0, hm1, hnil, hi.fields, hi.whole, hi.allotted,
    hi.some', Bool.not_true, Bool.false_eq_true, if_false, Bool.or_self, List.foldl_nil, hl]
  exact if_neg (Bool.eq_false_iff.mp h5)

/-- Nothing but sheaves, issue slots and watchdog times differs. -/
def State.sameWork (s t : State) : Prop := t = { s with sheaves := t.sheaves, cores := t.cores, jobs := t.jobs }

theorem afterBody_sameWork (s s' : State) (c : Ctx) (job : Nat) (h : (s'.stook c.tag).isSome = true) :
    s'.sameWork (afterBody s s' c job) := by
  unfold afterBody
  rw [if_neg (by cases e : s'.stook c.tag <;> simp_all)]
  split <;> rfl

theorem finishIssue_sameWork (c : Common) (s : State) : s.sameWork (finishIssue c s) := by
  cases hb : s.slot s.cur.1 s.cur.2 with
  | none => unfold finishIssue; simp only [hb]; rfl
  | some b =>
    have := (finishIssue_spec c s b hb).rest
    unfold State.sameWork
    generalize finishIssue c s = t at this ⊢
    rw [this]

/-- Everything that an instruction does outside sheaves, issue slots and watchdog times is done by its meaning. -/
theorem issueWith_sameWork {i : Instr} {s : State} {b : Bundle} {p : Part} {k : Stook} {h : Sheaf} {m : Lanes}
    (hi : Issues i s b p k h m) (hf : isFence i = true → m = p.lanes) (body : Body)
    (hs : ((body (issueCtx i s b p m) (beforeBody i s b p)).stook b.tag).isSome = true) :
    (body (issueCtx i s b p m) (beforeBody i s b p)).sameWork (issueWith i body s) := by
  rw [issueWith_one hi hf]
  have h1 := afterBody_sameWork (beforeBody i s b p) _ (issueCtx i s b p m) k.job hs
  have h2 := finishIssue_sameWork i.common (afterBody (beforeBody i s b p)
    (body (issueCtx i s b p m) (beforeBody i s b p)) (issueCtx i s b p m) k.job)
  unfold State.sameWork at *
  rw [h2]
  generalize (finishIssue i.common _).sheaves = x, (finishIssue i.common _).cores = y,
    (finishIssue i.common _).jobs = z
  rw [h1]

end Sys2Proof.Machine
end

