-- ==== Sys2Proof/Laws/Registers.lean ====
section
/-! SUPPORT. What registers read as after a write of fixed latency, and what an instruction of fixed latency does:
`computes_fixed`. -/

namespace Sys2Proof.Machine
open Sys2Proof

/-- A register that a lane has. -/
def Sheaf.has (h : Sheaf) (l r : Nat) : Prop :=
  ∃ t, h.threads[l]? = some t ∧ (r < t.v.length ∧ r < 256 ∨ (256 ≤ r ∧ r < 640 ∧ r - 256 < h.s.length) ∨ (640 ≤ r ∧ r < 647))

/-- What a register keeps of a word: a predicate keeps whether it is zero. -/
def kept (r : Nat) (x : Word) : Word := if r < 640 then x else if x = 0 then 0 else 1

theorem testBit_pset (p : BitVec 8) (k j : Nat) (x : Word) (hk : k < 8) (hj : j < 8) :
    (if x = 0 then p &&& ~~~(1#8 <<< k) else p ||| (1#8 <<< k)).getLsbD j =
      if j = k then decide (x ≠ 0) else p.getLsbD j := by
  have h1 : (1#8 <<< k).getLsbD j = decide (j = k) := by
    rw [BitVec.getLsbD_shiftLeft, BitVec.getLsbD_one]
    by_cases h : j = k
    · subst h; simp [hj]
    · simp only [h, decide_false, Bool.and_eq_false_iff]
      simp; omega
  by_cases hx : x = 0
  · simp only [hx, if_true, BitVec.getLsbD_and, BitVec.getLsbD_not, h1, hj]
    by_cases h : j = k <;> simp [h]
  · have hx' : ¬ x = 0#32 := hx
    simp only [hx, if_false, BitVec.getLsbD_or, h1]
    by_cases h : j = k <;> simp [h, hx']

/-- Putting a value in a register of a lane: that register, in that lane or for a uniform one in all, and no other. -/
theorem raw_put (h : Sheaf) (l r : Nat) (x : Word) (hr : h.has l r) (l' r' : Nat) (hl' : ∃ t, h.threads[l']? = some t) :
    (h.put l r x).raw l' r' = if r' = r ∧ (l' = l ∨ (256 ≤ r ∧ r < 640)) then kept r x else h.raw l' r' := by
  obtain ⟨t, ht, hr⟩ := hr
  obtain ⟨t', ht'⟩ := hl'
  unfold Sheaf.put Sheaf.raw kept
  rcases hr with ⟨hv, h256⟩ | ⟨h1, h2, h3⟩ | ⟨h1, h2⟩
  · simp only [h256, if_true, List.getElem?_modify, ht', show r < 640 by omega]
    by_cases hl : l' = l
    · subst hl
      rw [ht] at ht'; cases ht'
      by_cases hr' : r' = r
      · subst hr'; simp [h256, hv]
      · have : ¬ r = r' := fun e => hr' e.symm
        simp [hr', this, List.getElem?_set_ne]
    · have : ¬ l = l' := fun e => hl e.symm
      simp [hl, this, show ¬ (256 ≤ r) by omega]
  · simp only [show ¬ r < 256 by omega, if_false, h2, if_true, ht']
    by_cases hr' : r' = r
    · subst hr'; simp [h1, show ¬ r' < 256 by omega, h2, h3]
    · by_cases h4 : r' < 256
      · simp [h4, hr']
      · by_cases h5 : r' < 640
        · have : ¬ r - 256 = r' - 256 := by omega
          simp [h4, h5, hr', List.getElem?_set_ne this]
        · simp [h4, h5, hr']
  · simp only [show ¬ r < 256 by omega, show ¬ r < 640 by omega, if_false, h2, if_true, List.getElem?_modify, ht']
    by_cases hl : l' = l
    · subst hl
      rw [ht] at ht'; cases ht'
      simp only [if_true]
      by_cases h3 : 640 ≤ r' ∧ r' < 647
      · simp only [show ¬ r' < 256 by omega, show ¬ r' < 640 by omega, h3.2, if_true, if_false]
        simp only [Option.map_eq_map, Option.map_some, testBit_pset t.p (r - 640) (r' - 640) x (by omega) (by omega)]
        by_cases hr' : r' = r
        · subst hr'; by_cases hx : x = 0 <;> simp [hx]
        · simp [hr', show ¬ (r' - 640 = r - 640) by omega]
      · have hr' : ¬ r' = r := by omega
        by_cases h4 : r' < 256
        · simp [h4, hr']
        · by_cases h5 : r' < 640
          · simp [h4, h5, hr']
          · simp [h4, h5, hr', show ¬ r' < 647 by omega]
    · have : ¬ l = l' := fun e => hl e.symm
      simp [hl, this]

/-! ## Sheaves that differ in registers only -/

/-- Two sheaves that differ only in what registers hold and in what covers their reads; the same registers exist. -/
structure SameRegs (h h' : Sheaf) : Prop where
  home : h' = { h with s := h'.s, threads := h'.threads }
  uniform : h'.s.length = h.s.length
  absent : ∀ l : Nat, h.threads[l]? = none → h'.threads[l]? = none
  lanes : ∀ (l : Nat) (x : Thread), h.threads[l]? = some x → ∃ y, h'.threads[l]? = some y ∧
    y = { x with v := y.v, p := y.p, pend := y.pend } ∧ y.v.length = x.v.length

theorem SameRegs.refl (h : Sheaf) : SameRegs h h := ⟨rfl, rfl, fun _ x => x, fun _ x hx => ⟨x, hx, rfl, rfl⟩⟩

theorem SameRegs.trans {a b c : Sheaf} (h : SameRegs a b) (k : SameRegs b c) : SameRegs a c where
  home := by rw [k.home, h.home]
  uniform := k.uniform.trans h.uniform
  absent l x := k.absent l (h.absent l x)
  lanes l x hx := by
    obtain ⟨y, hy, e, n⟩ := h.lanes l x hx
    obtain ⟨z, hz, e', n'⟩ := k.lanes l y hy
    exact ⟨z, hz, by rw [e', e], n'.trans n⟩

theorem SameRegs.has {h h' : Sheaf} (e : SameRegs h h') {l r : Nat} (hr : h.has l r) : h'.has l r := by
  obtain ⟨t, ht, hr⟩ := hr
  obtain ⟨y, hy, -, n⟩ := e.lanes l t ht
  exact ⟨y, hy, by rw [n, e.uniform]; exact hr⟩

theorem sameRegs_threads (h : Sheaf) (f : Nat → Thread → Thread)
    (hf : ∀ l x, f l x = { x with v := (f l x).v, p := (f l x).p, pend := (f l x).pend } ∧ (f l x).v.length = x.v.length) :
    SameRegs h { h with threads := h.threads.mapIdx f } where
  home := rfl
  uniform := rfl
  absent l hl := by simp [List.getElem?_mapIdx, hl]
  lanes l x hx := ⟨f l x, by simp [List.getElem?_mapIdx, hx], (hf l x).1, (hf l x).2⟩

/-- A change of one lane's thread, as a change of every lane's. -/
theorem threads_modify (ts : List Thread) (l : Nat) (f : Thread → Thread) :
    ts.modify l f = ts.mapIdx fun j x => if l = j then f x else x :=
  List.ext_getElem? fun j => by
    rw [List.getElem?_modify, List.getElem?_mapIdx]
    split <;> simp

theorem sameRegs_modify (h : Sheaf) (l : Nat) (f : Thread → Thread)
    (hf : ∀ x, f x = { x with v := (f x).v, p := (f x).p, pend := (f x).pend } ∧ (f x).v.length = x.v.length) :
    SameRegs h { h with threads := h.threads.modify l f } := by
  rw [threads_modify]
  apply sameRegs_threads
  intro j x
  split
  · exact hf x
  · exact ⟨rfl, rfl⟩

theorem sameRegs_put (h : Sheaf) (l r : Nat) (x : Word) : SameRegs h (h.put l r x) := by
  unfold Sheaf.put
  split
  · exact sameRegs_modify _ _ _ fun x => ⟨rfl, by simp⟩
  · split
    · exact ⟨rfl, by simp, fun _ h => h, fun _ y hy => ⟨y, hy, rfl, rfl⟩⟩
    · split
      · exact sameRegs_modify _ _ _ fun x => ⟨rfl, rfl⟩
      · exact SameRegs.refl h

/-- Marking covers changes no register. -/
theorem raw_mapIdx_pend (h : Sheaf) (f : Nat → Thread → Thread) (hf : ∀ l x, (f l x).v = x.v ∧ (f l x).p = x.p)
    (l r : Nat) : ({ h with threads := h.threads.mapIdx f } : Sheaf).raw l r = h.raw l r := by
  unfold Sheaf.raw
  simp only [List.getElem?_mapIdx]
  cases h.threads[l]? with
  | none => rfl
  | some x => simp [hf l x]

theorem sameRegs_write (h : Sheaf) (l r : Nat) (x : Word) : SameRegs h (h.write l r x) := by
  unfold Sheaf.write
  simp only
  split
  · exact (sameRegs_put h l r x).trans (sameRegs_modify _ _ _ fun _ => ⟨rfl, rfl⟩)
  · split
    · refine (sameRegs_put h l r x).trans ?_
      have e : (h.put l r x).threads.map (fun t => t.mark r (h.raw l r).toNat (.stalls (t.cnt + 2))) =
          (h.put l r x).threads.mapIdx fun _ t => t.mark r (h.raw l r).toNat (.stalls (t.cnt + 2)) := by
        apply List.ext_getElem <;> simp
      rw [e]
      exact sameRegs_threads _ _ (by intro _ _; exact ⟨rfl, rfl⟩)
    · exact SameRegs.refl h

theorem raw_write (h : Sheaf) (l r : Nat) (x : Word) (hr : h.has l r) (l' r' : Nat) (hl' : ∃ t, h.threads[l']? = some t) :
    (h.write l r x).raw l' r' = if r' = r ∧ (l' = l ∨ (256 ≤ r ∧ r < 640)) then kept r x else h.raw l' r' := by
  rw [← raw_put h l r x hr l' r' hl']
  have hr2 : r < 647 := by obtain ⟨t, -, hr⟩ := hr; omega
  unfold Sheaf.write
  simp only
  split
  · rw [threads_modify]
    exact raw_mapIdx_pend _ _ (fun l x => by split <;> exact ⟨rfl, rfl⟩) _ _
  · have e : (h.put l r x).threads.map (fun t => t.mark r (h.raw l r).toNat (.stalls (t.cnt + 2))) =
        (h.put l r x).threads.mapIdx fun _ t => t.mark r (h.raw l r).toNat (.stalls (t.cnt + 2)) := by
      apply List.ext_getElem <;> simp
    split
    · rw [e]
      exact raw_mapIdx_pend _ _ (by intro _ _; exact ⟨rfl, rfl⟩) _ _
    · omega

/-! ## Register groups -/

/-- Word i of a value. -/
def wordAt (x i : Nat) : Word := BitVec.ofNat 32 (x / 2 ^ (32 * i))

theorem wordsOf_zipIdx (n x : Nat) : (wordsOf n x).zipIdx = (List.range n).map fun i => (wordAt x i, i) := by
  apply List.ext_getElem <;> simp [wordsOf, wordAt]

theorem SameRegs.lane {h h' : Sheaf} (e : SameRegs h h') {l : Nat} (hl : ∃ t, h.threads[l]? = some t) :
    ∃ t, h'.threads[l]? = some t := by
  obtain ⟨t, ht⟩ := hl
  obtain ⟨y, hy, -⟩ := e.lanes l t ht
  exact ⟨y, hy⟩

/-- A register group of fixed latency written in a lane. -/
theorem wr_spec (h : Sheaf) (l : Nat) (d : Reg) (n x : Nat) (hz : d.isZ = false) (hd : ∀ i < n, h.has l (d.num + i)) :
    SameRegs h (h.wr l d n x) ∧ ∀ l' r', (∃ t, h.threads[l']? = some t) → (h.wr l d n x).raw l' r' =
      if (d.num ≤ r' ∧ r' < d.num + n) ∧ (l' = l ∨ (256 ≤ r' ∧ r' < 640)) then kept r' (wordAt x (r' - d.num))
      else h.raw l' r' := by
  unfold Sheaf.wr
  simp only [hz, Bool.false_eq_true, if_false, wordsOf_zipIdx, List.foldl_map]
  induction n with
  | zero =>
    refine ⟨SameRegs.refl h, fun l' r' _ => ?_⟩
    simp only [List.range_zero, List.foldl_nil]
    rw [if_neg]; omega
  | succ n ih =>
    obtain ⟨ih1, ih2⟩ := ih fun i hi => hd i (by omega)
    simp only [List.range_succ, List.foldl_append, List.foldl_cons, List.foldl_nil]
    refine ⟨ih1.trans (sameRegs_write _ _ _ _), fun l' r' hl' => ?_⟩
    rw [raw_write _ _ _ _ (ih1.has (hd n (by omega))) _ _ (ih1.lane hl'), ih2 l' r' hl']
    by_cases e : r' = d.num + n
    · subst e
      by_cases hl : l' = l ∨ (256 ≤ d.num + n ∧ d.num + n < 640)
      · rw [if_pos ⟨rfl, hl⟩, if_pos ⟨by omega, hl⟩, Nat.add_sub_cancel_left]
      · rw [if_neg (by simp [hl]), if_neg (by omega), if_neg (by simp [hl])]
    · rw [if_neg (by simp [e])]
      by_cases c : (d.num ≤ r' ∧ r' < d.num + n) ∧ (l' = l ∨ (256 ≤ r' ∧ r' < 640))
      · rw [if_pos c, if_pos ⟨by omega, c.2⟩]
      · rw [if_neg c, if_neg (by omega)]

/-- A register group written in several lanes. -/
theorem wrs_spec (d : Reg) (n : Nat) (g : Nat → Nat) (hz : d.isZ = false) (hU : ∀ i < n, ¬ (256 ≤ d.num + i ∧ d.num + i < 640)) :
    ∀ (ls : List Nat) (h : Sheaf), (∀ l ∈ ls, ∀ i < n, h.has l (d.num + i)) →
    SameRegs h (ls.foldl (fun h l => h.wr l d n (g l)) h) ∧ ∀ l' r', (∃ t, h.threads[l']? = some t) →
      (ls.foldl (fun h l => h.wr l d n (g l)) h).raw l' r' =
        if (d.num ≤ r' ∧ r' < d.num + n) ∧ l' ∈ ls then kept r' (wordAt (g l') (r' - d.num)) else h.raw l' r' := by
  intro ls
  induction ls with
  | nil => exact fun h _ => ⟨SameRegs.refl h, fun l' r' _ => by simp⟩
  | cons l ls ih =>
    intro h hl
    obtain ⟨w1, w2⟩ := wr_spec h l d n (g l) hz (hl l (by simp))
    obtain ⟨i1, i2⟩ := ih (h.wr l d n (g l)) fun l' hl' i hi => w1.has (hl l' (by simp [hl']) i hi)
    refine ⟨w1.trans i1, fun l' r' hx => ?_⟩
    simp only [List.foldl_cons]
    rw [i2 l' r' (w1.lane hx), w2 l' r' hx]
    by_cases hr : d.num ≤ r' ∧ r' < d.num + n
    · have : ¬ (256 ≤ r' ∧ r' < 640) := by
        have := hU (r' - d.num) (by omega)
        rwa [show d.num + (r' - d.num) = r' by omega] at this
      by_cases hm : l' ∈ ls
      · simp [hr, hm]
      · by_cases he : l' = l
        · subst he; simp [hr, hm]
        · simp [hr, hm, he, this]
    · simp [hr]

theorem val_of_words (x n : Nat) (f : Nat → Word) (hf : ∀ i < n, f i = wordAt x i) :
    (List.range n).foldl (fun a i => a + (f i).toNat * 2 ^ (32 * i)) 0 = x % 2 ^ (32 * n) := by
  induction n with
  | zero => simp [Nat.mod_one]
  | succ n ih =>
    rw [List.range_succ, List.foldl_append, ih fun i hi => hf i (by omega)]
    simp only [List.foldl_cons, List.foldl_nil, hf n (by omega), wordAt, BitVec.toNat_ofNat]
    rw [show 32 * (n + 1) = 32 * n + 32 by omega, Nat.pow_add, Nat.mod_mul]
    rw [Nat.mul_comm (2 ^ (32 * n))]

end Sys2Proof.Machine
end

