-- ==== Sys2Proof/Laws/Fixed.lean ====
section
/-! SUPPORT. What an instruction of fixed latency does (`computes_fixed`), from what its sources hold. -/

namespace Sys2Proof.Machine
open Sys2Proof

/-- A destination that exists: nothing, vector registers that the field rules and the allotment check, uniform
registers, or a predicate. -/
def DestOk (i : Instr) (d : Reg) (n : Nat) : Prop :=
  d = .z ∨ (∃ v, d = .v v ∧ v.val + n ≤ 256 ∧ (d, n) ∈ i.shape.regs) ∨ (∃ v, d = .s v ∧ v.val + n ≤ 384) ∨
    (n = 1 ∧ ∃ v, d = .p v)

theorem mem_regNums {l : List (Reg × Nat)} {d : Reg} {n j : Nat} (h : (d, n) ∈ l) (hz : d.isZ = false) (hj : j < n) :
    d.num + j ∈ regNums l := by
  simp only [regNums, List.mem_flatMap]
  exact ⟨(d, n), h, by simpa [hz] using hj⟩

theorem Issues.shape32 {i : Instr} {s : State} {b : Bundle} {p : Part} {k : Stook} {h : Sheaf} {m : Lanes}
    (hi : Issues i s b p k h m) : h.threads.length = 32 ∧ h.s.length = 384 ∧ ∀ (l : Nat) (t : Thread),
      h.threads[l]? = some t → t.v.length = h.allot := by
  have hs := hi.shaped
  simp only [Sheaf.shaped, Bool.and_eq_true, beq_iff_eq, List.all_eq_true] at hs
  exact ⟨hs.1.1, hs.1.2, fun l t ht => hs.2 t (List.mem_of_getElem? ht)⟩

/-- The registers of a destination exist in every lane. -/
theorem Issues.has {i : Instr} {s : State} {b : Bundle} {p : Part} {k : Stook} {h : Sheaf} {m : Lanes}
    (hi : Issues i s b p k h m) {d : Reg} {n : Nat} (hd : DestOk i d n) (hz : d.isZ = false) (h7 : d ≠ .p 7) {l : Nat}
    (hl : l < 32) : ∀ j < n, h.has l (d.num + j) := by
  intro j hj
  obtain ⟨t, ht⟩ := hi.lane hl
  obtain ⟨-, h384, hv⟩ := hi.shape32
  refine ⟨t, ht, ?_⟩
  rcases hd with rfl | ⟨v, rfl, h256, hm⟩ | ⟨v, rfl, h384'⟩ | ⟨rfl, v, rfl⟩
  · simp [Reg.isZ] at hz
  · left
    have hr := List.all_eq_true.mp hi.regs _ (mem_regNums hm hz hj)
    have := hv l t ht
    rw [decide_eq_true_eq] at hr
    simp only [Reg.num] at hr ⊢
    omega
  · right; left
    simp only [Reg.num]; omega
  · right; right
    simp only [Reg.num]
    have : v ≠ 7 := fun e => h7 (by rw [e])
    have : v.val ≠ 7 := fun e => this (Fin.ext e)
    omega

theorem raw_congr {h h' : Sheaf} (ht : h'.threads = h.threads) (hs : h'.s = h.s) (l r : Nat) : h'.raw l r = h.raw l r := by
  simp [Sheaf.raw, ht, hs]

/-- A state that differs in one sheaf. -/
structure OneSheaf (s t : State) (g i : Nat) (h h' : Sheaf) : Prop where
  rest : t = { s with sheaves := t.sheaves }
  others : ∀ g' i', ¬ (g' = g ∧ i' = i) → t.sheaf g' i' = s.sheaf g' i'
  before : s.sheaf g i = some h
  after : t.sheaf g i = some h'

theorem OneSheaf.refl {s : State} {g i : Nat} {h : Sheaf} (hs : s.sheaf g i = some h) : OneSheaf s s g i h h :=
  ⟨rfl, fun _ _ _ => rfl, hs, hs⟩

theorem OneSheaf.trans {a b c : State} {g i : Nat} {h h' h'' : Sheaf} (x : OneSheaf a b g i h h')
    (y : OneSheaf b c g i h' h'') : OneSheaf a c g i h h'' :=
  ⟨by rw [y.rest, x.rest], fun g' i' e => (y.others g' i' e).trans (x.others g' i' e), x.before, y.after⟩

theorem oneSheaf_modSheaf {s : State} {g i : Nat} {h : Sheaf} (hs : s.sheaf g i = some h) (f : Sheaf → Sheaf)
    (hf : ∀ h, (f h).tag = h.tag ∧ (f h).index = h.index) : OneSheaf s (s.modSheaf g i f) g i h (f h) :=
  ⟨rfl, fun _ _ e => sheaf_modSheaf_other _ _ _ _ _ _ hf e, hs, by rw [sheaf_modSheaf_self _ _ _ _ hf, hs]; rfl⟩

/-- Adds flags to a thread. -/
def Thread.orFlags (t : Thread) (f : Flags) : Thread := { t with fflags := t.fflags ||| f }

theorem oneSheaf_orFlags {s : State} {g i : Nat} {h : Sheaf} (hs : s.sheaf g i = some h) (m : Lanes) (f : Flags) :
    OneSheaf s (s.orFlags g i m f) g i h
      { h with threads := h.threads.mapIdx fun l t => if m.getLsbD l then t.orFlags f else t } := by
  unfold State.orFlags
  split
  · rename_i h0
    subst h0
    have : (h.threads.mapIdx fun l t => if m.getLsbD l then t.orFlags 0 else t) = h.threads := by
      apply List.ext_getElem <;> simp [Thread.orFlags]
    rw [this]
    exact OneSheaf.refl hs
  · exact oneSheaf_modSheaf hs _ (by intro _; exact ⟨rfl, rfl⟩)

/-- Flags added to several lanes, each its own. -/
theorem oneSheaf_orFlagsEach {g i : Nat} (f : Nat → Flags) : ∀ (ls : List Nat) (s : State) (h : Sheaf), ls.Nodup →
    (∀ l ∈ ls, l < 32) → s.sheaf g i = some h → OneSheaf s (ls.foldl (fun s l => s.orFlags g i (1#32 <<< l) (f l)) s) g i h
      { h with threads := h.threads.mapIdx fun l t => if l ∈ ls then t.orFlags (f l) else t } := by
  intro ls
  induction ls with
  | nil => intro s h _ _ hs; simpa [mapIdx_self] using OneSheaf.refl hs
  | cons l ls ih =>
    intro s h hn h32 hs
    have h1 := oneSheaf_orFlags hs (1#32 <<< l) (f l)
    have h2 := h1.trans (ih _ _ (List.nodup_cons.mp hn).2 (fun x hx => h32 x (by simp [hx])) h1.after)
    have hl := (List.nodup_cons.mp hn).1
    simp only [List.mapIdx_mapIdx] at h2
    have hb : ∀ j, (1#32 <<< l).getLsbD j = decide (j = l) := by
      intro j
      have := h32 l (by simp)
      rw [BitVec.getLsbD_shiftLeft, BitVec.getLsbD_one]
      by_cases h : j = l
      · subst h; simp [this]
      · simp only [h, decide_false, Bool.and_eq_false_iff]
        simp; omega
    have e : (fun (j : Nat) (t : Thread) => if j ∈ l :: ls then t.orFlags (f j) else t) = fun j =>
        (fun t => if j ∈ ls then t.orFlags (f j) else t) ∘ fun t =>
          if (1#32 <<< l).getLsbD j = true then t.orFlags (f l) else t := by
      funext j t
      simp only [Function.comp, hb]
      by_cases e : j = l
      · subst e; simp [hl]
      · simp [e]
    rw [e]
    exact h2

theorem lanesOf_nodup (m : Lanes) : (lanesOf m).Nodup := List.nodup_range.filter _

/-! ## Results of fixed latency -/

/-- What a body of fixed latency leaves of the state it acts on. -/
structure FixedDone (s t : State) (g i : Nat) (h h' : Sheaf) (m : Lanes) (d : Reg) (n : Nat) (f : Nat → Nat × Flags) :
    Prop where
  one : OneSheaf s t g i h h'
  home : h' = { h with s := h'.s, threads := h'.threads }
  absent : ∀ l : Nat, h.threads[l]? = none → h'.threads[l]? = none
  lanes : ∀ (l : Nat) (x : Thread), h.threads[l]? = some x → ∃ y, h'.threads[l]? = some y ∧
    y = { x with v := y.v, p := y.p, pend := y.pend, fflags := y.fflags } ∧
    y.fflags = if m.getLsbD l then x.fflags ||| (f l).2 else x.fflags
  value : d.isZ = false → d ≠ .p 7 → ∀ l, m.getLsbD l = true → h'.val l d n = (f l).1 % 2 ^ (32 * n)
  regs : ∀ l r, (∃ t, h.threads[l]? = some t) →
    (d.isZ = true ∨ r < d.num ∨ d.num + n ≤ r ∨ (¬ d.isU = true ∧ m.getLsbD l = false)) → h'.raw l r = h.raw l r

theorem wr_none {h : Sheaf} {l n x : Nat} {d : Reg} (hd : d.isZ = true ∨ (d = .p 7 ∧ n = 1)) : h.wr l d n x = h := by
  unfold Sheaf.wr
  rcases hd with hz | ⟨rfl, rfl⟩
  · simp [hz]
  · have h7 : (Reg.p 7).num = 647 := rfl
    simp [Reg.isZ, wordsOf, Sheaf.write, h7]

theorem val_eq {h : Sheaf} {l n x : Nat} {d : Reg} (hz : d.isZ = false)
    (hr : ∀ j < n, h.raw l (d.num + j) = wordAt x j) : h.val l d n = x % 2 ^ (32 * n) := by
  unfold Sheaf.val
  rw [if_neg (by simp [hz])]
  exact val_of_words x n _ hr

/-- The registers that the lanes given write, and nothing else. -/
theorem wrs_done {i : Instr} {s : State} {b : Bundle} {p : Part} {k : Stook} {h : Sheaf} {m : Lanes}
    (hi : Issues i s b p k h m) {d : Reg} {n : Nat} (hd : DestOk i d n) (c : Ctx) (hc : c.act = m) (f : Nat → Nat)
    (hu : d.isU = true → ∀ l l', m.getLsbD l = true → m.getLsbD l' = true → f l = f l')
    (hp : d.isP = true → ∀ l, m.getLsbD l = true → f l ≤ 1) (h0 : Sheaf) (ht : h0.threads = h.threads) (hs : h0.s = h.s) :
    let h' := (c.runs d).foldl (fun h l => h.wr l d n (f l)) h0
    SameRegs h0 h' ∧ (d.isZ = false → d ≠ .p 7 → ∀ l, m.getLsbD l = true → h'.val l d n = f l % 2 ^ (32 * n)) ∧
      ∀ l r, (∃ t, h.threads[l]? = some t) →
        (d.isZ = true ∨ r < d.num ∨ d.num + n ≤ r ∨ (¬ d.isU = true ∧ m.getLsbD l = false)) → h'.raw l r = h0.raw l r := by
  intro h'
  have hrun : ∀ l ∈ c.runs d, l < 32 ∧ m.getLsbD l = true := by
    intro l hl
    unfold Ctx.runs at hl
    split at hl
    · exact hc ▸ mem_lanesOf.mp (List.mem_of_mem_take hl)
    · exact hc ▸ mem_lanesOf.mp hl
  by_cases hnone : d.isZ = true ∨ (d = .p 7 ∧ n = 1)
  · have e : h' = h0 := List.foldlRecOn (motive := (· = h0)) _ _ rfl fun x hx l _ => hx ▸ wr_none hnone
    rw [e]
    refine ⟨SameRegs.refl _, fun hz h7 => ?_, fun _ _ _ _ => rfl⟩
    rcases hnone with h | h
    · rw [hz] at h; cases h
    · exact absurd h.1 h7
  · have hz : d.isZ = false := by
      cases h : d.isZ
      · rfl
      · exact absurd (.inl h) hnone
    have h7 : d ≠ .p 7 := by
      rintro rfl
      rcases hd with hd | ⟨v, hd, -⟩ | ⟨v, hd, -⟩ | ⟨rfl, -⟩
      · cases hd
      · cases hd
      · cases hd
      · exact hnone (.inr ⟨rfl, rfl⟩)
    have hhas : ∀ l, l < 32 → ∀ j < n, h0.has l (d.num + j) := by
      intro l hl j hj
      obtain ⟨t, h1, h2⟩ := hi.has hd hz h7 hl j hj
      exact ⟨t, by rw [ht]; exact h1, by rw [hs]; exact h2⟩
    by_cases hU : d.isU = true
    · -- one run, for the sheaf
      obtain ⟨v, rfl⟩ : ∃ v, d = .s v := by
        cases d <;> simp [Reg.isU] at hU
        exact ⟨_, rfl⟩
      have h384 : v.val + n ≤ 384 := by
        rcases hd with hd | ⟨w, hd, -⟩ | ⟨w, hd, e⟩ | ⟨-, w, hd⟩
        · cases hd
        · cases hd
        · cases hd; exact e
        · cases hd
      obtain ⟨l0, hl0, hrun0⟩ : ∃ l0, m.getLsbD l0 = true ∧ c.runs (.s v) = [l0] := by
        have hne : lanesOf m ≠ [] := by
          intro e
          apply hi.some'
          apply BitVec.eq_of_getLsbD_eq
          intro j hj
          by_cases hm : m.getLsbD j = true
          · have := mem_lanesOf.mpr ⟨hj, hm⟩
            rw [e] at this; cases this
          · simpa using hm
        cases e : lanesOf m with
        | nil => exact absurd e hne
        | cons a as =>
          refine ⟨a, (mem_lanesOf.mp (e ▸ List.mem_cons_self)).2, ?_⟩
          simp [Ctx.runs, hU, hc, e]
      have e : h' = h0.wr l0 (.s v) n (f l0) := by simp only [h', hrun0]; rfl
      rw [e]
      have h32 := (hi.lane_of_active hl0).1
      obtain ⟨w1, w2⟩ := wr_spec h0 l0 (.s v) n (f l0) hz (hhas l0 h32)
      refine ⟨w1, fun _ _ l hl => ?_, fun l r hx hr => ?_⟩
      · rw [hu hU l l0 hl hl0]
        apply val_eq hz
        intro j hj
        obtain ⟨t, hlt⟩ := hi.lane (hi.lane_of_active hl).1
        rw [w2 l _ ⟨t, by rw [ht]; exact hlt⟩, if_pos ⟨by omega, .inr (by simp only [Reg.num]; omega)⟩,
          Nat.add_sub_cancel_left, kept, if_pos (by simp only [Reg.num]; omega)]
      · rw [w2 l r (by rw [ht]; exact hx)]
        rw [if_neg]
        rintro ⟨h1, -⟩
        rcases hr with h | h | h | h
        · rw [hz] at h; cases h
        · omega
        · omega
        · exact h.1 hU
    · -- one run for each lane
      have hrunE : c.runs d = lanesOf m := by simp [Ctx.runs, hU, hc]
      have hno : ∀ j < n, ¬ (256 ≤ d.num + j ∧ d.num + j < 640) := by
        intro j hj
        rcases hd with rfl | ⟨v, rfl, e, -⟩ | ⟨v, rfl, -⟩ | ⟨rfl, v, rfl⟩
        · simp [Reg.isZ] at hz
        · simp only [Reg.num]; omega
        · simp [Reg.isU] at hU
          omega
        · simp only [Reg.num]; omega
      obtain ⟨w1, w2⟩ := wrs_spec d n f hz hno (c.runs d) h0 fun l hl => hhas l (hrun l hl).1
      refine ⟨w1, fun _ _ l hl => ?_, fun l r hx hr => ?_⟩
      · apply val_eq hz
        intro j hj
        have h32 := (hi.lane_of_active hl).1
        obtain ⟨t, hlt⟩ := hi.lane h32
        rw [w2 l _ ⟨t, by rw [ht]; exact hlt⟩,
          if_pos ⟨by omega, by rw [hrunE]; exact mem_lanesOf.mpr ⟨h32, hl⟩⟩, Nat.add_sub_cancel_left, kept]
        split
        · rfl
        · rename_i h640
          rcases hd with rfl | ⟨v, rfl, e, -⟩ | ⟨v, rfl, e⟩ | ⟨rfl, v, rfl⟩
          · simp [Reg.isZ] at hz
          · simp only [Reg.num] at h640; omega
          · simp only [Reg.num] at h640; omega
          · have := hp rfl l hl
            have j0 : j = 0 := by omega
            subst j0
            have h2 : f l = 0 ∨ f l = 1 := by omega
            rcases h2 with e | e <;> simp [wordAt, e]
      · rw [w2 l r (by rw [ht]; exact hx)]
        rw [if_neg]
        rintro ⟨h1, h2⟩
        rcases hr with h | h | h | h
        · rw [hz] at h; cases h
        · omega
        · omega
        · have := (hrun l h2).2
          rw [h.2] at this; cases this

theorem sheaf_mk_threads (h : Sheaf) (t : List Thread) :
    ({ h with threads := t } : Sheaf) = { h with s := h.s, threads := t } := rfl

/-- Adding flags changes no register. -/
theorem raw_orFlags (h : Sheaf) (q : Nat → Bool) (f : Nat → Flags) (l r : Nat) :
    ({ h with threads := h.threads.mapIdx fun l t => if q l then t.orFlags (f l) else t } : Sheaf).raw l r = h.raw l r :=
  raw_mapIdx_pend _ _ (fun l x => by split <;> exact ⟨rfl, rfl⟩) _ _

/-- A credit to the threads outside the bundle changes no register (R16). -/
theorem credit_spec (h : Sheaf) (m : Lanes) (d : Reg) (n stall : Nat) :
    SameRegs h (h.credit m d n stall) ∧ ∀ l r, (h.credit m d n stall).raw l r = h.raw l r := by
  unfold Sheaf.credit
  split
  · exact ⟨SameRegs.refl h, fun _ _ => rfl⟩
  · exact ⟨sameRegs_threads _ _ fun l x => by split <;> exact ⟨rfl, rfl⟩,
      raw_mapIdx_pend _ _ fun l x => by split <;> exact ⟨rfl, rfl⟩⟩

/-- THE BODY OF AN INSTRUCTION OF FIXED LATENCY: every active lane's destination takes its value, every active lane its
flags, and nothing else changes. -/
theorem fixedBody_done {i : Instr} {s0 : State} {b : Bundle} {p : Part} {k : Stook} {h : Sheaf} {m : Lanes}
    (hi : Issues i s0 b p k h m) {d : Reg} {n : Nat} (hd : DestOk i d n) (c : Ctx) (hc : c.act = m) (f : Nat → Nat × Flags)
    (hu : d.isU = true → ∀ l l', m.getLsbD l = true → m.getLsbD l' = true → f l = f l')
    (hp : d.isP = true → ∀ l, m.getLsbD l = true → (f l).1 ≤ 1) (s : State) (h0 : Sheaf) (ht : h0.threads = h.threads)
    (hs : h0.s = h.s) (hsh : s.sheaf c.tag c.sheaf = some h0) (g : State → Sheaf → Nat → Nat × Flags)
    (hg : ∀ l, m.getLsbD l = true → g s h0 l = f l) :
    ∃ h', FixedDone s (fixedBody d n g c s) c.tag c.sheaf h0 h' m d n f := by
  have hrun : ∀ l ∈ c.runs d, l < 32 ∧ m.getLsbD l = true := by
    intro l hl
    unfold Ctx.runs at hl
    split at hl
    · exact hc ▸ mem_lanesOf.mp (List.mem_of_mem_take hl)
    · exact hc ▸ mem_lanesOf.mp hl
  have hsh' : c.sh s = some h0 := hsh
  unfold fixedBody
  simp only [hsh']
  have hmap : ((c.runs d).map fun l => (l, g s h0 l)) = (c.runs d).map fun l => (l, f l) := by
    apply List.map_congr_left
    intro l hl
    rw [hg l (hrun l hl).2]
  rw [hmap]
  simp only [List.foldl_map]
  obtain ⟨v1, v2, v3⟩ := wrs_done hi hd c hc (fun l => (f l).1) (fun hU l l' a b => by rw [hu hU l l' a b]) hp h0 ht hs
  obtain ⟨W, hW⟩ : ∃ W : Sheaf → Sheaf, W = fun h =>
      ((c.runs d).foldl (fun h l => h.wr l d n (f l).1) h).credit c.lanes d n c.i.common.stall.toNat := ⟨_, rfl⟩
  rw [← hW]
  have hcr := fun h => credit_spec h c.lanes d n c.i.common.stall.toNat
  have w1 : SameRegs h0 (W h0) := by rw [hW]; exact v1.trans (hcr _).1
  have wraw : ∀ l r, (W h0).raw l r = ((c.runs d).foldl (fun h l => h.wr l d n (f l).1) h0).raw l r := by
    rw [hW]; exact (hcr _).2
  have w2 : d.isZ = false → d ≠ .p 7 → ∀ l, m.getLsbD l = true → (W h0).val l d n = (f l).1 % 2 ^ (32 * n) := by
    intro hz h7 l hl
    rw [← v2 hz h7 l hl]
    unfold Sheaf.val
    simp only [wraw]
  have w3 : ∀ l r, (∃ t, h.threads[l]? = some t) →
      (d.isZ = true ∨ r < d.num ∨ d.num + n ≤ r ∨ (¬ d.isU = true ∧ m.getLsbD l = false)) → (W h0).raw l r = h0.raw l r :=
    fun l r hx hr => (wraw l r).trans (v3 l r hx hr)
  have one := oneSheaf_modSheaf hsh W (by
    intro x
    have hwr : ∀ (x : Sheaf) (l : Nat), SameRegs x (x.wr l d n (f l).1) := by
      intro x l
      unfold Sheaf.wr
      split
      · exact SameRegs.refl x
      · exact List.foldlRecOn (motive := SameRegs x) _ _ (SameRegs.refl x) fun y hy w _ => hy.trans (sameRegs_write _ _ _ _)
    have hx : SameRegs x (W x) := by
      rw [hW]
      exact SameRegs.trans (List.foldlRecOn (motive := SameRegs x) _ _ (SameRegs.refl x) fun y hy l _ => hy.trans (hwr y l))
        (hcr _).1
    rw [hx.home]
    exact ⟨rfl, rfl⟩)
  -- the flags
  have flags : ∃ s2 h2, OneSheaf (s.modSheaf c.tag c.sheaf W) s2
        c.tag c.sheaf (W h0) h2 ∧
      (c.runs d).foldl (fun s l => s.orFlags c.tag c.sheaf (c.flagLanes d l) (f l).2)
        (s.modSheaf c.tag c.sheaf W) = s2 ∧
      h2 = { W h0 with
        threads := (W h0).threads.mapIdx fun l t =>
          if m.getLsbD l then t.orFlags (f l).2 else t } := by
    by_cases hU : d.isU = true
    · by_cases hr : c.runs d = []
      · exfalso
        apply hi.some'
        apply BitVec.eq_of_getLsbD_eq
        intro j hj
        by_cases hm : m.getLsbD j = true
        · have := mem_lanesOf.mpr ⟨hj, hm⟩
          simp only [Ctx.runs, hU, if_true, hc, List.take_eq_nil_iff] at hr
          rcases hr with h | h
          · cases h
          · rw [h] at this; cases this
        · simpa using hm
      · obtain ⟨l0, hl0, e0⟩ : ∃ l0, m.getLsbD l0 = true ∧ c.runs d = [l0] := by
          cases e : lanesOf m with
          | nil => simp [Ctx.runs, hU, hc, e] at hr
          | cons a as => exact ⟨a, (mem_lanesOf.mp (e ▸ List.mem_cons_self)).2, by simp [Ctx.runs, hU, hc, e]⟩
        refine ⟨_, _, oneSheaf_orFlags one.after m (f l0).2, ?_, ?_⟩
        · simp only [e0, List.foldl_cons, List.foldl_nil, Ctx.flagLanes, hU, if_true, hc]
        · congr 1
          apply List.ext_getElem
          · simp
          · intro j h1 h2
            simp only [List.getElem_mapIdx]
            by_cases hm : m.getLsbD j = true
            · rw [if_pos hm, if_pos hm, hu hU j l0 hm hl0]
            · rw [if_neg hm, if_neg hm]
    · have hrunE : c.runs d = lanesOf m := by simp [Ctx.runs, hU, hc]
      refine ⟨_, _, oneSheaf_orFlagsEach (fun l => (f l).2) (c.runs d) _ _ (hrunE ▸ lanesOf_nodup m)
        (fun l hl => (hrun l hl).1) one.after, ?_, ?_⟩
      · simp only [Ctx.flagLanes, hU, Bool.false_eq_true, if_false]
      · congr 1
        apply List.ext_getElem
        · simp
        · intro j h1 h2
          simp only [List.getElem_mapIdx, hrunE, mem_lanesOf]
          by_cases hm : m.getLsbD j = true
          · have hj : j < 32 := (hi.lane_of_active hm).1
            simp [hm, hj]
          · simp [hm]
  obtain ⟨s2, h2, o2, e2, rfl⟩ := flags
  refine ⟨{ W h0 with
    threads := (W h0).threads.mapIdx fun l t =>
      if m.getLsbD l then t.orFlags (f l).2 else t }, ⟨?_, ?_, ?_, ?_, ?_, ?_⟩⟩
  · rw [e2]; exact one.trans o2
  · rw [w1.home]
  · intro l hl; simp [List.getElem?_mapIdx, w1.absent l hl]
  · intro l x hx
    obtain ⟨y, hy, e, -⟩ := w1.lanes l x hx
    refine ⟨if m.getLsbD l then y.orFlags (f l).2 else y, by simp [List.getElem?_mapIdx, hy], ?_, ?_⟩
    · split
      · simp only [Thread.orFlags]; rw [e]
      · rw [e]
    · have hf : y.fflags = x.fflags := by rw [e]
      split
      · simp [Thread.orFlags, hf]
      · exact hf
  · intro hz h7 l hl
    rw [← w2 hz h7 l hl]
    unfold Sheaf.val
    simp only [raw_orFlags]
  · intro l r hx hr
    rw [raw_orFlags]
    exact w3 l r (by rw [← ht]; exact hx) hr

theorem Issues.someLane {i : Instr} {s : State} {b : Bundle} {p : Part} {k : Stook} {h : Sheaf} {m : Lanes}
    (hi : Issues i s b p k h m) : ∃ l, l < 32 ∧ m.getLsbD l = true := by
  rcases Classical.em (∃ l, l < 32 ∧ m.getLsbD l = true) with h | h
  · exact h
  · exfalso
    apply hi.some'
    apply BitVec.eq_of_getLsbD_eq
    intro j hj
    cases e : m.getLsbD j
    · simp
    · exact absurd ⟨j, hj, e⟩ h

theorem Issues.before {i : Instr} {s : State} {b : Bundle} {p : Part} {k : Stook} {h : Sheaf} {m : Lanes}
    (hi : Issues i s b p k h m) : (beforeBody i s b p).sheaf b.tag p.sheaf =
      some { h with failed := h.failed.filter (·.slot != i.common.sbw.toNat) } := by
  unfold beforeBody State.clearMark
  rw [sheaf_modSheaf_self _ _ _ _ (by intro _; exact ⟨rfl, rfl⟩)]
  have : s.draw.sheaf b.tag p.sheaf = some h := hi.sheaf
  rw [this]; rfl

/-- WHAT FOLLOWS A MEANING that neither takes a cause nor holds its bundle: the job's watchdog period starts afresh. -/
theorem afterBody_runs {i : Instr} {s : State} {b : Bundle} {p : Part} {k : Stook} {h h' : Sheaf} {m : Lanes}
    (hi : Issues i s b p k h m) {s' : State} (hst : s'.stooks = s.stooks) (hco : s'.cores = s.cores)
    (hcu : s'.cur = s.cur) (ha : s'.sheaf b.tag p.sheaf = some h')
    (hl : ∀ (l : Nat) (x : Thread), h.threads[l]? = some x → ∃ y, h'.threads[l]? = some y ∧ y.hact = x.hact) :
    afterBody (beforeBody i s b p) s' (issueCtx i s b p m) k.job = s'.retire k.job := by
  have hk : s'.stook b.tag = some k := by
    have e : s'.stook b.tag = s.stook b.tag := by simp only [State.stook, hst]
    rw [e, hi.stook]
  have hs : s'.slotHeld = false := by
    have e : s'.slot s'.cur.1 s'.cur.2 = some b := by
      rw [hcu]; rw [← hi.slot]; simp only [State.slot, State.core, hco]
    have := hi.open'
    simp only [Bool.or_eq_false_iff] at this
    simp [State.slotHeld, e, this.1.1, this.1.2]
  have he : (lanesOf m).any (executed (beforeBody i s b p) s' (issueCtx i s b p m)) = true := by
    obtain ⟨l, h32, hm⟩ := hi.someLane
    rw [List.any_eq_true]
    refine ⟨l, mem_lanesOf.mpr ⟨h32, hm⟩, ?_⟩
    obtain ⟨t, ht⟩ := hi.lane h32
    obtain ⟨y, hy, e⟩ := hl l t ht
    simp [executed, State.thread, issueCtx, hi.before, ha, ht, hy, e]
  unfold afterBody
  have h1 : (issueCtx i s b p m).tag = b.tag := rfl
  have h2 : (issueCtx i s b p m).act = m := rfl
  rw [h1, h2, hk, hs, he]
  simp

/-- AN INSTRUCTION OF FIXED LATENCY: what it does, from what its sources hold. -/
theorem computes_fixed {i : Instr} {d : Reg} {n : Nat} {g : State → Sheaf → Nat → Nat × Flags}
    {f : Sheaf → Nat → Nat × Flags} (hx : ∀ s, exec i s = .next (issueWith i (fixedBody d n g) s))
    (hfence : isFence i = false) (hd : i.shape.ok = true → DestOk i d n)
    (hg : ∀ {s b p k h m}, Issues i s b p k h m → ∀ s' h', s'.ops = s.ops → h'.threads = h.threads → h'.s = h.s →
      h'.part = h.part → ∀ l, m.getLsbD l = true → g s' h' l = f h l)
    (hu : ∀ {s b p k h m}, Issues i s b p k h m → d.isU = true → ∀ l l', m.getLsbD l = true → m.getLsbD l' = true →
      f h l = f h l')
    (hp : i.shape.ok = true → d.isP = true → ∀ h l, (f h l).1 ≤ 1) : Computes i d n f := by
  intro s b p k h m hi
  have hb := hi.before
  obtain ⟨h', hdone⟩ := fixedBody_done hi (hd hi.fields) (issueCtx i s b p m) rfl (f h) (hu hi) (fun e l _ => hp hi.fields e h l)
    (beforeBody i s b p)
    { h with failed := h.failed.filter (·.slot != i.common.sbw.toNat) } rfl rfl hb g
    (fun l hl => hg hi (beforeBody i s b p)
      { h with failed := h.failed.filter (·.slot != i.common.sbw.toNat) } rfl rfl rfl rfl l hl)
  have hafter := afterBody_runs hi (by rw [hdone.one.rest]; rfl) (by rw [hdone.one.rest]; rfl)
    (by rw [hdone.one.rest]; rfl) hdone.one.after (fun l x hx => by
      obtain ⟨y, hy, e, -⟩ := hdone.lanes l x hx
      exact ⟨y, hy, by rw [e]⟩)
  have hiss := issueWith_one hi (fun e => by rw [hfence] at e; cases e) (fixedBody d n g)
  rw [hafter] at hiss
  generalize hs1 : (fixedBody d n g (issueCtx i s b p m) (beforeBody i s b p)) = s1 at hdone hiss
  have hcur : s1.cur = s.cur := by rw [hdone.one.rest]; rfl
  have hcores : s1.cores = s.cores := by rw [hdone.one.rest]; rfl
  have hslot : (s1.retire k.job).slot (s1.retire k.job).cur.1 (s1.retire k.job).cur.2 = some b := by
    rw [← hi.slot]
    simp only [State.slot, State.core, State.retire_cur, State.retire_cores, hcur, hcores]
  have hfin := finishIssue_spec i.common (s1.retire k.job) b hslot
  generalize ht : finishIssue i.common (s1.retire k.job) = t at hfin hiss
  obtain ⟨fp, hfp, hts⟩ := hfin.present b.tag p.sheaf h' hdone.one.after
  refine ⟨t, _, by rw [hx, hiss], hts, ?_, ?_, ?_⟩
  · intro hz h7 l hl hm
    rw [← hdone.value hz h7 l hm]
    unfold Sheaf.val
    simp only [raw_mapIdx_pend h' fp (fun l x => by
      have := hfp l x; simp only [Thread.onlyPlace] at this; rw [this]; exact ⟨rfl, rfl⟩)]
  · intro l x y hxl hyl
    obtain ⟨z, hz, -, e⟩ := hdone.lanes l x hxl
    simp only [List.getElem?_mapIdx, hz, Option.map_some, Option.some.injEq] at hyl
    rw [← hyl, ← e, hfp l z]
  · refine ⟨?_, ?_, ?_, ?_, ?_⟩
    · have hr := hfin.rest
      have hfree : t.free = s.free + 1 := by rw [hr]; show s1.free = _; rw [hdone.one.rest]; rfl
      unfold State.sameButSheaves
      rw [hfree]
      refine hr.trans ?_
      generalize t.sheaves = ts, t.slot = sl
      rw [hdone.one.rest]
      rfl
    · intro tag j hne
      have h1 : s1.sheaf tag j = s.sheaf tag j := by
        rw [hdone.one.others tag j hne]
        exact sheaf_modSheaf_other _ _ _ _ _ _ (by intro _; exact ⟨rfl, rfl⟩) hne
      rw [← h1]
      exact hfin.others tag j (by rw [hi.parts]; simpa using hne)
    · rw [hdone.home]
    · intro l x hxl
      obtain ⟨z, hz, e, -⟩ := hdone.lanes l x hxl
      refine ⟨fp l z, by simp [List.getElem?_mapIdx, hz], ?_⟩
      have := hfp l z
      simp only [Thread.onlyPlace, Thread.sameButRegs] at this ⊢
      rw [this, e]
    · intro l r hr
      rw [raw_mapIdx_pend h' fp (fun l x => by
        have := hfp l x; simp only [Thread.onlyPlace] at this; rw [this]; exact ⟨rfl, rfl⟩)]
      cases hl : h.threads[l]? with
      | some x => exact hdone.regs l r ⟨x, hl⟩ hr
      | none => simp [Sheaf.raw, hl, hdone.absent l hl]

end Sys2Proof.Machine
end

