-- ==== Sys2Proof/Laws/Alu.lean ====
section
/-! SUPPORT. The moulds of the arithmetic instructions, from what their sources hold. -/

namespace Sys2Proof.Machine
open Sys2Proof

theorem Reg.isReg_cases {r : Reg} {n : Nat} (h : r.isReg n = true) :
    r = .z ∨ (∃ v, r = .v v ∧ v.val % n = 0) ∨ ∃ v, r = .s v ∧ v.val % n = 0 := by
  cases r <;> simp [Reg.isReg, Reg.isVU, Reg.isV, Reg.isU, Reg.isZ] at h ⊢ <;> exact h

/-- An aligned group of registers does not run over the end of its file. -/
theorem aligned_le {v n k : Nat} (hd : n ∣ k) (hv : v % n = 0) (hk : v < k) : v + n ≤ k := by
  obtain ⟨a, rfl⟩ := hd
  obtain ⟨c, rfl⟩ := Nat.dvd_of_mod_eq_zero hv
  have : c < a := Nat.lt_of_mul_lt_mul_left hk
  calc n * c + n = n * (c + 1) := by rw [Nat.mul_add, Nat.mul_one]
    _ ≤ n * a := Nat.mul_le_mul_left _ this

theorem destOk_of_isReg {i : Instr} {d : Reg} {n : Nat} (hn : n = 1 ∨ n = 2) (hr : d.isReg n = true)
    (hm : (d, n) ∈ i.shape.regs) : DestOk i d n := by
  have h256 : n ∣ 256 := by rcases hn with rfl | rfl <;> decide
  have h384 : n ∣ 384 := by rcases hn with rfl | rfl <;> decide
  rcases Reg.isReg_cases hr with h | ⟨v, rfl, hv⟩ | ⟨v, rfl, hv⟩
  · exact .inl h
  · exact .inr (.inl ⟨v, rfl, aligned_le h256 hv v.2, hm⟩)
  · exact .inr (.inr (.inl ⟨v, rfl, aligned_le h384 hv v.2⟩))

theorem val_congr {h h' : Sheaf} (ht : h'.threads = h.threads) (hs : h'.s = h.s) (l : Nat) (r : Reg) (n : Nat) :
    h'.val l r n = h.val l r n := by
  unfold Sheaf.val
  simp only [raw_congr ht hs]

theorem readReg_congr {s : State} {h h' : Sheaf} (ht : h'.threads = h.threads) (hs : h'.s = h.s) (l r : Nat) :
    s.readReg h' l r = s.readReg h l r := by
  unfold State.readReg
  simp only [raw_congr ht hs, ht]

/-- A source register group of an active lane reads as it holds. -/
theorem Issues.rd {i : Instr} {s : State} {b : Bundle} {p : Part} {k : Stook} {h : Sheaf} {m : Lanes}
    (hi : Issues i s b p k h m) {l : Nat} (hl : m.getLsbD l = true) {a : Reg} {n : Nat} (hn : n = 1 ∨ n = 2)
    (ha : (a, n) ∈ i.shape.srcs) (hr : a.isReg n = true) {s' : State} {h' : Sheaf} (ho : s'.ops = s.ops)
    (ht : h'.threads = h.threads) (hs : h'.s = h.s) : s'.rd h' l a n = h.val l a n := by
  rw [← val_congr ht hs]
  cases hz : a.isZ with
  | true => simp [State.rd, Sheaf.val, hz]
  | false =>
    apply rd_covered
    intro j hj
    rw [readReg_congr ht hs, raw_congr ht hs]
    refine hi.reads hl ho (mem_regNums ha hz hj) ?_
    rcases Reg.isReg_cases hr with rfl | ⟨v, rfl, hv⟩ | ⟨v, rfl, hv⟩
    · simp [Reg.isZ] at hz
    · simp only [Reg.num]; omega
    · simp only [Reg.num]; omega

/-- A register group that is no vector register reads the same in every lane. -/
theorem Issues.val_uniform {i : Instr} {s : State} {b : Bundle} {p : Part} {k : Stook} {h : Sheaf} {m : Lanes}
    (hi : Issues i s b p k h m) {a : Reg} {n : Nat} (hn : n = 1 ∨ n = 2) (hr : a.isReg n = true) (hv : a.isV = false)
    {l l' : Nat} (hl : m.getLsbD l = true) (hl' : m.getLsbD l' = true) : h.val l a n = h.val l' a n := by
  obtain ⟨t, ht⟩ := hi.lane (hi.lane_of_active hl).1
  obtain ⟨t', ht'⟩ := hi.lane (hi.lane_of_active hl').1
  rcases Reg.isReg_cases hr with rfl | ⟨v, rfl, -⟩ | ⟨v, rfl, h0⟩
  · rfl
  · simp [Reg.isV, Nat.mod_one] at hv
  · have h384 : v.val + n ≤ 384 := by
      rcases hn with rfl | rfl
      · exact aligned_le (by decide) h0 v.2
      · exact aligned_le (by decide) h0 v.2
    unfold Sheaf.val
    simp only [Reg.isZ, Bool.false_eq_true, if_false, Reg.num]
    have key : ∀ (xs : List Nat) (a : Nat), (∀ j ∈ xs, j < n) →
        xs.foldl (fun x j => x + (h.raw l (256 + v.val + j)).toNat * 2 ^ (32 * j)) a =
          xs.foldl (fun x j => x + (h.raw l' (256 + v.val + j)).toNat * 2 ^ (32 * j)) a := by
      intro xs
      induction xs with
      | nil => intros; rfl
      | cons x xs ih =>
        intro a hx
        have hxn := hx x (by simp)
        have e : h.raw l (256 + v.val + x) = h.raw l' (256 + v.val + x) := by
          simp [Sheaf.raw, ht, ht', show ¬ 256 + v.val + x < 256 by omega, show 256 + v.val + x < 640 by omega]
        simp only [List.foldl_cons]
        rw [e, ih _ fun j hj => hx j (by simp [hj])]
    exact key _ _ fun j hj => List.mem_range.mp hj

theorem not_isP_of_isReg {d : Reg} {n : Nat} (h : d.isReg n = true) : d.isP = false := by
  rcases Reg.isReg_cases h with rfl | ⟨v, rfl, -⟩ | ⟨v, rfl, -⟩ <;> rfl

/-- D from A, n registers each. -/
theorem computes_alu1 {i : Instr} {d a : Reg} {n : Nat} {op : Nat → Nat × Flags}
    (hx : ∀ s, exec i s = runAlu1 i d a n op s) (hn : n = 1 ∨ n = 2) (hf : isFence i = false)
    (hs : i.shape.ok = true → d.isReg n = true ∧ a.isReg n = true ∧ uniOk d [a] = true ∧ (d, n) ∈ i.shape.regs ∧
      (a, n) ∈ i.shape.srcs) : Computes i d n fun h l => op (h.val l a n) := by
  apply computes_fixed hx hf
  · exact fun h => destOk_of_isReg hn (hs h).1 (hs h).2.2.2.1
  · intro s b p k h m hi s' h' ho ht hs' _ l hl
    obtain ⟨-, ha, -, -, ma⟩ := hs hi.fields
    rw [hi.rd hl hn ma ha ho ht hs']
  · intro s b p k h m hi hU l l' hl hl'
    obtain ⟨-, ha, hu, -, -⟩ := hs hi.fields
    simp only [uniOk, hU, Bool.not_true, Bool.false_or, List.all_cons, List.all_nil, Bool.and_true,
      Bool.not_eq_true'] at hu
    rw [hi.val_uniform hn ha hu hl hl']
  · intro h hP
    rw [not_isP_of_isReg (hs h).1] at hP
    cases hP

/-- D from A and B, n registers each. -/
theorem computes_alu2 {i : Instr} {f : A3} {n : Nat} {op : Nat → Nat → Nat × Flags}
    (hx : ∀ s, exec i s = runAlu2 i f n op s) (hn : n = 1 ∨ n = 2) (hf : isFence i = false)
    (hs : i.shape.ok = true → f.d.isReg n = true ∧ f.a.isReg n = true ∧ f.b.isReg n = true ∧
      uniOk f.d [f.a, f.b] = true ∧ (f.d, n) ∈ i.shape.regs ∧ (f.a, n) ∈ i.shape.srcs ∧ (f.b, n) ∈ i.shape.srcs) :
    Computes i f.d n fun h l => op (h.val l f.a n) (h.val l f.b n) := by
  apply computes_fixed hx hf
  · exact fun h => destOk_of_isReg hn (hs h).1 (hs h).2.2.2.2.1
  · intro s b p k h m hi s' h' ho ht hs' _ l hl
    obtain ⟨-, ha, hb, -, -, ma, mb⟩ := hs hi.fields
    rw [hi.rd hl hn ma ha ho ht hs', hi.rd hl hn mb hb ho ht hs']
  · intro s b p k h m hi hU l l' hl hl'
    obtain ⟨-, ha, hb, hu, -, -, -⟩ := hs hi.fields
    simp only [uniOk, hU, Bool.not_true, Bool.false_or, List.all_cons, List.all_nil, Bool.and_true, Bool.and_eq_true,
      Bool.not_eq_true'] at hu
    rw [hi.val_uniform hn ha hu.1 hl hl', hi.val_uniform hn hb hu.2 hl hl']
  · intro h hP
    rw [not_isP_of_isReg (hs h).1] at hP
    cases hP

/-- D from A, B and C, n registers each. -/
theorem computes_alu3 {i : Instr} {f : A4} {n : Nat} {op : Nat → Nat → Nat → Nat × Flags}
    (hx : ∀ s, exec i s = runAlu3 i f n op s) (hn : n = 1 ∨ n = 2) (hf : isFence i = false)
    (hs : i.shape.ok = true → f.d.isReg n = true ∧ f.a.isReg n = true ∧ f.b.isReg n = true ∧ f.c.isReg n = true ∧
      uniOk f.d [f.a, f.b, f.c] = true ∧ (f.d, n) ∈ i.shape.regs ∧ (f.a, n) ∈ i.shape.srcs ∧ (f.b, n) ∈ i.shape.srcs ∧
      (f.c, n) ∈ i.shape.srcs) :
    Computes i f.d n fun h l => op (h.val l f.a n) (h.val l f.b n) (h.val l f.c n) := by
  apply computes_fixed hx hf
  · exact fun h => destOk_of_isReg hn (hs h).1 (hs h).2.2.2.2.2.1
  · intro s b p k h m hi s' h' ho ht hs' _ l hl
    obtain ⟨-, ha, hb, hc, -, -, ma, mb, mc⟩ := hs hi.fields
    rw [hi.rd hl hn ma ha ho ht hs', hi.rd hl hn mb hb ho ht hs', hi.rd hl hn mc hc ho ht hs']
  · intro s b p k h m hi hU l l' hl hl'
    obtain ⟨-, ha, hb, hc, hu, -, -, -, -⟩ := hs hi.fields
    simp only [uniOk, hU, Bool.not_true, Bool.false_or, List.all_cons, List.all_nil, Bool.and_true, Bool.and_eq_true,
      Bool.not_eq_true'] at hu
    rw [hi.val_uniform hn ha hu.1 hl hl', hi.val_uniform hn hb hu.2.1 hl hl', hi.val_uniform hn hc hu.2.2 hl hl']
  · intro h hP
    rw [not_isP_of_isReg (hs h).1] at hP
    cases hP

/-- A predicate from A and B, n registers each. -/
theorem computes_cmp {i : Instr} {f : A3} {n : Nat} {op : Nat → Nat → Bool}
    (hx : ∀ s, exec i s = runCmp i f n op s) (hn : n = 1 ∨ n = 2) (hf : isFence i = false)
    (hs : i.shape.ok = true → f.d.isP = true ∧ f.a.isReg n = true ∧ f.b.isReg n = true ∧
      (f.a, n) ∈ i.shape.srcs ∧ (f.b, n) ∈ i.shape.srcs) :
    Computes i f.d 1 fun h l => (if op (h.val l f.a n) (h.val l f.b n) then 1 else 0, 0) := by
  apply computes_fixed hx hf
  · intro h
    refine .inr (.inr (.inr ⟨rfl, ?_⟩))
    have := (hs h).1
    cases e : f.d <;> simp [e, Reg.isP] at this ⊢
  · intro s b p k h m hi s' h' ho ht hs' _ l hl
    obtain ⟨-, ha, hb, ma, mb⟩ := hs hi.fields
    rw [hi.rd hl hn ma ha ho ht hs', hi.rd hl hn mb hb ho ht hs']
  · intro s b p k h m hi hU
    have := (hs hi.fields).1
    cases e : f.d <;> simp [e, Reg.isP, Reg.isU] at this hU
  · intro _ _ h l
    dsimp only
    split <;> omega

end Sys2Proof.Machine
end

