-- ==== Sys2Proof/Laws/Parity.lean ====
section
/-! SUPPORT. What parity recovers (R252): the rest of a row and its parity line give a line back. -/

namespace Sys2Proof.Machine
open Sys2Proof

theorem length_xorLines (ls : List (List Byte)) : (xorLines ls).length = 64 := by simp [xorLines]

theorem xor_cancel (a b : Byte) : a ^^^ b ^^^ b = a := by rw [BitVec.xor_assoc, BitVec.xor_self, BitVec.xor_zero]

theorem foldl_xor (ls : List (List Byte)) (i : Nat) (b : Byte) :
    ls.foldl (fun b l => b ^^^ (l[i]?).getD 0) b = b ^^^ ls.foldl (fun b l => b ^^^ (l[i]?).getD 0) 0 := by
  induction ls generalizing b with
  | nil => simp
  | cons l r ih =>
    rw [List.foldl_cons, List.foldl_cons, ih (b ^^^ _), ih (0 ^^^ _), show ∀ x : Byte, 0 ^^^ x = x from fun _ => BitVec.zero_xor,
      BitVec.xor_assoc]

/-- The exclusive or of a line and others, and the others again, is the line. -/
theorem xorLines_cancel {l : List Byte} (h : l.length = 64) (ls : List (List Byte)) :
    xorLines (xorLines (l :: ls) :: ls) = l := by
  apply List.ext_getElem (by simp [length_xorLines, h])
  intro i _ hi
  have hi : i < 64 := h ▸ hi
  simp only [xorLines, List.getElem_map, List.getElem_range, List.foldl_cons, List.getElem?_map, List.getElem?_range hi,
    Option.map_some, Option.getD_some]
  rw [foldl_xor ls i (0 ^^^ _), foldl_xor ls i (_ ^^^ (_ : Byte))]
  rw [BitVec.xor_assoc, xor_cancel]
  simp [h, hi]

/-- A line that parity recovers reads as it stood at home. -/
theorem State.recovered_eq (s : State) (e : RangeEnt) (line : Nat) (h : (s.baseLine e line).length = 64) :
    s.recovered e line = s.baseLine e line := xorLines_cancel h _

end Sys2Proof.Machine
end

