-- ==== Sys2Proof/Laws/PerInstr.lean ====
section
/-! SUPPORT. Statements about every instruction as syntax, one lemma for each constructor: the word of an instruction
carries its common fields where R257 lays them. -/

namespace Sys2Proof

/-- The common fields of an assembled word (R257). -/
theorem common_assemble (op : BitVec 8) (c : Common) (body : BitVec 45) : common (assemble op c body) = c := by
  obtain ⟨a, b, g, p⟩ := c
  simp only [common, bits, assemble, Common.mk.injEq]
  refine ⟨?_, ?_, ?_, ?_⟩ <;>
  · apply BitVec.eq_of_getLsbD_eq
    intro i hi
    simp only [BitVec.getLsbD_extractLsb', BitVec.getLsbD_append, hi, decide_true, Bool.true_and]
    repeat' split
    all_goals first | omega | (congr 1; omega)

namespace Laws.CommonFields

/-- The word of an instruction holds `STALL`, `SBW`, `GNEG` and `GP` in bits [55:45], as R257 lays them. -/
def Statement (i : Instr) : Prop := ∀ w, encode i = some w → Sys2Proof.common w = i.common

/-- An instruction assembled from its opcode, common fields and body. -/
theorem assembled {i : Instr} {op : BitVec 8} {c : Common} {body : BitVec 45}
    (he : encode i = some (assemble op c body)) (hc : i.common = c) : Statement i := by
  intro w h
  rw [he] at h
  cases h
  rw [hc, common_assemble]

/-- The act of another agent has no word. -/
theorem wordless {i : Instr} (he : encode i = none) : Statement i := by
  intro w h
  rw [he] at h
  cases h

theorem nop (c : Common) (f : A3) : Statement (.nop c f) := assembled rfl rfl
theorem bra (c : Common) (f : BF) : Statement (.bra c f) := assembled rfl rfl
theorem brau (c : Common) (f : BF) : Statement (.brau c f) := assembled rfl rfl
theorem jmpi (c : Common) (f : A3) : Statement (.jmpi c f) := assembled rfl rfl
theorem callLabel (c : Common) (f : BF) : Statement (.callLabel c f) := assembled rfl rfl
theorem callRegister (c : Common) (f : A3) : Statement (.callRegister c f) := assembled rfl rfl
theorem ret (c : Common) (f : A3) : Statement (.ret c f) := assembled rfl rfl
theorem exit (c : Common) (f : A3) : Statement (.exit c f) := assembled rfl rfl
theorem trap (c : Common) (f : MI) : Statement (.trap c f) := assembled rfl rfl
theorem yield (c : Common) (f : A3) : Statement (.yield c f) := assembled rfl rfl
theorem iadd (c : Common) (f : A3) : Statement (.iadd c f) := assembled rfl rfl
theorem isub (c : Common) (f : A3) : Statement (.isub c f) := assembled rfl rfl
theorem imul (c : Common) (f : A3) : Statement (.imul c f) := assembled rfl rfl
theorem imulhi (c : Common) (f : A3) : Statement (.imulhi c f) := assembled rfl rfl
theorem imulhiU (c : Common) (f : A3) : Statement (.imulhiU c f) := assembled rfl rfl
theorem imad (c : Common) (f : A4) : Statement (.imad c f) := assembled rfl rfl
theorem imin (c : Common) (f : A3) : Statement (.imin c f) := assembled rfl rfl
theorem iminU (c : Common) (f : A3) : Statement (.iminU c f) := assembled rfl rfl
theorem imax (c : Common) (f : A3) : Statement (.imax c f) := assembled rfl rfl
theorem imaxU (c : Common) (f : A3) : Statement (.imaxU c f) := assembled rfl rfl
theorem iabs (c : Common) (f : A3) : Statement (.iabs c f) := assembled rfl rfl
theorem shl (c : Common) (f : A3) : Statement (.shl c f) := assembled rfl rfl
theorem shr (c : Common) (f : A3) : Statement (.shr c f) := assembled rfl rfl
theorem sar (c : Common) (f : A3) : Statement (.sar c f) := assembled rfl rfl
theorem lopAnd (c : Common) (f : A3) : Statement (.lopAnd c f) := assembled rfl rfl
theorem lopOr (c : Common) (f : A3) : Statement (.lopOr c f) := assembled rfl rfl
theorem lopXor (c : Common) (f : A3) : Statement (.lopXor c f) := assembled rfl rfl
theorem lopAndn (c : Common) (f : A3) : Statement (.lopAndn c f) := assembled rfl rfl
theorem bfx (c : Common) (f : A3) : Statement (.bfx c f) := assembled rfl rfl
theorem bfxU (c : Common) (f : A3) : Statement (.bfxU c f) := assembled rfl rfl
theorem bfi (c : Common) (f : A4) : Statement (.bfi c f) := assembled rfl rfl
theorem popc (c : Common) (f : A3) : Statement (.popc c f) := assembled rfl rfl
theorem clz (c : Common) (f : A3) : Statement (.clz c f) := assembled rfl rfl
theorem brev (c : Common) (f : A3) : Statement (.brev c f) := assembled rfl rfl
theorem icmp (c : Common) (f : A3) : Statement (.icmp c f) := assembled rfl rfl
theorem icmpU (c : Common) (f : A3) : Statement (.icmpU c f) := assembled rfl rfl
theorem sel (c : Common) (f : A4) : Statement (.sel c f) := assembled rfl rfl
theorem mov (c : Common) (f : A3) : Statement (.mov c f) := assembled rfl rfl
theorem movi (c : Common) (f : MI) : Statement (.movi c f) := assembled rfl rfl
theorem psetAnd (c : Common) (f : A3) : Statement (.psetAnd c f) := assembled rfl rfl
theorem psetOr (c : Common) (f : A3) : Statement (.psetOr c f) := assembled rfl rfl
theorem psetXor (c : Common) (f : A3) : Statement (.psetXor c f) := assembled rfl rfl
theorem fadd (c : Common) (f : A3) : Statement (.fadd c f) := assembled rfl rfl
theorem fmul (c : Common) (f : A3) : Statement (.fmul c f) := assembled rfl rfl
theorem ffma (c : Common) (f : A4) : Statement (.ffma c f) := assembled rfl rfl
theorem fmin (c : Common) (f : A3) : Statement (.fmin c f) := assembled rfl rfl
theorem fminNan (c : Common) (f : A3) : Statement (.fminNan c f) := assembled rfl rfl
theorem fmax (c : Common) (f : A3) : Statement (.fmax c f) := assembled rfl rfl
theorem fmaxNan (c : Common) (f : A3) : Statement (.fmaxNan c f) := assembled rfl rfl
theorem fcmp (c : Common) (f : A3) : Statement (.fcmp c f) := assembled rfl rfl
theorem fcmpU (c : Common) (f : A3) : Statement (.fcmpU c f) := assembled rfl rfl
theorem hadd2 (c : Common) (f : A3) : Statement (.hadd2 c f) := assembled rfl rfl
theorem hadd2Bf (c : Common) (f : A3) : Statement (.hadd2Bf c f) := assembled rfl rfl
theorem hmul2 (c : Common) (f : A3) : Statement (.hmul2 c f) := assembled rfl rfl
theorem hmul2Bf (c : Common) (f : A3) : Statement (.hmul2Bf c f) := assembled rfl rfl
theorem hfma2 (c : Common) (f : A4) : Statement (.hfma2 c f) := assembled rfl rfl
theorem hfma2Bf (c : Common) (f : A4) : Statement (.hfma2Bf c f) := assembled rfl rfl
theorem sfnRcp (c : Common) (f : A3) : Statement (.sfnRcp c f) := assembled rfl rfl
theorem sfnRsqrt (c : Common) (f : A3) : Statement (.sfnRsqrt c f) := assembled rfl rfl
theorem sfnSqrt (c : Common) (f : A3) : Statement (.sfnSqrt c f) := assembled rfl rfl
theorem sfnLog2 (c : Common) (f : A3) : Statement (.sfnLog2 c f) := assembled rfl rfl
theorem sfnExp2 (c : Common) (f : A3) : Statement (.sfnExp2 c f) := assembled rfl rfl
theorem sfnSin (c : Common) (f : A3) : Statement (.sfnSin c f) := assembled rfl rfl
theorem sfnCos (c : Common) (f : A3) : Statement (.sfnCos c f) := assembled rfl rfl
theorem fcvtFloatFromFloat (c : Common) (f : A3) : Statement (.fcvtFloatFromFloat c f) := assembled rfl rfl
theorem fcvtFloatFromInteger (c : Common) (f : A3) : Statement (.fcvtFloatFromInteger c f) := assembled rfl rfl
theorem fcvtIntegerFromFloat (c : Common) (f : A3) : Statement (.fcvtIntegerFromFloat c f) := assembled rfl rfl
theorem shflIdx (c : Common) (f : A3) : Statement (.shflIdx c f) := assembled rfl rfl
theorem shflUp (c : Common) (f : A3) : Statement (.shflUp c f) := assembled rfl rfl
theorem shflDown (c : Common) (f : A3) : Statement (.shflDown c f) := assembled rfl rfl
theorem shflXor (c : Common) (f : A3) : Statement (.shflXor c f) := assembled rfl rfl
theorem voteAll (c : Common) (f : A3) : Statement (.voteAll c f) := assembled rfl rfl
theorem voteAny (c : Common) (f : A3) : Statement (.voteAny c f) := assembled rfl rfl
theorem voteBallot (c : Common) (f : A3) : Statement (.voteBallot c f) := assembled rfl rfl
theorem reduxAdd (c : Common) (f : A3) : Statement (.reduxAdd c f) := assembled rfl rfl
theorem reduxMin (c : Common) (f : A3) : Statement (.reduxMin c f) := assembled rfl rfl
theorem reduxMinu (c : Common) (f : A3) : Statement (.reduxMinu c f) := assembled rfl rfl
theorem reduxMax (c : Common) (f : A3) : Statement (.reduxMax c f) := assembled rfl rfl
theorem reduxMaxu (c : Common) (f : A3) : Statement (.reduxMaxu c f) := assembled rfl rfl
theorem rdfirst (c : Common) (f : A3) : Statement (.rdfirst c f) := assembled rfl rfl
theorem partn (c : Common) (f : A3) : Statement (.partn c f) := assembled rfl rfl
theorem bsinit (c : Common) (f : A3) : Statement (.bsinit c f) := assembled rfl rfl
theorem bsrd (c : Common) (f : A3) : Statement (.bsrd c f) := assembled rfl rfl
theorem ld (c : Common) (f : MF) : Statement (.ld c f) := assembled rfl rfl
theorem ldSx (c : Common) (f : MF) : Statement (.ldSx c f) := assembled rfl rfl
theorem ldff (c : Common) (f : MF) : Statement (.ldff c f) := assembled rfl rfl
theorem ldu (c : Common) (f : MF) : Statement (.ldu c f) := assembled rfl rfl
theorem lduSx (c : Common) (f : MF) : Statement (.lduSx c f) := assembled rfl rfl
theorem lds (c : Common) (f : MF) : Statement (.lds c f) := assembled rfl rfl
theorem ldsSx (c : Common) (f : MF) : Statement (.ldsSx c f) := assembled rfl rfl
theorem st (c : Common) (f : MF) : Statement (.st c f) := assembled rfl rfl
theorem stu (c : Common) (f : MF) : Statement (.stu c f) := assembled rfl rfl
theorem sts (c : Common) (f : MF) : Statement (.sts c f) := assembled rfl rfl
theorem atoms (c : Common) (f : A3) : Statement (.atoms c f) := assembled rfl rfl
theorem atomAdd (c : Common) (f : MA) : Statement (.atomAdd c f) := assembled rfl rfl
theorem atomAnd (c : Common) (f : MA) : Statement (.atomAnd c f) := assembled rfl rfl
theorem atomOr (c : Common) (f : MA) : Statement (.atomOr c f) := assembled rfl rfl
theorem atomXor (c : Common) (f : MA) : Statement (.atomXor c f) := assembled rfl rfl
theorem atomMins (c : Common) (f : MA) : Statement (.atomMins c f) := assembled rfl rfl
theorem atomMinu (c : Common) (f : MA) : Statement (.atomMinu c f) := assembled rfl rfl
theorem atomMaxs (c : Common) (f : MA) : Statement (.atomMaxs c f) := assembled rfl rfl
theorem atomMaxu (c : Common) (f : MA) : Statement (.atomMaxu c f) := assembled rfl rfl
theorem atomXchg (c : Common) (f : MA) : Statement (.atomXchg c f) := assembled rfl rfl
theorem publish (c : Common) (f : A3) : Statement (.publish c f) := assembled rfl rfl
theorem refresh (c : Common) (f : A3) : Statement (.refresh c f) := assembled rfl rfl
theorem clean (c : Common) (f : MF) : Statement (.clean c f) := assembled rfl rfl
theorem discard (c : Common) (f : MF) : Statement (.discard c f) := assembled rfl rfl
theorem tierpf (c : Common) (f : A4) : Statement (.tierpf c f) := assembled rfl rfl
theorem fence (c : Common) (f : A3) : Statement (.fence c f) := assembled rfl rfl
theorem ldblk (c : Common) (f : MF) : Statement (.ldblk c f) := assembled rfl rfl
theorem stblk (c : Common) (f : MF) : Statement (.stblk c f) := assembled rfl rfl
theorem rqry (c : Common) (f : SF) : Statement (.rqry c f) := assembled rfl rfl
theorem reqnt (c : Common) (f : A3) : Statement (.reqnt c f) := assembled rfl rfl
theorem atomCas (c : Common) (f : MA) : Statement (.atomCas c f) := assembled rfl rfl
theorem atomFadd (c : Common) (f : MA) : Statement (.atomFadd c f) := assembled rfl rfl
theorem bar (c : Common) (f : A3) : Statement (.bar c f) := assembled rfl rfl
theorem cribset (c : Common) (f : A4) : Statement (.cribset c f) := assembled rfl rfl
theorem cribarr (c : Common) (f : A3) : Statement (.cribarr c f) := assembled rfl rfl
theorem cribwait (c : Common) (f : A3) : Statement (.cribwait c f) := assembled rfl rfl
theorem waitge (c : Common) (f : MF) : Statement (.waitge c f) := assembled rfl rfl
theorem doze (c : Common) (f : A4) : Statement (.doze c f) := assembled rfl rfl
theorem waitquiet (c : Common) (f : A3) : Statement (.waitquiet c f) := assembled rfl rfl
theorem barArrive (c : Common) (f : A3) : Statement (.barArrive c f) := assembled rfl rfl
theorem mxq (c : Common) (f : A3) : Statement (.mxq c f) := assembled rfl rfl
theorem mxdrain (c : Common) (f : A3) : Statement (.mxdrain c f) := assembled rfl rfl
theorem acqacc (c : Common) (f : A3) : Statement (.acqacc c f) := assembled rfl rfl
theorem relacc (c : Common) (f : A3) : Statement (.relacc c f) := assembled rfl rfl
theorem grow (c : Common) (f : A3) : Statement (.grow c f) := assembled rfl rfl
theorem shrink (c : Common) (f : A3) : Statement (.shrink c f) := assembled rfl rfl
theorem put (c : Common) (f : A3) : Statement (.put c f) := assembled rfl rfl
theorem get (c : Common) (f : A3) : Statement (.get c f) := assembled rfl rfl
theorem ratom (c : Common) (f : A3) : Statement (.ratom c f) := assembled rfl rfl
theorem amsg (c : Common) (f : A3) : Statement (.amsg c f) := assembled rfl rfl
theorem coll (c : Common) (f : A3) : Statement (.coll c f) := assembled rfl rfl
theorem launch (c : Common) (f : MF) : Statement (.launch c f) := assembled rfl rfl
theorem cancel (c : Common) (f : A3) : Statement (.cancel c f) := assembled rfl rfl
theorem hypopen (c : Common) (f : A3) : Statement (.hypopen c f) := assembled rfl rfl
theorem hypset (c : Common) (f : A3) : Statement (.hypset c f) := assembled rfl rfl
theorem resolveConfirm (c : Common) (f : A3) : Statement (.resolveConfirm c f) := assembled rfl rfl
theorem resolveRefute (c : Common) (f : A3) : Statement (.resolveRefute c f) := assembled rfl rfl
theorem movs (c : Common) (f : SF) : Statement (.movs c f) := assembled rfl rfl
theorem movsw (c : Common) (f : SF) : Statement (.movsw c f) := assembled rfl rfl
theorem rett (c : Common) (f : A3) : Statement (.rett c f) := assembled rfl rfl
theorem saved (c : Common) (f : A3) : Statement (.saved c f) := assembled rfl rfl
theorem bundleStart (core slot tag sheaf : Nat) (merge : Option Nat) : Statement (.bundleStart core slot tag sheaf merge) := wordless rfl
theorem resultWriteback (id : Nat) : Statement (.resultWriteback id) := wordless rfl
theorem wainPacketLand (id k : Nat) : Statement (.wainPacketLand id k) := wordless rfl
theorem wainCopyComplete (id : Nat) : Statement (.wainCopyComplete id) := wordless rfl
theorem followOnPost (id : Nat) : Statement (.followOnPost id) := wordless rfl
theorem cribUnitCycle (tag crib : Nat) : Statement (.cribUnitCycle tag crib) := wordless rfl
theorem tierpfLineArrive (id line : Nat) : Statement (.tierpfLineArrive id line) := wordless rfl
theorem publishComplete (hold : Nat) : Statement (.publishComplete hold) := wordless rfl
theorem refreshComplete (hold : Nat) : Statement (.refreshComplete hold) := wordless rfl
theorem fenceComplete (hold : Nat) : Statement (.fenceComplete hold) := wordless rfl
theorem cleanDiscardComplete (id : Nat) : Statement (.cleanDiscardComplete id) := wordless rfl
theorem barInstanceComplete (tag bar : Nat) : Statement (.barInstanceComplete tag bar) := wordless rfl
theorem cribwaitRelease (hold : Nat) : Statement (.cribwaitRelease hold) := wordless rfl
theorem waitgeRelease (hold : Nat) : Statement (.waitgeRelease hold) := wordless rfl
theorem dozeTimeReached (hold : Nat) : Statement (.dozeTimeReached hold) := wordless rfl
theorem growGrant (hold : Nat) : Statement (.growGrant hold) := wordless rfl
theorem acqaccGrant (hold : Nat) : Statement (.acqaccGrant hold) := wordless rfl
theorem relaccComplete (hold : Nat) : Statement (.relaccComplete hold) := wordless rfl
theorem savedComplete (hold : Nat) : Statement (.savedComplete hold) := wordless rfl
theorem spwConversionComplete (core : Nat) (lines : List (Nat × Nat)) : Statement (.spwConversionComplete core lines) := wordless rfl
theorem launchQueueEntryGrant (hold : Nat) : Statement (.launchQueueEntryGrant hold) := wordless rfl
theorem stookStart (job launch stook die bay tag : Nat) : Statement (.stookStart job launch stook die bay tag) := wordless rfl
theorem stookComplete (tag : Nat) : Statement (.stookComplete tag) := wordless rfl
theorem enginePass (die bay : Nat) : Statement (.enginePass die bay) := wordless rfl
theorem matrixCommandComplete (die bay : Nat) : Statement (.matrixCommandComplete die bay) := wordless rfl
theorem mxdrainEntryGrant (hold : Nat) : Statement (.mxdrainEntryGrant hold) := wordless rfl
theorem drainComplete (die bay : Nat) : Statement (.drainComplete die bay) := wordless rfl
theorem homeAccess (id piece : Nat) (ue : Bool) : Statement (.homeAccess id piece ue) := wordless rfl
theorem phReplacementWriteback (l2 : Bool) (unit rng line : Nat) : Statement (.phReplacementWriteback l2 unit rng line) := wordless rfl
theorem slideLine (rng share : Nat) : Statement (.slideLine rng share) := wordless rfl
theorem replaceLine (rng : Nat) : Statement (.replaceLine rng) := wordless rfl
theorem moveEnd (rng : Nat) : Statement (.moveEnd rng) := wordless rfl
theorem scrubbing (rng line : Nat) (ue : Bool) : Statement (.scrubbing rng line ue) := wordless rfl
theorem hbmRetraining (ch : Nat) : Statement (.hbmRetraining ch) := wordless rfl
theorem telemetry : Statement .telemetry := wordless rfl
theorem arborMergeReclaim (slice : Nat) : Statement (.arborMergeReclaim slice) := wordless rfl
theorem hypopenService (arbor : Nat) : Statement (.hypopenService arbor) := wordless rfl
theorem resolveService (arbor : Nat) : Statement (.resolveService arbor) := wordless rfl
theorem resolveApply (arbor seq slice : Nat) : Statement (.resolveApply arbor seq slice) := wordless rfl
theorem resolveComplete (arbor seq : Nat) : Statement (.resolveComplete arbor seq) := wordless rfl
theorem flattenFold (arbor rng line : Nat) : Statement (.flattenFold arbor rng line) := wordless rfl
theorem flattenEnd (arbor : Nat) : Statement (.flattenEnd arbor) := wordless rfl
theorem arborFreeComplete (arbor : Nat) : Statement (.arborFreeComplete arbor) := wordless rfl
theorem writePacket (msg : Nat) : Statement (.writePacket msg) := wordless rfl
theorem readRequest (msg : Nat) : Statement (.readRequest msg) := wordless rfl
theorem readResponse (msg : Nat) : Statement (.readResponse msg) := wordless rfl
theorem atomicRequest (msg : Nat) : Statement (.atomicRequest msg) := wordless rfl
theorem atomicResponse (msg : Nat) : Statement (.atomicResponse msg) := wordless rfl
theorem acknowledgement (msg : Nat) : Statement (.acknowledgement msg) := wordless rfl
theorem errorResponse (msg : Nat) : Statement (.errorResponse msg) := wordless rfl
theorem activeMessage (msg : Nat) : Statement (.activeMessage msg) := wordless rfl
theorem handlerStookStart (msg bay tag : Nat) : Statement (.handlerStookStart msg bay tag) := wordless rfl
theorem contribution (msg : Nat) : Statement (.contribution msg) := wordless rfl
theorem countingWaveSlot (job : Nat) : Statement (.countingWaveSlot job) := wordless rfl
theorem waveVerdict (job : Nat) : Statement (.waveVerdict job) := wordless rfl
theorem linkUp (port peerPkg : Nat) (word : DWord) : Statement (.linkUp port peerPkg word) := wordless rfl
theorem portFailure (port : Nat) : Statement (.portFailure port) := wordless rfl
theorem planeDeath (plane : Nat) : Statement (.planeDeath plane) := wordless rfl
theorem hostWindowRead (fn off len : Nat) : Statement (.hostWindowRead fn off len) := wordless rfl
theorem hostWindowWrite (fn off : Nat) (bytes : List Byte) : Statement (.hostWindowWrite fn off bytes) := wordless rfl
theorem feataccWrite (fn : Nat) (value : DWord) : Statement (.feataccWrite fn value) := wordless rfl
theorem herrcntWrite (fn : Nat) : Statement (.herrcntWrite fn) := wordless rfl
theorem registerWrite (fn off : Nat) (value : DWord) : Statement (.registerWrite fn off value) := wordless rfl
theorem mopUnknown (fn : Nat) (op : DWord) : Statement (.mopUnknown fn op) := wordless rfl
theorem createJob (fn : Nat) : Statement (.createJob fn) := wordless rfl
theorem destroyJob (fn : Nat) : Statement (.destroyJob fn) := wordless rfl
theorem startJob (fn tag bay die : Nat) : Statement (.startJob fn tag bay die) := wordless rfl
theorem createRange (fn : Nat) : Statement (.createRange fn) := wordless rfl
theorem changeRange (fn : Nat) : Statement (.changeRange fn) := wordless rfl
theorem deleteRange (fn : Nat) : Statement (.deleteRange fn) := wordless rfl
theorem startSlide (fn : Nat) : Statement (.startSlide fn) := wordless rfl
theorem startReplace (fn : Nat) : Statement (.startReplace fn) := wordless rfl
theorem startRebuild (fn : Nat) : Statement (.startRebuild fn) := wordless rfl
theorem loadKey (fn : Nat) : Statement (.loadKey fn) := wordless rfl
theorem retireKey (fn : Nat) : Statement (.retireKey fn) := wordless rfl
theorem registerTemplateRange (fn : Nat) : Statement (.registerTemplateRange fn) := wordless rfl
theorem registerHandlerTable (fn : Nat) : Statement (.registerHandlerTable fn) := wordless rfl
theorem registerMatrixCommandRange (fn : Nat) : Statement (.registerMatrixCommandRange fn) := wordless rfl
theorem giveArbor (fn : Nat) : Statement (.giveArbor fn) := wordless rfl
theorem freeArbor (fn : Nat) : Statement (.freeArbor fn) := wordless rfl
theorem preEmptStook (fn : Nat) : Statement (.preEmptStook fn) := wordless rfl
theorem preemptDeadlineExpiry (tag : Nat) : Statement (.preemptDeadlineExpiry tag) := wordless rfl
theorem preemptDrainComplete (tag : Nat) : Statement (.preemptDrainComplete tag) := wordless rfl
theorem restoreStook (fn die bay tag : Nat) : Statement (.restoreStook fn die bay tag) := wordless rfl
theorem setWatchdogPeriod (fn : Nat) : Statement (.setWatchdogPeriod fn) := wordless rfl
theorem retireChannel (fn : Nat) : Statement (.retireChannel fn) := wordless rfl
theorem channelRetireByPort (ch : Nat) : Statement (.channelRetireByPort ch) := wordless rfl
theorem attest (fn : Nat) : Statement (.attest fn) := wordless rfl
theorem watchdogExpiry (job : Nat) : Statement (.watchdogExpiry job) := wordless rfl
theorem deviceReset (fwOk arming : Bool) : Statement (.deviceReset fwOk arming) := wordless rfl
theorem alarm (kind : Nat) : Statement (.alarm kind) := wordless rfl
theorem powerCapExceeded (die num den : Nat) : Statement (.powerCapExceeded die num den) := wordless rfl
theorem preciseChecksDecided (core slot : Nat) : Statement (.preciseChecksDecided core slot) := wordless rfl
theorem reservedOpcode (w : DWord) : Statement (.reservedOpcode w) := by
  intro v h
  simp only [encode] at h
  split at h
  · rename_i hd
    cases h
    simp [Instr.common, Instr.word, encode, hd]
  · cases h

end Laws.CommonFields
end Sys2Proof
end

