-- ==== Sys2Proof/Laws/Variable.lean ====
section
/-! SUPPORT. What an instruction of variable latency with a result computed at issue does: `delivers_variable`. -/

namespace Sys2Proof.Machine
open Sys2Proof

theorem sameRegs_markOp (h : Sheaf) (m : Lanes) (r op : Nat) : SameRegs h (h.markOp m r op) := by
  unfold Sheaf.markOp
  exact sameRegs_threads _ _ (by intro l x; split <;> exact ⟨rfl, rfl⟩)

theorem raw_markOp (h : Sheaf) (m : Lanes) (r op l r' : Nat) : (h.markOp m r op).raw l r' = h.raw l r' := by
  unfold Sheaf.markOp
  exact raw_mapIdx_pend _ _ (by intro l x; split <;> exact ⟨rfl, rfl⟩) _ _

/-- Marking the registers of an operation changes no register. -/
theorem markOps (m : Lanes) (op : Nat) : ∀ (rs : List Nat) (h : Sheaf),
    SameRegs h (rs.foldl (fun h r => h.markOp m r op) h) ∧
      (∀ l r', (rs.foldl (fun h r => h.markOp m r op) h).raw l r' = h.raw l r') ∧
      ∀ (l : Nat) (x : Thread), h.threads[l]? = some x →
        ∃ y, (rs.foldl (fun h r => h.markOp m r op) h).threads[l]? = some y ∧ y = { x with pend := y.pend } := by
  intro rs
  induction rs with
  | nil => exact fun h => ⟨SameRegs.refl h, fun _ _ => rfl, fun _ x hx => ⟨x, hx, rfl⟩⟩
  | cons r rs ih =>
    intro h
    obtain ⟨i1, i2, i3⟩ := ih (h.markOp m r op)
    refine ⟨(sameRegs_markOp h m r op).trans i1, fun l r' => (i2 l r').trans (raw_markOp h m r op l r'), ?_⟩
    intro l x hx
    have : ∃ y, (h.markOp m r op).threads[l]? = some y ∧ y = { x with pend := y.pend } := by
      simp only [Sheaf.markOp, List.getElem?_mapIdx, hx, Option.map_some]
      split
      · exact ⟨_, rfl, rfl⟩
      · exact ⟨_, rfl, rfl⟩
    obtain ⟨y, hy, e⟩ := this
    obtain ⟨z, hz, e'⟩ := i3 l y hy
    exact ⟨z, hz, by rw [e', e]⟩

/-- The sheaf after an operation is opened: its registers are marked outstanding. -/
def Ctx.marked (c : Ctx) (op : Nat) (h : Sheaf) : Sheaf :=
  (regNums c.i.shape.dsts).foldl (fun h r => h.markOp c.act r op) h

theorem openOp_sheaf (c : Ctx) (n : Nat) (s : State) (h : Sheaf) (hs : s.sheaf c.tag c.sheaf = some h) :
    (c.openOp n s).sheaf c.tag c.sheaf = some (c.marked s.nextId h) ∧
      ∀ g i, ¬ (g = c.tag ∧ i = c.sheaf) → (c.openOp n s).sheaf g i = s.sheaf g i := by
  have hf : ∀ x : Sheaf, (c.marked s.nextId x).tag = x.tag ∧ (c.marked s.nextId x).index = x.index := by
    intro x
    have := ((markOps c.act s.nextId (regNums c.i.shape.dsts) x).1).home
    unfold Ctx.marked
    rw [this]
    exact ⟨rfl, rfl⟩
  constructor
  · have := sheaf_modSheaf_self { s.bump with ops := s.ops ++ [⟨s.nextId, c.tag, c.sheaf, c.i.common.sbw.toNat, n,
      c.act, regNums c.i.shape.dsts, []⟩] } c.tag c.sheaf (c.marked s.nextId) hf
    refine this.trans ?_
    show (s.sheaf c.tag c.sheaf).map _ = _
    rw [hs]; rfl
  · intro g i hne
    exact sheaf_modSheaf_other { s.bump with ops := s.ops ++ [⟨s.nextId, c.tag, c.sheaf, c.i.common.sbw.toNat, n,
      c.act, regNums c.i.shape.dsts, []⟩] } c.tag c.sheaf g i (c.marked s.nextId) hf hne

/-- Opening an operation takes a number and records it; nothing else outside the sheaf changes. -/
theorem openOp_rest (c : Ctx) (n : Nat) (s : State) :
    c.openOp n s = { s with
      sheaves := (c.openOp n s).sheaves
      nextId := s.nextId + 1
      ops := s.ops ++ [⟨s.nextId, c.tag, c.sheaf, c.i.common.sbw.toNat, n, c.act, regNums c.i.shape.dsts, []⟩] } := rfl

/-- Flags that the lanes of a result gain: each lane its own, or all of them those of the one computation of a uniform
destination (R273). -/
theorem flags_done {i : Instr} {s0 : State} {b : Bundle} {p : Part} {k : Stook} {h : Sheaf} {m : Lanes}
    (hi : Issues i s0 b p k h m) (d : Reg) (c : Ctx) (hc : c.act = m) (f : Nat → Flags) (s : State) (h0 : Sheaf)
    (hs : s.sheaf c.tag c.sheaf = some h0) :
    OneSheaf s ((c.runs d).foldl (fun s l => s.orFlags c.tag c.sheaf (c.flagLanes d l) (f l)) s) c.tag c.sheaf h0
      { h0 with threads := h0.threads.mapIdx fun l t =>
          if m.getLsbD l then t.orFlags (f (if d.isU then (lanesOf m).headD l else l)) else t } := by
  by_cases hU : d.isU = true
  · cases e : lanesOf m with
    | nil =>
      obtain ⟨l, h32, hm⟩ := hi.someLane
      have := mem_lanesOf.mpr ⟨h32, hm⟩
      rw [e] at this; cases this
    | cons a as =>
      have e0 : c.runs d = [a] := by simp [Ctx.runs, hU, hc, e]
      simp only [e0, List.foldl_cons, List.foldl_nil, Ctx.flagLanes, hU, if_true, hc, List.headD_cons]
      exact oneSheaf_orFlags hs m (f a)
  · have hrunE : c.runs d = lanesOf m := by simp [Ctx.runs, hU, hc]
    have := oneSheaf_orFlagsEach f (c.runs d) s h0 (hrunE ▸ lanesOf_nodup m)
      (fun l hl => (mem_lanesOf.mp (hrunE ▸ hl)).1) hs
    simp only [Ctx.flagLanes, hU, Bool.false_eq_true, if_false]
    have e : (h0.threads.mapIdx fun l t => if m.getLsbD l then t.orFlags (f l) else t) =
        h0.threads.mapIdx fun l t => if l ∈ c.runs d then t.orFlags (f l) else t := by
      apply List.ext_getElem
      · simp
      · intro j h1 h2
        simp only [List.getElem_mapIdx, hrunE, mem_lanesOf]
        by_cases hm : m.getLsbD j = true
        · have hj : j < 32 := (hi.lane_of_active hm).1
          simp [hm, hj]
        · simp [hm]
    rw [e]
    exact this

/-- What an instruction of variable latency leaves of the package, from what its parts leave. -/
theorem rest_chain {s s1 s2 t : State} {job n : Nat}
    (h1 : s1 = { s with sheaves := s1.sheaves, free := s1.free, nextId := n, ops := s1.ops, results := s1.results })
    (h2 : s2 = { s1 with sheaves := s2.sheaves })
    (h3 : t = { s2.retire job with sheaves := t.sheaves, cores := t.cores }) :
    t = { s with sheaves := t.sheaves, cores := t.cores, jobs := (s.retire job).jobs, free := t.free, nextId := n, ops := t.ops, results := t.results } := by
  simp only [State.retire, State.modJob] at h3 ⊢
  cases s; cases s1; cases s2; cases t
  simp only [State.mk.injEq] at h1 h2 h3 ⊢
  simp_all

theorem regWrites_one (d : Reg) (l x : Nat) : regWrites d l 1 x =
    if d.isZ then [] else [(d.num, if d.isU then none else some l, BitVec.ofNat 32 x)] := by
  simp [regWrites, wordsOf]

/-- AN INSTRUCTION OF VARIABLE LATENCY with a result computed at issue: what its issue does. -/
theorem delivers_variable {i : Instr} {d : Reg} {g : Ctx → State → Sheaf → Nat → Nat × Flags}
    {f : Lanes → Sheaf → Nat → Nat × Flags}
    (hx : ∀ s, exec i s = .next (issueWith i (fun c s => variableBody d (g c) c s) s)) (hfence : isFence i = false)
    (hg : ∀ {s b p k h m}, Issues i s b p k h m → ∀ s' h', s'.ops = s.ops → h'.threads = h.threads → h'.s = h.s →
      h'.part = h.part → ∀ l, m.getLsbD l = true → g (issueCtx i s b p m) s' h' l = f m h l) : Delivers i d f := by
  intro s b p k h m hi
  have hb := hi.before
  let c := issueCtx i s b p m
  let s0 := beforeBody i s b p
  let h0 : Sheaf := { h with failed := h.failed.filter (·.slot != i.common.sbw.toNat) }
  have hrun : ∀ l ∈ c.runs d, l < 32 ∧ m.getLsbD l = true := by
    intro l hl
    unfold Ctx.runs at hl
    split at hl
    · exact mem_lanesOf.mp (List.mem_of_mem_take hl)
    · exact mem_lanesOf.mp hl
  have hmap : ((c.runs d).map fun l => (l, g c s0 h0 l)) = (c.runs d).map fun l => (l, f m h l) := by
    apply List.map_congr_left
    intro l hl
    rw [hg hi s0 h0 rfl rfl rfl rfl l (hrun l hl).2]
  let ws := deliveries d m fun l => (f m h l).1
  have hws : ((c.runs d).map fun l => (l, f m h l)).flatMap (fun r => regWrites d r.1 1 r.2.1) = ws := by
    simp only [ws, deliveries, regWrites_one, List.flatMap_map]
    split
    · simp
    · split
      · rename_i hU
        simp only [Ctx.runs, hU, if_true, c, issueCtx]
        cases lanesOf m <;> simp
      · rename_i hU
        simp only [Ctx.runs, hU, Bool.false_eq_true, if_false, c, issueCtx]
        induction lanesOf m with
        | nil => rfl
        | cons a as ih => simp [ih]
  let s1 := c.deliver s0.nextId ws (c.openOp 1 s0)
  have hsh1 : s1.sheaf b.tag p.sheaf = some (c.marked s0.nextId h0) := (openOp_sheaf c 1 s0 h0 hb).1
  have hfl := flags_done hi d c rfl (fun l => (f m h l).2) s1 _ hsh1
  have hbody : variableBody d (g c) c s0 =
      (c.runs d).foldl (fun s l => s.orFlags c.tag c.sheaf (c.flagLanes d l) (f m h l).2) s1 := by
    have : c.sh s0 = some h0 := hb
    unfold variableBody
    simp only [this]
    rw [hmap, hws]
    simp only [List.foldl_map]
    rfl
  have hiss := issueWith_one hi (fun e => by rw [hfence] at e; cases e) (fun c s => variableBody d (g c) c s)
  change issueWith i _ s = finishIssue i.common (afterBody s0 (variableBody d (g c) c s0) c k.job) at hiss
  rw [hbody] at hiss
  generalize hs2 : (c.runs d).foldl (fun s l => s.orFlags c.tag c.sheaf (c.flagLanes d l) (f m h l).2) s1 = s2
    at hfl hiss
  obtain ⟨ths, hths⟩ : ∃ ths : List Thread, ths = (c.marked s0.nextId h0).threads.mapIdx fun l t =>
      if m.getLsbD l then t.orFlags (f m h (if d.isU then (lanesOf m).headD l else l)).2 else t := ⟨_, rfl⟩
  rw [← hths] at hfl
  obtain ⟨h2, hh2⟩ : ∃ h2 : Sheaf, h2 = { c.marked s0.nextId h0 with threads := ths } := ⟨_, rfl⟩
  rw [← hh2] at hfl
  obtain ⟨m1, m2, m3⟩ := markOps m s0.nextId (regNums i.shape.dsts) h0
  have hlane : ∀ (l : Nat) (x : Thread), h.threads[l]? = some x → ∃ y, h2.threads[l]? = some y ∧
      y = { x with pend := y.pend, fflags := y.fflags } ∧
      y.fflags = if m.getLsbD l then x.fflags ||| (f m h (if d.isU then (lanesOf m).headD l else l)).2 else x.fflags := by
    intro l x hxl
    obtain ⟨y, hy, e⟩ := m3 l x hxl
    have hy' : (c.marked s0.nextId h0).threads[l]? = some y := hy
    rw [hh2]
    simp only [hths, List.getElem?_mapIdx, hy', Option.map_some]
    have hf : y.fflags = x.fflags := by rw [e]
    refine ⟨_, rfl, ?_, ?_⟩
    · split
      · simp only [Thread.orFlags]; rw [e]
      · rw [e]
    · split
      · simp only [Thread.orFlags, hf]
      · exact hf
  have hraw : ∀ l r, h2.raw l r = h.raw l r := by
    intro l r
    rw [hh2, hths, raw_mapIdx_pend _ _ (by intro l x; split <;> exact ⟨rfl, rfl⟩)]
    exact (m2 l r).trans (raw_congr rfl rfl l r)
  have hst : s2.stooks = s.stooks := by rw [hfl.rest]; rfl
  have hco : s2.cores = s.cores := by rw [hfl.rest]; rfl
  have hcu : s2.cur = s.cur := by rw [hfl.rest]; rfl
  rw [afterBody_runs hi hst hco hcu hfl.after (fun l x hx => by
    obtain ⟨y, hy, e, -⟩ := hlane l x hx
    exact ⟨y, hy, by rw [e]⟩)] at hiss
  have hslot : (s2.retire k.job).slot (s2.retire k.job).cur.1 (s2.retire k.job).cur.2 = some b := by
    rw [← hi.slot]
    simp only [State.slot, State.core, State.retire_cur, State.retire_cores, hcu, hco]
  have hfin := finishIssue_spec i.common (s2.retire k.job) b hslot
  generalize ht : finishIssue i.common (s2.retire k.job) = t at hfin hiss
  obtain ⟨fp, hfp, hts⟩ := hfin.present b.tag p.sheaf h2 hfl.after
  refine ⟨t, _, by rw [hx, hiss], hts, ?_, ?_, ?_, ?_, ?_, ?_, ?_⟩
  · rw [hfin.rest]; show s2.results = _; rw [hfl.rest]; rfl
  · rw [hfin.rest]; show s2.ops = _; rw [hfl.rest]; rfl
  · intro l r
    rw [raw_mapIdx_pend h2 fp (fun l x => by
      have := hfp l x; simp only [Thread.onlyPlace] at this; rw [this]; exact ⟨rfl, rfl⟩)]
    exact hraw l r
  · intro l x y hxl hyl
    obtain ⟨z, hz, -, e⟩ := hlane l x hxl
    simp only [List.getElem?_mapIdx, hz, Option.map_some, Option.some.injEq] at hyl
    rw [← hyl, ← e, hfp l z]
  · intro l x hxl
    obtain ⟨z, hz, e, -⟩ := hlane l x hxl
    refine ⟨fp l z, by simp [List.getElem?_mapIdx, hz], ?_⟩
    have := hfp l z
    simp only [Thread.onlyPlace, Thread.sameButRegs] at this ⊢
    rw [this, e]
  · intro tag j hne
    refine (hfin.others tag j (by rw [hi.parts]; simpa using hne)).trans ?_
    refine (hfl.others tag j hne).trans ?_
    refine ((openOp_sheaf c 1 s0 h0 hb).2 tag j hne).trans ?_
    exact sheaf_modSheaf_other _ _ _ _ _ _ (by intro _; exact ⟨rfl, rfl⟩) hne
  · have hr := hfin.rest
    have c1 := (congrArg State.cores hr).trans rfl
    rw [← c1] at hr
    exact rest_chain (s1 := s1) rfl hfl.rest hr

end Sys2Proof.Machine
end

