-- ==== Sys2Proof/Tests/Slice0.lean ====
section
/-! SUPPORT. Tests of the model: terms that well-formedness refuses, words written out from the spec's encoding tables,
single steps, and for each statement a state and operands that meet its hypotheses. -/

namespace Sys2Proof.Tests
set_option Elab.async false
open Sys2Proof Sys2Proof.Machine

/-! ## A bench: a state in which one bundle of 32 lanes stands before a word -/

/-- Every lane. -/
def all32 : Lanes := BitVec.allOnes 32

/-- Right after reset, with every feature accepted and a bundle placed on core 508 (log entry 11); its range grants every
right. -/
def bench : State :=
  let s := State.reset.placeWord 0x001EFFFFFFFF8000
  { s with cur := (508, 0), featAcc := featWord, agenda := [], ranges := s.ranges.map fun e => { e with rights := 0x7F } }

/-- The bundle of the bench's slot. -/
def bunOf (s : State) : Bundle := (s.slot s.cur.1 s.cur.2).getD ⟨0, 0, [], 0, 0, 0, 0, 0, [], false, false⟩
/-- Its part. -/
def prt : Part := ⟨0, all32⟩
/-- Its stook. -/
def stkOf (s : State) : Stook := (s.stook 0xFFFFFFFF).getD placedStook
/-- Its sheaf. -/
def shfOf (s : State) : Sheaf := (s.sheaf 0xFFFFFFFF 0).getD (Sheaf.fresh 0 0 0 0 0)

/-- The bench with its stook, threads, sheaf or bundle changed. -/
def withStook (f : Stook → Stook) (s : State) : State := s.modStook 0xFFFFFFFF f
def withThreads (f : Thread → Thread) (s : State) : State :=
  s.modSheaf 0xFFFFFFFF 0 fun h => { h with threads := h.threads.map f }
def withSheaf (f : Sheaf → Sheaf) (s : State) : State := s.modSheaf 0xFFFFFFFF 0 f
def withUniform (r : Nat) (x : Word) (s : State) : State := withSheaf (fun h => { h with s := h.s.set r x }) s
def withJob (f : Job → Job) (s : State) : State := s.modJob 0xFFFF f
def withRange (f : RangeEnt → RangeEnt) (s : State) : State := { s with ranges := s.ranges.map f }
/-- The bench with a handler. -/
def handled (s : State) : State := withStook (fun k => { k with kh := { k.kh with handler := 0x100 } }) s

/-- Common fields without and with a slot. -/
def c7 : Common := ⟨1, 7, 0, 7⟩
def c0 : Common := ⟨1, 0, 0, 7⟩

/-! ## Checking hypotheses by evaluation -/

/-- What `Reaches` asks. -/
def reaches (i : Instr) (s : State) : Bool :=
  decide (s.slot s.cur.1 s.cur.2 = some (bunOf s)) &&
  !((bunOf s).deferred || (bunOf s).hold || decide ((bunOf s).count ≤ (bunOf s).pos)) &&
  decide ((bunOf s).parts = [prt]) && !slotFull i (bunOf s) s && decide (s.stook (bunOf s).tag = some (stkOf s)) &&
  decide (s.sheaf (bunOf s).tag prt.sheaf = some (shfOf s)) && (shfOf s).shaped

theorem reaches_ok {i : Instr} {s : State} (h : reaches i s = true) :
    Reaches i s (bunOf s) prt (stkOf s) (shfOf s) := by
  simp only [reaches, Bool.and_eq_true, decide_eq_true_eq, Bool.not_eq_true'] at h
  obtain ⟨⟨⟨⟨⟨⟨h1, h2⟩, h3⟩, h4⟩, h5⟩, h6⟩, h7⟩ := h
  exact ⟨h1, h2, h3, h4, h5, h6, h7⟩

/-- What `Issues` asks, for every lane unguarded. -/
def issues (i : Instr) (s : State) : Bool :=
  reaches i s && s.accepts i.shape.feat && i.shape.ok && !(i.wholeSheaf && (shfOf s).part != 32) &&
  i.shape.modFeats.all s.accepts && (regNums i.shape.regs).all (fun r => decide (256 ≤ r ∨ r < (shfOf s).allot)) &&
  (lanesOf all32).all (fun l => (s.uncovered (shfOf s) i l).isNone) &&
  decide (all32 = lanesWhere fun l => all32.getLsbD l && (shfOf s).guard i.common l) &&
  !(actsOnce i && s.mixedTagged (bunOf s).tag prt.sheaf all32)

theorem issues_ok {i : Instr} {s : State} (h : issues i s = true) :
    Issues i s (bunOf s) prt (stkOf s) (shfOf s) all32 := by
  simp only [issues, Bool.and_eq_true, decide_eq_true_eq, Bool.not_eq_true'] at h
  obtain ⟨⟨⟨⟨⟨⟨⟨⟨h1, h2⟩, h3⟩, h4⟩, h5⟩, h6⟩, h7⟩, h8⟩, h9⟩ := h
  exact ⟨reaches_ok h1, h2, h3, h4, h5, h6, h7, h8, by decide, h9⟩

/-- A list of instructions that issue on a bench. -/
theorem issues_all {s : State} {l : List Instr} (h : (l.all fun i => issues i s) = true) :
    ∀ i ∈ l, Issues i s (bunOf s) prt (stkOf s) (shfOf s) all32 :=
  fun i hi => issues_ok (List.all_eq_true.mp h i hi)

/-- What holds of every thread holds of every active one. -/
theorem of_threads {s : State} {p : Thread → Prop} [DecidablePred p]
    (h : (shfOf s).threads.all (fun x => decide (p x)) = true) (m : Lanes) :
    ∀ (l : Nat) (x : Thread), m.getLsbD l = true → (shfOf s).threads[l]? = some x → p x := by
  intro l x _ hx
  exact of_decide_eq_true (List.all_eq_true.mp h x (List.mem_of_getElem? hx))

/-- What holds of the lanes below 32 holds of every active one. -/
theorem of_lanes {p : Nat → Prop} [DecidablePred p] (h : ∀ l, l < 32 → p l) (m : Lanes) :
    ∀ l, m.getLsbD l = true → p l :=
  fun l hl => h l (BitVec.lt_of_getLsbD hl)

/-- A check answers this value. -/
def isOk {α β : Type} [DecidableEq β] (x : Except α β) (v : β) : Bool :=
  match x with | .ok y => decide (y = v) | .error _ => false

theorem ok_of {α β : Type} [DecidableEq β] {x : Except α β} {v : β} (h : isOk x v = true) : x = .ok v := by
  cases x with
  | error _ => cases h
  | ok y => exact congrArg _ (of_decide_eq_true h)

/-! ## Well-formedness refuses ill-formed terms (R262, R264, R265) -/

/-- A pair that starts at an odd register. -/
theorem test_ill_pair : WellFormed (.iadd c7 ⟨.v 1, .v 2, .v 4, 0x4000⟩) = false := by decide +kernel
/-- A register class that the role does not accept. -/
theorem test_ill_class : WellFormed (.iadd c7 ⟨.p 0, .v 2, .v 4, 0⟩) = false := by decide +kernel
/-- An unused field that is not 1023. -/
theorem test_ill_unused : WellFormed (.nop c7 ⟨.v 0, .z, .z, 0⟩) = false := by decide +kernel
/-- A `MOD` bit that the layout does not assign. -/
theorem test_ill_mod : WellFormed (.nop c7 ⟨.z, .z, .z, 1⟩) = false := by decide +kernel
/-- Scoreboard slot 6, and a slot on an instruction that takes none. -/
theorem test_ill_slot : WellFormed (.ld ⟨1, 6, 0, 7⟩ ⟨.v 0, .v 2, 0, 0x80⟩) = false ∧
    WellFormed (.nop c0 ⟨.z, .z, .z, 0⟩) = false := by decide +kernel
/-- A vector source of a uniform result. -/
theorem test_ill_uniform : WellFormed (.iadd c7 ⟨.s 0, .v 2, .s 4, 0⟩) = false := by decide +kernel
/-- A reserved word is one that no opcode names. -/
theorem test_ill_reserved : WellFormed (.reservedOpcode 0x001EFFFFFFFF8000) = false ∧
    WellFormed (.reservedOpcode 0xFF00000000000000) = true := by decide +kernel
/-- A well-formed instruction, and an act of another agent. -/
theorem test_well : WellFormed (.nop c7 ⟨.z, .z, .z, 0⟩) = true ∧ WellFormed .telemetry = true := by decide +kernel

/-! ## Words of the spec's encodings, one or more for each group of the opcode map -/

/-- Group 0x0 (R326, R344, R363): the words the spec gives. -/
theorem test_decode_group0 :
    decode 0x001EFFFFFFFF8000 = .nop c7 ⟨.z, .z, .z, 0⟩ ∧
    decode 0x061EFFF805FF8000 = .ret c7 ⟨.z, .v 2, .z, 0⟩ ∧
    decode 0x091EFFFFFFFF8000 = .yield c7 ⟨.z, .z, .z, 0⟩ := by decide +kernel
/-- `SHR s16, s12, s22` (R347), and by R257 and R261 bit by bit: OP 0x10, STALL 0001, SBW 111, GNEG 0, GP 111, D v1, A v2,
B s0 (256), MOD 0. -/
theorem test_decode_integer :
    decode 0x1C1EE882188B0000 = .shr c7 ⟨.s 16, .s 12, .s 22, 0⟩ ∧
    decode 0b00010000_0001_111_0_111_0000000001_0000000010_0100000000_000000000000000 = .iadd c7 ⟨.v 1, .v 2, .s 0, 0⟩ := by
  decide +kernel
/-- Format A4 (R261): IMAD 0x15, D v4, A v1, B v2, C v3, MOD 0; and SEL 0x2A with C p2 (642) and MOD 01000. -/
theorem test_decode_three_sources :
    decode 0b00010101_0001_111_0_111_0000000100_0000000001_0000000010_0000000011_00000 =
      .imad c7 ⟨.v 4, .v 1, .v 2, .v 3, 0⟩ ∧
    decode 0b00101010_0001_111_0_111_0000000100_0000000001_0000000010_1010000010_01000 =
      .sel c7 ⟨.v 4, .v 1, .v 2, .p 2, 8⟩ := by decide +kernel
/-- Format MI (R261): MOVI 0x2C, D s0, MOD 0, IMM32 0xDEADBEEF. -/
theorem test_decode_immediate :
    decode 0b00101100_0001_111_0_111_0100000000_000_11011110101011011011111011101111 = .movi c7 ⟨.s 0, 0, 0xDEADBEEF⟩ := by
  decide +kernel
/-- FADD 0x30 with B negated (MOD[3]), guarded by not p1 (GNEG 1, GP 001). -/
theorem test_decode_float :
    decode 0b00110000_0001_111_1_001_0000000000_0000000001_0000000010_000000000001000 =
      .fadd ⟨1, 7, 1, 1⟩ ⟨.v 0, .v 1, .v 2, 8⟩ := by decide +kernel
/-- `SHFL.xor v4, v2, s17 =>sb0` (R336) and `PARTN #8` (R327). -/
theorem test_decode_collective :
    decode 0x5310E02004888000 = .shflXor c0 ⟨.v 4, .v 2, .s 17, 0⟩ ∧
    decode 0x5D1EFFFFFFFF8002 = .partn c7 ⟨.z, .z, .z, 2⟩ := by decide +kernel
/-- Format M (R261): LD 0x60 under sb2, D v4, ADDR v2, OFF16 -8, MOD 010000000. -/
theorem test_decode_load :
    decode 0b01100000_0001_010_0_111_0000000100_0000000010_1111111111111000_010000000 =
      .ld ⟨1, 2, 0, 7⟩ ⟨.v 4, .v 2, 0xFFF8, 0x80⟩ := by decide +kernel
/-- Format MA (R261): ATOM.add 0x6B, D v0, ADDR v2, B v4, OFF10 -4, MOD 0; and `TIERPF [s40:s41], s42, s43` (R359). -/
theorem test_decode_atomic :
    decode 0b01101011_0001_000_0_111_0000000000_0000000010_0000000100_1111111100_00000 =
      .atomAdd c0 ⟨.v 0, .v 2, .v 4, 0x3FC, 0⟩ ∧
    decode 0x781EFFFA50952560 = .tierpf c7 ⟨.z, .s 40, .s 42, .s 43, 0⟩ := by decide +kernel
/-- `WAITGE [s12:s13 + 0], s16:s17` (R361). -/
theorem test_decode_wait : decode 0x841EE88218000000 = .waitge c7 ⟨.s 16, .s 12, 0, 0⟩ := by decide +kernel
/-- Groups 0x9 and 0xA by R257 and R261: MXQ 0x90 under sb1, D s20, A s32 (288); PUT 0xA0, D s0, A s4, B s8. -/
theorem test_decode_engines :
    decode 0b10010000_0001_001_0_111_0100010100_0100100000_1111111111_000000000000000 =
      .mxq ⟨1, 1, 0, 7⟩ ⟨.s 20, .s 32, .z, 0⟩ ∧
    decode 0b10100000_0001_111_0_111_0100000000_0100000100_0100001000_000000000000000 =
      .put c7 ⟨.s 0, .s 4, .s 8, 0⟩ := by decide +kernel
/-- `LAUNCH s60, [s20:s21 + 0] =>sb0` (R311) and `CANCEL.launch s20:s21` (R289). -/
theorem test_decode_launch :
    decode 0xB010E9E228000000 = .launch c0 ⟨.s 60, .s 20, 0, 0⟩ ∧
    decode 0xB11EFFFA29FF8001 = .cancel c7 ⟨.z, .s 20, .z, 1⟩ := by decide +kernel
/-- Format S (R261): MOVS 0xC0, D v0, SPEC 0x001; format B: BRA 0x01, OFF24 -1, COND p3 (643), MOD 1. -/
theorem test_decode_system :
    decode 0b11000000_0001_111_0_111_0000000000_1111111111_000000001_0000000000000000 =
      .movs c7 ⟨.v 0, .z, 0x001, 0⟩ ∧
    decode 0b00000001_0001_111_0_111_111111111111111111111111_1010000011_00000000001 =
      .bra c7 ⟨0xFFFFFF, .p 3, 1⟩ := by decide +kernel
/-- An opcode that R263 does not assign, and fewer than eight bytes. -/
theorem test_decode_refuses : decode 0xB200000000000000 = .reservedOpcode 0xB200000000000000 ∧
    decodeBytes [1, 2, 3] = .error (.truncated 3) := ⟨by decide +kernel, rfl⟩

/-! ## Witnesses: arithmetic -/

theorem witness_IntegerArithmetic : ∀ i ∈ [Instr.iadd c7 ⟨.v 0, .v 2, .v 4, 0⟩, .isub c7 ⟨.v 0, .v 2, .v 4, 0⟩, 
    .imul c7 ⟨.v 0, .v 2, .v 4, 0⟩, .imin c7 ⟨.v 0, .v 2, .v 4, 0⟩, .iminU c7 ⟨.v 0, .v 2, .v 4, 0⟩, 
    .imax c7 ⟨.v 0, .v 2, .v 4, 0⟩, .imaxU c7 ⟨.v 0, .v 2, .v 4, 0⟩, 
    .iadd c7 ⟨.v 0, .v 2, .v 4, 0x4000⟩, .isub c7 ⟨.v 0, .v 2, .v 4, 0x4000⟩, 
    .imul c7 ⟨.v 0, .v 2, .v 4, 0x4000⟩, .imin c7 ⟨.v 0, .v 2, .v 4, 0x4000⟩, 
    .iminU c7 ⟨.v 0, .v 2, .v 4, 0x4000⟩, .imax c7 ⟨.v 0, .v 2, .v 4, 0x4000⟩, 
    .imaxU c7 ⟨.v 0, .v 2, .v 4, 0x4000⟩, .imulhi c7 ⟨.v 0, .v 2, .v 4, 0⟩, 
    .imulhiU c7 ⟨.v 0, .v 2, .v 4, 0⟩, .imad c7 ⟨.v 0, .v 2, .v 4, .v 6, 0⟩, 
    .iabs c7 ⟨.v 0, .v 2, .z, 0⟩, .iadd c7 ⟨.s 0, .s 2, .z, 0x2000⟩, .isub c7 ⟨.z, .v 2, .v 3, 0⟩],
    Issues i bench (bunOf bench) prt (stkOf bench) (shfOf bench) all32 := issues_all (by decide +kernel)
theorem witness_ShiftsAndLogic : ∀ i ∈ [Instr.shl c7 ⟨.v 0, .v 2, .v 4, 0⟩, .shr c7 ⟨.v 0, .v 2, .v 4, 0⟩, 
    .sar c7 ⟨.v 0, .v 2, .v 4, 0⟩, .lopAnd c7 ⟨.v 0, .v 2, .v 4, 0⟩, 
    .lopOr c7 ⟨.v 0, .v 2, .v 4, 0⟩, .lopXor c7 ⟨.v 0, .v 2, .v 4, 0⟩, 
    .lopAndn c7 ⟨.v 0, .v 2, .v 4, 0⟩, .shl c7 ⟨.v 0, .v 2, .v 4, 0x4000⟩, 
    .sar c7 ⟨.v 0, .v 2, .v 4, 0x4000⟩],
    Issues i bench (bunOf bench) prt (stkOf bench) (shfOf bench) all32 := issues_all (by decide +kernel)
theorem witness_BitFieldsAndCounts : ∀ i ∈ [Instr.bfx c7 ⟨.v 0, .v 2, .v 4, 0⟩, .bfxU c7 ⟨.v 0, .v 2, .v 4, 0⟩, 
    .bfi c7 ⟨.v 0, .v 2, .v 4, .v 6, 0⟩, .popc c7 ⟨.v 0, .v 2, .z, 0⟩, .clz c7 ⟨.v 0, .v 2, .z, 0⟩, 
    .brev c7 ⟨.v 0, .v 2, .z, 0⟩],
    Issues i bench (bunOf bench) prt (stkOf bench) (shfOf bench) all32 := issues_all (by decide +kernel)
theorem witness_CompareSelectMove : ∀ i ∈ [Instr.icmp c7 ⟨.p 0, .v 2, .v 4, 0⟩, .icmpU c7 ⟨.p 0, .v 2, .v 4, 0⟩, 
    .fcmp c7 ⟨.p 0, .v 2, .v 4, 0⟩, .fcmpU c7 ⟨.p 0, .v 2, .v 4, 0⟩, 
    .sel c7 ⟨.v 0, .v 2, .v 4, .p 0, 0⟩, .mov c7 ⟨.v 0, .v 2, .z, 0⟩, .movi c7 ⟨.v 0, 0, 7⟩, 
    .psetAnd c7 ⟨.p 0, .p 1, .p 2, 3⟩, .psetOr c7 ⟨.p 0, .p 1, .p 2, 3⟩, 
    .psetXor c7 ⟨.p 0, .p 1, .p 2, 3⟩],
    Issues i bench (bunOf bench) prt (stkOf bench) (shfOf bench) all32 := issues_all (by decide +kernel)
theorem witness_FloatArithmetic : ∀ i ∈ [Instr.fadd c7 ⟨.v 0, .v 2, .v 4, 0⟩, .fmul c7 ⟨.v 0, .v 2, .v 4, 0⟩, 
    .fmin c7 ⟨.v 0, .v 2, .v 4, 0⟩, .fminNan c7 ⟨.v 0, .v 2, .v 4, 0⟩, 
    .fmax c7 ⟨.v 0, .v 2, .v 4, 0⟩, .fmaxNan c7 ⟨.v 0, .v 2, .v 4, 0⟩, 
    .ffma c7 ⟨.v 0, .v 2, .v 4, .v 6, 0⟩],
    Issues i bench (bunOf bench) prt (stkOf bench) (shfOf bench) all32 := issues_all (by decide +kernel)
theorem witness_PackedAndConversions : ∀ i ∈ [Instr.hadd2 c7 ⟨.v 0, .v 2, .v 4, 0⟩, .hadd2Bf c7 ⟨.v 0, .v 2, .v 4, 0⟩, 
    .hmul2 c7 ⟨.v 0, .v 2, .v 4, 0⟩, .hmul2Bf c7 ⟨.v 0, .v 2, .v 4, 0⟩, 
    .hfma2 c7 ⟨.v 0, .v 2, .v 4, .v 6, 0⟩, .hfma2Bf c7 ⟨.v 0, .v 2, .v 4, .v 6, 0⟩, 
    .fcvtFloatFromFloat c7 ⟨.v 0, .v 2, .z, 0x200⟩, .fcvtFloatFromInteger c7 ⟨.v 0, .v 2, .z, 0⟩, 
    .fcvtIntegerFromFloat c7 ⟨.v 0, .v 2, .z, 0⟩],
    Issues i bench (bunOf bench) prt (stkOf bench) (shfOf bench) all32 := issues_all (by decide +kernel)
theorem witness_SpecialFunctions : ∀ i ∈ [Instr.sfnRcp c0 ⟨.v 0, .v 2, .z, 0⟩, .sfnRsqrt c0 ⟨.v 0, .v 2, .z, 0⟩, 
    .sfnSqrt c0 ⟨.v 0, .v 2, .z, 0⟩, .sfnLog2 c0 ⟨.v 0, .v 2, .z, 0⟩, 
    .sfnExp2 c0 ⟨.v 0, .v 2, .z, 0⟩, .sfnSin c0 ⟨.v 0, .v 2, .z, 0⟩, .sfnCos c0 ⟨.v 0, .v 2, .z, 0⟩, 
    .sfnRcp c7 ⟨.s 0, .s 1, .z, 0⟩],
    Issues i bench (bunOf bench) prt (stkOf bench) (shfOf bench) all32 := issues_all (by decide +kernel)
theorem witness_SheafCollectives : ∀ i ∈ [Instr.shflIdx c0 ⟨.v 0, .v 2, .z, 0x4001⟩, .shflUp c0 ⟨.v 0, .v 2, .z, 0x4001⟩, 
    .shflDown c0 ⟨.v 0, .v 2, .z, 0x4001⟩, .shflXor c0 ⟨.v 0, .v 2, .z, 0x4001⟩, 
    .voteAll c0 ⟨.p 0, .p 1, .z, 0⟩, .voteAny c0 ⟨.p 0, .p 1, .z, 0⟩, 
    .voteBallot c0 ⟨.v 0, .p 1, .z, 0⟩, .reduxAdd c0 ⟨.v 0, .v 2, .z, 0⟩, 
    .reduxMin c0 ⟨.v 0, .v 2, .z, 0⟩, .reduxMinu c0 ⟨.v 0, .v 2, .z, 0⟩, 
    .reduxMax c0 ⟨.v 0, .v 2, .z, 0⟩, .reduxMaxu c0 ⟨.v 0, .v 2, .z, 0⟩, 
    .rdfirst c0 ⟨.v 0, .v 2, .z, 0⟩],
    Issues i bench (bunOf bench) prt (stkOf bench) (shfOf bench) all32 := issues_all (by decide +kernel)

/-! ## Witnesses: where threads go -/

theorem witness_ControlTransfers : ∀ i ∈ [Instr.nop c7 ⟨.z, .z, .z, 0⟩, .yield c7 ⟨.z, .z, .z, 0⟩, .bra c7 ⟨1, .p 1, 0⟩, 
    .brau c7 ⟨1, .s 1, 0⟩, .jmpi c7 ⟨.z, .v 2, .z, 0⟩, .ret c7 ⟨.z, .v 2, .z, 0⟩, 
    .callLabel c7 ⟨1, .v 2, 0⟩, .callRegister c7 ⟨.v 0, .v 2, .z, 0⟩],
    Issues i bench (bunOf bench) prt (stkOf bench) (shfOf bench) all32 := issues_all (by decide +kernel)
theorem witness_ControlTransfers_end : (bunOf bench).pos + 1 = (bunOf bench).count ∧
    ∀ l, all32.getLsbD l = true → (shfOf bench).val l (.v 2) 2 % 8 = 0 :=
  ⟨by decide +kernel, of_lanes (by decide +kernel) _⟩

/-- The bench with one more word in the clause. -/
def benchTwo : State := bench.setSlot 508 0 (some { bunOf bench with count := 2 })
theorem witness_NopGoesOn : Issues (.nop c7 ⟨.z, .z, .z, 0⟩) benchTwo (bunOf benchTwo) prt (stkOf benchTwo) (shfOf benchTwo)
    all32 ∧ (bunOf benchTwo).pos + 1 < (bunOf benchTwo).count := ⟨issues_ok (by decide +kernel), by decide +kernel⟩

/-- Every other issue slot is free. -/
theorem none_elsewhere {s : State} {b : Bundle} {p : Part} (h : (s.cores.all fun c =>
    decide (s.cur.2 = 0) && c.slot1.isNone && (c.id == s.cur.1 || c.slot0.isNone)) = true) : s.noneElsewhere b p := by
  intro core slot x hne hx
  unfold State.slot State.core at hx
  cases hc : s.cores.find? (fun y => y.id == core) with
  | none => rw [hc] at hx; split at hx <;> cases hx
  | some y =>
    have hy := List.all_eq_true.mp h y (List.mem_of_find?_eq_some hc)
    have hid : y.id = core := by simpa using List.find?_some hc
    simp only [Bool.and_eq_true, Bool.or_eq_true, decide_eq_true_eq, beq_iff_eq, Option.isNone_iff_eq_none] at hy
    rw [hc] at hx
    by_cases h0 : slot = 0
    · rw [if_pos h0, Option.getD_some, hy.2.resolve_left fun e => hne ⟨hid ▸ e, by simp [h0, hy.1.1]⟩] at hx
      cases hx
    · rw [if_neg h0, Option.getD_some, hy.1.2] at hx
      cases hx
theorem witness_ExitEndsLanes : Issues (.exit c7 ⟨.z, .z, .z, 0⟩) bench (bunOf bench) prt (stkOf bench) (shfOf bench) all32 ∧
    (bunOf bench).pos + 1 = (bunOf bench).count ∧ bench.noneElsewhere (bunOf bench) prt :=
  ⟨issues_ok (by decide +kernel), by decide +kernel, none_elsewhere (by decide +kernel)⟩

/-- The bench with a handler. -/
def benchH : State := handled bench
/-- A load's operands. -/
def mfEx : MF := ⟨.v 0, .v 2, 0, 0x80⟩
theorem benchH_ready : (stkOf benchH).kh.handler ≠ 0 ∧ ∀ m : Lanes, ∀ (l : Nat) (x : Thread), m.getLsbD l = true →
    (shfOf benchH).threads[l]? = some x → x.canEnter := by
  refine ⟨by decide +kernel, fun m l x hl hx => ?_⟩
  have := of_threads (s := benchH) (p := fun x => x.hact = false ∧ x.rmode = false ∧ x.exited = false)
    (by decide +kernel) m l x hl hx
  exact this
theorem witness_TrapEntersHandler : Issues (.trap c7 ⟨.z, 0, 9⟩) benchH (bunOf benchH) prt (stkOf benchH) (shfOf benchH)
    all32 := issues_ok (by decide +kernel)

/-- An unassigned `MOD` bit. -/
def illegal : Instr := .iadd c7 ⟨.v 0, .v 2, .v 4, 1⟩
/-- What the statement asks of an instruction. -/
def illegalOk (i : Instr) (s : State) : Bool :=
  reaches i s && i.isInstruction && s.accepts i.shape.feat && !i.shape.ok &&
  (lanesOf prt.lanes).all (fun l => (s.uncovered (shfOf s) i l).isNone) &&
  decide (all32 = if isFence i then prt.lanes else lanesWhere fun l => prt.lanes.getLsbD l && (shfOf s).guard i.common l)
theorem witness_IllegalFieldTraps : illegalOk illegal benchH = true ∧ illegalOk (.fence c7 ⟨.z, .z, .z, 8⟩) benchH = true ∧
    illegalOk (.ld ⟨1, 6, 0, 7⟩ mfEx) benchH = true := by decide +kernel

/-- The first register beyond the allotment of 8. -/
def beyond : Instr := .iadd c7 ⟨.v 7, .v 8, .v 4, 0⟩
theorem witness_BeyondAllotmentTraps : Reaches beyond benchH (bunOf benchH) prt (stkOf benchH) (shfOf benchH) ∧
    isFence beyond = false ∧ benchH.accepts beyond.shape.feat = true ∧ beyond.shape.ok = true ∧
    (beyond.wholeSheaf && (shfOf benchH).part != 32) = false ∧ beyond.shape.modFeats.all benchH.accepts = true ∧
    (regNums beyond.shape.regs).any (fun r => decide (r < 256 ∧ (shfOf benchH).allot ≤ r)) = true ∧
    (lanesOf prt.lanes).all (fun l => (benchH.uncovered (shfOf benchH) beyond l).isNone) = true ∧
    all32 = lanesWhere fun l => prt.lanes.getLsbD l && (shfOf benchH).guard beyond.common l :=
  ⟨reaches_ok (by decide +kernel), by decide +kernel⟩

/-- The bench with no feature accepted but the base. -/
def benchBase : State := { benchH with featAcc := 1 }
theorem witness_ReservedOpcodeTraps :
    Reaches (.reservedOpcode 0xFF00000000000000) benchH (bunOf benchH) prt (stkOf benchH) (shfOf benchH) ∧
    Reaches (.ratom c0 ⟨.s 0, .s 4, .s 8, 0⟩) benchBase (bunOf benchBase) prt (stkOf benchBase) (shfOf benchBase) ∧
    benchBase.accepts (Instr.ratom c0 ⟨.s 0, .s 4, .s 8, 0⟩).shape.feat = false ∧
    (Instr.reservedOpcode 0xFF00000000000000).isInstruction = true :=
  ⟨reaches_ok (by decide +kernel), reaches_ok (by decide +kernel), by decide +kernel⟩

/-- The bench with 4 in every vector register. -/
def benchFour : State := withThreads (fun t => { t with v := List.replicate 8 4 }) benchH
theorem witness_UnalignedTargetTraps : (∀ i ∈ [Instr.jmpi c7 ⟨.z, .v 2, .z, 0⟩, .ret c7 ⟨.z, .v 2, .z, 0⟩,
      .callRegister c7 ⟨.v 0, .v 2, .z, 0⟩],
      Issues i benchFour (bunOf benchFour) prt (stkOf benchFour) (shfOf benchFour) all32) ∧
    (stkOf benchFour).kh.handler ≠ 0 ∧
    (∀ l, all32.getLsbD l = true → (shfOf benchFour).val l (.v 2) 2 % 8 ≠ 0) ∧
    ∀ (l : Nat) (x : Thread), all32.getLsbD l = true → (shfOf benchFour).threads[l]? = some x → x.canEnter :=
  ⟨issues_all (by decide +kernel), by decide +kernel, of_lanes (by decide +kernel) _,
    of_threads (p := fun x => x.hact = false ∧ x.rmode = false ∧ x.exited = false) (by decide +kernel) _⟩

/-- The bench with every thread in its handler. -/
def benchIn : State := withThreads (fun t => { t with hact := true, epc := 0x18, cloff := 2 }) benchH
theorem witness_RettResumes : Issues (.rett c7 ⟨.z, .z, .z, 0⟩) benchIn (bunOf benchIn) prt (stkOf benchIn) (shfOf benchIn)
      all32 ∧ (stkOf benchIn).restore = none ∧ (bunOf benchIn).pos + 1 = (bunOf benchIn).count ∧
    ∀ (l : Nat) (x : Thread), all32.getLsbD l = true → (shfOf benchIn).threads[l]? = some x →
      (x.hact || x.rmode) = true ∧ x.exited = false ∧ x.stage ≠ .restoring :=
  ⟨issues_ok (by decide +kernel), by decide +kernel, by decide +kernel,
    of_threads (p := fun x => (x.hact || x.rmode) = true ∧ x.exited = false ∧ x.stage ≠ .restoring) (by decide +kernel) _⟩

theorem witness_NoHandlerFiresWatchdog :
    Issues (.trap c7 ⟨.z, 0, 9⟩) bench (bunOf bench) prt (stkOf bench) (shfOf bench) all32 ∧
    (stkOf bench).kh.handler = 0 ∧ (bench.job (stkOf bench).job).isSome = true ∧
    ∀ (l : Nat) (x : Thread), all32.getLsbD l = true → (shfOf bench).threads[l]? = some x → x.exited = false :=
  ⟨issues_ok (by decide +kernel), by decide +kernel, by decide +kernel,
    of_threads (p := fun x => x.exited = false) (by decide +kernel) _⟩


/-! ## Witnesses: memory accesses -/

/-- The bench's range. -/
def rngOf (s : State) : RangeEnt := (s.range 0xFFFFF).getD placedRange

/-- What `Passes` asks. -/
def passes (s : State) (k : Stook) (who : Who) (va w : Nat) (rights : BitVec 7) (shOnly : Bool) (e : RangeEnt) (o : Nat) :
    Bool :=
  !s.inAperture k.job va &&
  isOk (s.translate k.job va w w rights) (e, o) &&
  decide ((shOnly = true → e.cls = .sh) ∧ (rights &&& rightW ≠ 0 → e.cls ≠ .ro)) &&
  decide (rights &&& rightW ≠ 0 → who.isTagged = false) && decide (s.lineChecks e (rights &&& rightW != 0) o w va = none)

theorem passes_ok {s : State} {k : Stook} {who : Who} {va w : Nat} {rights : BitVec 7} {shOnly : Bool} {e : RangeEnt}
    {o : Nat} (h : passes s k who va w rights shOnly e o = true) : Passes s k who va w rights shOnly e o := by
  simp only [passes, Bool.and_eq_true, decide_eq_true_eq, Bool.not_eq_true'] at h
  obtain ⟨⟨⟨⟨h1, h2⟩, h3⟩, h4⟩, h5⟩ := h
  exact ⟨h1, ok_of h2, h3, h4, h5⟩

/-- What `Accesses` asks of an instruction that accesses the offset in a register pair and a constant, where every lane
reaches the bench's range. -/
def accessOk (a : Reg) (off : Int) (w : Nat) (once : Bool) (rights : BitVec 7) (shOnly : Bool) (s : State) : Bool :=
  (accesses once all32).all fun g => passes s (stkOf s) (s.laneWho (stkOf s) (shfOf s) g.1) ((shfOf s).ea g.1 a off) w rights
    shOnly (rngOf s) ((shfOf s).ea g.1 a off)

theorem access_ok {a : Reg} {off : Int} {w : Nat} {once : Bool} {rights : BitVec 7} {shOnly : Bool} {s : State}
    (h : accessOk a off w once rights shOnly s = true) : ∀ g ∈ accesses once all32,
      Passes s (stkOf s) (s.laneWho (stkOf s) (shfOf s) g.1) ((shfOf s).ea g.1 a off) w rights shOnly (rngOf s)
        ((shfOf s).ea g.1 a off) :=
  fun g hg => passes_ok (List.all_eq_true.mp h g hg)

/-- The last eight bytes of the range, and its first; four bytes each. -/
def mf4 : MF := ⟨.v 0, .v 2, 0xFF8, 0x80⟩
theorem witness_LoadsQueue :
    (∀ i ∈ [Instr.ld c0 mf4, .ldSx c0 ⟨.v 0, .v 2, 0xFF8, 0x40⟩, .ldu c0 ⟨.s 0, .s 2, 0xFF8, 0x80⟩, .ldff c0 ⟨.v 0, .v 2, 0xFF8, 0x80⟩],
      Issues i bench (bunOf bench) prt (stkOf bench) (shfOf bench) all32) ∧
    (∀ g ∈ accesses false all32, Passes bench (stkOf bench) (bench.laneWho (stkOf bench) (shfOf bench) g.1)
      ((shfOf bench).ea g.1 (.v 2) 0xFF8) 4 rightR false (rngOf bench) ((shfOf bench).ea g.1 (.v 2) 0xFF8)) ∧
    (issueCtx (.ldu c0 ⟨.s 0, .s 2, 0xFF8, 0x80⟩) bench (bunOf bench) prt all32).mixed bench = false :=
  ⟨issues_all (by decide +kernel), access_ok (by decide +kernel), by decide +kernel⟩
theorem witness_LoadsQueue_sx : Issues (.lduSx c0 ⟨.s 0, .s 2, 0xFF8, 0x40⟩) bench (bunOf bench) prt (stkOf bench) (shfOf bench) all32 :=
  issues_ok (by decide +kernel)

theorem witness_StoresQueue :
    (∀ i ∈ [Instr.st c7 mf4, .stu c7 ⟨.s 0, .s 2, 0xFF8, 0x80⟩],
      Issues i bench (bunOf bench) prt (stkOf bench) (shfOf bench) all32) ∧
    (∀ g ∈ accesses false all32, Passes bench (stkOf bench) (bench.laneWho (stkOf bench) (shfOf bench) g.1)
      ((shfOf bench).ea g.1 (.v 2) 0xFF8) 4 rightW false (rngOf bench) ((shfOf bench).ea g.1 (.v 2) 0xFF8)) ∧
    (issueCtx (.stu c7 ⟨.s 0, .s 2, 0xFF8, 0x80⟩) bench (bunOf bench) prt all32).mixed bench = false :=
  ⟨issues_all (by decide +kernel), access_ok (by decide +kernel), by decide +kernel⟩

def ma4 : MA := ⟨.v 0, .v 2, .v 4, 4, 0⟩
theorem witness_AtomicsQueue :
    (∀ i ∈ [Instr.atomAdd c0 ma4, .atomAnd c0 ma4, .atomOr c0 ma4, .atomXor c0 ma4, .atomMins c0 ma4, .atomMinu c0 ma4,
        .atomMaxs c0 ma4, .atomMaxu c0 ma4, .atomXchg c0 ma4, .atomCas c0 ma4, .atomFadd c0 ma4],
      Issues i bench (bunOf bench) prt (stkOf bench) (shfOf bench) all32) ∧
    (∀ g ∈ accesses false all32, Passes bench (stkOf bench) (bench.laneWho (stkOf bench) (shfOf bench) g.1)
      ((shfOf bench).ea g.1 (.v 2) 4) 4 (rightR ||| rightW ||| rightA) true (rngOf bench) ((shfOf bench).ea g.1 (.v 2) 4)) :=
  ⟨issues_all (by decide +kernel), access_ok (by decide +kernel)⟩

/-- The bench's job with its aperture at 32,768, and every vector register holding 32,768 or zero. -/
def benchAp : State := withThreads (fun t => { t with v := [0, 0, 0x8000, 0, 0, 0, 0, 0] })
  (withJob (fun j => { j with started := true, aperture := 0x8000 }) bench)
theorem witness_WainRequestsDefer :
    Issues (.atomXchg c0 ⟨.v 0, .v 2, .v 4, 0x40, 0x10⟩) benchAp (bunOf benchAp) prt (stkOf benchAp) (shfOf benchAp) all32 ∧
    (benchAp.job 0xFFFF).map Job.aperture = some 0x8000 ∧
    ∀ g ∈ accesses false all32, benchAp.inAperture 0xFFFF ((shfOf benchAp).ea g.1 (.v 2) 0x40) = true ∧
      ((shfOf benchAp).ea g.1 (.v 2) 0x40 - 0x8000) % 64 = 0 :=
  ⟨issues_ok (by decide +kernel), by decide +kernel, by decide +kernel⟩
/-- The same with one request of the sheaf. -/
def benchApU : State := withUniform 2 0x8000 benchAp
theorem witness_WainRequestsDefer_uniform : ∀ i, i = Instr.atomXchg c0 ⟨.s 32, .s 2, .s 4, 0x40, 0x10⟩ →
    Issues i benchApU (bunOf benchApU) prt (stkOf benchApU) (shfOf benchApU) all32 ∧
    (issueCtx i benchApU (bunOf benchApU) prt all32).mixedTagged benchApU = false ∧
    ∀ g ∈ accesses true all32, benchApU.inAperture 0xFFFF ((shfOf benchApU).ea g.1 (.s 2) 0x40) = true ∧
      ((shfOf benchApU).ea g.1 (.s 2) 0x40 - 0x8000) % 64 = 0 := by
  rintro i rfl
  exact ⟨issues_ok (by decide +kernel), by decide +kernel, by decide +kernel⟩

/-- The operands of an atomic of the sheaf. -/
def maHyp : MA := ⟨.s 32, .s 2, .s 4, 0x1F8, 0⟩
/-- The bench on a hypothesis range, with an arbor whose node 0x1… is open, and every thread under it. -/
def benchHyp : State :=
  { withThreads (fun t => { t with hyp := 0x10000000 }) (withRange (fun e => { e with hyp := true }) bench) with
    arbors := [{ id := 3, job := 0xFFFF, nodes := [⟨0x10000000, .isOpen⟩], prefixP := 0, nextSeq := 0, inflight := [],
                 queue := [], flatten := false, freeing := false, freeFn := none }] }
/-- What `TaggedWritesWait` asks of an instruction whose accesses all lie at the end of the bench's hypothesis range. -/
def waitsOk (i : Instr) (a : Reg) (off : Int) (w align : Nat) (once : Bool) (rights : BitVec 7) (o : Nat) : Bool :=
  issues i benchHyp && !(issueCtx i benchHyp (bunOf benchHyp) prt all32).mixed benchHyp &&
  (accesses once all32).all fun g => !benchHyp.inAperture 0xFFFF ((shfOf benchHyp).ea g.1 a off) &&
    isOk (benchHyp.translate 0xFFFF ((shfOf benchHyp).ea g.1 a off) w align rights) (rngOf benchHyp, o) &&
    (benchHyp.laneWho (stkOf benchHyp) (shfOf benchHyp) g.1).isTagged
theorem witness_TaggedWritesWait :
    (∀ o ∈ [0xFC0, 0xFF8], (rngOf benchHyp).cls = .sh ∧ (rngOf benchHyp).hyp = true ∧ (rngOf benchHyp).tierOf o ≠ 1 ∧
      (rngOf benchHyp).peer = none) ∧
    waitsOk (.st c7 mf4) (.v 2) 0xFF8 4 4 false rightW 0xFF8 = true ∧
    waitsOk (.stu c7 ⟨.s 0, .s 2, 0xFF8, 0x80⟩) (.s 2) 0xFF8 4 4 true rightW 0xFF8 = true ∧
    waitsOk (.stblk c7 ⟨.v 0, .s 0, 0xFC0, 0⟩) (.s 0) 0xFC0 64 64 true rightW 0xFC0 = true := by decide +kernel
theorem witness_TaggedWritesWait_atom : ∀ i ∈ [Instr.atomAdd c0 maHyp, .atomAnd c0 maHyp, .atomOr c0 maHyp, .atomXor c0 maHyp,
      .atomMins c0 maHyp, .atomMinu c0 maHyp, .atomMaxs c0 maHyp, .atomMaxu c0 maHyp, .atomXchg c0 maHyp, .atomCas c0 maHyp,
      .atomFadd c0 maHyp], waitsOk i (.s 2) 0x1F8 4 4 true (rightR ||| rightW ||| rightA) 0x1F8 = true := by decide +kernel

/-- The bench with a share of 256 bytes and two cribs. -/
def benchCrib : State := withStook (fun k => { k with share := 256, cribs := List.replicate 2 ⟨0, 0, 0, 0, 0, 0⟩ }) bench
theorem witness_ScratchpadQueues :
    (∀ i ∈ [Instr.lds c0 ⟨.v 0, .v 2, 0xFC, 0x100⟩, .ldsSx c0 ⟨.v 0, .v 2, 0xFC, 0x80⟩, .sts c7 ⟨.v 0, .v 2, 0xFC, 0x100⟩,
        .atoms c0 ⟨.v 0, .v 2, .v 4, 0⟩],
      Issues i benchCrib (bunOf benchCrib) prt (stkOf benchCrib) (shfOf benchCrib) all32) ∧
    ∀ l, all32.getLsbD l = true →
      (stkOf benchCrib).spadCheck ((stkOf benchCrib).cores.idxOf (shfOf benchCrib).core) 0xFC 4 = none ∧
      (stkOf benchCrib).cribAt ((stkOf benchCrib).cores.idxOf (shfOf benchCrib).core) 0xFC = none ∧
      wrapI 32 (((shfOf benchCrib).val l (.v 2) 1 : Int) + 0xFC) = 0xFC :=
  ⟨issues_all (by decide +kernel), of_lanes (by decide +kernel) _⟩

/-- The bench with 4,096, the first address past the range, in the address registers. -/
def benchOut : State := withThreads (fun t => { t with v := [0, 0, 0x1000, 0, 0, 0, 0, 0] }) benchH
theorem witness_UnmappedLoadTraps :
    Issues (.ld c0 ⟨.v 0, .v 2, 0, 0x80⟩) benchOut (bunOf benchOut) prt (stkOf benchOut) (shfOf benchOut) all32 ∧
    (stkOf benchOut).kh.handler ≠ 0 ∧
    (∀ l, all32.getLsbD l = true → benchOut.inAperture 0xFFFF ((shfOf benchOut).ea l (.v 2) 0) = false ∧
      (shfOf benchOut).ea l (.v 2) 0 % 4 = 0 ∧ benchOut.findRange 0xFFFF ((shfOf benchOut).ea l (.v 2) 0) = none) ∧
    ∀ (l : Nat) (x : Thread), all32.getLsbD l = true → (shfOf benchOut).threads[l]? = some x → x.canEnter :=
  ⟨issues_ok (by decide +kernel), by decide +kernel, of_lanes (by decide +kernel) _,
    of_threads (p := fun x => x.hact = false ∧ x.rmode = false ∧ x.exited = false) (by decide +kernel) _⟩

/-! ## Witnesses: instructions that wait, cribs, special registers -/

/-- The bench with cribs and a tile. -/
def benchWait : State := withStook (fun k => { k with tiles := 1 }) benchCrib
theorem witness_WaitsHold :
    (∀ i ∈ [Instr.publish c7 ⟨.z, .z, .z, 2⟩, .refresh c7 ⟨.z, .z, .z, 2⟩, .fence c7 ⟨.z, .z, .z, 2⟩,
        .waitquiet c7 ⟨.s 0, .z, .z, 0⟩, .cribwait c7 ⟨.z, .s 0, .s 1, 0⟩, .waitge c7 ⟨.s 4, .s 2, 8, 0⟩,
        .doze c7 ⟨.z, .s 2, .s 4, .s 6, 0⟩, .grow c7 ⟨.z, .z, .z, 31⟩, .relacc c7 ⟨.z, .z, .z, 0⟩],
      Issues i benchWait (bunOf benchWait) prt (stkOf benchWait) (shfOf benchWait) all32) ∧
    (shfOf benchWait).uval all32 (.s 0) 1 < (stkOf benchWait).cribs.length ∧
    (∀ i ∈ [Instr.waitge c7 ⟨.s 4, .s 2, 8, 0⟩, .doze c7 ⟨.z, .s 2, .s 4, .s 6, 0⟩],
      (issueCtx i benchWait (bunOf benchWait) prt all32).mixedTagged benchWait = false) ∧
    (∃ e o, benchWait.waitCheck 0xFFFF ((shfOf benchWait).ea 0 (.s 2) 8) = .ok (e, o)) ∧
    (∃ e o, benchWait.waitCheck 0xFFFF ((shfOf benchWait).uval all32 (.s 2) 2) = .ok (e, o)) ∧
    (shfOf benchWait).allot + 8 * 31 ≤ 256 ∧ (stkOf benchWait).mxErr = none ∧ (stkOf benchWait).tiles ≠ 0 :=
  ⟨issues_all (by decide +kernel), by decide +kernel, by decide +kernel, ⟨rngOf benchWait, 8, ok_of (by decide +kernel)⟩,
    ⟨rngOf benchWait, 0, ok_of (by decide +kernel)⟩, by decide +kernel⟩
theorem witness_WaitsHold_acqacc :
    Issues (.acqacc c7 ⟨.z, .z, .z, 8⟩) bench (bunOf bench) prt (stkOf bench) (shfOf bench) all32 ∧
    (stkOf bench).tiles = 0 ∧ bench.holds = [] := ⟨issues_ok (by decide +kernel), by decide +kernel⟩
theorem witness_WaitsHold_noTiles :
    Issues (.relacc c7 ⟨.z, .z, .z, 0⟩) bench (bunOf bench) prt (stkOf bench) (shfOf bench) all32 ∧
    (stkOf bench).mxErr = none ∧ (stkOf bench).tiles = 0 := ⟨issues_ok (by decide +kernel), by decide +kernel⟩
/-- The bench with its threads in the save routines. -/
def benchSave (st : SaveStage) : State := withThreads (fun t => { t with rmode := true, stage := st }) bench
theorem witness_WaitsHold_saved : ∀ stk : Bool, ∀ s, s = benchSave (if stk then .stookSaving else .saving) →
    Issues (.saved c7 ⟨.z, .z, .z, 0⟩) s (bunOf s) prt (stkOf s) (shfOf s) all32 ∧
    ∀ (l : Nat) (x : Thread), all32.getLsbD l = true → (shfOf s).threads[l]? = some x →
      x.rmode = true ∧ x.stage = if stk then .stookSaving else .saving := by
  rintro (_ | _) s rfl
  · exact ⟨issues_ok (by decide +kernel), of_threads (s := benchSave .saving)
      (p := fun x => x.rmode = true ∧ x.stage = .saving) (by decide +kernel) _⟩
  · exact ⟨issues_ok (by decide +kernel), of_threads (s := benchSave .stookSaving)
      (p := fun x => x.rmode = true ∧ x.stage = .stookSaving) (by decide +kernel) _⟩

theorem witness_BarrierArrivals : ∀ i ∈ [Instr.bar c7 ⟨.z, .z, .z, 15⟩, .barArrive c7 ⟨.z, .z, .z, 15⟩],
    Issues i bench (bunOf bench) prt (stkOf bench) (shfOf bench) all32 := issues_all (by decide +kernel)

/-- The bench with cribs, 1 in s0 and 65,535 in s1. -/
def benchOne : State := withUniform 1 0xFFFF (withUniform 0 1 benchCrib)
theorem witness_CribUpdatesQueue :
    (∀ i ∈ [Instr.cribarr c7 ⟨.z, .s 0, .s 1, 0⟩, .cribset c7 ⟨.z, .s 0, .s 1, .s 2, 0⟩],
      Issues i benchOne (bunOf benchOne) prt (stkOf benchOne) (shfOf benchOne) all32) ∧
    (shfOf benchOne).uval all32 (.s 0) 1 < (stkOf benchOne).cribs.length ∧ (shfOf benchOne).uval all32 (.s 1) 1 ≤ 0xFFFF :=
  ⟨issues_all (by decide +kernel), by decide +kernel⟩

theorem witness_SpecialRegistersRead : ∀ i ∈ [Instr.movs c7 ⟨.v 0, .z, 0x001, 0⟩, .movs c7 ⟨.v 0, .z, 0x020, 0⟩,
    .movs c7 ⟨.s 0, .z, 0x010, 0⟩, .movs c7 ⟨.v 0, .z, 0x041, 0⟩, .movs c7 ⟨.s 0, .z, 0x053, 0⟩],
    Issues i bench (bunOf bench) prt (stkOf bench) (shfOf bench) all32 := issues_all (by decide +kernel)

theorem witness_SpecialRegistersWrite :
    (∀ i ∈ [Instr.movsw c7 ⟨.z, .v 0, 0x032, 0⟩, .movsw c7 ⟨.z, .s 0, 0x034, 0⟩],
      Issues i bench (bunOf bench) prt (stkOf bench) (shfOf bench) all32) ∧
    (shfOf bench).core = bench.cur.1 ∧ (bench.core 508).convs = [] ∧
    (shfOf bench).uval all32 (.s 0) 1 / 16 % 16 ≤ (bench.core 508).spw ∧ bench.spadWays 508 ≤ 0 ∧
    Issues (.movsw c7 ⟨.z, .v 0, 0x040, 0⟩) benchIn (bunOf benchIn) prt (stkOf benchIn) (shfOf benchIn) all32 ∧
    ∀ (l : Nat) (x : Thread), all32.getLsbD l = true → (shfOf benchIn).threads[l]? = some x → (x.hact || x.rmode) = true :=
  ⟨issues_all (by decide +kernel), by decide +kernel, by decide +kernel, by decide +kernel, by decide +kernel,
    issues_ok (by decide +kernel), of_threads (p := fun x => (x.hact || x.rmode) = true) (by decide +kernel) _⟩

theorem witness_TilesAndBitWindows :
    (∀ i ∈ [Instr.partn c7 ⟨.z, .z, .z, 4⟩, .bsinit c7 ⟨.z, .v 2, .v 4, 0⟩, .bsinit c0 ⟨.z, .v 2, .v 4, 0⟩,
        .bsrd c7 ⟨.v 0, .z, .z, 0x4020⟩],
      Issues i bench (bunOf bench) prt (stkOf bench) (shfOf bench) all32) ∧
    ∀ l, all32.getLsbD l = true → (shfOf bench).val l (.v 4) 1 ≤ 64 :=
  ⟨issues_all (by decide +kernel), of_lanes (by decide +kernel) _⟩

/-- The bench with 16 vector registers. -/
def bench16 : State := withThreads (fun t => { t with v := List.replicate 16 0 }) bench
theorem witness_ShrinkDropsRegisters :
    Issues (.shrink c7 ⟨.z, .z, .z, 1⟩) bench16 (bunOf bench16) prt (stkOf bench16) (shfOf bench16) all32 ∧
    8 * 1 + 8 ≤ (shfOf bench16).allot := ⟨issues_ok (by decide +kernel), by decide +kernel⟩

/-! ## Witnesses: extents, blocks, queries -/

/-- The bench with 64 in s2. -/
def benchLen : State := withUniform 2 64 benchCrib
theorem witness_ExtentsQueue :
    (∀ i ∈ [Instr.clean c0 ⟨.s 2, .s 0, 0, 0⟩, .discard c0 ⟨.s 2, .s 0, 0, 0⟩],
      Issues i benchLen (bunOf benchLen) prt (stkOf benchLen) (shfOf benchLen) all32) ∧
    (shfOf benchLen).ea 0 (.s 0) 0 % 64 = 0 ∧ (shfOf benchLen).uval all32 (.s 2) 1 = 64 ∧
    benchLen.translate 0xFFFF 0 64 1 rightW = .ok (rngOf benchLen, 0) ∧ (rngOf benchLen).cls ≠ .ro ∧
    benchLen.keyLive (rngOf benchLen) = true ∧ benchLen.inAperture 0xFFFF 0 = false ∧
    ∀ l, all32.getLsbD l = true → benchLen.laneWho (stkOf benchLen) (shfOf benchLen) l = .untagged :=
  ⟨issues_all (by decide +kernel), by decide +kernel, by decide +kernel, ok_of (by decide +kernel), by decide +kernel,
    by decide +kernel, by decide +kernel, of_lanes (by decide +kernel) _⟩
/-- The same with an earlier access of the lanes outstanding. -/
def benchBusy : State :=
  { benchLen with nextId := 9, reqs := [{ (bunOf benchLen).request prt (stkOf benchLen) (shfOf benchLen) all32 true
      (.range (rngOf benchLen) 0) true .untagged 4 0 with id := 5, op := 4 }] }
theorem witness_ExtentsQueue_tierpf :
    Issues (.tierpf c7 ⟨.z, .s 0, .s 2, .s 4, 0⟩) benchBusy (bunOf benchBusy) prt (stkOf benchBusy) (shfOf benchBusy) all32 ∧
    (shfOf benchBusy).uval all32 (.s 4) 1 < (stkOf benchBusy).cribs.length ∧ (shfOf benchBusy).uval all32 (.s 2) 1 = 64 ∧
    benchBusy.translate 0xFFFF ((shfOf benchBusy).uval all32 (.s 0) 2) 64 1 rightR = .ok (rngOf benchBusy, 0) ∧
    benchBusy.inAperture 0xFFFF ((shfOf benchBusy).uval all32 (.s 0) 2) = false ∧ benchBusy.keyLive (rngOf benchBusy) = true ∧
    (issueCtx (.tierpf c7 ⟨.z, .s 0, .s 2, .s 4, 0⟩) benchBusy (bunOf benchBusy) prt all32).mixedTagged benchBusy = false ∧
    benchBusy.met ⟨0xFFFFFFFF, 0, all32, benchBusy.nextId⟩ = false :=
  ⟨issues_ok (by decide +kernel), by decide +kernel, by decide +kernel, ok_of (by decide +kernel), by decide +kernel⟩
theorem witness_ExtentsQueue_met :
    Issues (.tierpf c7 ⟨.z, .s 0, .s 2, .s 4, 0⟩) benchLen (bunOf benchLen) prt (stkOf benchLen) (shfOf benchLen) all32 ∧
    (shfOf benchLen).uval all32 (.s 4) 1 < (stkOf benchLen).cribs.length ∧ (shfOf benchLen).uval all32 (.s 2) 1 = 64 ∧
    benchLen.translate 0xFFFF ((shfOf benchLen).uval all32 (.s 0) 2) 64 1 rightR = .ok (rngOf benchLen, 0) ∧
    (benchLen.inAperture 0xFFFF ((shfOf benchLen).uval all32 (.s 0) 2) = false ∧
    (issueCtx (.tierpf c7 ⟨.z, .s 0, .s 2, .s 4, 0⟩) benchLen (bunOf benchLen) prt all32).mixedTagged benchLen = false ∧
    benchLen.met ⟨0xFFFFFFFF, 0, all32, benchLen.nextId⟩ = true ∧ benchLen.range (rngOf benchLen).idx = some (rngOf benchLen) ∧
    benchLen.tierOps = []) :=
  ⟨issues_ok (by decide +kernel), by decide +kernel, by decide +kernel, ok_of (by decide +kernel), by decide +kernel⟩
theorem witness_ExtentsQueue_zero :
    (∀ i ∈ [Instr.clean c0 ⟨.s 2, .s 0, 0, 0⟩, .discard c0 ⟨.s 2, .s 0, 0, 0⟩, .tierpf c7 ⟨.z, .s 0, .s 2, .s 4, 0⟩],
      Issues i benchCrib (bunOf benchCrib) prt (stkOf benchCrib) (shfOf benchCrib) all32) ∧
    (shfOf benchCrib).ea 0 (.s 0) 0 % 64 = 0 ∧ (shfOf benchCrib).uval all32 (.s 2) 1 = 0 ∧
    (shfOf benchCrib).uval all32 (.s 4) 1 < (stkOf benchCrib).cribs.length ∧
    (issueCtx (.tierpf c7 ⟨.z, .s 0, .s 2, .s 4, 0⟩) benchCrib (bunOf benchCrib) prt all32).mixedTagged benchCrib = false :=
  ⟨issues_all (by decide +kernel), by decide +kernel⟩

theorem witness_BlocksQueue :
    (∀ i ∈ [Instr.ldblk c0 ⟨.v 0, .s 0, 0x40, 0⟩, .stblk c7 ⟨.v 0, .s 0, 0x40, 0⟩],
      Issues i bench (bunOf bench) prt (stkOf bench) (shfOf bench) all32 ∧
      (issueCtx i bench (bunOf bench) prt all32).mixedTagged bench = false) ∧
    (shfOf bench).ea 0 (.s 0) 0x40 = 0x40 ∧ bench.inAperture 0xFFFF 0x40 = false ∧
    bench.translate 0xFFFF 0x40 64 64 rightR = .ok (rngOf bench, 0x40) ∧
    bench.translate 0xFFFF 0x40 64 64 rightW = .ok (rngOf bench, 0x40) ∧
    bench.lineChecks (rngOf bench) false 0x40 64 0x40 = none ∧ bench.lineChecks (rngOf bench) true 0x40 64 0x40 = none ∧
    (rngOf bench).cls ≠ .ro ∧ (bench.laneWho (stkOf bench) (shfOf bench) 0).isTagged = false :=
  ⟨fun i hi => ⟨issues_all (by decide +kernel) i hi, by revert i; decide +kernel⟩, by decide +kernel, by decide +kernel,
    ok_of (by decide +kernel), ok_of (by decide +kernel), by decide +kernel⟩

/-- The read of an `LDBLK` may run, before its instruction issues and after it. -/
theorem witness_BlocksQueue_runs :
    bench.canRun { (bunOf bench).request prt (stkOf bench) (shfOf bench) all32 true (.range (rngOf bench) 0x40) false
      .untagged 64 0x40 with id := bench.nextId + 1, op := bench.nextId, kind := .block } = true := by decide +kernel
theorem test_ldblk_read_runs : (match exec (.ldblk c0 ⟨.v 0, .s 0, 0x40, 0⟩) bench with
    | .next t => t.reqs.length == 1 && t.reqs.all t.canRun | _ => false) = true := by decide +kernel

theorem witness_RangeQueries : ∀ i ∈ [Instr.rqry c0 ⟨.v 0, .v 2, 0, 0⟩, .rqry c0 ⟨.v 0, .v 2, 3, 0⟩, .rqry c0 ⟨.s 0, .s 2, 2, 0⟩],
    Issues i bench (bunOf bench) prt (stkOf bench) (shfOf bench) all32 := issues_all (by decide +kernel)

/-- The bench with an empty block in s0 to s15, and its first byte 0xFF. -/
def benchEmpty : State := withUniform 0 0xFF bench
theorem witness_RequantiseAnswers :
    Issues (.reqnt c0 ⟨.s 16, .s 0, .s 32, 0⟩) benchEmpty (bunOf benchEmpty) prt (stkOf benchEmpty) (shfOf benchEmpty) all32 ∧
    (shfOf benchEmpty).uval all32 (.s 32) 1 < 255 ∧
    benchEmpty.blockFmt (leBytes 64 ((shfOf benchEmpty).uval all32 (.s 0) 16)) = some none :=
  ⟨issues_ok (by decide +kernel), by decide +kernel, by decide +kernel⟩
/-- The same with a block of E4M3 elements, scale byte 0. -/
def benchBlock : State := withUniform 0 0x20 bench
theorem witness_RequantiseAnswers_block :
    Issues (.reqnt c0 ⟨.s 16, .s 0, .s 32, 0⟩) benchBlock (bunOf benchBlock) prt (stkOf benchBlock) (shfOf benchBlock) all32 ∧
    benchBlock.blockFmt (leBytes 64 ((shfOf benchBlock).uval all32 (.s 0) 16)) = some (some bE4m3) :=
  ⟨issues_ok (by decide +kernel), by decide +kernel⟩

/-! ## Witnesses: engines, fabric, launches, the arbor -/

/-- The bench with two tiles and a matrix command of one block at 0 in s0 to s15 (NBLK in s9). -/
def benchMx : State := withUniform 9 1 (withStook (fun k => { k with tiles := 2 }) bench)
theorem witness_MatrixPosts :
    Issues (.mxq c0 ⟨.s 32, .s 0, .z, 0⟩) benchMx (bunOf benchMx) prt (stkOf benchMx) (shfOf benchMx) all32 ∧
    (stkOf benchMx).mxErr = none ∧
    benchMx.mxCheck (stkOf benchMx) (MxCmd.ofNat ((shfOf benchMx).uval all32 (.s 0) 16)) = none ∧
    benchMx.mxFree 7 15 ≠ [] ∧
    (∀ i ∈ [Instr.mxq c0 ⟨.s 32, .s 0, .z, 0⟩, .mxdrain c0 ⟨.s 32, .s 0, .z, 0⟩],
      (issueCtx i benchMx (bunOf benchMx) prt all32).mixedTagged benchMx = false) ∧
    Issues (.mxdrain c0 ⟨.s 32, .s 0, .z, 0⟩) benchMx (bunOf benchMx) prt (stkOf benchMx) (shfOf benchMx) all32 ∧
    benchMx.mxDrainCheck (stkOf benchMx) (Instr.mxdrain c0 ⟨.s 32, .s 0, .z, 0⟩).word
      (MxDesc.ofNat ((shfOf benchMx).uval all32 (.s 0) 4)) = none :=
  ⟨issues_ok (by decide +kernel), by decide +kernel, by decide +kernel, by decide +kernel, by decide +kernel,
    issues_ok (by decide +kernel), by decide +kernel⟩
/-- A full table of 32 entries. -/
def fullTable : List MxEntry := (List.range 32).map fun n =>
  ⟨7, 15, n, n, 5, 5, 0, 0, 0, .drain (MxDesc.ofNat 0) 1023 508, 0, false, 0, ⟨5, 0, 0, 0⟩, 0⟩
theorem witness_MatrixPosts_full : ∀ s, s = { benchMx with mxTable := fullTable } → s.mxFree 7 15 = [] ∧
    Issues (.mxdrain c0 ⟨.s 32, .s 0, .z, 0⟩) s (bunOf s) prt (stkOf s) (shfOf s) all32 := by
  rintro s rfl
  exact ⟨by decide +kernel, issues_ok (by decide +kernel)⟩
/-- The bench with a recorded matrix error and a handler. -/
def benchErr : State := withStook (fun k => { k with mxErr := some (0x43, 7), tiles := 2 }) benchH
theorem witness_MatrixPosts_error :
    (∀ i ∈ [Instr.mxq c0 ⟨.s 32, .s 0, .z, 0⟩, .mxdrain c0 ⟨.s 32, .s 0, .z, 0⟩, .relacc c7 ⟨.z, .z, .z, 0⟩],
      Issues i benchErr (bunOf benchErr) prt (stkOf benchErr) (shfOf benchErr) all32) ∧
    (stkOf benchErr).mxErr = some (0x43, 7) ∧ (stkOf benchErr).kh.handler ≠ 0 ∧
    ∀ (l : Nat) (x : Thread), all32.getLsbD l = true → (shfOf benchErr).threads[l]? = some x → x.canEnter :=
  ⟨issues_all (by decide +kernel), by decide +kernel, by decide +kernel,
    of_threads (p := fun x => x.hact = false ∧ x.rmode = false ∧ x.exited = false) (by decide +kernel) _⟩

/-- Destination words of offset 0 of the bench's range in s0 to s3 and s4 to s7, the length 4 in s8. -/
def benchFab : State :=
  withUniform 8 4 (withUniform 2 0xF0000000 (withUniform 3 0xFFFF (withUniform 6 0xF0000000 (withUniform 7 0xFFFF bench))))
/-- Whatever is asked of the members of an empty list holds. -/
theorem no_members {α : Type} {l : List α} {p : α → Prop} (h : l.length = 0) : ∀ x ∈ l, p x := by
  cases l with
  | nil => exact fun x hx => absurd hx List.not_mem_nil
  | cons y ys => cases h
/-- Nothing is in flight. -/
def quietState (s : State) : Prop := s.ops.length + s.results.length = 0 ∧ s.reqs.length + s.copies.length = 0 ∧
  s.holds.length + s.mxTable.length = 0 ∧ s.fabReqs.length + s.msgs.length = 0
theorem idle_numbered {s : State} (h : quietState s) : Numbered s :=
  have ⟨a, b, c, d⟩ := h
  { ops := no_members (by omega), results := no_members (by omega), reqs := no_members (by omega),
    copies := no_members (by omega), holds := no_members (by omega), entries := no_members (by omega),
    fabReqs := no_members (by omega), msgs := no_members (by omega) }
theorem idle_noneWait {s : State} (h : quietState s) : s.noneWait := no_members (by have := h.2.2.2; omega)
theorem idle_benchFab : quietState benchFab := by unfold quietState; decide +kernel
/-- No register of the bench waits for a result. -/
theorem settled_bench {s : State} (h : (shfOf s).threads.all (fun x => decide (x.pend = [])) = true) (l : Nat)
    (hl : l < 32) : s.settledFor (shfOf s) l := by
  intro x hx r _ _
  have hp : x.pend = [] := of_threads (p := fun x => x.pend = []) h all32 l x (by
    rw [all32, BitVec.getLsbD_allOnes]; exact decide_eq_true hl) hx
  simp [Thread.covers, Thread.pending?, hp]
theorem witness_FabricRequests :
    (∀ i ∈ [Instr.put c7 ⟨.s 0, .s 4, .s 8, 0⟩, .put c0 ⟨.s 0, .s 4, .s 8, 1⟩, .get c0 ⟨.s 0, .s 4, .s 8, 0⟩,
        .ratom c0 ⟨.s 32, .s 4, .s 8, 0⟩],
      Issues i benchFab (bunOf benchFab) prt (stkOf benchFab) (shfOf benchFab) all32) ∧
    Numbered benchFab ∧ benchFab.noneWait ∧ benchFab.settledFor (shfOf benchFab) 0 ∧
    (∀ l, all32.getLsbD l = true → benchFab.laneWho (stkOf benchFab) (shfOf benchFab) l = .untagged) ∧
    (benchFab.ranges.map (·.idx)).Nodup ∧ benchFab.inAperture 0xFFFF 0 = false ∧ benchFab.keyLive (rngOf benchFab) = true ∧
    (rngOf benchFab).firstBlocked false 0 4 = none ∧ (rngOf benchFab).owner = 0xFFFF ∧ (rngOf benchFab).grants rightW = true ∧
    (let d := DestWord.ofNat ((shfOf benchFab).uval all32 (.s 0) 4)
     d.reserved = false ∧ d.kind = 0 ∧ d = DestWord.ofNat ((shfOf benchFab).uval all32 (.s 4) 4) ∧ d.pkg = benchFab.pkg ∧
     benchFab.knowsPkg d.pkg = true ∧ isOk (benchFab.targetCheck 0xFFFF benchFab.pkg d.range d.off 4 1 rightW) (rngOf benchFab)) ∧
    (shfOf benchFab).uval all32 (.s 8) 1 = 4 ∧ isOk (benchFab.translate 0xFFFF 0 4 1 rightR) (rngOf benchFab, 0) :=
  ⟨issues_all (by decide +kernel), idle_numbered idle_benchFab, idle_noneWait idle_benchFab,
    settled_bench (by decide +kernel) 0 (by decide), of_lanes (by decide +kernel) _, by decide +kernel, by decide +kernel,
    by decide +kernel, by decide +kernel, by decide +kernel, by decide +kernel, by decide +kernel⟩
/-- The same with an active message's destination in s0 to s3, and 62 argument words. -/
def benchAmsg : State := withUniform 8 0x3E0000 (withUniform 3 0x30000000 bench)
theorem witness_FabricRequests_amsg :
    Issues (.amsg c7 ⟨.s 0, .s 4, .s 8, 0⟩) benchAmsg (bunOf benchAmsg) prt (stkOf benchAmsg) (shfOf benchAmsg) all32 ∧
    (DestWord.ofNat ((shfOf benchAmsg).uval all32 (.s 0) 4)).kind = 3 ∧
    (DestWord.ofNat ((shfOf benchAmsg).uval all32 (.s 0) 4)).reserved = false ∧
    (shfOf benchAmsg).uval all32 (.s 8) 1 / 2 ^ 16 % 64 = 62 := ⟨issues_ok (by decide +kernel), by decide +kernel⟩

/-- The bench with a multicast destination in s0 to s3, and with its job's arbor. -/
def benchAsk : State := { withUniform 8 4 (withUniform 3 0x20000000 bench) with arbors := benchHyp.arbors }
theorem witness_DeferredInstructions :
    (∀ i ∈ [Instr.launch c0 ⟨.s 32, .s 4, 0, 0⟩, .coll c7 ⟨.s 4, .s 2, .s 16, 0⟩, .put c7 ⟨.s 0, .s 4, .s 8, 0⟩,
        .hypopen c0 ⟨.s 32, .s 16, .p 0, 3⟩, .resolveConfirm c0 ⟨.s 32, .s 16, .z, 0⟩, .resolveRefute c0 ⟨.s 32, .s 16, .z, 0⟩],
      Issues i benchAsk (bunOf benchAsk) prt (stkOf benchAsk) (shfOf benchAsk) all32) ∧
    benchAsk.settledFor (shfOf benchAsk) 0 ∧ (DestWord.ofNat ((shfOf benchAsk).uval all32 (.s 0) 4)).kind = 2 ∧
    (DestWord.ofNat ((shfOf benchAsk).uval all32 (.s 0) 4)).reserved = false ∧ benchAsk.accepts 8 = true ∧
    (∀ i ∈ [Instr.hypopen c0 ⟨.s 32, .s 16, .p 0, 3⟩, .resolveConfirm c0 ⟨.s 32, .s 16, .z, 0⟩, .resolveRefute c0 ⟨.s 32, .s 16, .z, 0⟩],
      (issueCtx i benchAsk (bunOf benchAsk) prt all32).mixedTagged benchAsk = false) ∧
    (∃ a, benchAsk.arbor 0xFFFF = some a ∧ benchAsk.arborAt a.id = some a ∧ a.flatten = false) ∧
    pathOk (BitVec.ofNat 32 ((shfOf benchAsk).uval all32 (.s 16) 1)) = true ∧ (shfOf benchAsk).uval all32 (.s 16) 1 = 0 :=
  ⟨issues_all (by decide +kernel), settled_bench (by decide +kernel) 0 (by decide), by decide +kernel, by decide +kernel,
    by decide +kernel, by decide +kernel, ⟨_, rfl, by decide +kernel, by decide +kernel⟩, by decide +kernel⟩
theorem witness_DeferredInstructions_flatten : ∃ s a, s.arbor 0xFFFF = some a ∧ a.flatten = true ∧ a.freeing = false ∧
    Issues (.hypopen c0 ⟨.s 32, .s 16, .p 0, 3⟩) s (bunOf s) prt (stkOf s) (shfOf s) all32 :=
  ⟨{ benchAsk with arbors := benchAsk.arbors.map fun a => { a with flatten := true } }, _, rfl, by decide +kernel,
    by decide +kernel, issues_ok (by decide +kernel)⟩

/-- Paths of an open node in v2. -/
def benchPath : State := { withThreads (fun t => { t with v := [0, 0, 0x10000000, 0, 0, 0, 0, 0] }) bench with arbors := benchHyp.arbors }
theorem witness_HypsetSetsPath :
    Issues (.hypset c7 ⟨.z, .v 2, .z, 0⟩) benchPath (bunOf benchPath) prt (stkOf benchPath) (shfOf benchPath) all32 ∧
    (∃ a, benchPath.arbor 0xFFFF = some a ∧ (a.nodes.map (·.path)).Nodup) ∧
    (∀ l, all32.getLsbD l = true → pathOk (BitVec.ofNat 32 ((shfOf benchPath).val l (.v 2) 1)) = true) ∧
    ∀ (l : Nat) (x : Thread), all32.getLsbD l = true → (shfOf benchPath).threads[l]? = some x →
      x.exited = false ∧ x.held = none :=
  ⟨issues_ok (by decide +kernel), ⟨_, rfl, by decide +kernel⟩, of_lanes (by decide +kernel) _,
    of_threads (p := fun x => x.exited = false ∧ x.held = none) (by decide +kernel) _⟩

theorem witness_CancelPosts :
    (∀ i ∈ [Instr.cancel c7 ⟨.z, .s 0, .z, 0⟩, .cancel c7 ⟨.z, .s 0, .z, 4⟩],
      Issues i bench (bunOf bench) prt (stkOf bench) (shfOf bench) all32) ∧
    (∃ j, bench.job 0xFFFF = some j ∧ (j.launches.map (·.no)).Nodup) ∧ (bench.stooks.map (·.tag)).Nodup ∧ bench.holds = [] :=
  ⟨issues_all (by decide +kernel), ⟨_, rfl, by decide +kernel⟩, by decide +kernel⟩

/-! ## Witnesses: accesses that execute, waits that end -/

/-- A request of the bench's lanes at an offset of its range. -/
def reqAt (kind : ReqKind) (home : Bool) (o w : Nat) (data : List Byte) (dest : List (Nat × Option Nat)) : Req :=
  { (bunOf bench).request prt (stkOf bench) (shfOf bench) all32 false (.range (rngOf bench) o) home .untagged w 0 with
    id := 5, op := 4, kind, data, dest }
/-- The bench with that request outstanding. -/
def benchReq (r : Req) : State := { bench with nextId := 9, reqs := [r], ops := [⟨4, 0xFFFFFFFF, 0, 0, 1, all32, [], []⟩] }
/-- A copy of the range's first line in the bench's L1. -/
def copyLine : CacheLine :=
  ⟨508, 0xFFFFF, 0, 0, 0, 0xFFFF, List.replicate 64 7, BitVec.allOnes 64, 0, [], 0⟩
/-- A line of its home slice. -/
def homeLine : L3Line := ⟨0xFFFF, 0xFFFFF, 0, 0, List.replicate 64 9, true⟩

/-- The hypotheses of `AccessesExecute` that its clauses share. -/
def executes (s : State) (r : Req) (e : RangeEnt) (o : Nat) : Bool :=
  decide (s.reqs.find? (·.id == r.id) = some r ∧ s.canRun r = true ∧ r.done = [] ∧ r.place = .range e o ∧ e ∈ s.ranges ∧
    (s.ranges.map (·.idx)).Nodup ∧ e.peer = none ∧ (∀ v ∈ s.versions, v.rng ≠ e.idx) ∧ s.keyLive e = true ∧ e.lost (o / 64 * 64) = false ∧
    o % 64 + r.width ≤ 64 ∧ 0 < r.width ∧ r.got = List.replicate r.width 0 ∧ r.acq = false ∧ r.rel = false ∧ r.who = .untagged) &&
  s.l3.all fun l => decide (l.bytes.length = 64)

theorem witness_AccessesExecute : ∀ r ∈ [reqAt (.load true) true 63 1 [] [(0, some 31)],
      reqAt (.load false) true 56 8 [] [(0, some 0), (1, some 0)], reqAt .store true 0 4 [1, 2, 3, 4] [],
      reqAt .store false 60 4 [1, 2, 3, 4] [], reqAt (.rmw .add 1 0) true 60 4 [] [(0, some 0)]],
    executes { benchReq r with l3 := [homeLine] } r (rngOf bench) (match r.place with | .range _ o => o | _ => 0) = true := by
  decide +kernel
theorem witness_AccessesExecute_snapshot : ∀ s, s = { benchReq (reqAt (.load false) false 60 4 [] [(0, none)]) with
      l1 := [copyLine] } → executes s (reqAt (.load false) false 60 4 [] [(0, none)]) (rngOf bench) 60 = true ∧
    findCopy s.l1 508 (rngOf bench) 0 = some copyLine ∧ copyLine.valid &&& byteMask 60 4 = byteMask 60 4 := by
  rintro s rfl
  decide +kernel
/-- A result for the lanes 0 and 31, a uniform register and a predicate, whose registers wait for it. -/
def benchResult : State :=
  let ps : List Pend := [⟨0, 0, .op 4⟩, ⟨256, 0, .op 4⟩, ⟨640, 0, .op 4⟩]
  { withThreads (fun x => { x with pend := ps }) bench with nextId := 9, ops := [⟨4, 0xFFFFFFFF, 0, 0, 1, all32, [], []⟩], results := [⟨8, 4, 0xFFFFFFFF, 0,
    [(0, some 0, 1), (0, some 31, 2), (256, none, 3), (640, some 31, 1)]⟩] }
/-- That result. -/
def resOf : Result := benchResult.results.headD ⟨0, 0, 0, 0, []⟩
theorem witness_AccessesExecute_result : benchResult.results.find? (·.id == resOf.id) = some resOf ∧
    benchResult.sheaf resOf.tag resOf.sheaf = some (shfOf benchResult) ∧ (shfOf benchResult).shaped = true ∧
    (resOf.writes.map fun w => (w.1, w.2.1)).Nodup ∧
    ∀ w ∈ resOf.writes, (w.1 < 647 ∧ (w.2.1.getD 0) < 32 ∧ (256 ≤ w.1 ∧ w.1 < 640 ↔ w.2.1 = none) ∧
      (w.1 < 256 → w.1 < (shfOf benchResult).allot)) ∧
      ∀ y, (shfOf benchResult).threads[w.2.1.getD 0]? = some y → (y.pending? w.1).map Pend.cover = some (.op resOf.op) := by
  refine ⟨by decide +kernel, by decide +kernel, by decide +kernel, by decide +kernel, fun w hw =>
    ⟨by revert w; decide +kernel, fun y hy => ?_⟩⟩
  have h : resOf.writes.all (fun w => ((shfOf benchResult).threads[w.2.1.getD 0]?).all fun y =>
      decide ((y.pending? w.1).map Pend.cover = some (.op resOf.op))) = true := by decide +kernel
  have := List.all_eq_true.mp h w hw
  rw [hy] at this
  exact of_decide_eq_true this

/-- The bench with a request on the last word of its scratchpad share. -/
def benchSpad (kind : ReqKind) (data : List Byte) : State :=
  { benchCrib with nextId := 9, ops := [⟨4, 0xFFFFFFFF, 0, 0, 1, all32, [], []⟩],
                   reqs := [{ reqAt kind true 0 4 data [(0, some 0)] with place := .spad 0 252 }] }
theorem witness_AccessesExecute_scratchpad : ∀ p ∈ [(ReqKind.load true, ([] : List Byte)), (.store, [1, 2, 3, 4]), (.rmw .add 1 0, [])],
    ∀ r ∈ (benchSpad p.1 p.2).reqs, (benchSpad p.1 p.2).reqs.find? (·.id == r.id) = some r ∧
      (benchSpad p.1 p.2).canRun r = true ∧ r.done = [] ∧ r.place = .spad 0 252 ∧ r.acq = false ∧ r.rel = false ∧
      r.got = List.replicate r.width 0 ∧ (benchSpad p.1 p.2).stook r.tag = some (stkOf (benchSpad p.1 p.2)) ∧
      (stkOf (benchSpad p.1 p.2)).cribAt 0 252 = none ∧ Memory.wf (stkOf (benchSpad p.1 p.2)).spad = true := by decide +kernel

/-- The bench with its bundle held by a wait, its threads standing in it, its slot free. -/
def benchHold (kind : HoldKind) : State :=
  let s := withThreads (fun x => { x with held := some 5, inBundle := false, pc := 0x10 }) (handled benchCrib)
  { s.setSlot 508 0 none with
    nextId := 9, ops := [⟨4, 0xFFFFFFFF, 0, 0, 1, all32, [], []⟩],
    holds := [⟨5, 0xFFFFFFFF, 0, all32, all32, 508, 8, 0, 4, 0, kind⟩] }
/-- Its hold. -/
def holdOf (s : State) : Hold := s.holds.headD ⟨0, 0, 0, 0, 0, 0, 0, 0, 0, 0, .relAcc⟩
theorem witness_WaitsEnd : ∀ kind ∈ [HoldKind.publish 3, .refresh 3, .fence 2, .cribWait 1 0xFFFFFFFF, .waitGe 0xFF8 0,
      .doze 0xFF8 0 0, .doze 0xFF8 1 0, .grow 31, .acqAcc 8, .relAcc, .mxDrain 300 [], .saved true, .bar 15 [],
      .launchQ 300 (leBytes 8 0)],
    (benchHold kind).holds.find? (·.id == (holdOf (benchHold kind)).id) = some (holdOf (benchHold kind)) ∧
    (benchHold kind).stook (holdOf (benchHold kind)).tag = some (stkOf (benchHold kind)) ∧
    (holdOf (benchHold kind)).kind = kind := by decide +kernel
theorem witness_WaitsEnd_publish : ∀ scope ≤ 3, ∀ kind ∈ [HoldKind.publish scope, .fence scope],
    (benchHold kind).publishReady (holdOf (benchHold kind)) 0xFFFF scope = true ∧
    (benchHold kind).allDone 0xFFFFFFFF 0 all32 5 = true := by decide +kernel
theorem witness_WaitsEnd_refresh : ∀ scope ≤ 3, let s := benchHold (.refresh scope)
    s.acquired (holdOf s).tag (holdOf s).sheaf (holdOf s).active (holdOf s).id = true := by decide +kernel
theorem witness_WaitsEnd_cribWait : ∃ x, (stkOf (benchHold (.cribWait 1 0xFFFFFFFF))).cribs[1]? = some x ∧ x.turn < 2 ^ 32 ∧
    0 < (x.turn + 2 ^ 32 - 0xFFFFFFFF) % 2 ^ 32 ∧ (x.turn + 2 ^ 32 - 0xFFFFFFFF) % 2 ^ 32 < 2 ^ 31 ∧
    (let s := benchHold (.cribWait 1 0xFFFFFFFF)
     s.ordered ((holdOf s).read 0xFFFF ((stkOf s).cribPlace 1) 16) = true ∧ ∀ u ∈ (stkOf s).cribUps, u.crib ≠ 1) :=
  ⟨_, rfl, by decide +kernel⟩
theorem witness_WaitsEnd_counter : ∀ k ∈ [HoldKind.waitGe 0xFF8 0, .doze 0xFF8 0 0, .doze 0xFF8 1 0],
    isOk ((benchHold k).waitCheck 0xFFFF 0xFF8) (rngOf bench, 0xFF8) = true ∧
    (rngOf bench).peer = none ∧ (benchHold k).waitOrdered (holdOf (benchHold k)) (rngOf bench) 0xFF8 = true ∧
    (rngOf bench).held 0xFF8 8 = false ∧ leNat ((benchHold k).homeReadN (rngOf bench) 0xFF8 8) = 0 ∧
    0 ≤ (benchHold k).now / 4 ∧
    (stkOf (benchHold k)).kh.handler ≠ 0 ∧ (shfOf (benchHold k)).threads.all (fun x => decide (x.hact = false ∧ x.rmode = false ∧ x.exited = false)) = true := by
  decide +kernel
theorem witness_WaitsEnd_grow : ∀ s, s = benchHold (.grow 31) → (shfOf s).shaped = true ∧ (shfOf s).allot + 8 * 31 ≤ 256 ∧
    s.regBytes 508 + 1024 * 31 ≤ 524288 ∧ s.holds = [holdOf s] := by
  rintro s rfl
  decide +kernel
theorem witness_WaitsEnd_acqAcc :
    (((benchHold (.acqAcc 8)).stooks.filter fun x => x.die == 7 && x.bay == 15).map (·.tiles)).sum + 8 ≤ 8 ∧
    (benchHold (.acqAcc 8)).holds = [holdOf (benchHold (.acqAcc 8))] := by decide +kernel
theorem witness_WaitsEnd_relAcc : (stkOf (benchHold .relAcc)).mxErr = none ∧ (benchHold .relAcc).mxTable = [] :=
  by decide +kernel
/-- The words of a drain of tile 0 to offset 0. -/
def drainWords : List Word := List.replicate 4 0
theorem witness_WaitsEnd_mxDrain : ∀ s, s = withStook (fun k => { k with tiles := 1 }) (benchHold (.mxDrain 300 drainWords)) →
    s.mxDrainCheck (stkOf s) 0 (MxDesc.ofNat (leNat (wordBytes drainWords))) = none ∧ s.mxFree 7 15 ≠ [] ∧
    s.holds = [holdOf s] := by
  rintro s rfl
  decide +kernel
theorem witness_WaitsEnd_launchQ : ∀ s, s = benchHold (.launchQ 300 (leBytes 64 4096)) →
    ((s.job 0xFFFF).map Job.queued).getD 0 < 4096 ∧ s.ops.any (·.id == 4) = true ∧ s.holds = [holdOf s] ∧
    (s.readHeader 0xFFFF (LaunchRec.ofBytes (leBytes 64 4096)).kh).isNone = true ∧
    ∀ n ∈ s.vaLines 0xFFFF (LaunchRec.ofBytes (leBytes 64 4096)).kh 128, n.1.peer = none := by
  rintro s rfl
  decide +kernel
/-- A launch record of one stook of one sheaf whose kernel header stands at 128. -/
def recordOne : List Byte := leBytes 64 (128 + 2 ^ 64 + 2 ^ 96)
/-- That launch waits for its queue. -/
def benchQueue : State := { benchHold (.launchQ 300 recordOne) with
  l3 := [{ homeLine with line := 128, bytes := leBytes 64 (2 ^ 200 * 2 ^ 187) }] }
theorem witness_WaitsEnd_launch : ((benchQueue.job 0xFFFF).map Job.queued).getD 0 < 4096 ∧ benchQueue.ops.any (·.id == 4) = true ∧
    benchQueue.holds = [holdOf benchQueue] ∧ (holdOf benchQueue).kind = .launchQ 300 recordOne ∧
    (∀ n ∈ benchQueue.vaLines 0xFFFF (LaunchRec.ofBytes recordOne).kh 128, n.1.peer = none) ∧
    benchQueue.readHeader 0xFFFF (LaunchRec.ofBytes recordOne).kh = some placedHeader ∧
    benchQueue.headerRefused placedHeader = false ∧ (LaunchRec.ofBytes recordOne).nstook = 1 ∧
    ∃ j, benchQueue.job 0xFFFF = some j ∧ (j.graphOf (stkOf benchQueue)).cancelled = false ∧ ∀ l ∈ j.launches, l.no ≠ j.nextLaunch := by
  decide +kernel
/-- The bench with its bundle held in its slot by a `MOVSW` that raises the scratchpad ways. -/
def benchSpw : State :=
  (benchTwo.setSlot 508 0 (some { bunOf benchTwo with deferred := true })).modCore 508 fun c =>
    { c with convs := [⟨2, some (0, c7), 0xFFFFFFFF⟩] }
theorem witness_WaitsEnd_spw : (benchSpw.core 508).convs = ⟨2, some (0, c7), 0xFFFFFFFF⟩ :: [] ∧ (benchSpw.core 508).spw < 2 ∧
    ∃ b, benchSpw.slot 508 0 = some b ∧ b.deferred = true ∧ b.hold = false ∧ (∃ p ∈ b.parts, p.lanes ≠ 0) ∧
      b.pos + 1 < b.count := by
  refine ⟨by decide +kernel, by decide +kernel, bunOf benchSpw, ?_⟩
  decide +kernel
/-- The bench in its stook save, held by `SAVED` with every lane but one. -/
def benchSaved : State :=
  let s := withStook (fun k => { k with pre := some ⟨0, 0, 0, .stook⟩ }) (withThreads (fun x => { x with rmode := true, stage := .stookSaving })
    (benchHold (.saved true)))
  { s with holds := s.holds.map fun h => { h with active := 0x7FFFFFFF } }
theorem witness_WaitsEnd_saved : benchSaved.holds.find? (·.id == 5) = some (holdOf benchSaved) ∧
    (stkOf benchSaved).pre = some ⟨0, 0, 0, .stook⟩ ∧ benchSaved.publishReady (holdOf benchSaved) 0xFFFF 3 = true ∧
    benchSaved.fabPending 0xFFFFFFFF 0 0x7FFFFFFF 5 = false ∧ benchSaved.writing 0xFFFFFFFF 0 0x7FFFFFFF 5 = false ∧
    ∃ x ∈ benchSaved.threadsOf 0xFFFFFFFF, x.1.index = 0 ∧ x.2.2.stage ≠ .stookSaved ∧
      (0 = 0 → (holdOf benchSaved).active.getLsbD x.2.1 = false) := by decide +kernel
theorem witness_WaitsEnd_bar : ∀ s, s = withThreads (fun x => { x with arrivals := List.replicate 16 1 })
      (benchHold (.bar 15 [(0, 1)])) → s.reqs = [] ∧ ∀ sh ∈ s.sheaves, ∀ x ∈ sh.threads, 1 ≤ (x.arrivals[15]?).getD 0 := by
  rintro s rfl
  exact ⟨by decide +kernel, by decide +kernel⟩

/-! ## Witnesses: cribs and copies, bundles and stooks -/

/-- The bench with three updates on their way to its last crib. -/
def benchUps : State := withStook (fun k =>
  { k with cribUps := [⟨1, 0, .arrive 0xFFFF, some 0⟩, ⟨1, 0, .arrive 1, some 1⟩, ⟨1, 0, .credit 64, none⟩],
           cribs := [⟨0, 0, 0, 0, 0, 0⟩, ⟨0, 0xFFFFFFFF, 64, 0, 0xFFFF, 0⟩] }) { bench with now := 32 }
theorem witness_CribsAndCopies : benchUps.stook (stkOf benchUps).tag = some (stkOf benchUps) ∧
    0 ≤ benchUps.cycles 7 ∧ ((stkOf benchUps).cribUps.filter (·.crib == 1)) ≠ [] ∧
    (stkOf benchUps).cribUps.all (fun u => decide (u.cycle = 0) && match u.kind with | .arrive _ | .credit _ => true | _ => false) = true ∧
    ∃ x, (stkOf benchUps).cribs[1]? = some x ∧ x.cycle < benchUps.cycles 7 ∧ x.met = false ∧ x.arr ≤ 0xFFFF ∧ x.bytes ≤ 0xFFFFFFFF := by
  refine ⟨by decide +kernel, by decide +kernel, by decide +kernel, by decide +kernel, _, rfl, by decide +kernel⟩
/-- A template that asks for nothing after the copy. -/
def template0 : Template := ⟨0, 0, 0, 0, 0, 0, 0, 0, 1, 1, 1, false, 0, false, false, false, false, 0, 256, 0, 0⟩
/-- A copy of the bench's job: 64 bytes at 0 to 64 bytes at 128, and two to the range's end. -/
def copyOf (landed : List Nat) (t : Template) : Copy :=
  let e := rngOf bench
  ⟨5, 0xFFFFFFFF, 0xFFFF, 0, 7, 0, 0, 0, t, [⟨e, 0, .range e 128, 64⟩, ⟨e, 0, .range e 4094, 2⟩], landed, .untagged,
    ⟨0xFFFFFFFF, 0, all32, 5⟩, 0, false, none, false⟩
def benchCopy (landed : List Nat) (t : Template) : State := { bench with nextId := 9, l3 := [homeLine], copies := [copyOf landed t] }
theorem witness_CribsAndCopies_packet : ∀ n ≤ 1, ∀ p ∈ (copyOf [] template0).packets[n]?, ∀ landed, landed = List.range n →
    let s := benchCopy landed template0
    s.copies.find? (·.id == 5) = some (copyOf landed template0) ∧ landed.contains n = false ∧
    (∀ j, j < n → landed.contains j = true) ∧ s.met (copyOf landed template0).dep = true ∧
    s.copies = [copyOf landed template0] ∧ s.fabReqs = [] ∧ s.peerBuf = [] ∧ (copyOf landed template0).first = none ∧
    s.sourceReady p = true ∧ s.packetReady (copyOf landed template0) p = true ∧ p.src ∈ s.ranges ∧ (s.ranges.map (·.idx)).Nodup ∧
    s.packetHeld p = false ∧ p.src.peer = none ∧ s.keyLive (rngOf bench) = true ∧ s.versions = [] ∧ p.dst.meets p.len (.range p.src p.soff) p.len = false ∧
    (p.dst = .range (rngOf bench) 128 ∨ p.dst = .range (rngOf bench) 4094) ∧ s.l3 = [homeLine] := by
  intro n hn p hp landed hl
  subst hl
  revert p
  match n, hn with
  | 0, _ => decide +kernel
  | 1, _ => decide +kernel
  | n + 2, h => exact absurd h (by omega)
theorem witness_CribsAndCopies_complete : ∀ t ∈ [template0, { template0 with incr := 1, cntr := 0xFF8, follow := true },
      { template0 with cribEn := true, crib := 1, bcred := 64 }],
    (benchCopy [0, 1] t).copies.find? (·.id == 5) = some (copyOf [0, 1] t) ∧
    (∀ j, j < (copyOf [0, 1] t).packets.length → (copyOf [0, 1] t).landed.contains j = true) ∧
    (benchCopy [0, 1] t).copies = [copyOf [0, 1] t] ∧ t.notify = false ∧ (rngOf bench).peer = none ∧ bench.versions = [] ∧
    (benchCopy [0, 1] t).lineChecks (rngOf bench) true 0xFF8 8 0xFF8 = none ∧
    isOk ((benchCopy [0, 1] t).translate 0xFFFF 0xFF8 8 1 0) (rngOf bench, 0xFF8) = true := by decide +kernel
/-- The bench with a follow-on of command 63 of the range registered for its job, which is a `LOAD` of zeroes. -/
def benchFollow : State :=
  let s := withStook (fun k => { k with tiles := 1 }) (withJob (fun j => { j with mxRange := some 0xFFFFF }) bench)
  { s with followOns := [⟨5, 0xFFFFFFFF, 0xFFFF, 63⟩], l3 := [{ homeLine with line := 63 * 64, bytes := leBytes 64 (2 ^ 200 * 2 ^ 75) }] }
theorem witness_CribsAndCopies_followOn : benchFollow.followOns.find? (·.id == 5) = some ⟨5, 0xFFFFFFFF, 0xFFFF, 63⟩ ∧
    benchFollow.stookNow 0xFFFFFFFF = some (stkOf benchFollow) ∧ benchFollow.mxFree 7 15 ≠ [] ∧ benchFollow.peerBuf = [] ∧
    (rngOf bench).peer = none ∧ benchFollow.lineChecks (rngOf bench) false (64 * 63) 64 ((rngOf bench).base + 64 * 63) = none ∧
    benchFollow.registered 0xFFFF ((benchFollow.job 0xFFFF).bind (·.mxRange)) 63 = some (rngOf bench) ∧
    benchFollow.mxCheck (stkOf benchFollow) (MxCmd.ofNat (leNat (benchFollow.homeReadN (rngOf bench) (64 * 63) 64))) = none := by
  decide +kernel
/-- The bench with a tier prefetch whose last line has not arrived. -/
def benchTier : State := { benchCrib with tierOps := [⟨5, 0xFFFFFFFF, 1, 0xFFFFF, [(4032, 64)], ⟨0xFFFFFFFF, 0, all32, 5⟩⟩] }
theorem witness_CribsAndCopies_tier : ∃ q, benchTier.tierOps.find? (·.id == q.id) = some q ∧
    benchTier.stook q.tag = some (stkOf benchTier) ∧ q.lines.find? (·.1 == 4032) = some (4032, 64) ∧ benchTier.met q.dep = true :=
  ⟨⟨5, 0xFFFFFFFF, 1, 0xFFFFF, [(4032, 64)], ⟨0xFFFFFFFF, 0, all32, 5⟩⟩, by decide +kernel⟩
theorem witness_CribsAndCopies_extent : ∀ kind ∈ [ReqKind.clean, .discard], ∀ s,
    s = { benchReq (reqAt kind true 4032 64 [] []) with l3 := [homeLine, { homeLine with line := 4032 }] } →
    s.reqs.find? (·.id == 5) = some (reqAt kind true 4032 64 [] []) ∧ s.canRun (reqAt kind true 4032 64 [] []) = true ∧
    rngOf bench ∈ s.ranges ∧ (s.ranges.map (·.idx)).Nodup ∧ (rngOf bench).cls = .sh ∧ 4032 < toLines (rngOf bench).limit ∧ Memory.wf s.mem = true ∧
    (∀ l ∈ s.l3, l.bytes.length = 64 ∧ l.line % 64 = 0 ∧ l.dirty = true) ∧ s.keyLive (rngOf bench) = true := by
  rintro kind hk s rfl
  revert kind
  decide +kernel
theorem witness_CribsAndCopies_private : ∀ s, s = withRange (fun e => { e with cls := .ph }) bench →
    ∀ r, r = { reqAt .discard true 0 64 [] [] with place := .range (rngOf s) 0 } →
    ({ s with reqs := [r] } : State).reqs.find? (·.id == 5) = some r ∧ ({ s with reqs := [r] } : State).canRun r = true ∧
    rngOf s ∈ s.ranges ∧ (rngOf s).cls ≠ .sh := by
  rintro s rfl r rfl
  decide +kernel

/-- The bench with free slots and its threads at the start of the clause, lane 7 the oldest. -/
def benchFree (age : Nat) : State :=
  let s := withSheaf (fun h => { h with threads := h.threads.mapIdx fun l x =>
    { x with inBundle := false, age := if l = 7 then age else 3, pc := if l = 3 then 8 else 0 } }) bench
  s.setSlot 508 0 none
/-- Where a bundle may start with lane `l` of thread `x` in the lead. -/
def startOk (s : State) (l : Nat) (old : Bool) : Bool :=
  let ready := s.draw.readyLanes 0xFFFFFFFF 0
  decide (s.stook 0xFFFFFFFF = some (stkOf s) ∧ s.sheaf 0xFFFFFFFF 0 = some (shfOf s) ∧ (shfOf s).shaped = true ∧
    (shfOf s).core = 508 ∧ s.slot 508 1 = none ∧ s.slot 508 0 = none ∧ (stkOf s).pre = none ∧ (stkOf s).frozen = false ∧
    (shfOf s).failed = [] ∧ (s.core 508).mayPick 0 0xFFFFFFFF 0 (s.cycles 7) = true ∧ ∀ e ∈ s.ranges, e.peer = none) && ready.all (fun x => decide (x.2.pending = [])) &&
  (match ready.find? (·.1 == l) with
  | none => false
  | some lead =>
    (if old then decide (lead.2.age = 63) && ready.all fun x => decide (x.2.age = 63 → lead.1 ≤ x.1)
     else ready.all fun x => decide (x.2.age ≠ 63 ∧ (lead.2.pc < x.2.pc ∨ lead.2.pc = x.2.pc ∧ lead.1 ≤ x.1))) &&
    decide (lead.2.pc = lead.2.clause ∨ (lead.2.pc - lead.2.clause).toNat / 8 ≤ Header.count ⟨0x2000000000000000⟩) &&
    isOk (s.draw.codeWord 508 0xFFFF lead.2.clause) 0x2000000000000000 &&
    !s.draw.badHeader 508 0xFFFF lead.2.clause ⟨0x2000000000000000⟩)
theorem witness_BundlesAndStooks : startOk (benchFree 63) 7 true = true ∧ startOk (benchFree 62) 0 false = true := by
  decide +kernel

/-- A kernel placed at some cores satisfies what all its places satisfy. -/
theorem placed_of {s : State} {die bay : Nat} {kh : KHdr} {vregs : List Nat} {l : List (List Nat × List Nat)}
    {p : List Nat × List Nat → Prop} [DecidablePred p] (hd : die < 8 ∧ bay < 16)
    (h : ((List.range 4).map fun i => (coreSets die bay (i + 1)).filterMap fun cs => s.fitsOn cs kh vregs).find?
      (!·.isEmpty) = some l) (hp : l.all (fun v => decide (p v)) = true) :
    ∃ v, s.placeOn die bay kh vregs = some v ∧ p v := by
  have hl : l ≠ [] := by
    have := List.find?_some h
    intro he; subst he; simp at this
  have hlt : Config.planTime s.free % l.length < l.length := Nat.mod_lt _ (List.length_pos_iff.mpr hl)
  refine ⟨l[Config.planTime s.free % l.length], ?_, of_decide_eq_true (List.all_eq_true.mp hp _ (List.getElem_mem _))⟩
  rw [State.placeOn, if_neg (by omega)]
  simp only [h]
  exact List.getElem?_eq_getElem hlt
/-- The places a kernel could take. -/
def placesOf (s : State) (die bay : Nat) (kh : KHdr) (vregs : List Nat) : List (List Nat × List Nat) :=
  (((List.range 4).map fun i => (coreSets die bay (i + 1)).filterMap fun cs => s.fitsOn cs kh vregs).find?
    (!·.isEmpty)).getD []
theorem placed {s : State} {die bay : Nat} {kh : KHdr} {vregs : List Nat} (n : Nat) (hd : die < 8 ∧ bay < 16)
    (h : (placesOf s die bay kh vregs).all (fun v => decide (v.2.length = n)) = true) (hn : placesOf s die bay kh vregs ≠ []) :
    ∃ cores homes, s.placeOn die bay kh vregs = some (cores, homes) ∧ homes.length = n := by
  unfold placesOf at h hn
  generalize hx : List.find? _ _ = x at h hn
  match x, hx with
  | none, _ => exact absurd rfl hn
  | some l, hx =>
    obtain ⟨v, h1, h2⟩ := placed_of (p := fun v => v.2.length = n) hd hx h
    exact ⟨v.1, v.2, h1, h2⟩

/-- A launch of two stooks of the bench's job. -/
def launch1 : Launch := ⟨1, 0, 1, placedHeader, 2, 2, 0, 0, 0, List.replicate 8 0, [], [], [], 0, [], [], false, 0, false, false, false⟩
def benchLaunch : State := withJob (fun j => { j with launches := [launch1], graphs := [⟨1, false, false, false, 1⟩] }) bench
theorem witness_BundlesAndStooks_launch : ∃ j, benchLaunch.job 0xFFFF = some j ∧ j.launches.find? (·.no == 1) = some launch1 ∧
    j.mayStart launch1 = true ∧ benchLaunch.firstReady launch1 = true ∧ benchLaunch.tagFree 1 = true ∧ (∀ x ∈ benchLaunch.sheaves, x.tag ≠ 1) ∧
    launch1.removedAll = false ∧ launch1.removed.contains 1 = false ∧ launch1.started.contains 1 = false ∧ 1 < launch1.nstook ∧
    ∃ cores homes, benchLaunch.placeOn 0 0 launch1.kh (List.replicate launch1.nsheaf launch1.kh.vregs) = some (cores, homes) ∧
      homes.length = 2 :=
  ⟨_, rfl, by decide +kernel, by decide +kernel, by decide +kernel, by decide +kernel, by decide +kernel, rfl, rfl, rfl, by decide +kernel,
    placed 2 (by decide) (by decide +kernel) (by decide +kernel)⟩

/-- The bench's job. -/
def jobOf (s : State) : Job := (s.job 0xFFFF).getD (Job.fresh 0 0)
/-- That launch with four stooks, the first of them running, its job's counters at 0x400; the unit that the bench's sheaf
names. -/
def launch4 : Launch := { launch1 with nstook := 4, scnt := 0xFF8, started := [0] }
def benchCancel (lo hi : Word) : State := withUniform 0 lo (withUniform 1 hi
  (withJob (fun j => { j with block := 0x400, launches := [launch4], graphs := [⟨1, false, false, false, 1⟩] }) bench))
theorem witness_CancelPosts_counts : ∀ level ≤ 4, ∀ v, v = (if level = 0 then (3, 1) else (1, 0)) → ∀ s, s = benchCancel v.1 v.2 →
    Issues (.cancel c7 ⟨.z, .s 0, .z, BitVec.ofNat 15 level⟩) s (bunOf s) prt (stkOf s) (shfOf s) all32 ∧
    (s.job 0xFFFF = some (jobOf s) ∧ (jobOf s).launches = [launch4] ∧ (shfOf s).uval all32 (.s 0) 2 = v.1.toNat + v.2.toNat * 2 ^ 32 ∧
    (jobOf s).graphs.any (fun g => g.no == launch4.graph && g.phase == 1) = true ∧
    (jobOf s).graphs.map (·.closed) = [false] ∧ s.l3 = [] ∧ (s.ranges.map (·.idx)).Nodup ∧ s.saved = [] ∧ s.versions = [] ∧ s.holds = [] ∧
    ∀ va ∈ [0x420, launch4.scnt], isOk (s.translate 0xFFFF va 8 1 0) (rngOf s, va) = true ∧
      s.lineChecks (rngOf s) true va 8 va = none ∧ (rngOf s).peer = none ∧ va % 8 = 0) := by
  rintro level hl v rfl s rfl
  refine ⟨issues_ok ?_, ?_⟩ <;> (revert level; decide +kernel)

/-- A message of the bench's job. -/
def msgOf (kind : MsgKind) (ep : Nat) : Msg := ⟨5, 0xFFFF, none, 0, none, 0, 0, 7, ep, 4, 0, 0, false, kind⟩
/-- A destination word of offset 0 of the bench's range. -/
def dest0 : DestWord := DestWord.ofNat (0xFFFFF * 2 ^ 92)
/-- The bench with its range as its job's handler table: entry 255 names the header at 128. -/
def benchMsg (kind : MsgKind) (ep : Nat) : State :=
  { withJob (fun j => { j with handlers := some 0xFFFFF }) bench with
    nextId := 9, msgs := [msgOf kind ep],
    l3 := [{ homeLine with line := 4032, bytes := leBytes 48 0 ++ leBytes 16 128 }, { homeLine with line := 128, bytes := leBytes 64 (2 ^ 200 * 2 ^ 187) }] }
theorem witness_BundlesAndStooks_handler : ∀ s, s = { benchMsg (.active dest0 255 (List.replicate 62 1)) 0 with
      msgs := [{ msgOf (.active dest0 255 (List.replicate 62 1)) 0 with accepted := true }] } →
    s.msgAt 5 = some { msgOf (.active dest0 255 (List.replicate 62 1)) 0 with accepted := true } ∧
    (∀ x ∈ s.stooks, x.kind ≠ .handler 5) ∧ s.saved = [] ∧ (∀ e ∈ s.ranges, e.peer = none) ∧ s.tagFree 1 = true ∧ (∀ x ∈ s.sheaves, x.tag ≠ 1) ∧
    isOk (s.handlerHeader 0xFFFF 255) placedHeader = true ∧
    ∃ cores homes, s.placeOn dest0.die 3 placedHeader [placedHeader.vregs] = some (cores, homes) ∧ homes.length = 1 := by
  rintro s rfl
  and_intros <;> first | decide +kernel | exact placed 1 (by decide +kernel) (by decide +kernel) (by decide +kernel)
theorem witness_BundlesAndStooks_complete : ∀ s, s = withThreads (fun x => { x with exited := true }) (benchFree 0) →
    s.stook 0xFFFFFFFF = some (stkOf s) ∧ (∀ h ∈ s.sheaves, ∀ x ∈ h.threads, x.exited = true) ∧
    s.stookBusy (stkOf s) = false ∧ (stkOf s).pre = none := by
  rintro s rfl
  decide +kernel
/-- The bench with an `LDBLK` whose block of E4M3 elements has been read. -/
def ldblkOf : Deferred :=
  ⟨508, 0, 0xFFFFFFFF, 0, all32, 8, 0, .ldblk c0 ⟨.v 0, .s 0, 0x40, 0⟩, 5, 4, [(0, 0x20 :: List.replicate 15 0x38383838)], [], []⟩
def benchBlk : State := { benchTwo with nextId := 9, deferred := [ldblkOf], ops := [⟨4, 0xFFFFFFFF, 0, 0, 1, all32, [], []⟩] }
theorem witness_BundlesAndStooks_ldblk : benchBlk.deferred.filter (fun x => x.core == 508 && x.slot == 0) = [ldblkOf] ∧
    benchBlk.deferReady ldblkOf = true ∧ benchBlk.slot 508 0 = some (bunOf benchBlk) ∧ (bunOf benchBlk).hold = false ∧
    (bunOf benchBlk).pos + 1 < (bunOf benchBlk).count ∧ (∃ x ∈ (bunOf benchBlk).parts, x.lanes ≠ 0) ∧
    benchBlk.blockFmt (keepPlanes 0 (leBytes 64 (leNat (wordBytes (0x20 :: List.replicate 15 0x38383838))))) = some (some bE4m3) := by
  decide +kernel

/-! ## Witnesses: the matrix engine, memory ports, the arbor, messages -/

/-- An entry of the bench's bay. -/
def mxEnt (w : MxWork) (next : Nat) : MxEntry :=
  ⟨7, 15, 0, 5, 0xFFFFFFFF, 0xFFFF, 0, 4, 0, w, next, false, 0, ⟨0xFFFFFFFF, 0, all32, 4⟩, 0⟩
/-- A `LOAD` to tile 1 and a multiplication into it, of zeroes at 0. -/
def mxLoad : MxCmd := MxCmd.ofNat (2 ^ 220 * 2 ^ 100 + 2 ^ 200 * 2 ^ 75)
def mxMul : MxCmd := MxCmd.ofNat (2 ^ 220 * 2 ^ 100 + 2 ^ 200 * 2 ^ 88)
def benchWork (e : MxEntry) : State := { benchMx with nextId := 9, mxTable := [e], ops := [⟨4, 0xFFFFFFFF, 0, 0, 1, all32, [], []⟩] }
theorem witness_MatrixWorks : ∀ e ∈ [mxEnt (.command mxLoad) 112, mxEnt (.command mxMul) 0],
    (benchWork e).stook e.tag = some (stkOf (benchWork e)) ∧ (benchWork e).mxTable = [e] ∧ e.left = true ∧
    (benchWork e).eligible e = true ∧ ((benchWork e).bayCtr 7 15).busyTo ≤ (benchWork e).cycles 7 ∧
    ∀ r ∈ (benchWork e).ranges, r.peer = none := by decide +kernel
/-- Reads that all give 512 bytes. -/
def okLen (x : Except Trap (List Byte)) : Bool := match x with | .ok b => decide (b.length = 512) | .error _ => false
theorem okLen_row {x : Except Trap (List Byte)} (h : okLen x = true) : x = .ok (x.toOption.getD []) ∧ (x.toOption.getD []).length = 512 := by
  cases x with
  | error _ => cases h
  | ok b => exact ⟨rfl, of_decide_eq_true h⟩
theorem rows_of {f : Nat → Except Trap (List Byte)} (h : ∀ i, i < 16 → okLen (f i) = true) :
    ∃ rows : Nat → List Byte, ∀ i, i < 16 → f i = .ok (rows i) ∧ (rows i).length = 512 :=
  ⟨fun i => (f i).toOption.getD [], fun i hi => okLen_row (h i hi)⟩
theorem witness_MatrixWorks_rows : ∃ rows : Nat → List Byte, ∀ i, i < 16 →
    (benchWork (mxEnt (.command mxLoad) 112)).mxBytes (stkOf benchMx) mxLoad.sideA (mxLoad.sideA.at (112 + i)) 512 =
      .ok (rows i) ∧ (rows i).length = 512 := rows_of (by decide +kernel)
/-- A multiplication of one block of 30 BF16 ones a line, and one of one block of 60 INT8 ones a line into INT32, all lines at
0; each takes one segment. -/
def mxOnes : List (MxCmd × List Byte) :=
  [(mxMul, 0x40 :: 127 :: (List.replicate 30 [0x80, 0x3F]).flatten ++ [30, 0]),
   ({ mxMul with iacc := true, ea := 1, eb := 1 }, 0x10 :: 127 :: List.replicate 60 1 ++ [60, 0])]
/-- The bench with that command posted. -/
def benchOnes (c : MxCmd × List Byte) : State :=
  { benchWork (mxEnt (.command c.1) 0) with l3 := [{ homeLine with bytes := c.2 }] }
/-- A read block with an element at its end. -/
def okBlock (x : Except Trap MxBlock) (f : BFmt) : Bool :=
  match x with | .ok b => decide (b.1 = some f ∧ byteAt b.2 61 ≠ 0) | .error _ => false
theorem ok_block {x : Except Trap MxBlock} {f : BFmt} (h : okBlock x f = true) : ∃ b, x = .ok b ∧ b.1 = some f := by
  cases x with
  | error _ => cases h
  | ok b => exact ⟨b, rfl, (of_decide_eq_true h).1⟩
theorem witness_MatrixWorks_blocks : ∀ p ∈ mxOnes, ∀ f, f = (if p.1.iacc then bInt8 else bBf16) →
    min (0 + 16) p.1.segments - 0 = 1 ∧ (benchOnes p).eligible (mxEnt (.command p.1) 0) = true ∧
    ∀ m, m < 128 → (∃ b, (benchOnes p).mxBlock (stkOf benchMx) p.1 p.1.sideA (mxCount p.1.ea) (p.1.sideA.at m) false =
        .ok b ∧ b.1 = some f) ∧
      ∃ b, (benchOnes p).mxBlock (stkOf benchMx) p.1 p.1.sideB (mxCount p.1.eb) (p.1.sideB.at m) false = .ok b ∧ b.1 = some f := by
  rintro p hp f rfl
  refine ⟨by revert p; decide +kernel, by revert p; decide +kernel, fun m hm => ⟨ok_block ?_, ok_block ?_⟩⟩ <;>
    (revert m; revert p; decide +kernel)
theorem witness_MatrixWorks_kinds : mxLoad.load = true ∧ mxMul.load = false := by decide +kernel
theorem witness_MatrixWorks_busy : ∀ s, s = { benchWork (mxEnt (.command mxMul) 0) with bayCtrs := [⟨7, 15, 0, 0, 0, 0, 5⟩] } →
    s.cycles 7 < (s.bayCtr 7 15).busyTo := by
  rintro s rfl
  decide +kernel
theorem witness_MatrixWorks_early : ∀ e, e = { mxEnt (.command mxMul) 16 with endsAt := 1 } → (benchWork e).mxTable = [e] ∧
    e.left = false ∧ mxMul.load = false ∧ (benchWork e).cycles e.die < e.endsAt + 16 := by
  rintro e rfl
  decide +kernel
/-- What a finished entry of the bay is found by. -/
def finished (s : State) (drain : Bool) : Option MxEntry :=
  s.mxFirst 7 15 fun x => if drain then !x.left && !(s.fabReqs.any (·.kind == .drain x.seq)) && (match x.work with | .command _ => false | _ => true)
    else !x.left && match x.work with | .command c => c.load || decide (x.endsAt + 16 ≤ s.cycles x.die) | _ => false
theorem witness_MatrixWorks_ends : finished (benchWork (mxEnt (.command mxLoad) 128)) false = some (mxEnt (.command mxLoad) 128) ∧
    mxLoad.cntr = 0 ∧ ∀ d ∈ [MxDesc.ofNat 0, MxDesc.ofNat (2 ^ 103)], ∀ dest ∈ [639, 1023],
    finished (benchWork (mxEnt (.drain d dest 508) 128)) true = some (mxEnt (.drain d dest 508) 128) := by decide +kernel

/-- The bench's range changed, at a time. -/
def benchPort (now : Nat) (f : RangeEnt → RangeEnt) : State := { withRange f bench with now := now, nextId := 9 }
theorem witness_MemoryPorts_copies : ∀ s, s = { bench with l2 := [{ copyLine with unit := 7, line := 4032, dirty := 1 }] } →
    s.l2.filter (fun x => x.unit == 7 && x.rng == 0xFFFFF && x.line == 4032) = s.l2 ∧ s.entAt 0xFFFFF 4032 = some (rngOf s) ∧
    s.versions = [] ∧ (rngOf s).peer = none ∧ (rngOf s).key = copyLine.key ∧ copyLine.bytes.length = 64 ∧ s.l3 = [] := by
  rintro s rfl
  decide +kernel
theorem witness_MemoryPorts_l1 : ∀ s, s = { bench with l1 := [{ copyLine with dirty := 1 }] } →
    s.l1.filter (fun x => x.unit == 508 && x.rng == 0xFFFFF && x.line == 0) = [{ copyLine with dirty := 1 }] ∧
    s.entAt 0xFFFFF 0 = some (rngOf s) ∧ s.l2Off copyLine.fn = false := by
  rintro s rfl
  decide +kernel
theorem witness_MemoryPorts_slide : ∀ s, s = benchPort 30 (fun e => { e with
      move := .slide, place := { e.place with shares := [⟨255, 0x7FFFF000, true, 0x1000, 0⟩] } }) →
    s.range 0xFFFFF = some (rngOf s) ∧ (rngOf s).place.shares[0]? = some ⟨255, 0x7FFFF000, true, 0x1000, 0⟩ ∧
    s.inPortSlot (portOf (rngOf s).place.tier 255) 0 16 = true ∧ Memory.wf s.mem = true ∧
    0 + 64 < (rngOf s).place.shareSize 0 (toLines 4096) := by
  rintro s rfl
  decide +kernel
theorem witness_MemoryPorts_slideEnd : ∀ s, s = benchPort 30 (fun e => { e with
      move := .slide, place := { e.place with shares := [⟨255, 0x7FFFF000, true, 0x1000, 4032⟩] } }) →
    (rngOf s).place.shares[0]? = some ⟨255, 0x7FFFF000, true, 0x1000, 4032⟩ ∧
    (rngOf s).place.shareSize 0 (toLines 4096) ≤ 4032 + 64 := by
  rintro s rfl
  decide +kernel
/-- A place on channel 254. -/
def place2 : Placement := { tier := 0, gcode := 0, table := 0, shares := [⟨254, 0x7FFFF000, false, 0, 0⟩] }
/-- A place on channel 0, of another base die. -/
def placeFar : Placement := { tier := 0, gcode := 0, table := 0, shares := [⟨0, 0x7FFFF000, false, 0, 0⟩] }
/-- The bench's range on its way to a place, its line at the frontier at a stage of its move. -/
def benchMoving (p : Placement) (now transit front : Nat) : State :=
  benchPort now fun e => { e with move := .replace p, front := front, transit := transit }
/-- What every stage asks. -/
def moves (s : State) (p : Placement) : Bool :=
  decide (s.range 0xFFFFF = some (rngOf s) ∧ (rngOf s).move.target = some p ∧ (rngOf s).front < toLines (rngOf s).limit ∧
    (rngOf s).lost (rngOf s).front = false)
/-- What a line that arrives asks. -/
def arrives (s : State) (p : Placement) : Bool :=
  let e := rngOf s
  moves s p && s.inPortSlot (portOf p.tier (p.channel e.front)) 0 16 && Memory.wf s.mem &&
    s.slicesAgree e (e.place.home e.front) (p.home e.front) && s.roomIn e p e.front && !({ e with front := e.front + 64 } : RangeEnt).deadAt e.front
theorem witness_MemoryPorts_replace : ∀ front ∈ [0, 4032], ∀ s, s = benchMoving place2 0 0 front → arrives s place2 = true ∧
    ((rngOf s).sourcePorts front).all (fun x => (if 256 ≤ x then x - 256 else x / 64) == place2.baseDie front) = true ∧ ((rngOf s).sourcePorts front).all (s.inPortSlot · 0 16) = true := by
  rintro front hf s rfl
  revert front
  decide +kernel
theorem witness_MemoryPorts_far : ∀ front ∈ [0, 4032],
    (∀ s, s = benchMoving placeFar 0 0 front → moves s placeFar = true ∧
      (∃ x ∈ (rngOf s).sourcePorts front, (if 256 ≤ x then x - 256 else x / 64) ≠ placeFar.baseDie front) ∧
      s.roomIn (rngOf s) placeFar front = true ∧
      ((rngOf s).sourcePorts front).all (s.inPortSlot · 0 16) = true) ∧
    moves (benchMoving placeFar 50 1 front) placeFar = true ∧ inGleanerSlot (benchMoving placeFar 50 1 front).now = true ∧
    arrives (benchMoving placeFar 1024 2 front) placeFar = true := by
  rintro front hf
  refine ⟨?_, by revert front; decide +kernel⟩
  rintro s rfl
  revert front
  decide +kernel
theorem witness_MemoryPorts_waits : ∀ front ∈ [0, 4032], ∀ s, s = benchMoving placeFar 50 1 front → ∀ d ∈ [0, 60], ∀ o, o = front + d →
    ∀ r, r = { reqAt (.load false) true 0 4 [] [] with place := .range (rngOf s) o } →
    moves s placeFar = true ∧ (rngOf s).transit ≠ 0 ∧ r.place = .range (rngOf s) o ∧ r.home = true ∧
      o < (rngOf s).front + 64 ∧ (rngOf s).front < o + r.width ∧ s.canRun r = false := by
  rintro front hf s rfl d hd o rfl r rfl
  revert front d
  decide +kernel
theorem witness_MemoryPorts_end : ∀ s, s = benchPort 0 (fun e => { e with move := .replace place2, front := 4096 }) →
    s.range 0xFFFFF = some (rngOf s) ∧ (rngOf s).move.target = some place2 ∧ toLines (rngOf s).limit ≤ (rngOf s).front ∧
    (rngOf s).lostCh = [] ∧ s.inFlight (fun x => x.idx == 0xFFFFF && x.place != place2) s.nextId = false := by
  rintro s rfl
  decide +kernel
theorem witness_MemoryPorts_scrub : ∀ line ∈ [0, 4032], ∀ s, s = benchPort 55 id →
    s.range 0xFFFFF = some (rngOf s) ∧ s.inPortSlot (portOf ((rngOf s).tierOf line) (((rngOf s).placeOf line).channel line)) 24 28 = true ∧
    line % 64 = 0 ∧ line < toLines (rngOf s).limit ∧ (rngOf s).peer = none ∧ (rngOf s).losses = [] := by
  rintro line hl s rfl
  revert line
  decide +kernel
theorem witness_MemoryPorts_slots : ∀ s, s = benchPort (8192 * 31 + 6912) id →
    (3456 ≤ s.now / 2 % 4096 ∧ s.retrains 255 = true) ∧
    (benchPort 32 id).inPortSlot 0 16 24 = true := by
  rintro s rfl
  decide +kernel

/-- A request of the bench at its arbor. -/
def askOf (kind : AskKind) : Ask := ⟨4, 0xFFFFFFFF, 0, all32, 508, 0, none, ⟨0xFFFFFFFF, 0, all32, 4⟩, kind⟩
/-- The bench with an arbor of one open node, at a time. -/
def benchArb (now : Nat) (f : Arbor → Arbor) : State :=
  { benchHyp with now := now, nextId := 9, arbors := benchHyp.arbors.map f, ops := [⟨4, 0xFFFFFFFF, 0, 0, 1, all32, [], []⟩] }
/-- Its arbor. -/
def arbOf (s : State) : Arbor := s.arbors.headD ⟨0, 0, [], 0, 0, [], [], false, false, none⟩
/-- An open node at depth 7, the deepest. -/
def deep : Word := 0x71111111
/-- A `HYPOPEN` of child 15 of a node waits at the arbor. -/
def benchOpen (parent : Word) : State := benchArb 0 fun a => { a with
  nodes := [⟨0x10000000, .isOpen⟩, ⟨deep, .isOpen⟩], queue := [.ask (askOf (.hypOpen 300 640 parent 15))] }
/-- The hypotheses of its service. -/
def openOk (parent : Word) : Bool :=
  let s := benchOpen parent
  decide (s.arborAt 3 = some (arbOf s) ∧ (arbOf s).queue = [.ask (askOf (.hypOpen 300 640 parent 15))] ∧
    (arbOf s).flatten = false ∧ (arbOf s).freeing = false ∧ s.ops.find? (·.id == 4) = some ⟨4, 0xFFFFFFFF, 0, 0, 1, all32, [], []⟩)
theorem witness_ArborServes : openOk 0x10000000 = true ∧ openOk 0 = true ∧ openOk deep = true := by decide +kernel
theorem witness_ArborServes_resolve : ∀ confirm : Bool, ∀ s,
    s = benchArb 0 (fun a => { a with queue := [.ask (askOf (.resolve confirm 300 0x10000000))] }) →
    s.arborAt 3 = some (arbOf s) ∧ (arbOf s).queue = [.ask (askOf (.resolve confirm 300 0x10000000))] ∧
    s.sheaf 0xFFFFFFFF 0 = some (shfOf s) ∧ (arbOf s).state 0x10000000 = .isOpen ∧
    s.met ⟨0xFFFFFFFF, 0, all32, 4⟩ = true ∧ s.undrained 508 0xFFFF 4 = false ∧ s.fabPending 0xFFFFFFFF 0 all32 4 = false ∧
    ((arbOf s).nodes.map (·.path)).Nodup := by
  rintro confirm s rfl
  revert confirm
  decide +kernel
/-- A resolve that these slices have applied. -/
def resolve1 (n : Nat) : Resolve := ⟨0, [0x10000000], [], List.range n, 4, 1, 300, false⟩
theorem witness_ArborServes_apply : ∀ s, s = benchArb 32 (fun a => { a with inflight := [resolve1 255], nextSeq := 1 }) →
    s.arborAt 3 = some (arbOf s) ∧ inResolveSlot s.now = true ∧ (arbOf s).inflight = [resolve1 255] ∧
    (resolve1 255).applied.contains 255 = false := by
  rintro s rfl
  decide +kernel
theorem witness_ArborServes_complete : ∀ s, s = benchArb 32 (fun a => { a with
      nodes := [⟨0x10000000, .committed⟩], inflight := [resolve1 256], nextSeq := 1 }) →
    s.arborAt 3 = some (arbOf s) ∧ (arbOf s).inflight = [resolve1 256] ∧
    (∀ i, i < 256 → (resolve1 256).applied.contains i = true) ∧ (resolve1 256).refutes = [] ∧
    s.ops.find? (·.id == (resolve1 256).op) = some ⟨4, 0xFFFFFFFF, 0, 0, 1, all32, [], []⟩ ∧ (arbOf s).queue = [] := by
  rintro s rfl
  decide +kernel
/-- The bench with a committed version of the last line. -/
def benchFlat (vs : List Version) : State :=
  { benchArb 32 (fun a => { a with nodes := [⟨0x10000000, .committed⟩], flatten := true }) with versions := vs, l3 := [{ homeLine with line := 4032 }] }
theorem witness_ArborServes_fold : ∀ s, s = benchFlat [⟨3, 0xFFFFF, 4032, 0, 0x10000000, 3, List.replicate 64 5⟩] →
    s.arborAt 3 = some (arbOf s) ∧ s.entAt 0xFFFFF 4032 = some (rngOf s) ∧ (arbOf s).flatten = true ∧ (arbOf s).inflight = [] ∧
    s.arbor (rngOf s).owner = some (arbOf s) ∧ s.inPortSlot ((rngOf s).home 4032 % 256) 16 24 = true ∧
    (∀ v ∈ s.versions, v.key = (rngOf s).key ∧ pathDepth v.path ≠ 0) ∧ ∀ l ∈ s.l3, l.bytes.length = 64 := by
  rintro s rfl
  decide +kernel
theorem witness_ArborServes_flattenEnd : (benchFlat []).arborAt 3 = some (arbOf (benchFlat [])) ∧
    (arbOf (benchFlat [])).flatten = true ∧ (arbOf (benchFlat [])).inflight = [] ∧ (benchFlat []).versions = [] ∧
    ∃ h ∈ (benchFlat []).sheaves, (benchFlat []).stook h.tag = some (stkOf (benchFlat [])) ∧
      (stkOf (benchFlat [])).job = (arbOf (benchFlat [])).job ∧
      ∃ x ∈ h.threads, x.orphan = false ∧ x.hyp ≠ 0 ∧ (arbOf (benchFlat [])).state x.hyp = .committed := by
  refine ⟨by decide +kernel, by decide +kernel, by decide +kernel, by decide +kernel, shfOf (benchFlat []), by decide +kernel, by decide +kernel,
    by decide +kernel, (shfOf (benchFlat [])).threads.headD (Thread.fresh 0 0), by decide +kernel⟩
/-- A load under a path of depth 1, and the bench with it outstanding during a flatten. -/
def reqUnder (n : Nat) : Req := { reqAt (.load false) true 0 4 [] [] with who := .tagged (BitVec.ofNat 32 (n * 2 ^ 28)) }
def benchUnder (n : Nat) : State := { benchFlat [] with reqs := [reqUnder n] }
theorem witness_ArborServes_requests : ∀ n ∈ [1, 2], (benchUnder n).arborAt 3 = some (arbOf (benchUnder n)) ∧
    (arbOf (benchUnder n)).flatten = true ∧ (arbOf (benchUnder n)).inflight = [] ∧ (benchUnder n).versions = [] ∧ (benchUnder n).reqs = [reqUnder n] ∧
    (reqUnder n).job = (arbOf (benchUnder n)).job := by decide +kernel
theorem witness_ArborServes_freed : ∀ s, s = benchArb 0 (fun a => { a with freeing := true, freeFn := some 64 }) →
    ∀ t, t = s.modFunc 64 (fun f => { f with busy := .freeing 0xFFFF, status := 1 }) →
    t.arborAt 3 = some (arbOf t) ∧ (arbOf t).freeing = true ∧ (arbOf t).flatten = false ∧ (arbOf t).inflight = [] ∧
    (arbOf t).queue = [] ∧ (arbOf t).freeFn = some 64 ∧ (t.func 64).busy = .freeing (arbOf t).job := by
  rintro s rfl t rfl
  decide +kernel

/-- A fabric request of the bench with these packets outstanding. -/
def fabOf (kind : FabKind) (left : List Nat) : FabReq :=
  ⟨4, 3, 0xFFFFFFFF, 0xFFFF, 0, 1, 508, kind, left, [], ⟨0xFFFFFFFF, 0, all32, 3⟩, none⟩
/-- The bench with a message to an endpoint and the request it belongs to, under slot 5. -/
def benchNet (kind : MsgKind) (ep : Nat) (fk : FabKind) : State :=
  { benchMsg kind ep with fabReqs := [fabOf fk [0]], ops := [⟨3, 0xFFFFFFFF, 0, 5, 1, all32, [384], []⟩] }
/-- The hypotheses of `MessagesAct` that its clauses share. -/
def msgOk (s : State) (m : Msg) : Bool :=
  decide (s.msgAt m.id = some m ∧ m.srcPkg = s.pkg ∧ m.dstPkg = s.pkg ∧ s.firstOf m = true ∧ (s.ranges.map (·.idx)).Nodup ∧
    (∀ l ∈ s.l3, l.bytes.length = 64) ∧ (∀ o ∈ s.ops, o.id < s.nextId) ∧ (∀ f ∈ s.fabReqs, f.id < s.nextId) ∧
    (∀ x ∈ s.msgs, x.id < s.nextId) ∧ s.reqs.length + s.results.length + s.holds.length = 0 ∧
    s.copies.length + s.mxTable.length = 0)
theorem witness_MessagesAct_numbered {s : State} {m : Msg} (h : msgOk s m = true) : Numbered s := by
  have ⟨_, _, _, _, _, _, ops, fabs, msgs, none1, none2⟩ := of_decide_eq_true h
  exact { ops := ops, fabReqs := fabs, msgs := msgs, copies := no_members (by omega), entries := no_members (by omega),
          reqs := no_members (by omega), results := no_members (by omega), holds := no_members (by omega) }
/-- The last four bytes of the range. -/
def destEnd : DestWord := { dest0 with toff := 4092 }
theorem witness_MessagesAct : ∀ p ∈ [(MsgKind.write destEnd [1, 2, 3, 4], 8, FabKind.put), (.readReq destEnd 4, 8, .get destEnd dest0 4),
      (.atomicReq destEnd .add 4 1 0, 8, .ratom 300 4 false 2 destEnd), (.readResp [1, 2, 3, 4], 7, .get dest0 destEnd 4),
      (.atomicResp 7, 7, .ratom 639 1 false 2 destEnd), (.ack, 7, .put), (.ack, 7, .amsg), (.ack, 7, .coll),
      (.error 0x11 0x11 3, 7, .get destEnd dest0 4), (.active dest0 255 [1], 0, .amsg)],
    msgOk (benchNet p.1 p.2.1 p.2.2) (msgOf p.1 p.2.1) = true := by decide +kernel
theorem witness_MessagesAct_targets : ∀ s, s = benchNet (.readResp [1, 2, 3, 4]) 7 (.get dest0 destEnd 4) →
    destEnd.reserved = false ∧ destEnd.kind = 0 ∧ s.accepts 5 = true ∧ s.versions = [] ∧
    (∀ rights ∈ [rightR, rightW, rightR ||| rightW ||| rightA],
      isOk (s.targetCheck 0xFFFF s.pkg 0xFFFFF 4092 4 4 rights) (rngOf bench) = true) ∧
    s.fabReqs.find? (·.id == 4) = some (fabOf (.get dest0 destEnd 4) [0]) ∧
    s.stillReads (fabOf (.get dest0 destEnd 4) [0]) dest0 destEnd 4 = false ∧
    ((cut256 dest0.off 4)[0]?).map (·.1) = some 0 := by
  rintro s rfl
  decide +kernel
theorem witness_MessagesAct_atomic : ∀ s, s = withThreads (fun x => { x with pend := [⟨639, 0, .op 3⟩] })
      (benchNet (.atomicResp 7) 7 (.ratom 639 1 false 2 destEnd)) →
    msgOk s (msgOf (.atomicResp 7) 7) = true ∧ s.sheaf 0xFFFFFFFF 0 = some (shfOf s) ∧ (shfOf s).shaped = true ∧
    639 + 1 ≤ 640 ∧ (shfOf s).threads.all (fun x => decide ((x.pending? 639).map Pend.cover = some (.op 3))) = true := by
  rintro s rfl
  decide +kernel
theorem witness_MessagesAct_error : ∀ s, s = benchNet (.error 0x11 0x11 3) 7 (.get destEnd dest0 4) →
    s.ops.find? (·.id == 3) = some ⟨3, 0xFFFFFFFF, 0, 5, 1, all32, [384], []⟩ ∧
    s.sheaf 0xFFFFFFFF 0 = some (shfOf s) ∧ (shfOf s).failed = [] := by
  rintro s rfl
  decide +kernel
theorem witness_MessagesAct_active : ∀ s, s = benchNet (.active dest0 255 [1]) 0 .amsg →
    s.accepts 6 = true ∧ (∀ e ∈ s.ranges, e.peer = none) ∧ isOk (s.handlerHeader 0xFFFF 255) placedHeader = true := by
  rintro s rfl
  decide +kernel
/-- A collective's descriptor at 64: an operator 0, one chunk of one element, two participants, cores 60 and 61 of die 7, and
its root, core 60 of die 7. -/
def collBytes : List Byte :=
  let word (core : Nat) : List Byte := leBytes 16 ((2 ^ 60 + 7 * 2 ^ 25 + core * 2 ^ 19) * 2 ^ 64)
  leBytes 16 (2 ^ 32 + 2 ^ 17 + 1) ++ word 60 ++ leBytes 32 0 ++ word 60 ++ word 61
def coll1 : Coll := (Coll.ofBytes (collBytes.take 64)).1
/-- The bench with a contribution of participant 1. -/
def benchColl : State :=
  let s := benchNet (.contribution coll1 64 127 0 0 1 [7]) 11 .coll
  { s with l3 := [{ homeLine with line := 64, bytes := collBytes.take 64 }, { homeLine with line := 128, bytes := collBytes.drop 64 ++ leBytes 32 0 }] }
theorem witness_MessagesAct_contribution : msgOk benchColl (msgOf (.contribution coll1 64 127 0 0 1 [7]) 11) = true ∧
    benchColl.accepts 8 = true ∧ coll1.opr ≠ 3 ∧ coll1.root.pkg = benchColl.pkg ∧ 1 < coll1.npart ∧
    benchColl.leafOk 0xFFFF coll1 64 127 1 = true ∧ (∀ e ∈ benchColl.ranges, e.peer = none) ∧ ∀ x ∈ benchColl.msgs, x.accepted = false := by decide +kernel

/-! ## Witnesses: waves and links, the host, management -/

/-- The bench's job with a wave at a time. -/
def benchWave (now : Nat) (w : Option Wave) : State := { withJob (fun j => { j with wave := w }) bench with now := now, nextId := 9 }
def eight : List Counts := List.replicate 8 ⟨1, 1, 0⟩
/-- A job of one package. -/
def alone (s : State) (j : Job) : Prop := (∀ q ∈ j.pkgs, q = s.pkg) ∧ j.depth = 0 ∧ j.older = [] ∧ j.peerWaits = false
theorem witness_WavesAndLinks_slot : ∀ sf, 1 ≤ sf → sf ≤ 5 → ∀ s,
    s = benchWave (1024 * sf + 31) (some ⟨0, sf, eight, eight.take 4, [], ⟨0, 0, 0⟩, ⟨0, 0, 0⟩, false⟩) →
    s.job 0xFFFF = some (jobOf s) ∧ alone s (jobOf s) ∧ s.now / 2 % 512 < 16 ∧ s.now % 8192 / 1024 = sf ∧
    ∃ w, (jobOf s).wave = some w ∧ w.peers = [] ∧ w.start / 8192 = s.now / 8192 ∧ w.slot = sf ∧ w.die.length = 8 ∧ w.base.length = 4 := by
  rintro sf h1 h5 s rfl
  obtain rfl | rfl | rfl | rfl | rfl : sf = 1 ∨ sf = 2 ∨ sf = 3 ∨ sf = 4 ∨ sf = 5 := by omega
  all_goals exact ⟨by decide +kernel, by unfold alone; decide +kernel, by decide +kernel, by decide +kernel, _, rfl, by decide +kernel⟩
/-- A thread of the bench waits in `WAITQUIET`. -/
def benchQuiet (now : Nat) (w : Option Wave) : State :=
  let s := benchHold (.waitQuiet 639 0)
  { withJob (fun j => { j with wave := w }) s with now := now }
theorem witness_WavesAndLinks_start : ∀ o ∈ [none, some (Wave.mk 0 2 eight [] [] ⟨0, 0, 0⟩ ⟨0, 0, 0⟩ false)], ∀ s, s = benchQuiet 8192 o →
    s.job 0xFFFF = some (jobOf s) ∧ alone s (jobOf s) ∧ s.now / 2 % 512 < 16 ∧ s.now % 8192 / 1024 = 0 ∧ s.waitsQuiet 0xFFFF ≠ [] ∧
    (jobOf s).wave = o ∧ ∀ w ∈ o, w.start / 8192 ≠ s.now / 8192 ∧ w.slot < w.slotAt s.now := by
  rintro o ho s rfl
  unfold alone
  revert o
  decide +kernel
theorem witness_WavesAndLinks_verdict : ∀ second ∈ [Counts.mk 2 2 1, ⟨3, 3, 0⟩], ∀ s,
    s = benchQuiet (8192 + 6144) (some ⟨8192, 6, eight, eight.take 4, [], ⟨2, 2, 0⟩, second, false⟩) →
    s.job 0xFFFF = some (jobOf s) ∧ alone s (jobOf s) ∧ s.now / 2 % 512 < 16 ∧ s.now % 8192 / 1024 = 6 ∧ s.waitsQuiet 0xFFFF = [holdOf s] ∧
    (holdOf s).kind = .waitQuiet 639 0 ∧ 0 / 2 < 8192 / 8192 * 4096 ∧ (s.holds.map (·.id)).Nodup ∧
    s.acquired (holdOf s).tag (holdOf s).sheaf (holdOf s).active (holdOf s).id = true ∧ s.sheaf 0xFFFFFFFF 0 = some (shfOf s) ∧
    (shfOf s).shaped = true := by
  rintro second hs s rfl
  unfold alone
  revert second
  decide +kernel
theorem witness_WavesAndLinks_none : ∀ s, s = benchQuiet (8192 + 6144) (some ⟨8192, 6, eight, eight.take 4, [], ⟨2, 2, 0⟩, ⟨2, 2, 0⟩, false⟩) →
    ∀ t, t = { s with holds := s.holds.map fun h => { h with kind := .waitQuiet 639 8192 } } →
    t.job 0xFFFF = some (jobOf t) ∧ alone t (jobOf t) ∧ (t.waitsQuiet 0xFFFF).filter (fun h =>
      match h.kind with | .waitQuiet _ t0 => decide (t0 / 2 < 8192 / 8192 * 4096) | _ => false) = [] := by
  rintro s rfl t rfl
  unfold alone
  decide +kernel
theorem witness_WavesAndLinks_link : 15 < 16 ∧ 4095 < 4096 ∧ 4095 ≠ bench.pkg ∧ bench.ports = [] ∧
    bench.deadPlanes.contains 3 = false ∧ (jobOf bench).counts.length = 12 := by decide +kernel
theorem witness_WavesAndLinks_death : ∀ s, s = benchNet (.readReq destEnd 4) 8 (.get destEnd dest0 4) →
    s.msgs.filter (·.plane == 0) = [msgOf (.readReq destEnd 4) 8] ∧ s.outgoing = [] ∧ s.deadPlanes.contains 0 = false ∧
    (msgOf (.readReq destEnd 4) 8).srcPkg = s.pkg ∧ (msgOf (.readReq destEnd 4) 8).kind.asks = true ∧
    s.fabReqs.find? (·.id == 4) = some (fabOf (.get destEnd dest0 4) [0]) ∧
    s.ops.find? (·.id == 3) = some ⟨3, 0xFFFFFFFF, 0, 5, 1, all32, [384], []⟩ ∧ s.sheaf 0xFFFFFFFF 0 = some (shfOf s) ∧
    (shfOf s).failed = [] ∧ (jobOf s).counts.length = 12 := by
  rintro s rfl
  decide +kernel
theorem witness_WavesAndLinks_plane : ∀ s, s = benchMsg (.ack) 11 → (∀ m ∈ s.msgs ++ s.outgoing, m.plane = 0) ∧ s.fabReqs = [] ∧
    (jobOf s).counts.length = 12 := by
  rintro s rfl
  decide +kernel

/-- The bench with window 255 of function 0 on its range's first bytes. -/
def benchWindow (w0 : DWord) : State :=
  bench.modFunc 0 fun f => { f with windows := [⟨255, w0, 0x8000000FFFFFFFFF⟩] }
theorem witness_HostRegisters : ∀ s, s = benchWindow 0 → ∀ off, off = 255 * 2 ^ 20 + 4092 →
    off / 2 ^ (s.func 0).winsize = 255 ∧ off % 2 ^ (s.func 0).winsize = 4092 ∧ ((s.func 0).window 255).w1.getLsbD 63 = true ∧
    s.range (((s.func 0).window 255).w1.toNat % 2 ^ 20) = some (rngOf s) ∧
    s.job (((s.func 0).window 255).w1.toNat / 2 ^ 20 % 2 ^ 16) = some (jobOf s) ∧ (rngOf s).owner = (jobOf s).id ∧
    (jobOf s).fn = 0 ∧ (rngOf s).grants (rightH ||| rightR) = true ∧ (rngOf s).grants (rightH ||| rightW) = true ∧
    4092 + 4 ≤ (rngOf s).limit ∧ (rngOf s).peer = none ∧ s.versions = [] ∧
    s.lineChecks (rngOf s) false 4092 4 0 = none ∧ s.lineChecks (rngOf s) true 4092 4 0 = none := by
  rintro s rfl off rfl
  decide +kernel
theorem witness_HostRegisters_commands : bench.mayCommand 64 ∧ (64 : Nat) ≠ 0 ∧ (bench.func 64).margs.length = 8 ∧
    20 ≤ (0x1E : DWord).toNat % 32 ∧ (0x1E : DWord).toNat % 32 ≤ 30 ∧
    ((bench.modFunc 64 fun f => { f with busy := .freeing 1 }).func 64).busy ≠ .idle := by
  refine ⟨⟨by decide +kernel, by decide +kernel⟩, by decide +kernel⟩

/-- A state with these arguments in the `MARG` registers of a function. -/
def withArgs (fn : Nat) (l : List DWord) (s : State) : State :=
  s.modFunc fn fun f => { f with margs := (l ++ List.replicate 8 0).take 8 }
/-- What every command asks. -/
def commands (fn : Nat) (s : State) : Bool :=
  decide (fn ≤ 64 ∧ (s.func fn).busy = .idle ∧ (s.ranges.map (·.idx)).Nodup ∧ (∀ l ∈ s.l3, l.bytes.length = 64) ∧
    (∀ y ∈ s.peerBuf, y.who ≠ commandReader fn) ∧ s.featDev ≠ 0)
theorem commands_ok {fn : Nat} {s : State} (h : commands fn s = true) : s.mayCommand fn ∧ (s.ranges.map (·.idx)).Nodup ∧
    (∀ l ∈ s.l3, l.bytes.length = 64) ∧ (∀ y ∈ s.peerBuf, y.who ≠ commandReader fn) ∧ s.featDev ≠ 0 := by
  obtain ⟨a, b, c⟩ := of_decide_eq_true h
  exact ⟨⟨a, b⟩, c⟩
/-- No earlier command on its range, and no move of it, holds this one up. -/
def goes (op : Nat) (s : State) : Bool := !s.mustWait 0 op s.nextId (s.func 0).margs
/-- A device whose firmware failed its check. -/
theorem witness_ManagementCommands_failed : ∀ s, s = ({ bench with featDev := 0 } : State) → s.mayCommand 64 ∧ s.featDev = 0 := by
  rintro s rfl
  exact ⟨⟨by decide, by decide +kernel⟩, rfl⟩
theorem witness_ManagementCommands_job : ∀ s, s = withArgs 64 [5] bench → ∀ t, t = withArgs 64 [0xFFFF] bench →
    commands 64 s = true ∧ s.job 5 = none ∧ commands 64 t = true ∧ t.job 0xFFFF = some (jobOf t) ∧ ¬ (jobOf t).ownedBy 64 := by
  rintro s rfl t rfl
  refine ⟨by decide +kernel, by decide +kernel, by decide +kernel, by decide +kernel, ?_⟩
  rintro (h | h) <;> revert h <;> decide +kernel
theorem witness_ManagementCommands_create : ∀ s, s = withArgs 0 [64] bench → commands 0 s = true ∧ argOf (s.func 0).margs 0 = 64 ∧
    s.featDev ≠ 0 ∧ s.featAcc.getLsbD 0 = true ∧ s.nextJob ≤ 65535 := by
  rintro s rfl
  decide +kernel
/-- A machine with one job that has not started, and its range. -/
def benchIdle : State := withJob (fun j => { j with root := .absent }) { benchFree 0 with stooks := [], sheaves := [] }
theorem witness_ManagementCommands_destroy : ∀ s, s = withArgs 0 [0xFFFF] benchIdle → commands 0 s = true ∧
    s.job 0xFFFF = some (jobOf s) ∧ (jobOf s).ownedBy 0 ∧ (jobOf s).started = false ∧ (jobOf s).destroying = false ∧
    (jobOf s).launches = [] ∧ (jobOf s).graphs = [] ∧ s.arbor 0xFFFF = none ∧ (jobOf s).root = .absent ∧ s.fabReqs = [] ∧ s.stooks = [] ∧ s.saved = [] ∧
    s.copies = [] ∧ s.reqs = [] ∧ (rngOf s).move = .none ∧ s.rangeDrains (rngOf s).idx = false ∧ s.rangeAwaited 0 (rngOf s).idx s.nextId = false := by
  rintro s rfl
  refine ⟨by decide +kernel, by decide +kernel, Or.inl rfl, by decide +kernel⟩
/-- The start of that job, with its block at 64, its root header at 128 and its aperture at the top of the VA space. -/
def benchStart : State :=
  withArgs 0 [0xFFFF, 64, 128, 0x01FFFFFFFFFF8000]
    { benchIdle with l3 := [{ homeLine with line := 128, bytes := leBytes 64 (2 ^ 200 * 2 ^ 187) }] }
theorem witness_ManagementCommands_start : commands 0 benchStart = true ∧ benchStart.job 0xFFFF = some (jobOf benchStart) ∧
    (jobOf benchStart).started = false ∧ (jobOf benchStart).ended = false ∧
    isOk (benchStart.translate 0xFFFF 64 64 8 (rightW ||| rightA)) (rngOf bench, 64) = true ∧ (rngOf bench).cls = .sh ∧
    goes 0x03 benchStart = true ∧ benchStart.versions = [] ∧ (∀ x ∈ benchStart.ranges, x.peer = none) ∧ benchStart.lineChecks (rngOf bench) true 64 64 64 = none ∧
    (jobOf benchStart).destroying = false ∧ benchStart.readHeader 0xFFFF 128 = some placedHeader ∧ benchStart.headerRefused placedHeader = false ∧
    argOf (benchStart.func 0).margs 3 % 32768 = 0 ∧ argOf (benchStart.func 0).margs 3 + 32768 ≤ 2 ^ 57 ∧
    (∀ x ∈ benchStart.ranges, x.base + x.limit ≤ argOf (benchStart.func 0).margs 3) ∧ benchStart.tagFree 0xFFFFFFFF = true ∧
    ∃ cores homes, benchStart.placeOn 7 15 placedHeader [8] = some (cores, homes) ∧ homes.length = 1 := by
  and_intros <;> first | decide +kernel | exact placed 1 (by decide) (by decide +kernel) (by decide +kernel)
theorem witness_ManagementCommands_keys : ∀ s, s = withArgs 0 [4095, 0xFFFF, 4000] bench → commands 0 s = true ∧
    isOk (s.translate 0xFFFF 4000 96 1 rightR) (rngOf bench, 4000) = true ∧ (rngOf bench).peer = none ∧
    s.lineChecks (rngOf bench) false 4000 96 4000 = none ∧ argOf (s.func 0).margs 0 = 4095 ∧ s.erasedAt = none ∧ goes 0x20 s = true ∧
    s.reqs = [] ∧
    s.job 0xFFFF = some (jobOf s) := by
  rintro s rfl
  decide +kernel
/-- A store of the bench under key 0 that waits for a `RATOM`. -/
theorem witness_ManagementCommands_pending : ∀ s, s = withArgs 0 [0] { benchReq (reqAt .store false 60 4 [1, 2, 3, 4] []) with
      fabReqs := [fabOf (.ratom 300 4 true 2 destEnd) [0]] } → commands 0 s = true ∧ argOf (s.func 0).margs 0 = 0 ∧
    (∃ r ∈ s.reqs, r.stores 0 = true) ∧ ∀ r ∈ s.reqs, s.canRun r = false := by
  rintro s rfl
  decide +kernel
/-- What registering a table asks. -/
def tablesOk (kind : DWord) : Bool :=
  let s := withArgs 0 [0xFFFF, kind, 0xFFFFF] bench
  commands 0 s && decide (s.job 0xFFFF = some (jobOf s) ∧ s.range 0xFFFFF = some (rngOf s) ∧ (rngOf s).owner = 0xFFFF ∧
    (rngOf s).grants rightR = true ∧ (rngOf s).limit ≤ 4096 * 16 ∧ goes 0x30 s = true)
theorem witness_ManagementCommands_tables : tablesOk 0 = true ∧ tablesOk 1 = true ∧ tablesOk 2 = true := by decide +kernel
/-- Arbors 0 to 254 are taken. -/
def benchArbors : State := withArgs 0 [0xFFFF] { bench with
  arbors := (List.range 255).map fun n => ⟨n, n, [], 0, 0, [], [], false, false, none⟩ }
theorem witness_ManagementCommands_arbor : commands 0 benchArbors = true ∧ benchArbors.arbor 0xFFFF = none ∧
    (∀ x ∈ benchArbors.arbors, x.id ≠ 255) ∧ (∀ m, m < 255 → ∃ x ∈ benchArbors.arbors, x.id = m) := by
  refine ⟨by decide +kernel, by decide +kernel, by decide +kernel, ?_⟩
  have h : ∀ m, m < 255 → benchArbors.arbors.any (fun x => x.id == m) = true := by decide +kernel
  intro m hm
  obtain ⟨x, hx, hm⟩ := List.any_eq_true.mp (h m hm)
  exact ⟨x, hx, by simpa using hm⟩
theorem witness_ManagementCommands_freeArbor : ∀ s, s = withArgs 0 [0xFFFF, 1] benchHyp → commands 0 s = true ∧
    s.arbor 0xFFFF = some (arbOf s) ∧ s.arborAt (arbOf s).id = some (arbOf s) ∧ (arbOf s).freeing = false ∧
    (arbOf s).queue = [] := by
  rintro s rfl
  decide +kernel
/-- What a pre-emption request asks, with a deadline. -/
def preemptOk (us : DWord) : Bool :=
  let s := withArgs 0 [0xFFFF, 0, 0, 1024, us] bench
  commands 0 s && decide (s.stook 0xFFFFFFFF = some (stkOf s) ∧
    ((stkOf s).job, (stkOf s).launch, (stkOf s).index) = (0xFFFF, 0, 0) ∧ s.stooks = [stkOf s] ∧ (stkOf s).kind = .root ∧
    (stkOf s).pre = none ∧ goes 0x40 s = true ∧ s.regionOk (stkOf s) 1024 = true ∧
    (argOf (s.func 0).margs 4 = 0 ∨ 10 ≤ argOf (s.func 0).margs 4 ∧ argOf (s.func 0).margs 4 ≤ 10000))
theorem witness_ManagementCommands_preempt : preemptOk 0 = true ∧ preemptOk 10 = true ∧ preemptOk 10000 = true := by
  decide +kernel
/-- The root stook saved at 1,024, with 8 vector registers noted for its sheaf. -/
def savedOne : SavedStook :=
  ⟨0xFFFF, .root, 0, 0, 1, 1, 0, { placedHeader with srest := 0x100 }, List.replicate 8 0, 1024, 1, 7, [508], []⟩
def benchRestore : State := withArgs 0 [0xFFFF, 1024] { benchIdle with
  saved := [savedOne], l3 := [{ homeLine with line := 1024, bytes := leBytes 64 (8 * 2 ^ 64) }] }
theorem witness_ManagementCommands_restore : commands 0 benchRestore = true ∧
    benchRestore.saved.filter (fun x => x.job == 0xFFFF && x.region == 1024) = [savedOne] ∧ savedOne.kh.srest ≠ 0 ∧
    benchRestore.tagFree 2 = true ∧ benchRestore.sheaves = [] ∧ goes 0x41 benchRestore = true ∧ (benchRestore.func 0).margs.length = 8 ∧
    (∀ e ∈ benchRestore.ranges, e.peer = none) ∧ benchRestore.recordsReadable savedOne = true ∧
    leNat ((benchRestore.readVa 0xFFFF (savedOne.kh.slotVa 1024 0 0) 16 0).getD []) / 2 ^ 64 % 2 ^ 9 = 8 ∧
    ∃ cores homes, benchRestore.placeOn 7 15 savedOne.kh [8] = some (cores, homes) ∧ homes.length = 1 := by
  and_intros <;> first | decide +kernel | exact placed 1 (by decide) (by decide +kernel) (by decide +kernel)
theorem witness_ManagementCommands_others : commands 0 (withArgs 0 [0xFFFF, 1024] bench) = true ∧
    commands 0 (withArgs 0 [255] bench) = true ∧ goes 0x50 (withArgs 0 [255] bench) = true ∧
    (rngOf bench).move.target = none ∧ (∀ h ∈ (rngOf bench).place.shares, h.ch ≠ 254) ∧
    commands 0 (withArgs 0 [0xFFFF, 4032, 4095] bench) = true ∧
    isOk ((withArgs 0 [0xFFFF, 4032, 4095] bench).translate 0xFFFF 4032 64 1 0) (rngOf bench, 4032) = true ∧
    (rngOf bench).peer = none ∧ bench.lineChecks (rngOf bench) false 4032 64 4032 = none := by decide +kernel
/-- A range of the bench's job that no line is lost of. -/
def longRange (n : Nat) : RangeEnt := { placedRange with limit := 4097 + n, rights := 0x7F }
/-- The bench with its range longer by a length, and an attestation of the nonce at 64 with its report at 4,096. -/
def benchAttest (n : Nat) : State := { withArgs 0 [0xFFFF, 64, 4096] bench with ranges := [longRange n] }
theorem witness_ManagementCommands_attest (n : Nat) : commands 0 (benchAttest n) = true ∧
    goes 0x60 (benchAttest n) = true ∧ (benchAttest n).versions = [] ∧
    (∃ o, (benchAttest n).translate 0xFFFF 64 64 1 0 = .ok (longRange n, o)) ∧
    (∃ o, (benchAttest n).translate 0xFFFF 4096 n 1 0 = .ok (longRange n, o)) ∧ (longRange n).peer = none ∧
    ∀ write o len va, (benchAttest n).lineChecks (longRange n) write o len va = none := by
  have at' (va : Nat) (h : va ≤ 4096) : (benchAttest n).findRange 0xFFFF va = some (longRange n) := by
    have : va < 4097 + n := by omega
    simp [State.findRange, benchAttest, longRange, placedRange, this]
    omega
  refine ⟨?_, ?_, rfl, ⟨64, ?_⟩, ⟨4096, ?_⟩, rfl, fun write o len va => ?_⟩
  · have h : commands 0 (withArgs 0 [0xFFFF, 64, 4096] bench) = true := by decide +kernel
    have ⟨a, b, _, c⟩ := of_decide_eq_true h
    exact decide_eq_true ⟨a, b, by simp [benchAttest], c⟩
  · have hf : ∀ f ∈ (withArgs 0 [0xFFFF, 64, 4096] bench).funcs, f.busy = .idle := by decide +kernel
    simp only [goes, State.mustWait, Bool.not_eq_true', List.any_eq_false]
    intro x _
    have hr : ((benchAttest n).range x).map (·.move != .none) ≠ some true := by
      simp only [State.range, benchAttest, List.find?_cons, List.find?_nil]
      split <;> simp [longRange, placedRange]
    have ha : (benchAttest n).rangeAwaited 0 x (benchAttest n).nextId = false := by
      simp only [State.rangeAwaited, List.any_eq_false]
      intro f hm
      simp [hf f hm]
    have hd : (benchAttest n).rangeDrains x = false := by
      simp only [State.rangeDrains, List.any_eq_false]
      intro f hm
      simp [hf f hm]
    rw [ha, hd]
    generalize ((benchAttest n).range x).map (·.move != .none) = o at hr
    match o, hr with
    | none, _ | some false, _ => decide
    | some true, h => exact absurd rfl h
  · simp [State.translate, at' 64, longRange, placedRange, RangeEnt.grants]
    omega
  · simp [State.translate, at' 4096, longRange, placedRange, RangeEnt.grants]
  · have hk : (benchAttest n).keyLive (longRange n) = true := by
      show ((withArgs 0 [0xFFFF, 64, 4096] bench).keyMat 0).isSome = true
      decide +kernel
    have hb : (longRange n).firstBlocked write o len = none := by
      simp [RangeEnt.firstBlocked, RangeEnt.lost, show (longRange n).losses = [] from rfl]
    simp [State.lineChecks, hb, hk]

/-- The words of an entry image: 64 bytes at a base for the bench's job, on the channel of a table of zeroes. -/
def imageWords (base limit m6 : DWord) : List DWord := [base, limit, 0xFFFF000700000001, 0, 0, 0, m6]
/-- The entry it stands for. -/
def imageOf (s : State) (idx : Nat) (ws : List DWord) : RangeEnt := (s.image idx ws).getD placedRange
theorem witness_RangeCommands_create : ∀ s, s = withArgs 0 (imageWords 4096 64 0) bench → commands 0 s = true ∧
    s.image s.freeIndex ((s.func 0).margs.take 6) = some (imageOf s s.freeIndex ((s.func 0).margs.take 6)) ∧
    s.clashes (imageOf s s.freeIndex ((s.func 0).margs.take 6)) = false ∧ s.freeIndex < 1048576 ∧
    argOf (s.func 0).margs 2 / 2 ^ 48 % 2 ^ 16 = 0xFFFF ∧ argOf (s.func 0).margs 6 = 0 ∧
    (imageOf s s.freeIndex ((s.func 0).margs.take 6)).peer = none ∧ (s.keyMat 0).isSome = true := by
  rintro s rfl
  decide +kernel
/-- The bench with its range on the channel of a table of zeroes. -/
def benchChange : State := withRange (fun e => { e with place := { e.place with shares := [⟨0, 0, false, 0, 0⟩] } }) bench
/-- What a change of the range's limit asks. -/
def changeOk (limit : DWord) : Bool :=
  let s := withArgs 0 (imageWords 0 limit 0x80000000000FFFFF) benchChange
  let e := imageOf s 0xFFFFF ((s.func 0).margs.take 6)
  commands 0 s && decide (argOf (s.func 0).margs 6 = 2 ^ 63 + 0xFFFFF ∧ s.range 0xFFFFF = some (rngOf s) ∧
    (rngOf s).owner = 0xFFFF ∧ goes 0x10 s = true ∧ s.image 0xFFFFF ((s.func 0).margs.take 6) = some e ∧
    s.clashes e = false ∧ e.base = (rngOf s).base ∧ e.peer = (rngOf s).peer ∧ e.place.same (rngOf s).place = true ∧
    ∀ h ∈ (rngOf s).place.shares, h.sliding = false)
theorem witness_RangeCommands_change : changeOk 64 = true ∧ changeOk 8192 = true := by decide +kernel
theorem witness_RangeCommands_delete : ∀ mv ∈ [Move.none, .slide], ∀ s,
    s = withArgs 0 [0xFFFF, 0xFFFFF] (withRange (fun e => { e with move := mv }) bench) → commands 0 s = true ∧
    argOf (s.func 0).margs 1 = 0xFFFFF ∧ s.range 0xFFFFF = some (rngOf s) ∧ (rngOf s).owner = 0xFFFF ∧ (rngOf s).move = mv ∧
    (mv = .none → goes 0x11 s = true) := by
  rintro mv hm s rfl
  revert mv
  decide +kernel
/-- The bench with a table at 64 of a device physical address: a share's new base 256, then a place on channel 254. -/
def benchMove (m2 : DWord) (par : Bool) : State :=
  let s := withArgs 0 [0xFFFF, 0xFFFFF, m2, 64] (withRange (fun e => { e with
    par := par, lostCh := if par then [253] else [], place := { e.place with shares := e.place.shares ++
      if par then [⟨254, 0, false, 0, 0⟩, ⟨253, 0, false, 0, 0⟩] else [] } }) bench)
  { s with devMem := Memory.setN (Memory.setN [] 64 (leBytes 8 (if par then 255 * 2 ^ 48 else 256)))
             96 (leBytes 8 (if par then 254 * 2 ^ 48 else 0)) }
theorem witness_RangeCommands_slide : ∀ s, s = benchMove 0x4000000000000000 false → commands 0 s = true ∧
    argOf (s.func 0).margs 2 = 2 ^ 62 ∧ argOf (s.func 0).margs 3 = 64 ∧ goes 0x12 s = true ∧ (rngOf s).peer = none ∧
    (rngOf s).place.shares.length = 1 ∧ leNat (Memory.getN s.devMem 64 8) = 256 ∧
    ((rngOf s).place.shares.map (·.pbase)).all (fun b => decide (256 < b)) = true := by
  rintro s rfl
  decide +kernel
theorem witness_RangeCommands_replace : ∀ s, s = benchMove 0x8000000000000000 false → commands 0 s = true ∧
    argOf (s.func 0).margs 2 / 2 ^ 62 = 2 ∧ argOf (s.func 0).margs 2 % 2 ^ 32 = 0 ∧ argOf (s.func 0).margs 2 / 2 ^ 45 % 2 ^ 17 = 0 ∧
    goes 0x12 s = true := by
  rintro s rfl
  decide +kernel
theorem witness_RangeCommands_targets : ∀ p ∈ [(false, 0), (true, 1)], ∀ s,
    s = { benchMove 0 p.1 with devMem := if p.1 then (benchMove 0 true).devMem else [] } →
    (s.readPlacement 0 0 (p.2 + 1) 64 4096 p.1).isSome = true := by
  rintro p hp s rfl
  revert p
  decide +kernel
theorem witness_RangeCommands_rebuild : ∀ s, s = benchMove 0xC000000100000000 true → commands 0 s = true ∧
    argOf (s.func 0).margs 2 / 2 ^ 62 = 3 ∧ argOf (s.func 0).margs 2 / 2 ^ 32 % 256 + 1 = 2 ∧ (rngOf s).par = true ∧
    253 ∈ (rngOf s).lostCh ∧ (∃ h ∈ (rngOf s).place.shares, h.ch = 253) ∧
    (s.readPlacement 0 0 2 64 4096 true).map (fun p => p.shares.map (·.ch)) =
      some (((rngOf s).place.shares.map (·.ch)).filter (· != 253)) := by
  rintro s rfl
  decide +kernel

/-! ## Witnesses: pre-emption, reset, encoding, steps -/

/-- The bench with a request on its stook: lanes 0 to 30 parked at the last safe point, lane 31 not; no slot taken. -/
def benchPre (stage : PreStage) (lane31 : SaveStage) : State :=
  let s := withSheaf (fun h => { h with threads := h.threads.mapIdx fun l x =>
    { x with stage := if l = 31 then lane31 else .parked, spidx := 0, inBundle := l == 31, pc := 8 } }) bench
  let s := withStook (fun k => { k with pre := some ⟨1024, 0, 0, stage⟩, kh := { k.kh with sptab := 0x200, nsp := 1 } }) s
  let s := s.modFunc 0 fun f => { f with busy := .preempt 0xFFFFFFFF, status := 1 }
  { s.setSlot 508 0 none with l3 := [{ homeLine with line := 512, bytes := leBytes 64 0x300 }] }
theorem witness_PreemptionAndReset_lapse : ∀ s, s = benchPre .parking .none → s.parkAll = s ∧
    s.stook 0xFFFFFFFF = some (stkOf s) ∧ (stkOf s).pre = some ⟨1024, 0, 0, .parking⟩ ∧ 0 ≤ s.now ∧
    (s.func 0).busy = .preempt 0xFFFFFFFF ∧ (s.funcs.map (·.id)).Nodup := by
  rintro s rfl
  decide +kernel
theorem witness_PreemptionAndReset_drain : ∀ s, s = benchPre .draining .parked → s.parkAll = s ∧
    s.stook 0xFFFFFFFF = some (stkOf s) ∧ (stkOf s).pre = some ⟨1024, 0, 0, .draining⟩ ∧ s.drained 0xFFFFFFFF = true ∧
    (∀ h ∈ s.sheaves, ∀ x ∈ h.threads, x.exited = false ∧ (s.safePoint 0xFFFF (stkOf s).kh x.spidx).1 ≠ 0) ∧
    (∀ e ∈ s.ranges, e.peer = none) ∧ s.peerBuf = [] ∧ s.sheaves = [shfOf s] ∧ (shfOf s).threads ≠ [] ∧ s.sheaf 0xFFFFFFFF (shfOf s).index = some (shfOf s) := by
  rintro s rfl
  decide +kernel
theorem witness_PreemptionAndReset_retire : 255 < 256 ∧ (bench.ranges.map (·.idx)).Nodup ∧
    (rngOf bench).move.target = none ∧ ∀ h ∈ (rngOf bench).place.shares, h.ch ≠ 254 := by decide +kernel
/-- The bench's job started, its period of 10 ms over. -/
def benchDog : State := { withJob (fun j => { j with started := true, aperture := 0x8000, root := .running }) bench with now := 40000000 }
theorem witness_PreemptionAndReset_watchdog : benchDog.job 0xFFFF = some (jobOf benchDog) ∧ (jobOf benchDog).started = true ∧
    (jobOf benchDog).ended = false ∧ benchDog.watchdogRests (jobOf benchDog) = false ∧
    (jobOf benchDog).lastRetire + (jobOf benchDog).period ≤ benchDog.now ∧ (benchDog.jobs.map (·.id)).Nodup ∧
    ∀ e ∈ benchDog.ranges, e.peer = none := by decide +kernel
theorem witness_PreemptionAndReset_alarm : ∀ b : Bool, ({ bench with arming := some b } : State).arming = some b ∧ 3 ≤ 3 ∧
    7 < 8 ∧ 0 < 1 ∧ 1 ≤ 2 ∧ 1 * (bench.clock 7).den < (bench.clock 7).num * 2 := by decide +kernel

/-- A well-formed instruction with every field at its largest value. -/
def widest : Instr := .ldff ⟨15, 5, 1, 7⟩ ⟨.v 254, .v 254, 0xFFFF, 0xD8⟩
theorem witness_DecodeEncodeAgree : WellFormed widest = true ∧ (encode widest).isSome = true ∧
    WellFormed (.reservedOpcode 0xFFFFFFFFFFFFFFFF) = true ∧ encode (.reservedOpcode 0xFFFFFFFFFFFFFFFF) = some 0xFFFFFFFFFFFFFFFF := by
  decide +kernel
/-- A machine about to issue the word of `NOP`, by its agenda or as the first slot that can issue. -/
def benchStep (agenda : Bool) : State :=
  { State.reset.placeWord 0x001EFFFFFFFF8000 with agenda := if agenda then [.issue 508 0] else [] }
theorem witness_StepRunsDecoded : ∀ a : Bool, ∀ s, s = benchStep a →
    (s.agenda = .issue 508 0 :: [] ∨ s.agenda = [] ∧ s.issuable = some (508, 0)) ∧
    s.due = none ∧ s.dueFirst 508 0 = none ∧ placedRange.peer = none ∧
    s.slot 508 0 = some (bunOf { s with cur := (508, 0) }) ∧ (bunOf { s with cur := (508, 0) }).deferred = false ∧
    (bunOf { s with cur := (508, 0) }).hold = false ∧ (bunOf { s with cur := (508, 0) }).pos < (bunOf { s with cur := (508, 0) }).count ∧
    isOk (s.translateOut 0xFFFF 8 8 8 rightX) (placedRange, 8) = true ∧ s.lineChecks placedRange false 8 8 8 = none ∧
    s.code = [] ∧ (match decodeBytes (s.homeReadN placedRange 8 8) with
      | .ok r => decide (r = (.nop c7 ⟨.z, .z, .z, 0⟩, [])) | .error _ => false) = true := by
  rintro a s rfl
  revert a
  decide +kernel
theorem witness_CanonicalKept : State.reset.Canonical ∧ bench.Canonical :=
  ⟨⟨by decide +kernel, by decide +kernel, by decide +kernel, by decide +kernel⟩,
    ⟨by decide +kernel, by decide +kernel, by decide +kernel, by decide +kernel⟩⟩
theorem witness_OrderedKept : State.reset.Ordered ∧ ({ bench with nextJob := 0x10000 } : State).Ordered :=
  ⟨⟨by decide +kernel, by decide +kernel, by decide +kernel, by decide +kernel, idle_numbered (by unfold quietState; decide +kernel)⟩,
    ⟨by decide +kernel, by decide +kernel, by decide +kernel, by decide +kernel, idle_numbered (by unfold quietState; decide +kernel)⟩⟩

/-! ## Single steps -/

/-- The state an outcome gives. -/
def after (o : Out) : State := match o with | .next t => t | _ => State.reset
/-- The step of a reset machine before this word (log entry 11), from a changed state. -/
def run (f : State → State) (w : Nat) : State := after (step (f (State.reset.withFetchWord 64 w)))

/-- R294: a word placed after reset is what the step runs; `EXIT` ends its lanes, and with no lane left the stook is complete
(R35). -/
theorem test_step_exit : (run id 0x081EFFFFFFFF8000).stooks = [] := by decide +kernel
/-- R263, R225: an unassigned opcode raises 0x01 at it; with no handler the watchdog fires (R228). -/
theorem test_step_reserved : ((run id 0xB200000000000000).job 0xFFFF).bind (·.fired) = some ⟨0x01, 8⟩ := by decide +kernel
/-- Register `v0` of lane 31 after an instruction on a bench. -/
def v0 (s : State) (i : Instr) : Option Word := ((after (exec i s)).sheaf 0xFFFFFFFF 0).map fun h => h.raw 31 0
/-- The bench with two operands in `v2` and `v4`. -/
def benchAB (a b : Word) : State := withThreads (fun x => { x with v := [0, 0, a, 0, b, 0, 0, 0] }) bench
/-- The tables of R308. -/
theorem test_iadd : v0 (benchAB 0x7FFFFFFF 1) (.iadd c7 ⟨.v 0, .v 2, .v 4, 0⟩) = some 0x80000000 ∧
    v0 (benchAB 0x7FFFFFFF 1) (.iadd c7 ⟨.v 0, .v 2, .v 4, 0x2000⟩) = some 0x7FFFFFFF := by decide +kernel
theorem test_isub_iabs : v0 (benchAB 0x80000000 1) (.isub c7 ⟨.v 0, .v 2, .v 4, 0x2000⟩) = some 0x80000000 ∧
    v0 (benchAB 0x80000000 0) (.iabs c7 ⟨.v 0, .v 2, .z, 0x2000⟩) = some 0x7FFFFFFF := by decide +kernel
theorem test_imul : v0 (benchAB 0xFFFFFFFF 2) (.imulhi c7 ⟨.v 0, .v 2, .v 4, 0⟩) = some 0xFFFFFFFF ∧
    v0 (benchAB 0xFFFFFFFF 2) (.imulhiU c7 ⟨.v 0, .v 2, .v 4, 0⟩) = some 1 := by decide +kernel
theorem test_imin : v0 (benchAB 0xFFFFFFFF 1) (.imin c7 ⟨.v 0, .v 2, .v 4, 0⟩) = some 0xFFFFFFFF ∧
    v0 (benchAB 0xFFFFFFFF 1) (.iminU c7 ⟨.v 0, .v 2, .v 4, 0⟩) = some 1 := by decide +kernel
/-- The tables of R347. -/
theorem test_shl : v0 (benchAB 0xFFFFFFF0 3) (.shl c7 ⟨.v 0, .v 2, .v 4, 0⟩) = some 0xFFFFFF80 ∧
    v0 (benchAB 1 32) (.shl c7 ⟨.v 0, .v 2, .v 4, 0⟩) = some 0 := by decide +kernel
theorem test_shr_sar : v0 (benchAB 0x80000000 31) (.shr c7 ⟨.v 0, .v 2, .v 4, 0⟩) = some 1 ∧
    v0 (benchAB 0x80000000 40) (.sar c7 ⟨.v 0, .v 2, .v 4, 0⟩) = some 0xFFFFFFFF := by decide +kernel
/-- The tables of R305 and R297. -/
theorem test_hadd2 : v0 (benchAB 0x40007BFF 0x3C003C00) (.hadd2 c7 ⟨.v 0, .v 2, .v 4, 0⟩) = some 0x42007BFF ∧
    v0 (benchAB 0x00007BFF 0x00004C00) (.hadd2 c7 ⟨.v 0, .v 2, .v 4, 1⟩) = some 0x00007BFF := by decide +kernel
theorem test_fcvt : v0 (benchAB 0x43960000 0) (.fcvtFloatFromFloat c7 ⟨.v 0, .v 2, .z, 0x4000⟩) = some 0x79 ∧
    v0 (benchAB 0xFFFFFFFF 0) (.fcvtFloatFromInteger c7 ⟨.v 0, .v 2, .z, 0x201⟩) = some 0x4F7FFFFF := by decide +kernel
theorem test_fcvt_integer : v0 (benchAB 0xC3028000 0) (.fcvtIntegerFromFloat c7 ⟨.v 0, .v 2, .z, 0x2000⟩) = some 0x80 := by
  decide +kernel
/-- The flags of lane 31 after an instruction: NV, DZ, OF, UF, NX from bit 4 down (R151). -/
def flags (s : State) (i : Instr) : Option (BitVec 5) := ((after (exec i s)).thread 0xFFFFFFFF 0 31).map (·.fflags)
/-- The flags that R305 and R297 give: OF and NX of the sum that overflows, NV and NX of the conversion that is clamped. -/
theorem test_flags : flags (benchAB 0x00007BFF 0x00004C00) (.hadd2 c7 ⟨.v 0, .v 2, .v 4, 0⟩) = some 0b00101 ∧
    flags (benchAB 0xC3028000 0) (.fcvtIntegerFromFloat c7 ⟨.v 0, .v 2, .z, 0x2000⟩) = some 0b10001 := by decide +kernel
/-- The example of R339: lanes 0 to 7 but 3 of tiles of 8, 10 l in `v1` of lane l. -/
def benchTile : State :=
  let s := withSheaf (fun h => { h with part := 8, threads := h.threads.mapIdx fun l x =>
    { x with v := [0, BitVec.ofNat 32 (10 * l), 0, 0, 0, 0, 0, 0], inBundle := decide (l < 8 ∧ l ≠ 3) } }) bench
  s.setSlot 508 0 (some { bunOf bench with parts := [⟨0, 0xF7⟩] })
/-- What is on its way to registers after an instruction on it. -/
def sent (i : Instr) : List Word := ((after (exec i benchTile)).results.flatMap (·.writes)).map (·.2.2)
theorem test_shfl : sent (.shflUp c0 ⟨.v 2, .v 1, .z, 0x4002⟩) = [0, 10, 0, 20, 50, 40, 50] ∧
    sent (.shflXor c0 ⟨.v 2, .v 1, .z, 0x4001⟩) = [10, 0, 20, 50, 40, 70, 60] := by decide +kernel
theorem test_redux : sent (.reduxAdd c0 ⟨.v 2, .v 1, .z, 0⟩) = List.replicate 7 250 ∧
    sent (.reduxMax c0 ⟨.v 2, .v 1, .z, 0⟩) = List.replicate 7 70 := by decide +kernel
/-- R225: a register beyond the allotment takes the thread to its handler at 0x100, from 0x8, with cause 0x05 and the
register as detail. -/
theorem test_trap : ((after (exec beyond benchH)).thread 0xFFFFFFFF 0 0).map (fun x => (x.hact, x.code, x.fault, x.epc, x.pc)) =
    some (true, 5, 8, 8, 0x100) := by decide +kernel
/-- R242, R247: a device reset leaves nothing accepted, and key 0 fresh. -/
theorem test_reset : (after (exec (.deviceReset true false) bench)).featAcc = 0 ∧
    (after (exec (.deviceReset true false) bench)).keys = [⟨0, some (.fresh 1)⟩] ∧
    (after (exec (.deviceReset true false) bench)).mem = bench.mem := by decide +kernel
/-- Memory keeps its form: writing zero removes the entry, and reads find what was written. -/
theorem test_memory : Memory.setN (Memory.setN [] 5 [1, 2]) 5 [0] = [(6, 2)] ∧ Memory.getN (Memory.setN [] 5 [1, 2]) 4 4 = [0, 1, 2, 0] := by
  decide +kernel

end Sys2Proof.Tests
end

section
/-! PROOFS. The act of an issue slot: a bundle's next word is fetched from memory, kept in the instruction cache, decoded,
and runs (R15, R16, R54, R56, R60, R272). -/

namespace Sys2Proof.Machine
open Sys2Proof

/-! ## The word that a core fetches -/

/-- An instruction cache that holds no word of the job at the VA gives none (R272). -/
theorem cachedWord_eq_none {s : State} {core job : Nat} {va : DWord}
    (h : ∀ x ∈ s.code, ¬ (x.core = core ∧ x.job = job ∧ x.va = va.toNat)) : s.cachedWord core job va = none := by
  rw [State.cachedWord, Option.map_eq_none_iff, List.find?_eq_none]
  intro x hx hhit
  simp only [Bool.and_eq_true, beq_iff_eq] at hhit
  obtain ⟨⟨hplace, hva⟩, -⟩ := hhit
  exact h x hx ⟨hplace.1, hplace.2, hva⟩

/-- A word of a range of this package that the cache does not hold is what memory holds (R60, R272). -/
theorem codeWord_eq_home {s : State} {core job : Nat} {va : DWord} {e : RangeEnt} {o : Nat}
    (htr : s.translateOut job va.toNat 8 8 rightX = .ok (e, o)) (hpeer : e.peer = none)
    (hline : s.lineChecks e false o 8 va.toNat = none) (hcache : s.cachedWord core job va = none) :
    s.codeWord core job va = .ok (BitVec.ofNat 64 (leNat (s.homeReadN e o 8))) := by
  simp only [State.codeWord, htr, hline, hpeer, hcache]

/-- A word of a range of this package needs no fetch from a peer (R75). -/
theorem fetchPeer_eq_of_local {s : State} {core slot job : Nat} {va : DWord} {e : RangeEnt} {o : Nat}
    (htr : s.translateOut job va.toNat 8 8 rightX = .ok (e, o)) (hpeer : e.peer = none) :
    s.fetchPeer core slot job [va] = (true, s) := by
  have hnone : s.codeLines core job [va] = [] := by
    unfold State.codeLines
    cases hc : (s.cachedWord core job va).isNone <;> simp [hc, htr, hpeer]
  simp [State.fetchPeer, hnone]

/-- Bytes that decode with nothing left over are the word of their instruction. -/
theorem decode_of_decodeBytes {bs : List Byte} {i : Instr} (h : decodeBytes bs = .ok (i, [])) :
    decode (BitVec.ofNat 64 (leNat bs)) = i := by
  unfold decodeBytes at h
  split at h
  · cases h
  · simp only [Except.ok.injEq, Prod.mk.injEq, List.drop_eq_nil_iff] at h
    obtain ⟨hword, hlen⟩ := h
    rwa [List.take_of_length_le hlen] at hword

/-! ## The act of an issue slot -/

/-- The state in which the next word of a slot's bundle is fetched: at the bundle's cycle, in which the slot has issued
(R16, R54). -/
def State.issuing (s : State) (core slot : Nat) (b : Bundle) : State :=
  let u : State := { s.awaitIssue core slot b with cur := (core, slot) }
  u.modCore core (·.acted slot (u.cycles (core / 64)))

/-- A bundle that can go on reaches its next word, where the word needs no fetch from a peer and can be read (R56, R60). -/
theorem fetchIssue_eq_of_codeWord {s : State} {core slot : Nat} {b : Bundle} {w : DWord}
    (hslot : s.slot core slot = some b) (hdef : b.deferred = false) (hhold : b.hold = false) (hpos : b.pos < b.count)
    (hfirst : slot = 1 → s.slot0First core b = false)
    (hpeer : s.fetchPeer core slot (((s.stook b.tag).map (·.job)).getD 0) [b.next] = (true, s))
    (hword : (s.issuing core slot b).codeWord core (((s.stook b.tag).map (·.job)).getD 0) b.next = .ok w) :
    fetchIssue core slot s = (some (decode w),
      (s.issuing core slot b).keepCode core (((s.stook b.tag).map (·.job)).getD 0) b.next w) := by
  have hgoes : (b.deferred || b.hold || decide (b.count ≤ b.pos) || (slot == 1 && s.slot0First core b)) = false := by
    simpa [hdef, hhold] using ⟨hpos, hfirst⟩
  unfold State.issuing at hword ⊢
  simp only [fetchIssue, hslot, hgoes, hpeer, hword, Bool.not_true, Bool.false_eq_true, if_false]

/-- Where nothing falls due first, the slot that heads the agenda, or that can issue on an empty one, acts (R6; log
entry 8). -/
theorem step_eq_issueStep {s : State} {core slot : Nat} {rest : List Agendum}
    (hnext : s.agenda = .issue core slot :: rest ∨ s.agenda = [] ∧ rest = [] ∧ s.issuable = some (core, slot))
    (hdue : s.due = none) (hfirst : s.dueFirst core slot = none) :
    step s = followed (issueStep core slot { s with agenda := rest }) := by
  rw [step, act, hdue]
  congr 1
  rcases hnext with hagenda | ⟨hagenda, rfl, hissue⟩
  · simp only [nextAct, hagenda, Agendum.waits, hfirst, agendumStep]
  · have hsame : ({ s with agenda := [] } : State) = s := by rw [← hagenda]
    simp only [nextAct, hagenda, hissue, hfirst, hsame]

/-- A slot whose next word is fetched runs the decoded word. -/
theorem issueStep_eq_exec {s s' : State} {core slot : Nat} {i : Instr} (h : fetchIssue core slot s = (some i, s')) :
    issueStep core slot s = exec i s' := by
  rw [issueStep, h]

/-- Settles O57: the act is the slot's (`step_eq_issueStep`), the word it fetches is the one in memory
(`codeWord_eq_home`), and that word decodes to the instruction (`decode_of_decodeBytes`). -/
theorem stepRunsDecoded : Obligations.StepRunsDecoded := by
  intro s core slot b rest hnext hdue hfirst hslot hdef hhold hpos hslot0 u t job e o i htr hpeer hline hcode hdec
  have hword : t.codeWord core job b.next = .ok (BitVec.ofNat 64 (leNat (t.homeReadN e o 8))) :=
    codeWord_eq_home htr hpeer hline (cachedWord_eq_none hcode)
  have hfetch : fetchIssue core slot { s with agenda := rest } =
      (some i, t.keepCode core job b.here (BitVec.ofNat 64 (leNat (t.homeReadN e o 8)))) := by
    have hreach := fetchIssue_eq_of_codeWord (s := { s with agenda := rest }) hslot hdef hhold hpos hslot0
      (fetchPeer_eq_of_local htr hpeer) hword
    rwa [decode_of_decodeBytes hdec] at hreach
  rw [step_eq_issueStep hnext hdue hfirst, issueStep_eq_exec hfetch]

end Sys2Proof.Machine
end
